-- ==== Sys2Proof/Word.lean ====
section
/-! DEFINITION. The word types of the command port and of the counters (spec/00_scope.md R10). -/

namespace Sys2Proof

/-- A 32-bit word: header and operand words, bus data and addresses (R10 `DATA_BITS`, `ADDR_BITS`). -/
abbrev Word := BitVec 32

/-- One byte of backing storage (10_state.md R57). -/
abbrev Byte := BitVec 8

/-- A 64-bit cycle counter, timestamp or sequence number (R10 `CYCLE_BITS`, `SEQ_BITS`). -/
abbrev Cycle := BitVec 64

/-- An 8-bit event kind (30_encoding.md R118). -/
abbrev Kind := BitVec 8

/-- One value for each of the two CPUs (R11). -/
structure PerCpu (α : Type) where
  fast : α
  slow : α
deriving DecidableEq, Repr

/-- One value for each of the three access widths (20_memory.md R79). -/
structure PerWidth (α : Type) where
  byte : α
  half : α
  word : α
deriving DecidableEq, Repr

end Sys2Proof
end

