-- ==== Sys2Proof/Syntax.lean ====
section
/-! DEFINITION. The commands of the port as syntax: one constructor for each row of spec/opcode_table.json
(30_encoding.md R123), the statuses (R117), and the packet a command arrives in (R110). -/

namespace Sys2Proof

/-- The two CPUs: FAST (id 0) and SLOW (id 1) (00_scope.md R11). -/
inductive Cpu where
  | fast
  | slow
deriving DecidableEq, Repr

/-- The other CPU. -/
def Cpu.other : Cpu → Cpu
  | .fast => .slow
  | .slow => .fast

/-- The three access widths (20_memory.md R79); the width code 0b11 is reserved and no value here. -/
inductive Width where
  | byte
  | half
  | word
deriving DecidableEq, Repr

/-- The three access kinds of the bus (42_bus.md). -/
inductive AccessKind where
  | read
  | write
  | execute
deriving DecidableEq, Repr

/-- The 19 commands of 30_encoding.md R123 with the operands each row gives. -/
inductive Instr where
  | schedSchedule (kind : Kind) (fire : Cycle)
  | schedAdvance (target : Cycle)
  | schedPeek
  | schedNow
  | busRead (cpu : Cpu) (width : Width) (priv : Bool) (addr : Word)
  | busWrite (cpu : Cpu) (width : Width) (priv : Bool) (addr data : Word)
  | busExec (cpu : Cpu) (width : Width) (priv : Bool) (addr : Word)
  | icRequest (cpu : Cpu) (src : BitVec 5)
  | icAck (cpu : Cpu) (src : BitVec 5)
  | icSetIe (cpu : Cpu) (mask : Word)
  | icSetIme (cpu : Cpu) (val : Bool)
  | icAsserted (cpu : Cpu)
  | icReadIe (cpu : Cpu)
  | icReadIf (cpu : Cpu)
  | icReadIme (cpu : Cpu)
  | clkStep
  | clkRun (target : Cycle)
  | clkReadLead
  | clkReadTime (cpu : Cpu)
deriving DecidableEq, Repr

/-- One command as it stands on the port: its header and the two operand words its issuer may supply,
of which the block reads the first k (R110, R113). -/
structure Packet where
  header : Word
  op1 : Word
  op2 : Word
deriving DecidableEq, Repr

/-- The quirk statuses of R117: normal, reported outcomes of a bus access (60_exceptions.md R266). -/
inductive Quirk where
  | openBus
  | unmappedWrite
  | readonlyWrite
  | notReadable
  | execViolation
  | privViolation
deriving DecidableEq, Repr

/-- The fatal codes of R117 and 60_exceptions.md R261. -/
inductive FatalCode where
  | schedulePast
  | queueFull
  | zeroCost
  | reservedEncoding
  | illegalContext
  | cycleOverflow
  | regionOverlap
  | regionMalformed
  | cartTooShort
deriving DecidableEq, Repr

/-- A response's status (R116, R117, 60_exceptions.md R260). -/
inductive Status where
  | ok
  | empty
  | quirk (q : Quirk)
  | fatal (c : FatalCode)
deriving DecidableEq, Repr

/-- Who issued a command: the context it runs in (R125, 10_state.md R62). -/
inductive Ctx where
  | host
  | cpu (x : Cpu)
  | handler
deriving DecidableEq, Repr

end Sys2Proof
end

