-- ==== Sys2Proof/Config.lean ====
section
/-! DEFINITION. The configuration of the machine: every parameter of spec/00_scope.md R10 that the spec leaves OPEN
or gives a default, as plain data, and the collaborators' behaviour as plain data (R7 to R9). State holds a Config, so
that a statement about every state is a statement about every value of every parameter. -/

namespace Sys2Proof

/-! ### Regions (20_memory.md R70) -/

/-- The two cost columns of an access: nonsequential and sequential (R70, 42_bus.md R175). -/
structure SeqCost where
  nonseq : Word
  seq : Word
deriving DecidableEq, Repr

/-- `cost[cpu][width][seq]` (42_bus.md R176). -/
abbrev CostTable := PerCpu (PerWidth SeqCost)

/-- A region descriptor (R70); its backing bytes stand in State's `backing`. -/
structure Region where
  base : Nat
  size : Nat
  period : Nat
  limit : Nat
  prio : BitVec 8
  readable : Bool
  writable : Bool
  executable : Bool
  privOnly : Bool
  cost : CostTable
deriving DecidableEq, Repr

/-- One entry of a cost table as configured; `seq` true is column S (R70). -/
structure CostEntry where
  cpu : Cpu
  width : Width
  seq : Bool
  cost : Word
deriving DecidableEq, Repr

/-- A region as configured: a table of entries that construction checks to be complete (R73). -/
structure RegionConfig where
  base : Nat
  size : Nat
  period : Nat
  limit : Nat
  prio : BitVec 8
  readable : Bool
  writable : Bool
  executable : Bool
  privOnly : Bool
  costs : List CostEntry
deriving DecidableEq, Repr

/-! ### Collaborators (00_scope.md R7 to R9) -/

/-- What a collaborator hears: the handler's call with kind and fire cycle (R8), or the response to a command of its
own (30_encoding.md R116). -/
inductive Msg where
  | call (kind : Kind) (fire : Cycle)
  | response (words : List Word)
deriving DecidableEq, Repr

/-- Whose part of `collab_state` (00_scope.md R9): a CPU's registers and program counter, or the device registers. -/
inductive Part where
  | cpu (x : Cpu)
  | devices
deriving DecidableEq, Repr

/-- What a collaborator does in one activation (one CPU step, one dispatch): a finite tree of moves that ends by
returning a `ρ` (log 5). A move issues a command, or is the pseudo-command `sched.schedule_in` (30_encoding.md R128), or
depends on the last answer: on whether it was this status with these data words; or on the kind or the fire cycle of the
call the handler was given (R8); or on the private state of any collaborator, or whether a CPU is halted (R9; log 28). -/
inductive Script (ρ : Type) where
  | done (result : ρ)
  | issue (packet : Packet) (next : Script ρ)
  | scheduleIn (kind : Kind) (delay : Cycle) (next : Script ρ)
  | ifAnswered (status : Word) (data : List Word) (yes no : Script ρ)
  | ifKind (kind : Kind) (yes no : Script ρ)
  | ifFire (fire : Cycle) (yes no : Script ρ)
  | ifPriv (part : Part) (priv : Nat) (yes no : Script ρ)
  | ifHalted (x : Cpu) (yes no : Script ρ)
deriving DecidableEq, Repr

/-- How a CPU step ends: its cost in the CPU's own clock units (R7), whether the CPU is halted from then on (10_state.md
R46), its private state from then on, and, where it writes them, the device registers and the other CPU's private state
(R3, R7: a CPU is handed all of HardwareState; log 28). -/
structure CpuReturn where
  cost : Word
  halt : Bool
  next : Nat
  devices : Option Nat
  other : Option Nat
deriving DecidableEq, Repr

/-- A CPU collaborator: its run/halt mode (10_state.md R46), its private state (registers, program counter), what it does
in a step in each of its private states (in one the table has no row for, it never returns), and the answers it was sent.
Any `f : Nat → Script CpuReturn` on n private states is the table `(List.range n).map f` (log 5). -/
structure CpuCollab where
  halted : Bool
  priv : Nat
  table : List (Script CpuReturn)
  heard : List Msg
deriving DecidableEq, Repr

/-- The handler: its private state (device registers), what it does in a call in each of its private states, ending with
its private state from then on (in one the table has no row for, it never returns), and the calls and answers it was sent.
It changes no other collaborator's part (92_eei_decisions.md D16). -/
structure HandlerCollab where
  priv : Nat
  table : List (Script Nat)
  heard : List Msg
deriving DecidableEq, Repr

/-- `collab_state` (00_scope.md R9): read and written by the collaborators only. The block calls them (`runCpu`,
`dispatch`) and sends them calls and answers (`tell`); it decides nothing by what stands in here.
Each collaborator may read every private state, and a CPU's step may write every one (log 28). -/
structure Collab where
  cpu : PerCpu CpuCollab
  handler : HandlerCollab
deriving DecidableEq, Repr

/-! ### The parameters of R10 -/

/-- One point of the open-bus function (42_bus.md R177). -/
structure OpenBusEntry where
  cpu : Cpu
  width : Width
  addr : Word
  value : Word
deriving DecidableEq, Repr

/-- A run of initial backing bytes of one region (10_state.md R57). -/
structure InitialSpan where
  region : Nat
  offset : Nat
  bytes : List Byte
deriving DecidableEq, Repr

/-- An event scheduled at construction (70_reset_and_hazards.md R293). -/
structure InitialEvent where
  kind : Kind
  fire : Cycle
deriving DecidableEq, Repr

/-- The construction inputs and parameters of R10. `openBus` with `openBusFill` is the function OPEN_BUS, and
`initialSpans` with `initialFill` is INITIAL_BACKING: a listed point or byte, and one value for all others (logs 8, 9).
Costs are 32-bit words (log 11). -/
structure Config where
  queueCapacity : Nat := 64
  regions : List RegionConfig
  unmappedCost : PerCpu (PerWidth Word)
  openBus : List OpenBusEntry := []
  openBusFill : Word
  wmRegion : Nat
  wmSize : Nat := 0x00400000
  bootImage : PerCpu (List Byte)
  bootRegion : PerCpu Nat
  cartImage : List Byte
  haltStepCost : Word := 1
  wakeRequiresIme : Bool
  initialSpans : List InitialSpan := []
  initialFill : Byte
  initialEvents : List InitialEvent := []
  collab : Collab
deriving DecidableEq, Repr

/-! ### The test configuration TC (95_test_vectors.md section 2) -/

namespace Config

/-- A cost table with one row for all three widths: FAST N/S, SLOW N/S. -/
def uniformCosts (fn fs sn ss : Word) : List CostEntry :=
  [⟨.fast, .byte, false, fn⟩, ⟨.fast, .byte, true, fs⟩, ⟨.fast, .half, false, fn⟩, ⟨.fast, .half, true, fs⟩,
   ⟨.fast, .word, false, fn⟩, ⟨.fast, .word, true, fs⟩, ⟨.slow, .byte, false, sn⟩, ⟨.slow, .byte, true, ss⟩,
   ⟨.slow, .half, false, sn⟩, ⟨.slow, .half, true, ss⟩, ⟨.slow, .word, false, sn⟩, ⟨.slow, .word, true, ss⟩]

def tcRegions : List RegionConfig :=
  [ { base := 0x02000000, size := 0x400000, period := 0x400000, limit := 0x03000000, prio := 0,
      readable := true, writable := true, executable := true, privOnly := false, costs := uniformCosts 3 1 2 1 },
    { base := 0xFFFF0000, size := 0x8000, period := 0x8000, limit := 0xFFFF8000, prio := 0,
      readable := true, writable := false, executable := true, privOnly := false, costs := uniformCosts 4 4 4 4 },
    { base := 0x04000000, size := 0x1000, period := 0x1000, limit := 0x04001000, prio := 0,
      readable := true, writable := true, executable := false, privOnly := true, costs := uniformCosts 1 1 1 1 },
    { base := 0x02C00000, size := 0x100, period := 0x100, limit := 0x02C00100, prio := 1,
      readable := true, writable := true, executable := false, privOnly := false, costs := uniformCosts 1 1 1 1 },
    { base := 0x05000000, size := 0x10, period := 0x10, limit := 0x05000010, prio := 0,
      readable := false, writable := true, executable := false, privOnly := false, costs := uniformCosts 1 1 1 1 },
    { base := 0x00000000, size := 0x4000, period := 0x4000, limit := 0x00004000, prio := 0,
      readable := true, writable := false, executable := true, privOnly := false, costs := uniformCosts 1 1 1 1 } ]

/-- A CPU whose every step costs `cost` and issues no command (95_test_vectors.md section 7). -/
def steadyCpu (cost : Word) : CpuCollab := ⟨false, 0, [.done ⟨cost, false, 0, none, none⟩], []⟩

/-- DESIGN CHOICE (log 6, unsafe for a claim about State.reset): TC names no collaborators; both CPUs' steps cost 1 and
issue nothing (the collaborators of 44_clock.md R233's example), and the handler does nothing. -/
def idleCollab : Collab := ⟨⟨steadyCpu 1, steadyCpu 1⟩, ⟨0, [.done 0], []⟩⟩

/-- The numbers 0 to 15. -/
def sixteen : List Nat := [0, 1, 2, 3, 4, 5, 6, 7, 8, 9, 10, 11, 12, 13, 14, 15]

/-- The bytes 0x00 to 0xFF in order. -/
def byteRamp : List Byte := sixteen.flatMap (fun i => sixteen.map (fun j => BitVec.ofNat 8 (16 * i + j)))

/-- TC. DESIGN CHOICE (log 4): the configuration State.reset takes. -/
def tc : Config where
  regions := tcRegions
  unmappedCost := ⟨⟨1, 1, 1⟩, ⟨1, 1, 1⟩⟩
  openBusFill := 0xDEADBEEF
  wmRegion := 0
  bootImage := ⟨[0x00, 0x00, 0xA0, 0xE1], [0xFE, 0xFF, 0xFF, 0xEA]⟩
  bootRegion := ⟨1, 5⟩
  cartImage := byteRamp ++ byteRamp
  wakeRequiresIme := false
  initialFill := 0
  collab := idleCollab

end Config

end Sys2Proof
end

