-- ==== Sys2Proof/WellFormed.lean ====
section
/-! DEFINITION. Which terms of Instr are commands of the spec: the one field whose type holds more than the
encoding allows is the event kind, whose classes 5, 6 and 7 are reserved (30_encoding.md R118, R124). -/

namespace Sys2Proof

/-- `kclass` = kind[7:5] is one of TIMER, DMA, SCANLINE, HBLANK, VBLANK (R118). -/
def kindWellFormed (kind : Kind) : Bool := decide (kind.toNat / 32 < 5)

/-- A command the encoding of R123 can express (R124). -/
def Instr.wellFormed : Instr → Bool
  | .schedSchedule kind _ => kindWellFormed kind
  | .schedAdvance _ => true
  | .schedPeek => true
  | .schedNow => true
  | .busRead _ _ _ _ => true
  | .busWrite _ _ _ _ _ => true
  | .busExec _ _ _ _ => true
  | .icRequest _ _ => true
  | .icAck _ _ => true
  | .icSetIe _ _ => true
  | .icSetIme _ _ => true
  | .icAsserted _ => true
  | .icReadIe _ => true
  | .icReadIf _ => true
  | .icReadIme _ => true
  | .clkStep => true
  | .clkRun _ => true
  | .clkReadLead => true
  | .clkReadTime _ => true

end Sys2Proof
end

