-- ==== Sys2Proof/Decode.lean ====
section
/-! DEFINITION. The encoding of the command port (30_encoding.md): status codes, header fields, the decoder
(total on every packet and on every list of words, rejecting by name) and the encoder. -/

namespace Sys2Proof

/-! ### Status codes (R117) -/

def Quirk.code : Quirk → Word
  | .openBus => 0x10
  | .unmappedWrite => 0x11
  | .readonlyWrite => 0x12
  | .notReadable => 0x13
  | .execViolation => 0x14
  | .privViolation => 0x15

def FatalCode.code : FatalCode → Word
  | .schedulePast => 0x80
  | .queueFull => 0x81
  | .zeroCost => 0x82
  | .reservedEncoding => 0x83
  | .illegalContext => 0x84
  | .cycleOverflow => 0x85
  | .regionOverlap => 0x90
  | .regionMalformed => 0x91
  | .cartTooShort => 0x92

/-- Response word 0: the status in bits [7:0], bits [31:8] zero (R116). -/
def Status.code : Status → Word
  | .ok => 0x00
  | .empty => 0x01
  | .quirk q => q.code
  | .fatal c => c.code

/-! ### Words and fields -/

/-- The low word of a 64-bit value, sent first (R114, R116). -/
def loWord (c : Cycle) : Word := c.extractLsb' 0 32

/-- The high word of a 64-bit value (R114, R116). -/
def hiWord (c : Cycle) : Word := c.extractLsb' 32 32

/-- A 64-bit operand from its two words, low word first: `w_hi ++ w_lo` (R114). -/
def joinWords (lo hi : Word) : Cycle := hi ++ lo

/-- `cpu` ids (00_scope.md R11): 0 FAST, 1 SLOW. -/
def Cpu.bit : Cpu → Bool
  | .fast => false
  | .slow => true

def cpuOfBit (b : Bool) : Cpu := if b then .slow else .fast

/-- Width codes (R120): 0b00 Byte, 0b01 Half, 0b10 Word. -/
def Width.code : Width → BitVec 2
  | .byte => 0
  | .half => 1
  | .word => 2

/-- The width of a width code; 0b11 is reserved (R120, R124). -/
def widthOfCode (c : BitVec 2) : Option Width :=
  match c.toNat with
  | 0 => some .byte
  | 1 => some .half
  | 2 => some .word
  | _ => none

/-- `unit` = H[31:28] (R111). -/
def headerUnit (h : Word) : BitVec 4 := h.extractLsb' 28 4

/-- `op` = H[27:24] (R111). -/
def headerOp (h : Word) : BitVec 4 := h.extractLsb' 24 4

/-- `kind` = H[23:16] of SCHED.SCHEDULE (R119). -/
def headerKind (h : Word) : Kind := h.extractLsb' 16 8

/-- `cpu` = H[23] of formats B, I and C (R120 to R122). -/
def headerCpu (h : Word) : Cpu := cpuOfBit (h.getLsbD 23)

/-- `width` = H[22:21] of format B (R120). -/
def headerWidth (h : Word) : BitVec 2 := h.extractLsb' 21 2

/-- `priv` = H[20] of format B (R120). -/
def headerPriv (h : Word) : Bool := h.getLsbD 20

/-- `src` = H[20:16] of format I (R121). -/
def headerSrc (h : Word) : BitVec 5 := h.extractLsb' 16 5

/-- `val` = H[0] of IC.SET_IME (R121). -/
def headerVal (h : Word) : Bool := h.getLsbD 0

/-! ### The decoder -/

/-- Why a packet is no command, by name. All but `truncated` are the reserved encodings of R124. -/
inductive DecodeError where
  /-- `unit` is 0x0 or 0x5..0xF. -/
  | reservedUnit
  /-- (unit, op) is not in R123. -/
  | reservedOp
  /-- A must-be-zero bit is set (R115). -/
  | mustBeZero
  /-- BUS `width` is 0b11 (R120). -/
  | reservedWidth
  /-- SCHED.SCHEDULE `kclass` is 5, 6 or 7 (R118). -/
  | reservedKind
  /-- A list of words ends before the command's last operand word (R113). -/
  | truncated
deriving DecidableEq, Repr

/-- Rejects a header that has a bit of `mbz` set (R115), and otherwise goes on. -/
def checkMbz (h mbz : Word) (k : Except DecodeError Instr) : Except DecodeError Instr :=
  if h &&& mbz = 0 then k else .error .mustBeZero

/-- Format B (R120): MBZ H[19:0], then the width. -/
def decodeBus (h : Word) (k : Cpu → Width → Bool → Instr) : Except DecodeError Instr :=
  checkMbz h 0x000FFFFF
    (match widthOfCode (headerWidth h) with
    | some w => .ok (k (headerCpu h) w (headerPriv h))
    | none => .error .reservedWidth)

/-- The decoder: one packet, the rows of R123, the reserved encodings of R124.
Every check looks at the header alone (R126 step 2 precedes step 3). -/
def decode (p : Packet) : Except DecodeError Instr :=
  let h := p.header
  match (headerUnit h).toNat, (headerOp h).toNat with
  | 1, 0 =>
    checkMbz h 0x0000FFFF
      (if kindWellFormed (headerKind h) then .ok (.schedSchedule (headerKind h) (joinWords p.op1 p.op2))
       else .error .reservedKind)
  | 1, 1 => checkMbz h 0x00FFFFFF (.ok (.schedAdvance (joinWords p.op1 p.op2)))
  | 1, 2 => checkMbz h 0x00FFFFFF (.ok .schedPeek)
  | 1, 3 => checkMbz h 0x00FFFFFF (.ok .schedNow)
  | 1, _ => .error .reservedOp
  | 2, 0 => decodeBus h (fun c w v => .busRead c w v p.op1)
  | 2, 1 => decodeBus h (fun c w v => .busWrite c w v p.op1 p.op2)
  | 2, 2 => decodeBus h (fun c w v => .busExec c w v p.op1)
  | 2, _ => .error .reservedOp
  | 3, 0 => checkMbz h 0x0060FFFF (.ok (.icRequest (headerCpu h) (headerSrc h)))
  | 3, 1 => checkMbz h 0x0060FFFF (.ok (.icAck (headerCpu h) (headerSrc h)))
  | 3, 2 => checkMbz h 0x007FFFFF (.ok (.icSetIe (headerCpu h) p.op1))
  | 3, 3 => checkMbz h 0x007FFFFE (.ok (.icSetIme (headerCpu h) (headerVal h)))
  | 3, 4 => checkMbz h 0x007FFFFF (.ok (.icAsserted (headerCpu h)))
  | 3, 5 => checkMbz h 0x007FFFFF (.ok (.icReadIe (headerCpu h)))
  | 3, 6 => checkMbz h 0x007FFFFF (.ok (.icReadIf (headerCpu h)))
  | 3, 7 => checkMbz h 0x007FFFFF (.ok (.icReadIme (headerCpu h)))
  | 3, _ => .error .reservedOp
  | 4, 0 => checkMbz h 0x00FFFFFF (.ok .clkStep)
  | 4, 1 => checkMbz h 0x00FFFFFF (.ok (.clkRun (joinWords p.op1 p.op2)))
  | 4, 2 => checkMbz h 0x00FFFFFF (.ok .clkReadLead)
  | 4, 3 => checkMbz h 0x007FFFFF (.ok (.clkReadTime (headerCpu h)))
  | 4, _ => .error .reservedOp
  | _, _ => .error .reservedUnit

/-- The number k of operand words, by (unit, op) alone; 0 for a pair not in the table (R113, column k of R123). -/
def operandCount (h : Word) : Nat :=
  match (headerUnit h).toNat, (headerOp h).toNat with
  | 1, 0 => 2
  | 1, 1 => 2
  | 2, 0 => 1
  | 2, 1 => 2
  | 2, 2 => 1
  | 3, 2 => 1
  | 4, 1 => 2
  | _, _ => 0

/-- A packet from a header and the operand words supplied with it; words not supplied are 0. -/
def packetOfWords (h : Word) (ws : List Word) : Packet := ⟨h, ws.getD 0 0, ws.getD 1 0⟩

/-- Reads one command from a stream of words: the header, the reserved check, then k operand words
(R113, R126); answers the command and the words after it. -/
def decodeWords : List Word → Except DecodeError (Instr × List Word)
  | [] => .error .truncated
  | h :: ws =>
    match decode (packetOfWords h ws) with
    | .error e => .error e
    | .ok i => if ws.length < operandCount h then .error .truncated else .ok (i, ws.drop (operandCount h))

/-! ### The encoder -/

/-- The bits of a one-bit field at position n. -/
def bitAt (b : Bool) (n : Nat) : Word := (BitVec.ofBool b).setWidth 32 <<< n

/-- Format B's fields (R120). -/
def busFields (cpu : Cpu) (width : Width) (priv : Bool) : Word :=
  bitAt cpu.bit 23 ||| (width.code.setWidth 32 <<< 21) ||| bitAt priv 20

/-- Format I's `cpu` and `src` (R121). -/
def sourceFields (cpu : Cpu) (src : BitVec 5) : Word := bitAt cpu.bit 23 ||| (src.setWidth 32 <<< 16)

/-- The header of a command: the row's `match` with its fields (R123). -/
def encodeHeader : Instr → Word
  | .schedSchedule kind _ => 0x10000000 ||| (kind.setWidth 32 <<< 16)
  | .schedAdvance _ => 0x11000000
  | .schedPeek => 0x12000000
  | .schedNow => 0x13000000
  | .busRead cpu width priv _ => 0x20000000 ||| busFields cpu width priv
  | .busWrite cpu width priv _ _ => 0x21000000 ||| busFields cpu width priv
  | .busExec cpu width priv _ => 0x22000000 ||| busFields cpu width priv
  | .icRequest cpu src => 0x30000000 ||| sourceFields cpu src
  | .icAck cpu src => 0x31000000 ||| sourceFields cpu src
  | .icSetIe cpu _ => 0x32000000 ||| bitAt cpu.bit 23
  | .icSetIme cpu val => 0x33000000 ||| bitAt cpu.bit 23 ||| bitAt val 0
  | .icAsserted cpu => 0x34000000 ||| bitAt cpu.bit 23
  | .icReadIe cpu => 0x35000000 ||| bitAt cpu.bit 23
  | .icReadIf cpu => 0x36000000 ||| bitAt cpu.bit 23
  | .icReadIme cpu => 0x37000000 ||| bitAt cpu.bit 23
  | .clkStep => 0x40000000
  | .clkRun _ => 0x41000000
  | .clkReadLead => 0x42000000
  | .clkReadTime cpu => 0x43000000 ||| bitAt cpu.bit 23

/-- The operand words of a command, 64-bit operands low word first (R114, R123). -/
def encodeOperands : Instr → List Word
  | .schedSchedule _ fire => [loWord fire, hiWord fire]
  | .schedAdvance target => [loWord target, hiWord target]
  | .schedPeek => []
  | .schedNow => []
  | .busRead _ _ _ addr => [addr]
  | .busWrite _ _ _ addr data => [addr, data]
  | .busExec _ _ _ addr => [addr]
  | .icRequest _ _ => []
  | .icAck _ _ => []
  | .icSetIe _ mask => [mask]
  | .icSetIme _ _ => []
  | .icAsserted _ => []
  | .icReadIe _ => []
  | .icReadIf _ => []
  | .icReadIme _ => []
  | .clkStep => []
  | .clkRun target => [loWord target, hiWord target]
  | .clkReadLead => []
  | .clkReadTime _ => []

/-- The words of a command (R110). -/
def encode (i : Instr) : List Word := encodeHeader i :: encodeOperands i

/-- The packet of a command. -/
def encodePacket (i : Instr) : Packet := packetOfWords (encodeHeader i) (encodeOperands i)

/-! ### The opcode table's numbering -/

/-- The packet whose bits are the low `nbits` bits of `w`: bit 0 of `w` is bit 0 of the header, bits 63..32 are
the first operand word, bits 95..64 the second (spec/opcode_table.json numbers a row so). -/
def packetOfTableWord (nbits w : Nat) : Packet :=
  let v := w % 2 ^ nbits
  ⟨BitVec.ofNat 32 v, BitVec.ofNat 32 (v / 2 ^ 32), BitVec.ofNat 32 (v / 2 ^ 64)⟩

/-- What the decoder reads from an instruction numbered as spec/opcode_table.json numbers it. -/
def decodeTableWord (nbits w : Nat) : Option Instr :=
  match decode (packetOfTableWord nbits w) with
  | .ok i => some i
  | .error _ => none

/-! ### Pseudo-commands (R128); `sched.schedule_in` is a move of a collaborator (Machine/Nested.lean) -/

/-- `ic.ack_mask cpu, m`: one IC.ACK for each set bit of m, in ascending order. -/
def ackMask (cpu : Cpu) (m : Word) : List Instr :=
  ((List.range 32).filter (fun i => m.getLsbD i)).map (fun i => .icAck cpu (BitVec.ofNat 5 i))

/-- `ic.enable cpu, m`: IC.SET_IE, then IC.SET_IME 1. -/
def icEnable (cpu : Cpu) (m : Word) : List Instr := [.icSetIe cpu m, .icSetIme cpu true]

/-- `bus.read cpu, addr` is `bus.read.w cpu, addr` (privileged, R127). -/
def busReadDefault (cpu : Cpu) (addr : Word) : Instr := .busRead cpu .word true addr

end Sys2Proof
end

