-- ==== Sys2Proof/Machine/Construct.lean ====
section
/-! DEFINITION. Construction's checks and inputs (70_reset_and_hazards.md R290 to R293), over the configuration
alone: the region table (20_memory.md R70 to R75), the boot ROMs, working memory, the cartridge header, the initial
events, and the byte every backing cell holds after construction. -/

namespace Sys2Proof.Machine

open Sys2Proof

/-! ### Accessors by CPU and width -/

def perCpu {α : Type} (p : PerCpu α) : Cpu → α
  | .fast => p.fast
  | .slow => p.slow

def setPerCpu {α : Type} (p : PerCpu α) (x : Cpu) (v : α) : PerCpu α :=
  match x with
  | .fast => { p with fast := v }
  | .slow => { p with slow := v }

def perWidth {α : Type} (p : PerWidth α) : Width → α
  | .byte => p.byte
  | .half => p.half
  | .word => p.word

/-! ### Regions -/

/-- Containment (R71). -/
def regionContains (r : Region) (a : Nat) : Bool :=
  decide (r.base ≤ a) && decide (a < r.limit) && decide ((a - r.base) % r.period < r.size)

/-- Backing offset (R72). -/
def regionOffset (r : Region) (a : Nat) : Nat := (a - r.base) % r.period

/-- Resolution from index i on: the containing region of greatest priority (R75). DESIGN CHOICE (log 15): of two
equal priorities, which R74 keeps out of every constructed machine, the lower index. -/
def resolveFrom : Nat → List Region → Nat → Option (Nat × Region)
  | _, [], _ => none
  | i, r :: rs, a =>
    match resolveFrom (i + 1) rs a with
    | none => if regionContains r a then some (i, r) else none
    | some (j, q) =>
      if regionContains r a && decide (q.prio.toNat ≤ r.prio.toNat) then some (i, r) else some (j, q)

/-- `Resolve(a)` with the region's index (R75). -/
def resolve (rs : List Region) (a : Nat) : Option (Nat × Region) := resolveFrom 0 rs a

/-- The configured cost of one (cpu, width, seq), if the table has an entry for it (R73; log 16). -/
def costEntry (es : List CostEntry) (x : Cpu) (w : Width) (q : Bool) : Option Word :=
  (es.find? (fun e => decide (e.cpu = x) && decide (e.width = w) && decide (e.seq = q))).map (·.cost)

def seqCostOf (es : List CostEntry) (x : Cpu) (w : Width) : Option SeqCost :=
  match costEntry es x w false, costEntry es x w true with
  | some n, some s => some ⟨n, s⟩
  | _, _ => none

def widthCostOf (es : List CostEntry) (x : Cpu) : Option (PerWidth SeqCost) :=
  match seqCostOf es x .byte, seqCostOf es x .half, seqCostOf es x .word with
  | some b, some h, some w => some ⟨b, h, w⟩
  | _, _, _ => none

/-- The cost table, if every (cpu, width, seq) has an entry (R73). -/
def costTableOf (es : List CostEntry) : Option CostTable :=
  match widthCostOf es .fast, widthCostOf es .slow with
  | some f, some s => some ⟨f, s⟩
  | _, _ => none

/-- The descriptor of a configured region whose cost table is complete. -/
def buildRegion (c : RegionConfig) : Option Region :=
  match costTableOf c.costs with
  | some t => some ⟨c.base, c.size, c.period, c.limit, c.prio, c.readable, c.writable, c.executable, c.privOnly, t⟩
  | none => none

def buildRegions (cs : List RegionConfig) : List Region := cs.filterMap buildRegion

/-- Well-formedness of a descriptor's window (R73). -/
def windowWellFormed (r : Region) : Bool :=
  decide (r.base % 4 = 0) && decide (r.size % 4 = 0) && decide (r.period % 4 = 0) && decide (r.limit % 4 = 0)
    && decide (1 ≤ r.size) && decide (r.size ≤ r.period) && decide (r.base < r.limit) && decide (r.limit ≤ 2 ^ 32)

/-- A configured region breaks R73: REGION_MALFORMED. -/
def regionMalformed (c : RegionConfig) : Bool :=
  match buildRegion c with
  | some r => !windowWellFormed r
  | none => true

/-- The least address from a on that lies in a copy of r, limits aside: a itself, or the next copy's start. -/
def nextCopy (r : Region) (a : Nat) : Nat :=
  let d := (a - r.base) % r.period
  if d < r.size then a else a + (r.period - d)

/-- Searches [a, hi) for an address in a copy of both regions, going from copy to copy (R74). -/
def overlapFrom : Nat → Region → Region → Nat → Nat → Bool
  | 0, _, _, _, _ => false
  | f + 1, r, q, hi, a =>
    if hi ≤ a then false
    else
      let b := nextCopy q (nextCopy r a)
      if b = a then true else overlapFrom f r q hi b

/-- Some address lies in both regions (R74). Each pass of the search moves on by at least one address. -/
def overlaps (r q : Region) : Bool :=
  let lo := max r.base q.base
  let hi := min r.limit q.limit
  overlapFrom (hi - lo) r q hi lo

/-- Two distinct regions of equal priority overlap: REGION_OVERLAP (R74). -/
def anyOverlap : List Region → Bool
  | [] => false
  | r :: rs => rs.any (fun q => decide (r.prio = q.prio) && overlaps r q) || anyOverlap rs

/-! ### Boot ROMs and working memory (R291, R292) -/

/-- `BOOT_REGION[x]` cannot hold `BOOT_IMAGE[x]` immutably (R291). -/
def bootMalformed (cfg : Config) (rs : List Region) (x : Cpu) : Bool :=
  match rs[perCpu cfg.bootRegion x]? with
  | none => true
  | some r =>
    decide (r.size < (perCpu cfg.bootImage x).length) || r.writable || decide (perCpu cfg.bootRegion x = cfg.wmRegion)

/-- A power of two, by its bits. -/
def powerOfTwo (n : Nat) : Bool := decide (n ≠ 0) && decide (n &&& (n - 1) = 0)

/-- The working-memory region breaks R292's first requirement. -/
def wmMalformed (cfg : Config) (rs : List Region) : Bool :=
  match rs[cfg.wmRegion]? with
  | none => true
  | some r =>
    !(decide (r.size = cfg.wmSize) && powerOfTwo cfg.wmSize && decide (0x400 ≤ cfg.wmSize) && r.readable && r.writable)

/-- Bytes of the cartridge header (R292). -/
def headerLength : Nat := 0x160

/-- An image of fewer than n bytes. -/
def shorterThan : Nat → List Byte → Bool
  | 0, _ => false
  | _ + 1, [] => true
  | n + 1, _ :: bs => shorterThan n bs

/-- Where the cartridge header goes in working memory (R292). -/
def headerDest (cfg : Config) : Nat := 0x027FFE00 &&& (cfg.wmSize - 1)

/-! ### Backing bytes after construction -/

/-- INITIAL_BACKING at byte o of region r (10_state.md R57). -/
def initialBacking (cfg : Config) (r o : Nat) : Byte :=
  match cfg.initialSpans.find? (fun s => decide (s.region = r) && decide (s.offset ≤ o)
      && decide (o < s.offset + s.bytes.length)) with
  | some s => s.bytes.getD (o - s.offset) cfg.initialFill
  | none => cfg.initialFill

/-- Byte o of region r once the boot ROMs are copied (R291). -/
def bootedByte (cfg : Config) (r o : Nat) : Byte :=
  if r = cfg.bootRegion.fast ∧ o < cfg.bootImage.fast.length then cfg.bootImage.fast.getD o 0
  else if r = cfg.bootRegion.slow ∧ o < cfg.bootImage.slow.length then cfg.bootImage.slow.getD o 0
  else initialBacking cfg r o

/-- `Backing(r)[o]` after construction: INITIAL_BACKING, the boot ROMs over it, the header over that
(R290 steps 3 to 5). -/
def constructedByte (cfg : Config) (r o : Nat) : Byte :=
  if r = cfg.wmRegion ∧ headerDest cfg ≤ o ∧ o < headerDest cfg + headerLength then
    cfg.cartImage.getD (o - headerDest cfg) 0
  else bootedByte cfg r o

/-! ### Events -/

/-- A ScheduledEvent (10_state.md R36). -/
structure Event where
  fire : Cycle
  kind : Kind
  seq : Cycle
deriving DecidableEq, Repr

/-- The event order: (fire, seq), lexicographic (10_state.md R40). -/
def eventBefore (a b : Event) : Bool :=
  decide (a.fire < b.fire) || (decide (a.fire = b.fire) && decide (a.seq < b.seq))

/-- Q ∪ {e}, kept in the event order, so that min(Q) is the head (R40, 41_scheduler.md R152; log 18). -/
def insertEvent (e : Event) : List Event → List Event
  | [] => [e]
  | x :: xs => if eventBefore e x then e :: x :: xs else x :: insertEvent e xs

/-- The last sequence number, never assigned (92 D5). -/
def lastSeq : Cycle := BitVec.allOnes 64

/-- Why SCHED.SCHEDULE of `fire` fails, checks in the order of 41_scheduler.md R140. -/
def scheduleError (capacity : Nat) (now : Cycle) (queue : List Event) (nextSeq fire : Cycle) : Option FatalCode :=
  if fire < now then some .schedulePast
  else if queue.length = capacity then some .queueFull
  else if nextSeq = lastSeq then some .cycleOverflow
  else none

/-- The queue, the next sequence number and the first failure of scheduling a list of initial events in order, at
now = 0 (R293). -/
def scheduleInitial (capacity : Nat) : List InitialEvent → List Event → Cycle → List Event × Cycle × Option FatalCode
  | [], q, n => (q, n, none)
  | e :: es, q, n =>
    if kindWellFormed e.kind then
      match scheduleError capacity 0 q n e.fire with
      | some c => (q, n, some c)
      | none => scheduleInitial capacity es (insertEvent ⟨e.fire, e.kind, n⟩ q) (n + 1)
    else (q, n, some .reservedEncoding)

/-- Q, next_seq and the failure, if any, of R290 step 6. -/
def initialQueue (cfg : Config) : List Event × Cycle × Option FatalCode :=
  scheduleInitial cfg.queueCapacity cfg.initialEvents [] 0

/-- The first failing check of construction (R290; 92 D58 gives the order). -/
def constructionFatal (cfg : Config) : Option FatalCode :=
  let rs := buildRegions cfg.regions
  if cfg.regions.any regionMalformed then some .regionMalformed
  else if anyOverlap rs then some .regionOverlap
  else if bootMalformed cfg rs .fast || bootMalformed cfg rs .slow
      || decide (cfg.bootRegion.fast = cfg.bootRegion.slow) || wmMalformed cfg rs then some .regionMalformed
  else if shorterThan headerLength cfg.cartImage then some .cartTooShort
  else (initialQueue cfg).2.2

end Sys2Proof.Machine
end

