-- ==== Sys2Proof/Machine/State.lean ====
section
/-! DEFINITION. The machine's state as plain data (10_state.md R30): the block state, `collab_state` (00_scope.md R9),
the command port, and the configuration the machine was constructed with; why a step can stop; construction and the
reset state (70_reset_and_hazards.md R290, R294). -/

namespace Sys2Proof.Machine

open Sys2Proof

/-- Why the machine has no next state: a collaborator never returns, or an advance never ends ("stuck",
93_implementation_defined.md I12, I13; 44_clock.md R244; log 7). Safe: where the hardware would go on for
ever, the model stops and gives no end state. -/
inductive Fault where
  /-- A CPU step was due and CpuCollab x never returns from it. Raised by CLK.STEP and CLK.RUN. Safe. -/
  | cpuNeverReturns (x : Cpu)
  /-- A dispatch was due and the handler never returns from it. Raised by SCHED.ADVANCE, CLK.STEP and CLK.RUN. Safe. -/
  | handlerNeverReturns
  /-- The handler keeps rescheduling with period 0, so that the advance would dispatch for ever (41_scheduler.md R150;
  log 7). Raised by SCHED.ADVANCE, CLK.STEP and CLK.RUN. Safe. -/
  | advanceNeverEnds
deriving DecidableEq, Repr

/-- Why an instruction has no meaning in the model. -/
inductive Refusal where
  /-- The instruction of this mnemonic is not modelled; raised by exec's arms only, and by none of them now. Safe. -/
  | notModelled (mnemonic : String)
deriving DecidableEq, Repr

/-- Backing storage of all regions: cells in rising order, none equal to what an unlisted cell reads as (R57; log 14). -/
abbrev Memory := List Host.Cell

/-- A diagnostic record (60_exceptions.md R269). -/
structure TraceRecord where
  status : Quirk
  cpu : Cpu
  kind : AccessKind
  width : Width
  addr : Word
  now : Cycle
deriving DecidableEq, Repr

/-- The host's side of the command port: packets not yet taken, and the responses sent to the host (30_encoding.md
R110, R116; log 1, log 2). -/
structure HostPort where
  pending : List Packet
  responses : List (List Word)
deriving DecidableEq, Repr

/-- Every piece of state the spec gives the machine (10_state.md R30, R64), beside `collab_state`, the port and the
configuration. -/
structure State where
  /-- The configuration (00_scope.md R10); no step changes it. -/
  cfg : Config
  /-- R35 -/
  now : Cycle
  /-- Q, in the event order (R37, R40). -/
  queue : List Event
  /-- R38 -/
  nextSeq : Cycle
  /-- R39 -/
  inDispatch : Bool
  /-- R43 -/
  tFast : Cycle
  /-- R43 -/
  tSlow : Cycle
  /-- L, two's complement, in fast units (R44). -/
  lead : Cycle
  /-- IE[x] (R50) -/
  ie : PerCpu Word
  /-- IF[x] (R51) -/
  iflag : PerCpu Word
  /-- IME[x] (R52) -/
  ime : PerCpu Bool
  /-- REGIONS (R56); no step changes it. -/
  regions : List Region
  /-- Backing(r) of every region r (R57). -/
  backing : Memory
  /-- last[x] (R58) -/
  last : PerCpu (Option Nat)
  /-- FATAL (R60) -/
  fatal : Option FatalCode
  /-- TRACE, oldest first (R61). -/
  trace : List TraceRecord
  /-- R62 -/
  ctx : Ctx
  /-- `collab_state` (00_scope.md R9). -/
  collab : Collab
  /-- The host's side of the port. -/
  host : HostPort
deriving DecidableEq, Repr

/-- Construction (R290): the state after it, R294 where it succeeds, `fatal` set where a check fails (R264; what else a
failed machine holds no command can observe: log 20). Memory lists nothing: `constructedByte` is what it reads as.
DESIGN CHOICE (log 27): the responses to the SCHED.SCHEDULE commands that construction issues for the initial events
(R293) are construction's own and do not reach the host's port, whose lists are empty after it. -/
def State.construct (cfg : Config) : State where
  cfg := cfg
  now := 0
  queue := (initialQueue cfg).1
  nextSeq := (initialQueue cfg).2.1
  inDispatch := false
  tFast := 0
  tSlow := 0
  lead := 0
  ie := ⟨0, 0⟩
  iflag := ⟨0, 0⟩
  ime := ⟨false, false⟩
  regions := buildRegions cfg.regions
  backing := []
  last := ⟨none, none⟩
  fatal := constructionFatal cfg
  trace := []
  ctx := .host
  collab := cfg.collab
  host := ⟨[], []⟩

/-- The machine right after construction with the spec's test configuration TC (DESIGN CHOICE, log 4: the spec leaves
the configuration OPEN and names no other; unsafe for a claim about this state, none for a claim about every state). -/
def State.reset : State := State.construct Config.tc

end Sys2Proof.Machine
end

