-- ==== Sys2Proof/Machine/Ops.lean ====
section
/-! DEFINITION. The named operations over the state: responses, raising a fatal error (60_exceptions.md R262), the
permission matrix (30_encoding.md R125) and the checks every command passes first (R126), the backing memory, and the
command port's fetch. -/

namespace Sys2Proof.Machine

open Sys2Proof

/-! ### Collaborators' state -/

/-- CpuCollab x's part of `collab_state`. -/
def cpuCollab (x : Cpu) (s : State) : CpuCollab := perCpu s.collab.cpu x

def setCpuCollab (x : Cpu) (c : CpuCollab) (s : State) : State :=
  { s with collab := { s.collab with cpu := setPerCpu s.collab.cpu x c } }

def setHandler (h : HandlerCollab) (s : State) : State := { s with collab := { s.collab with handler := h } }

/-- The private state a part of `collab_state` holds. -/
def privOf (p : Part) (s : State) : Nat :=
  match p with
  | .cpu x => (cpuCollab x s).priv
  | .devices => s.collab.handler.priv

/-- CPU x's step has returned r: its mode and private state from now on, and the other collaborators' private states where
the step wrote them (00_scope.md R7; log 28). -/
def cpuReturned (x : Cpu) (r : CpuReturn) (s : State) : State :=
  { s with
    collab :=
      { cpu := setPerCpu (setPerCpu s.collab.cpu x { cpuCollab x s with halted := r.halt, priv := r.next }) x.other
          { cpuCollab x.other s with priv := r.other.getD (cpuCollab x.other s).priv }
        handler := { s.collab.handler with priv := r.devices.getD s.collab.handler.priv } } }

/-- Everything the collaborator whose context is running has heard, oldest first; the host is no collaborator. -/
def heardOf (s : State) : List Msg :=
  match s.ctx with
  | .host => []
  | .cpu x => (cpuCollab x s).heard
  | .handler => s.collab.handler.heard

/-- The kind and fire cycle of the last call among what a collaborator has heard (00_scope.md R8). -/
def lastCall : List Msg → Option (Kind × Cycle)
  | [] => none
  | .call k t :: ms => (lastCall ms).or (some (k, t))
  | .response _ :: ms => lastCall ms

/-- Delivers a message to the collaborator whose context is running. -/
def tell (m : Msg) (s : State) : State :=
  match s.ctx with
  | .host => s
  | .cpu x => setCpuCollab x { cpuCollab x s with heard := (cpuCollab x s).heard ++ [m] } s
  | .handler => setHandler { s.collab.handler with heard := s.collab.handler.heard ++ [m] } s

/-! ### Responses and fatal errors -/

/-- Sends response words to the issuer of the running command (30_encoding.md R116). -/
def respond (ws : List Word) (s : State) : State :=
  match s.ctx with
  | .host => { s with host := { s.host with responses := s.host.responses ++ [ws] } }
  | .cpu _ => tell (.response ws) s
  | .handler => tell (.response ws) s

/-- Sends a status and data words. -/
def answer (st : Status) (ws : List Word) (s : State) : State := respond (st.code :: ws) s

/-- `S.FATAL <- code` (60_exceptions.md R262 step 2). -/
def setFatal (c : FatalCode) (s : State) : State := { s with fatal := some c }

/-- `raise Fatal(code)` by a command (R262; log 12): nothing else changes, and the command answers the code. The one way a
command fails; enclosing commands stop by testing `fatal` after each nested one. -/
def raiseFatal (c : FatalCode) (s : State) : State := answer (.fatal c) [] (setFatal c s)

/-- A command answers the code of FATAL, where it is set (R262 steps 3 and 5). -/
def answerFatal (s : State) : State :=
  match s.fatal with
  | some c => answer (.fatal c) [] s
  | none => s

/-! ### The checks before a command's own rule -/

/-- The permission matrix of 30_encoding.md R125. -/
def permitted (i : Instr) (c : Ctx) : Bool :=
  match i with
  | .schedSchedule _ _ => true
  | .schedAdvance _ => decide (c = .host)
  | .schedPeek => true
  | .schedNow => true
  | .busRead x _ _ _ => decide (c = .host) || decide (c = .cpu x)
  | .busWrite x _ _ _ _ => decide (c = .host) || decide (c = .cpu x)
  | .busExec x _ _ _ => decide (c = .host) || decide (c = .cpu x)
  | .icRequest _ _ => true
  | .icAck x _ => decide (c = .host) || decide (c = .cpu x)
  | .icSetIe x _ => decide (c = .host) || decide (c = .cpu x)
  | .icSetIme x _ => decide (c = .host) || decide (c = .cpu x)
  | .icAsserted _ => true
  | .icReadIe _ => true
  | .icReadIf _ => true
  | .icReadIme _ => true
  | .clkStep => decide (c = .host)
  | .clkRun _ => decide (c = .host)
  | .clkReadLead => true
  | .clkReadTime _ => true

/-- R126 steps 1 and 4: the state in which the command has been turned away, because FATAL is set or its context may
not issue it; `none` where its own rule runs. -/
def turnedAway (i : Instr) (s : State) : Option State :=
  match s.fatal with
  | some _ => some (answerFatal s)
  | none => if permitted i s.ctx then none else some (raiseFatal .illegalContext s)

/-- A command that no collaborator takes part in: the checks, then its effect. -/
def runCommand (i : Instr) (effect : State → State) (s : State) : State :=
  match turnedAway i s with
  | some s' => s'
  | none => effect s

/-- R126 steps 1 and 2 for a reserved header: FATAL first, then RESERVED_ENCODING (R124). -/
def answerReserved (s : State) : State :=
  match s.fatal with
  | some _ => answerFatal s
  | none => raiseFatal .reservedEncoding s

/-! ### Backing memory -/

/-- The memory key of byte o of region r; offsets a bus access reaches stay below 2^33, so no two of them share a key
(log 14). -/
def cellKey (r o : Nat) : Nat := r * 2 ^ 33 + o

/-- What an unlisted cell reads as: the byte construction leaves there (R57, 70_reset_and_hazards.md R290 to R292; log 9). -/
def defaultByte (cfg : Config) (key : Nat) : Byte := constructedByte cfg (key / 2 ^ 33) (key % 2 ^ 33)

/-- The byte listed at a key. -/
def lookupCell (key : Nat) : Memory → Option Byte
  | [] => none
  | (k, b) :: m => if k = key then some b else lookupCell key m

/-- Puts a byte at a key, `dflt` being what the key reads as unlisted: the canonical form is kept. -/
def storeCell (dflt : Byte) (key : Nat) (b : Byte) : Memory → Memory
  | [] => if b = dflt then [] else [(key, b)]
  | (k, c) :: m =>
    if key < k then (if b = dflt then (k, c) :: m else (key, b) :: (k, c) :: m)
    else if key = k then (if b = dflt then m else (key, b) :: m)
    else (k, c) :: storeCell dflt key b m

/-- The canonical form: keys strictly rising, no entry equal to what an unlisted cell reads as. -/
def memoryWf (cfg : Config) (m : Memory) : Bool :=
  decide ((m.map Prod.fst).Pairwise (· < ·)) && m.all (fun p => decide (p.2 ≠ defaultByte cfg p.1))

/-- The byte a key reads as: the one listed, or the one construction left there. -/
def readCell (s : State) (key : Nat) : Byte :=
  match lookupCell key s.backing with
  | some b => b
  | none => defaultByte s.cfg key

/-- `Backing(r)[o]` (00_scope.md R13). -/
def readBacking (s : State) (r o : Nat) : Byte := readCell s (cellKey r o)

/-- `Backing(r)[o] <- b`. -/
def writeBacking (r o : Nat) (b : Byte) (s : State) : State :=
  { s with backing := storeCell (defaultByte s.cfg (cellKey r o)) (cellKey r o) b s.backing }

/-- The n bytes of region r from offset o. -/
def readBytes (s : State) (r o n : Nat) : List Byte := (List.range n).map (fun k => readBacking s r (o + k))

/-- Stores bytes in region r from offset o on. -/
def writeBytes (r : Nat) : Nat → List Byte → State → State
  | _, [], s => s
  | o, b :: bs, s => writeBytes r (o + 1) bs (writeBacking r o b s)

/-! ### The command port -/

/-- Takes the next packet off the host's side of the port (30_encoding.md R110); `none` where there is none. -/
def fetch (s : State) : Option (Packet × State) :=
  match s.host.pending with
  | [] => none
  | p :: ps => some (p, { s with host := { s.host with pending := ps } })

end Sys2Proof.Machine
end

