-- ==== Sys2Proof/Machine/Operands.lean ====
section
/-! DEFINITION. Operand forms: the aligned address and byte order of a bus access (20_memory.md R79 to R81), the
open-bus value (42_bus.md R177), costs (R176), and times (44_clock.md R230). -/

namespace Sys2Proof.Machine

open Sys2Proof

/-- `R`, fast cycles per slow cycle (00_scope.md R10). -/
def clockRatio : Nat := 2

/-- `bytes(width)` (R79). -/
def widthBytes : Width → Nat
  | .byte => 1
  | .half => 2
  | .word => 4

/-- `a = addr & ~(n - 1)`: the address aligned down to the width (R80). -/
def alignDown (w : Width) (addr : Word) : Word :=
  match w with
  | .byte => addr
  | .half => addr &&& ~~~ 1#32
  | .word => addr &&& ~~~ 3#32

/-- The bits a value of this width has: `mod 2^(8n)`. -/
def widthMask : Width → Word
  | .byte => 0x000000FF
  | .half => 0x0000FFFF
  | .word => 0xFFFFFFFF

/-- Little-endian value of bytes, zero-extended to 32 bits (R81, 42_bus.md R180). -/
def leValue : List Byte → Word
  | [] => 0
  | b :: bs => (leValue bs <<< 8) ||| b.setWidth 32

/-- The low n bytes of a data word, least significant first (R81, 42_bus.md R181). -/
def leBytes : Nat → Word → List Byte
  | 0, _ => []
  | n + 1, w => w.setWidth 8 :: leBytes n (w >>> 8)

/-- `OPEN_BUS(cpu, a, width)`: the configured value, less than 2^(8n) (42_bus.md R177). -/
def openBusValue (cfg : Config) (x : Cpu) (w : Width) (a : Word) : Word :=
  (match cfg.openBus.find? (fun e => decide (e.cpu = x) && decide (e.width = w) && decide (e.addr = a)) with
    | some e => e.value
    | none => cfg.openBusFill) &&& widthMask w

/-- `UNMAPPED_COST[cpu][width]` (42_bus.md R171). -/
def unmappedCost (cfg : Config) (x : Cpu) (w : Width) : Word := perWidth (perCpu cfg.unmappedCost x) w

/-- `r.cost[cpu][width][q]`; `sequential` is q = S (42_bus.md R176). -/
def accessCost (r : Region) (x : Cpu) (w : Width) (sequential : Bool) : Word :=
  let c := perWidth (perCpu r.cost x) w
  if sequential then c.seq else c.nonseq

/-- `abs(x)`: CPU x's absolute time in the fast domain (44_clock.md R230). -/
def absTime (x : Cpu) (s : State) : Cycle :=
  match x with
  | .fast => s.tFast
  | .slow => BitVec.ofNat 64 (clockRatio * s.tSlow.toNat)

/-- CPU x's own time counter, in its own units (44_clock.md R236). -/
def ownTime (x : Cpu) (s : State) : Cycle :=
  match x with
  | .fast => s.tFast
  | .slow => s.tSlow

/-- A 64-bit result as response words, low word first (30_encoding.md R116). -/
def cycleWords (c : Cycle) : List Word := [loWord c, hiWord c]

/-- A count as a response word, mod 2^32 (41_scheduler.md R141, 44_clock.md R233, R234). -/
def countWord (n : Nat) : Word := BitVec.ofNat 32 n

end Sys2Proof.Machine
end

