-- ==== Sys2Proof/Machine/Flags.lean ====
section
/-! DEFINITION. The block's flags (10_state.md R65): the bits of IF, the enables, the derived line `asserted(x)`, and
the wake condition (43_interrupt.md R200 to R210). -/

namespace Sys2Proof.Machine

open Sys2Proof

/-- The bit of a source number: `1 << src` (43_interrupt.md R200). -/
def sourceBit (src : BitVec 5) : Word := 1#32 <<< src.toNat

/-- `IF[x] <- IF[x] | (1 << src)` (R200). -/
def latchSource (x : Cpu) (src : BitVec 5) (s : State) : State :=
  { s with iflag := setPerCpu s.iflag x (perCpu s.iflag x ||| sourceBit src) }

/-- `IF[x] <- IF[x] & ~(1 << src)` (R201). -/
def clearSource (x : Cpu) (src : BitVec 5) (s : State) : State :=
  { s with iflag := setPerCpu s.iflag x (perCpu s.iflag x &&& ~~~ sourceBit src) }

/-- `(IE[x] & IF[x]) ≠ 0` (R210). -/
def pendingEnabled (x : Cpu) (s : State) : Bool := decide (perCpu s.ie x &&& perCpu s.iflag x ≠ 0)

/-- `asserted(x) := IME[x] = 1 and (IE[x] & IF[x]) ≠ 0` (R204). -/
def asserted (x : Cpu) (s : State) : Bool := perCpu s.ime x && pendingEnabled x s

/-- What wakes a halted CPU x: by WAKE_REQUIRES_IME, `asserted(x)` or the pending-and-enabled value (R210). -/
def wakes (x : Cpu) (s : State) : Bool :=
  if s.cfg.wakeRequiresIme then asserted x s else pendingEnabled x s

/-- A flag as a response word: 0 or 1 (R204, R207). -/
def flagWord (b : Bool) : Word := if b then 1 else 0

end Sys2Proof.Machine
end

