-- ==== Sys2Proof/Machine/Bus.lean ====
section
/-! DEFINITION. The MemoryBus: the access procedure (42_bus.md R170) and its three commands (R180 to R182). -/

namespace Sys2Proof.Machine

open Sys2Proof

/-- `trace(status, cpu, kind, width, a)`: one record with the current cycle (60_exceptions.md R269, R270). -/
def traceQuirk (q : Quirk) (x : Cpu) (k : AccessKind) (w : Width) (a : Word) (s : State) : State :=
  { s with trace := s.trace ++ [⟨q, x, k, w, a, s.now⟩] }

/-- `last[cpu] <- r` (10_state.md R58). -/
def setLast (x : Cpu) (r : Option Nat) (s : State) : State := { s with last := setPerCpu s.last x r }

/-- Where an access goes and what it meets: the branches of R170, in its order. -/
inductive AccessPath where
  /-- No region contains the address (R171). -/
  | unmapped
  /-- A violation: the privilege check or the execute check fails (R172). -/
  | violation (q : Quirk) (r : Region)
  /-- The access reaches region `index` but R = 0 or W = 0 (R173, R174). -/
  | denied (q : Quirk) (index : Nat) (r : Region)
  /-- The access is performed. -/
  | granted (index : Nat) (r : Region)
deriving DecidableEq, Repr

/-- The checks of R170 on the aligned address a, in order: unmapped, privilege, execute permission, read or write
permission (60_exceptions.md R268). -/
def accessPath (rs : List Region) (k : AccessKind) (priv : Bool) (a : Word) : AccessPath :=
  match resolve rs a.toNat with
  | none => .unmapped
  | some (i, r) =>
    if r.privOnly && !priv then .violation .privViolation r
    else
      match k with
      | .execute => if r.executable then .granted i r else .violation .execViolation r
      | .read => if r.readable then .granted i r else .denied .notReadable i r
      | .write => if r.writable then .granted i r else .denied .readonlyWrite i r

/-- q = S: CPU x's preceding access reached region i (R175). -/
def isSequential (x : Cpu) (i : Nat) (s : State) : Bool := decide (perCpu s.last x = some i)

/-- The quirk of an unmapped access (R171). -/
def unmappedQuirk : AccessKind → Quirk
  | .read => .openBus
  | .write => .unmappedWrite
  | .execute => .openBus

/-- Response data of a quirk: the open-bus value for Read and Execute, then the cost (R170, R116). -/
def quirkWords (k : AccessKind) (openBus cost : Word) : List Word :=
  match k with
  | .read => [openBus, cost]
  | .write => [cost]
  | .execute => [openBus, cost]

/-- A granted access at aligned address a: a read or a fetch returns the bytes, a write stores them (R170, R81). -/
def grantedEffect (x : Cpu) (k : AccessKind) (w : Width) (a data : Word) (i : Nat) (r : Region) (s : State) : State :=
  let cost := accessCost r x w (isSequential x i s)
  let o := regionOffset r a.toNat
  let value := leValue (readBytes s i o (widthBytes w))
  match k with
  | .read => answer .ok [value, cost] (setLast x (some i) s)
  | .execute => answer .ok [value, cost] (setLast x (some i) s)
  | .write => answer .ok [cost] (writeBytes i o (leBytes (widthBytes w) data) (setLast x (some i) s))

/-- `access(cpu, width, kind, priv, addr, data)` and the response of its command (R170 to R182). -/
def accessEffect (x : Cpu) (k : AccessKind) (w : Width) (priv : Bool) (addr data : Word) (s : State) : State :=
  let a := alignDown w addr
  let openBus := openBusValue s.cfg x w a
  match accessPath s.regions k priv a with
  | .unmapped =>
    answer (.quirk (unmappedQuirk k)) (quirkWords k openBus (unmappedCost s.cfg x w))
      (traceQuirk (unmappedQuirk k) x k w a (setLast x none s))
  | .violation q r =>
    answer (.quirk q) (quirkWords k openBus (accessCost r x w false)) (traceQuirk q x k w a s)
  | .denied q i r =>
    answer (.quirk q) (quirkWords k openBus (accessCost r x w (isSequential x i s)))
      (traceQuirk q x k w a (setLast x (some i) s))
  | .granted i r => grantedEffect x k w a data i r s

/-- BUS.READ's own rule (R180). -/
def busReadEffect (x : Cpu) (w : Width) (priv : Bool) (addr : Word) (s : State) : State :=
  accessEffect x .read w priv addr 0 s

/-- BUS.WRITE's own rule (R181). -/
def busWriteEffect (x : Cpu) (w : Width) (priv : Bool) (addr data : Word) (s : State) : State :=
  accessEffect x .write w priv addr data s

/-- BUS.EXEC's own rule (R182). -/
def busExecEffect (x : Cpu) (w : Width) (priv : Bool) (addr : Word) (s : State) : State :=
  accessEffect x .execute w priv addr 0 s

/-- BUS.READ (R180). -/
def execBusRead (x : Cpu) (w : Width) (priv : Bool) (addr : Word) (s : State) : Host.Outcome State Fault Refusal :=
  .next (runCommand (.busRead x w priv addr) (busReadEffect x w priv addr) s)

/-- BUS.WRITE (R181). -/
def execBusWrite (x : Cpu) (w : Width) (priv : Bool) (addr data : Word) (s : State) :
    Host.Outcome State Fault Refusal :=
  .next (runCommand (.busWrite x w priv addr data) (busWriteEffect x w priv addr data) s)

/-- BUS.EXEC (R182). -/
def execBusExec (x : Cpu) (w : Width) (priv : Bool) (addr : Word) (s : State) : Host.Outcome State Fault Refusal :=
  .next (runCommand (.busExec x w priv addr) (busExecEffect x w priv addr) s)

end Sys2Proof.Machine
end

