-- ==== Sys2Proof/Machine/Interrupt.lean ====
section
/-! DEFINITION. The InterruptController commands (43_interrupt.md R200 to R207). -/

namespace Sys2Proof.Machine

open Sys2Proof

/-- IC.REQUEST's own rule (R200). -/
def requestEffect (x : Cpu) (src : BitVec 5) (s : State) : State := answer .ok [] (latchSource x src s)

/-- IC.ACK's own rule (R201). -/
def ackEffect (x : Cpu) (src : BitVec 5) (s : State) : State := answer .ok [] (clearSource x src s)

/-- IC.SET_IE's own rule (R202). -/
def setIeEffect (x : Cpu) (mask : Word) (s : State) : State := answer .ok [] { s with ie := setPerCpu s.ie x mask }

/-- IC.SET_IME's own rule (R203). -/
def setImeEffect (x : Cpu) (val : Bool) (s : State) : State := answer .ok [] { s with ime := setPerCpu s.ime x val }

/-- IC.ASSERTED's own rule (R204). -/
def assertedEffect (x : Cpu) (s : State) : State := answer .ok [flagWord (asserted x s)] s

/-- IC.READ_IE's own rule (R205). -/
def readIeEffect (x : Cpu) (s : State) : State := answer .ok [perCpu s.ie x] s

/-- IC.READ_IF's own rule (R206). -/
def readIfEffect (x : Cpu) (s : State) : State := answer .ok [perCpu s.iflag x] s

/-- IC.READ_IME's own rule (R207). -/
def readImeEffect (x : Cpu) (s : State) : State := answer .ok [flagWord (perCpu s.ime x)] s

/-- IC.REQUEST (R200). -/
def execIcRequest (x : Cpu) (src : BitVec 5) (s : State) : Host.Outcome State Fault Refusal :=
  .next (runCommand (.icRequest x src) (requestEffect x src) s)

/-- IC.ACK (R201). -/
def execIcAck (x : Cpu) (src : BitVec 5) (s : State) : Host.Outcome State Fault Refusal :=
  .next (runCommand (.icAck x src) (ackEffect x src) s)

/-- IC.SET_IE (R202). -/
def execIcSetIe (x : Cpu) (mask : Word) (s : State) : Host.Outcome State Fault Refusal :=
  .next (runCommand (.icSetIe x mask) (setIeEffect x mask) s)

/-- IC.SET_IME (R203). -/
def execIcSetIme (x : Cpu) (val : Bool) (s : State) : Host.Outcome State Fault Refusal :=
  .next (runCommand (.icSetIme x val) (setImeEffect x val) s)

/-- IC.ASSERTED (R204). -/
def execIcAsserted (x : Cpu) (s : State) : Host.Outcome State Fault Refusal :=
  .next (runCommand (.icAsserted x) (assertedEffect x) s)

/-- IC.READ_IE (R205). -/
def execIcReadIe (x : Cpu) (s : State) : Host.Outcome State Fault Refusal :=
  .next (runCommand (.icReadIe x) (readIeEffect x) s)

/-- IC.READ_IF (R206). -/
def execIcReadIf (x : Cpu) (s : State) : Host.Outcome State Fault Refusal :=
  .next (runCommand (.icReadIf x) (readIfEffect x) s)

/-- IC.READ_IME (R207). -/
def execIcReadIme (x : Cpu) (s : State) : Host.Outcome State Fault Refusal :=
  .next (runCommand (.icReadIme x) (readImeEffect x) s)

end Sys2Proof.Machine
end

