-- ==== Sys2Proof/Machine/Scheduler.lean ====
section
/-! DEFINITION. The EventScheduler commands that involve no collaborator (41_scheduler.md R140, R142, R143); SCHED.ADVANCE
stands in Machine/Advance.lean. -/

namespace Sys2Proof.Machine

open Sys2Proof

/-- SCHED.SCHEDULE's own rule (R140). -/
def scheduleEffect (kind : Kind) (fire : Cycle) (s : State) : State :=
  match scheduleError s.cfg.queueCapacity s.now s.queue s.nextSeq fire with
  | some c => raiseFatal c s
  | none =>
    answer .ok (cycleWords s.nextSeq)
      { s with queue := insertEvent ⟨fire, kind, s.nextSeq⟩ s.queue, nextSeq := s.nextSeq + 1 }

/-- SCHED.PEEK's own rule (R142). -/
def peekEffect (s : State) : State :=
  match s.queue with
  | [] => answer .empty [] s
  | e :: _ => answer .ok (cycleWords e.fire) s

/-- SCHED.NOW's own rule (R143). -/
def nowEffect (s : State) : State := answer .ok (cycleWords s.now) s

/-- SCHED.SCHEDULE (R140). -/
def execSchedSchedule (kind : Kind) (fire : Cycle) (s : State) : Host.Outcome State Fault Refusal :=
  .next (runCommand (.schedSchedule kind fire) (scheduleEffect kind fire) s)

/-- SCHED.PEEK (R142). -/
def execSchedPeek (s : State) : Host.Outcome State Fault Refusal := .next (runCommand .schedPeek peekEffect s)

/-- SCHED.NOW (R143). -/
def execSchedNow (s : State) : Host.Outcome State Fault Refusal := .next (runCommand .schedNow nowEffect s)

end Sys2Proof.Machine
end

