-- ==== Sys2Proof/Machine/Nested.lean ====
section
/-! DEFINITION. Commands a collaborator issues during an enclosing command (00_scope.md R14, 60_exceptions.md R263), and
the run of one activation's script. CLK.READ_LEAD's and CLK.READ_TIME's own rules stand here too, since a collaborator
may issue them. -/

namespace Sys2Proof.Machine

open Sys2Proof

/-- CLK.READ_LEAD's own rule (44_clock.md R235). -/
def readLeadEffect (s : State) : State := answer .ok (cycleWords s.lead) s

/-- CLK.READ_TIME's own rule (44_clock.md R236). -/
def readTimeEffect (x : Cpu) (s : State) : State := answer .ok (cycleWords (ownTime x s)) s

/-- The own rule of each command a collaborator may issue. The three that HOST alone may issue (30_encoding.md R125)
never get here from a collaborator: `turnedAway` has answered ILLEGAL_CONTEXT. -/
def nestedEffect : Instr → State → State
  | .schedSchedule kind fire => scheduleEffect kind fire
  | .schedAdvance _ => raiseFatal .illegalContext
  | .schedPeek => peekEffect
  | .schedNow => nowEffect
  | .busRead x w priv addr => busReadEffect x w priv addr
  | .busWrite x w priv addr data => busWriteEffect x w priv addr data
  | .busExec x w priv addr => busExecEffect x w priv addr
  | .icRequest x src => requestEffect x src
  | .icAck x src => ackEffect x src
  | .icSetIe x mask => setIeEffect x mask
  | .icSetIme x val => setImeEffect x val
  | .icAsserted x => assertedEffect x
  | .icReadIe x => readIeEffect x
  | .icReadIf x => readIfEffect x
  | .icReadIme x => readImeEffect x
  | .clkStep => raiseFatal .illegalContext
  | .clkRun _ => raiseFatal .illegalContext
  | .clkReadLead => readLeadEffect
  | .clkReadTime x => readTimeEffect x

/-- A command of a collaborator, in the context that is running. -/
def runNested (i : Instr) (s : State) : State := runCommand i (nestedEffect i) s

/-- A packet of a collaborator: decode, then the command (30_encoding.md R126). -/
def issuePacket (p : Packet) (s : State) : State :=
  match decode p with
  | .ok i => runNested i s
  | .error _ => answerReserved s

/-! ### One activation

`issue` is how a command is run: `issuePacket`, everywhere but where the model asks whether an advance would ever end
(Machine/Advance.lean). -/

/-- The second half of `sched.schedule_in`, once `sched.now` has answered: fatal where now + d ≥ 2^64, else
SCHED.SCHEDULE at now + d (30_encoding.md R128, 60_exceptions.md R265; log 19). -/
def scheduleAfter (issue : Packet → State → State) (kind : Kind) (delay : Cycle) (s : State) : State :=
  if 2 ^ 64 ≤ s.now.toNat + delay.toNat then raiseFatal .cycleOverflow s
  else issue (encodePacket (.schedSchedule kind (s.now + delay))) s

/-- `sched.schedule_in kind, d`: `sched.now`, then `sched.schedule kind, now + d` (R128). -/
def scheduleInWith (issue : Packet → State → State) (kind : Kind) (delay : Cycle) (s : State) : State :=
  scheduleAfter issue kind delay (issue (encodePacket .schedNow) s)

def scheduleInMove (kind : Kind) (delay : Cycle) (s : State) : State := scheduleInWith issuePacket kind delay s

/-- The moves of an activation in order, each command run at once and answered before the next (41_scheduler.md R144,
44_clock.md R231). `none`: a command raised a fatal error, and the activation stopped there (60_exceptions.md R262). -/
def runScriptWith {ρ : Type} (issue : Packet → State → State) : Script ρ → State → State × Option ρ
  | .done r, s => (s, some r)
  | .issue p next, s =>
    let s' := issue p s
    if s'.fatal.isSome then (s', none) else runScriptWith issue next s'
  | .scheduleIn kind delay next, s =>
    let s' := scheduleInWith issue kind delay s
    if s'.fatal.isSome then (s', none) else runScriptWith issue next s'
  | .ifAnswered status data yes no, s =>
    if (heardOf s).getLast? = some (.response (status :: data)) then runScriptWith issue yes s
    else runScriptWith issue no s
  | .ifKind k yes no, s =>
    if (lastCall (heardOf s)).map Prod.fst = some k then runScriptWith issue yes s else runScriptWith issue no s
  | .ifFire t yes no, s =>
    if (lastCall (heardOf s)).map Prod.snd = some t then runScriptWith issue yes s else runScriptWith issue no s
  | .ifPriv p q yes no, s => if privOf p s = q then runScriptWith issue yes s else runScriptWith issue no s
  | .ifHalted x yes no, s => if (cpuCollab x s).halted then runScriptWith issue yes s else runScriptWith issue no s

/-- One activation of a collaborator. -/
def runScript {ρ : Type} (a : Script ρ) (s : State) : State × Option ρ := runScriptWith issuePacket a s

end Sys2Proof.Machine
end

