-- ==== Sys2Proof/Machine/Advance.lean ====
section
/-! DEFINITION. Dispatch and SCHED.ADVANCE (41_scheduler.md R141, R144). -/

namespace Sys2Proof.Machine

open Sys2Proof

/-- The handler in the private state its activation returned; in its old one where a command was fatal. -/
def handlerReturned : State × Option Nat → State
  | (s, some q) => setHandler { s.collab.handler with priv := q } s
  | (s, none) => s

/-- `dispatch(kind, t)` in context HANDLER, the context restored after it (R141, R144; log 10): the handler's activation
in its private state; `error` where it never returns (log 7). -/
def dispatch (issue : Packet → State → State) (kind : Kind) (fire : Cycle) (s : State) : Except Fault State :=
  match s.collab.handler.table[s.collab.handler.priv]? with
  | some a =>
    .ok { handlerReturned (runScriptWith issue a (tell (.call kind fire) { s with ctx := .handler })) with ctx := s.ctx }
  | none => .error .handlerNeverReturns

/-- At least as many dispatches as one advance can make: each takes an event off Q, and each event put on Q takes one of
the sequence numbers that are left (R140; log 22). -/
def dispatchBound (s : State) : Nat := s.queue.length + (lastSeq.toNat - s.nextSeq.toNat)

/-- The loop of advance_to (R141): dispatches min(Q) while its fire is at most `target`, counting; stops at once where
a handler command is fatal (60_exceptions.md R262); `error` where the handler never returns. -/
def advanceLoop (issue : Packet → State → State) : Nat → Cycle → Nat → State → Except Fault (State × Nat)
  | 0, _, n, s => .ok (s, n)
  | fuel + 1, target, n, s =>
    match s.queue with
    | [] => .ok (s, n)
    | e :: rest =>
      if e.fire ≤ target then
        match dispatch issue e.kind e.fire { s with queue := rest, now := e.fire } with
        | .error f => .error f
        | .ok s' => if s'.fatal.isSome then .ok (s', n) else advanceLoop issue fuel target (n + 1) s'
      else .ok (s, n)

/-! ### An advance that never ends (R150; log 7)

An advance diverges if it dispatches for ever. Sequence numbers are 64 bits wide, so that R140's last check would end every
advance with CYCLE_OVERFLOW at the latest; R150 has a run that only this check ends be a divergence, never an end state.
Where an advance has used up the sequence numbers, the model therefore asks whether it would end had they not run out. -/

/-- SCHED.SCHEDULE once all sequence numbers are used up, had they not run out: the event comes after every event of its
cycle, and the answer is a number that no 64-bit number equals, so that no `ifAnswered` names it. -/
def scheduleUnnumbered (kind : Kind) (fire : Cycle) (s : State) : State :=
  tell (.response []) { s with queue := insertEvent ⟨fire, kind, lastSeq⟩ s.queue }

/-- A packet of a collaborator, had sequence numbers no end: `issuePacket`, but that R140's last check never fails. -/
def issueUnlimited (p : Packet) (s : State) : State :=
  match decode p with
  | .ok (.schedSchedule kind fire) =>
    if s.nextSeq = lastSeq ∧ scheduleError s.cfg.queueCapacity s.now s.queue 0 fire = none then
      scheduleUnnumbered kind fire s
    else issuePacket p s
  | .ok _ => issuePacket p s
  | .error _ => issuePacket p s

/-- Some event is due by the target. -/
def isDue (target : Cycle) (s : State) : Bool :=
  match s.queue with
  | [] => false
  | e :: _ => decide (e.fire ≤ target)

/-- At least as many as the ways a machine can stand before a dispatch of one advance, what the collaborators have heard
apart: `now`, IF and next_seq, the pending events in order, and the handler's private state, which are all that the advance
depends on and changes (30_encoding.md R125). -/
def standings (s : State) : Nat :=
  (s.collab.handler.table.length + 1) * 2 ^ 192 * (2 ^ 136 + 1) ^ max s.cfg.queueCapacity s.queue.length

/-- Had sequence numbers no end, the advance would still go on after `fuel` dispatches: the next is due. -/
def goesOnAfter (fuel : Nat) (target : Cycle) (s : State) : Bool :=
  match advanceLoop issueUnlimited fuel target 0 s with
  | .error _ => false
  | .ok (t, _) => t.fatal.isNone && isDue target t

/-- The advance would never end, had sequence numbers no end: it goes on after as many dispatches as there are ways to
stand, so that it has stood twice alike, and goes round. -/
def goesOn (target : Cycle) (s : State) : Bool := goesOnAfter (standings s) target s

/-- `if T > S.now: S.now <- T` (R141). -/
def raiseNow (target : Cycle) (s : State) : State := { s with now := if s.now < target then target else s.now }

/-- `advance_to(T)` (R141). A fatal error ends it with `fatal` set; it is no longer running then, so `in_dispatch` is
clear (10_state.md R39; log 10). `error` where it never ends: the handler never returns, or the sequence numbers are used
up and it would go on for ever (R150; log 7). -/
def advanceTo (target : Cycle) (s : State) : Except Fault (State × Nat) :=
  if s.inDispatch then .ok (setFatal .illegalContext s, 0)
  else
    match advanceLoop issuePacket (dispatchBound s) target 0 { s with inDispatch := true } with
    | .error f => .error f
    | .ok (s', n) =>
      if s'.fatal = some .cycleOverflow ∧ goesOn target { s with inDispatch := true } = true then
        .error .advanceNeverEnds
      else if s'.fatal.isSome then .ok ({ s' with inDispatch := false }, n)
      else .ok ({ raiseNow target s' with inDispatch := false }, n)

/-- SCHED.ADVANCE's own rule (R141). -/
def advanceEffect (target : Cycle) (s : State) : Host.Outcome State Fault Refusal :=
  match advanceTo target s with
  | .error f => .fault f
  | .ok (s', n) => if s'.fatal.isSome then .next (answerFatal s') else .next (answer .ok [countWord n] s')

/-- SCHED.ADVANCE (R141). -/
def execSchedAdvance (target : Cycle) (s : State) : Host.Outcome State Fault Refusal :=
  match turnedAway (.schedAdvance target) s with
  | some s' => .next s'
  | none => advanceEffect target s

end Sys2Proof.Machine
end

