-- ==== Sys2Proof/Machine/Clock.lean ====
section
/-! DEFINITION. The CPU step and the DualCoreClock commands (44_clock.md R231 to R236). -/

namespace Sys2Proof.Machine

open Sys2Proof

/-! ### The CPU step -/

/-- Runs CPU x's activation in its private state, in context CPU(x), the context restored after it, then halts the CPU
and moves the private states on as the activation returns: the cost, or `none` where a command was fatal (R231); `error`
where it never returns (log 7). -/
def runCpu (x : Cpu) (s : State) : Except Fault (State × Option Word) :=
  match (cpuCollab x s).table[(cpuCollab x s).priv]? with
  | none => .error (.cpuNeverReturns x)
  | some a =>
    match runScript a (setCpuCollab x { cpuCollab x s with halted := false } { s with ctx := .cpu x }) with
    | (s1, none) => .ok ({ s1 with ctx := s.ctx }, none)
    | (s1, some r) =>
      .ok ({ cpuReturned x r s1 with ctx := s.ctx }, some r.cost)

/-- `execute_one_instruction(x)` (R231). A halted CPU that its wake condition does not wake returns HALT_STEP_COST and
issues no command (R232, 43_interrupt.md R210; log 17). -/
def executeInstruction (x : Cpu) (s : State) : Except Fault (State × Option Word) :=
  if (cpuCollab x s).halted && !wakes x s then .ok (s, some s.cfg.haltStepCost) else runCpu x s

/-- Adds a step's cost to CPU x's time counter; `none` where the counter, in fast units, would pass 2^64 - 1 (R231). -/
def addCost (x : Cpu) (c : Word) (s : State) : Option State :=
  match x with
  | .fast =>
    if 2 ^ 64 ≤ s.tFast.toNat + c.toNat then none
    else some { s with tFast := BitVec.ofNat 64 (s.tFast.toNat + c.toNat) }
  | .slow =>
    if 2 ^ 64 ≤ clockRatio * (s.tSlow.toNat + c.toNat) then none
    else some { s with tSlow := BitVec.ofNat 64 (s.tSlow.toNat + c.toNat) }

/-- The end of a CPU step that returned cost c: ZERO_COST, CYCLE_OVERFLOW, or the time moved on (R231). -/
def finishStep (x : Cpu) (c : Word) (s : State) : State × Option Word :=
  if c = 0 then (setFatal .zeroCost s, none)
  else
    match addCost x c s with
    | none => (setFatal .cycleOverflow s, none)
    | some s' => (s', some c)

/-- `cpu_step(x)` (R231): the scheduler is advanced to x's start time, then x executes one instruction. The cost, or
`none` where the step raised a fatal error and stopped (log 13). -/
def cpuStep (x : Cpu) (s : State) : Except Fault (State × Option Word) :=
  match advanceTo (absTime x s) s with
  | .error f => .error f
  | .ok (s1, _) =>
    if s1.fatal.isSome then .ok (s1, none)
    else
      match executeInstruction x s1 with
      | .error f => .error f
      | .ok (s2, none) => .ok (s2, none)
      | .ok (s2, some c) => .ok (finishStep x c s2)

/-! ### The orchestration step -/

/-- `S.L <- S.L + c`, in fast units (R233 step 2; log 23). -/
def addLead (c : Word) (s : State) : State := { s with lead := s.lead + c.setWidth 64 }

/-- `S.L <- S.L - R × c` (R233 step 3). -/
def subLead (c : Word) (s : State) : State := { s with lead := s.lead - BitVec.ofNat 64 (clockRatio * c.toNat) }

/-- `s64(L) ≥ 0`. -/
def leadNonneg (s : State) : Bool := decide (0 ≤ s.lead.toInt)

/-- As many SLOW steps as the loop can make: floor(L / R) + 1 while L ≥ 0 (R241; log 22). -/
def slowBound (s : State) : Nat := if leadNonneg s then s.lead.toNat / clockRatio + 1 else 0

/-- The SLOW loop (R233 step 3): the number of steps it made, or `none` where a step was fatal. -/
def slowLoop : Nat → Nat → State → Except Fault (State × Option Nat)
  | 0, m, s => .ok (s, some m)
  | fuel + 1, m, s =>
    if leadNonneg s then
      match cpuStep .slow s with
      | .error f => .error f
      | .ok (s', none) => .ok (s', none)
      | .ok (s', some c) => slowLoop fuel (m + 1) (subLead c s')
    else .ok (s, some m)

/-- `orch_step()` (R233). -/
def orchStep (s : State) : Except Fault (State × Option Nat) :=
  match cpuStep .fast s with
  | .error f => .error f
  | .ok (s1, none) => .ok (s1, none)
  | .ok (s1, some c) => slowLoop (slowBound (addLead c s1)) 0 (addLead c s1)

/-- The loop of CLK.RUN (R234): the number of orchestration steps it made, or `none` where one was fatal. -/
def runLoop : Nat → Cycle → Nat → State → Except Fault (State × Option Nat)
  | 0, _, k, s => .ok (s, some k)
  | fuel + 1, target, k, s =>
    if s.tFast < target then
      match orchStep s with
      | .error f => .error f
      | .ok (s', none) => .ok (s', none)
      | .ok (s', some _) => runLoop fuel target (k + 1) s'
    else .ok (s, some k)

/-- As many orchestration steps as a run can make: each moves t_fast on by at least 1 (R231; log 22). -/
def runBound (target : Cycle) (s : State) : Nat := target.toNat - s.tFast.toNat

/-- The response of a command that counts what it did, or stopped on a fatal error (60_exceptions.md R262). -/
def answerCount (r : Except Fault (State × Option Nat)) : Host.Outcome State Fault Refusal :=
  match r with
  | .error f => .fault f
  | .ok (s, none) => .next (answerFatal s)
  | .ok (s, some n) => .next (answer .ok [countWord n] s)

/-- CLK.STEP (R233). -/
def execClkStep (s : State) : Host.Outcome State Fault Refusal :=
  match turnedAway .clkStep s with
  | some s' => .next s'
  | none => answerCount (orchStep s)

/-- CLK.RUN (R234). -/
def execClkRun (target : Cycle) (s : State) : Host.Outcome State Fault Refusal :=
  match turnedAway (.clkRun target) s with
  | some s' => .next s'
  | none => answerCount (runLoop (runBound target s) target 0 s)

/-- CLK.READ_LEAD (R235). -/
def execClkReadLead (s : State) : Host.Outcome State Fault Refusal := .next (runCommand .clkReadLead readLeadEffect s)

/-- CLK.READ_TIME (R236). -/
def execClkReadTime (x : Cpu) (s : State) : Host.Outcome State Fault Refusal :=
  .next (runCommand (.clkReadTime x) (readTimeEffect x) s)

end Sys2Proof.Machine
end

