-- ==== Sys2Proof/Machine/Dispatch.lean ====
section
/-! DEFINITION. One arm for each command of 30_encoding.md R123. -/

namespace Sys2Proof.Machine

open Sys2Proof

def exec (i : Instr) (s : State) : Host.Outcome State Fault Refusal :=
  match i with
  | .schedSchedule kind fire => Sys2Proof.Machine.execSchedSchedule kind fire s
  | .schedAdvance target => Sys2Proof.Machine.execSchedAdvance target s
  | .schedPeek => Sys2Proof.Machine.execSchedPeek s
  | .schedNow => Sys2Proof.Machine.execSchedNow s
  | .busRead cpu width priv addr => Sys2Proof.Machine.execBusRead cpu width priv addr s
  | .busWrite cpu width priv addr data => Sys2Proof.Machine.execBusWrite cpu width priv addr data s
  | .busExec cpu width priv addr => Sys2Proof.Machine.execBusExec cpu width priv addr s
  | .icRequest cpu src => Sys2Proof.Machine.execIcRequest cpu src s
  | .icAck cpu src => Sys2Proof.Machine.execIcAck cpu src s
  | .icSetIe cpu mask => Sys2Proof.Machine.execIcSetIe cpu mask s
  | .icSetIme cpu val => Sys2Proof.Machine.execIcSetIme cpu val s
  | .icAsserted cpu => Sys2Proof.Machine.execIcAsserted cpu s
  | .icReadIe cpu => Sys2Proof.Machine.execIcReadIe cpu s
  | .icReadIf cpu => Sys2Proof.Machine.execIcReadIf cpu s
  | .icReadIme cpu => Sys2Proof.Machine.execIcReadIme cpu s
  | .clkStep => Sys2Proof.Machine.execClkStep s
  | .clkRun target => Sys2Proof.Machine.execClkRun target s
  | .clkReadLead => Sys2Proof.Machine.execClkReadLead s
  | .clkReadTime cpu => Sys2Proof.Machine.execClkReadTime cpu s

end Sys2Proof.Machine
end

