-- ==== Sys2Proof/Machine/Step.lean ====
section
/-! DEFINITION. One step: the block takes the host's next packet, decodes it and runs it in full (30_encoding.md R110,
R126). With no packet on the port nothing happens (log 1). -/

namespace Sys2Proof.Machine

open Sys2Proof

/-- A packet from the host. -/
def runPacket (p : Packet) (s : State) : Host.Outcome State Fault Refusal :=
  match decode p with
  | .ok i => exec i s
  | .error _ => .next (answerReserved s)

/-- One step of the machine. -/
def step (s : State) : Host.Outcome State Fault Refusal :=
  match fetch s with
  | none => .next s
  | some (p, s') => runPacket p s'

/-- `s` with an instruction, numbered as spec/opcode_table.json numbers it, first on the host's side of the port
(log 3). -/
def State.withFetchWord (s : State) (nbits w : Nat) : State :=
  { s with host := { s.host with pending := packetOfTableWord nbits w :: s.host.pending } }

end Sys2Proof.Machine
end

