-- ==== Sys2Proof/Safety.lean ====
section
/-! DEFINITION. The terms claims are stated in: what a good state and a good end are (60_exceptions.md R262,
44_clock.md R244), when a command's own rule runs, collaborators that return, advances that never end, and the invariant of
the machine between commands. -/

namespace Sys2Proof.Machine

open Sys2Proof

/-- No fatal error has been raised (60_exceptions.md R262). -/
def healthy (s : State) : Bool := s.fatal.isNone

/-- A good end of a command: a next state without a fatal error. A fault (a collaborator that never returns) and a
refusal are no end at all (44_clock.md R244). -/
def goodEnd (o : Host.Outcome State Fault Refusal) : Bool :=
  match o with
  | .next s => healthy s
  | .fault _ => false
  | .refused _ => false

/-- The command's own rule runs: FATAL is clear and the context may issue it (30_encoding.md R125, R126). -/
def commandRuns (i : Instr) (s : State) : Prop := s.fatal = none ∧ permitted i s.ctx = true

/-! ### Collaborators that return -/

/-- The header's (unit, op) is SCHED.SCHEDULE's (30_encoding.md R123). -/
def isSchedule (p : Packet) : Bool := decide (headerUnit p.header = 1) && decide (headerOp p.header = 0)

/-- The activation schedules nothing at the cycle it runs at: its only way to schedule is `sched.schedule_in` with a
delay of 1 or more. -/
def schedulesLater {ρ : Type} : Script ρ → Bool
  | .done _ => true
  | .issue p next => !isSchedule p && schedulesLater next
  | .scheduleIn _ d next => decide (d ≠ 0) && schedulesLater next
  | .ifAnswered _ _ yes no => schedulesLater yes && schedulesLater no
  | .ifKind _ yes no => schedulesLater yes && schedulesLater no
  | .ifFire _ yes no => schedulesLater yes && schedulesLater no
  | .ifPriv _ _ yes no => schedulesLater yes && schedulesLater no
  | .ifHalted _ yes no => schedulesLater yes && schedulesLater no

/-- Every way the activation can return satisfies p. -/
def returnsAll {ρ : Type} (p : ρ → Bool) : Script ρ → Bool
  | .done r => p r
  | .issue _ next => returnsAll p next
  | .scheduleIn _ _ next => returnsAll p next
  | .ifAnswered _ _ yes no => returnsAll p yes && returnsAll p no
  | .ifKind _ yes no => returnsAll p yes && returnsAll p no
  | .ifFire _ yes no => returnsAll p yes && returnsAll p no
  | .ifPriv _ _ yes no => returnsAll p yes && returnsAll p no
  | .ifHalted _ yes no => returnsAll p yes && returnsAll p no

/-- In private state i the handler returns, to a private state it has an activation for. What it does in the private
states below m is free, but that each leads to a later one; from m on it schedules nothing at its own cycle, and stays
there. -/
def rowMovesOn (m n i : Nat) (a : Script Nat) : Bool :=
  if i < m then returnsAll (fun q => decide (i < q ∧ q < n)) a
  else schedulesLater a && returnsAll (fun q => decide (m ≤ q ∧ q < n)) a

/-- The handler returns whenever it is called, and after finitely many calls schedules nothing at its own cycle any more:
every advance then ends (41_scheduler.md R150). -/
def handlerMovesOn (h : HandlerCollab) : Bool :=
  decide (h.priv < h.table.length) &&
    (List.range (h.table.length + 1)).any fun m => h.table.zipIdx.all fun p => rowMovesOn m h.table.length p.2 p.1

/-- Every private state that a step of CPU x can leave has its row. -/
def leavesRows (x : Cpu) (c : Collab) (r : CpuReturn) : Bool :=
  decide (r.next < (perCpu c.cpu x).table.length) && r.devices.all (fun q => decide (q < c.handler.table.length)) &&
    r.other.all (fun q => decide (q < (perCpu c.cpu x.other).table.length))

/-- CPU x returns from every step, and leaves every collaborator in a private state it returns from. -/
def cpuReturns (x : Cpu) (c : Collab) : Bool :=
  decide ((perCpu c.cpu x).priv < (perCpu c.cpu x).table.length) &&
    (perCpu c.cpu x).table.all (returnsAll (leavesRows x c))

/-- Every collaborator returns whenever it is called, and the handler does not reschedule with period 0 for ever: the
commands then always end (log 7). -/
def collabReturns (s : State) : Bool :=
  handlerMovesOn s.collab.handler && cpuReturns .fast s.collab && cpuReturns .slow s.collab

/-- The advance to T dispatches for ever, had sequence numbers no end: however many dispatches it has made, the next is
due, and none was fatal (41_scheduler.md R150). -/
def endless (T : Cycle) (s : State) : Prop :=
  ∀ fuel, goesOnAfter fuel T { s with inDispatch := true } = true

/-! ### Where a command stands, and what of it never ends -/

/-- The dispatches of an advance to T lead from s to t, each returning without a fatal error (41_scheduler.md R141). -/
inductive dispatchesTo (T : Cycle) : State → State → Prop where
  | refl (s : State) : dispatchesTo T s s
  | step {s s' t : State} {e : Event} {later : List Event} (pending : s.queue = e :: later) (due : e.fire ≤ T)
      (returns : dispatch issuePacket e.kind e.fire { s with queue := later, now := e.fire } = .ok s')
      (good : s'.fatal = none) (next : dispatchesTo T s' t) : dispatchesTo T s t

/-- The SLOW loop's steps lead from s to t (44_clock.md R233 step 3). -/
inductive slowStepsTo : State → State → Prop where
  | refl (s : State) : slowStepsTo s s
  | step {s s' t : State} {c : Word} (behind : leadNonneg s = true) (ends : cpuStep .slow s = .ok (s', some c))
      (next : slowStepsTo (subLead c s') t) : slowStepsTo s t

/-- CLK.RUN's orchestration steps lead from s to t (R234). -/
inductive orchStepsTo (target : Cycle) : State → State → Prop where
  | refl (s : State) : orchStepsTo target s s
  | step {s s' t : State} {m : Nat} (before : s.tFast < target) (ends : orchStep s = .ok (s', some m))
      (next : orchStepsTo target s' t) : orchStepsTo target s t

/-- The advance to T from s never ends: a handler that is called in one of its dispatches never returns, or they go on for
ever (R150). -/
inductive advanceStuck (T : Cycle) (s : State) : Fault → Prop where
  | handler {t : State} (reached : dispatchesTo T { s with inDispatch := true } t) (due : isDue T t = true)
      (never : t.collab.handler.table[t.collab.handler.priv]? = none) : advanceStuck T s .handlerNeverReturns
  | endless (goesOn : endless T s) : advanceStuck T s .advanceNeverEnds

/-- CPU x's step from s never ends: the advance before its instruction, or CPU x, running or woken. -/
inductive cpuStepStuck (x : Cpu) (s : State) : Fault → Prop where
  | advance {f : Fault} (never : advanceStuck (absTime x s) s f) : cpuStepStuck x s f
  | cpu {s' : State} {n : Nat} (advanced : advanceTo (absTime x s) s = .ok (s', n)) (good : s'.fatal = none)
      (runs : (cpuCollab x s').halted = false ∨ wakes x s' = true)
      (never : (cpuCollab x s').table[(cpuCollab x s').priv]? = none) : cpuStepStuck x s (.cpuNeverReturns x)

/-- An orchestration step from s never ends: its FAST step, or a SLOW step after it. -/
inductive orchStuck (s : State) (f : Fault) : Prop where
  | fast (never : cpuStepStuck .fast s f) : orchStuck s f
  | slow {s' t : State} {c : Word} (ends : cpuStep .fast s = .ok (s', some c)) (reached : slowStepsTo (addLead c s') t)
      (behind : leadNonneg t = true) (never : cpuStepStuck .slow t f) : orchStuck s f

/-- What a collaborator does in each private state q < n, given as any function of it. -/
def tableOf {ρ : Type} (n : Nat) (f : Nat → Script ρ) : List (Script ρ) := (List.range n).map f

/-- What a collaborator does next as any function of the last answer, over the answers that can come. -/
def afterAnswer {ρ : Type} (answers : List (Word × List Word)) (f : Word × List Word → Script ρ) (otherwise : Script ρ) :
    Script ρ :=
  answers.foldr (fun a no => .ifAnswered a.1 a.2 (f a) no) otherwise

/-- What the handler does as any function of the call it is given, over the kinds and fire cycles that can come. -/
def afterCall {ρ : Type} (kinds : List Kind) (fires : List Cycle) (f : Kind → Cycle → Script ρ) (otherwise : Script ρ) :
    Script ρ :=
  kinds.foldr (fun k no => .ifKind k (fires.foldr (fun t no => .ifFire t (f k t) no) otherwise) no) otherwise

/-- What a collaborator does as any function of the private state in a part, over the private states that can stand there. -/
def afterPriv {ρ : Type} (p : Part) (privs : List Nat) (f : Nat → Script ρ) (otherwise : Script ρ) : Script ρ :=
  privs.foldr (fun q no => .ifPriv p q (f q) no) otherwise

/-! ### The invariant -/

/-- Q is in the event order, so that its head is min(Q) and no two events share a key (10_state.md R37, R40). -/
def queueOrdered (q : List Event) : Prop := q.Pairwise (fun a b => eventBefore a b = true)

/-- No two events of q carry the same sequence number (10_state.md R37). -/
def distinctSeqs (q : List Event) : Prop := q.Pairwise (fun a b => a.seq ≠ b.seq)

/-- What stands between commands of every machine that construction made without a fatal error. -/
structure MachineInv (s : State) : Prop where
  /-- 10_state.md R62 -/
  ctxHost : s.ctx = .host
  /-- 10_state.md R39 -/
  notDispatching : s.inDispatch = false
  /-- 10_state.md R37, R40 -/
  ordered : queueOrdered s.queue
  /-- Every pending event has fire ≥ now (41_scheduler.md R145). -/
  future : ∀ e ∈ s.queue, s.now ≤ e.fire
  /-- 10_state.md R38 -/
  seqs : ∀ e ∈ s.queue, e.seq < s.nextSeq
  /-- 10_state.md R37 -/
  distinct : distinctSeqs s.queue
  /-- No pending event has a reserved kind (30_encoding.md R118, R124). -/
  kinds : ∀ e ∈ s.queue, kindWellFormed e.kind = true
  /-- 41_scheduler.md R151 -/
  bound : s.queue.length ≤ s.cfg.queueCapacity
  /-- Backing memory is canonical (log 14). -/
  memory : memoryWf s.cfg s.backing = true
  /-- 20_memory.md R73 -/
  windows : ∀ r ∈ s.regions, windowWellFormed r = true
  /-- 20_memory.md R74 -/
  disjoint : anyOverlap s.regions = false
  /-- s64(L) = t_fast - R × t_slow (10_state.md R45). -/
  leadEq : s.lead.toInt = (s.tFast.toNat : Int) - 2 * (s.tSlow.toNat : Int)
  /-- Every SLOW cost is below 2^32, so L ≥ -R × s_max (44_clock.md R240). -/
  leadLow : -(2 ^ 33) < s.lead.toInt
  /-- Every FAST cost is below 2^32, so L ≤ c_max - 1 (44_clock.md R240). -/
  leadHigh : s.lead.toInt < 2 ^ 32
  /-- The SLOW loop ends with L < 0, and L is 0 before the first step; only a fatal error leaves it unfinished. -/
  leadSettled : s.fatal = none → s.lead.toInt ≤ 0
  /-- R × t_slow is a 64-bit time (44_clock.md R231). -/
  slowTime : 2 * s.tSlow.toNat < 2 ^ 64

/-- The scheduler part of the machine's invariant (41_scheduler.md R145, R151, 10_state.md R37, R38). -/
structure SchedInv (s : State) : Prop where
  ordered : queueOrdered s.queue
  future : ∀ e ∈ s.queue, s.now ≤ e.fire
  seqs : ∀ e ∈ s.queue, e.seq < s.nextSeq
  distinct : distinctSeqs s.queue
  kinds : ∀ e ∈ s.queue, kindWellFormed e.kind = true
  bound : s.queue.length ≤ s.cfg.queueCapacity

/-- Scheduler time has passed neither CPU's start time: so in runs the host drives by CLK.STEP and CLK.RUN
(44_clock.md R237, R239). -/
def onTime (s : State) : Prop := s.now.toNat ≤ s.tFast.toNat ∧ s.now.toNat ≤ 2 * s.tSlow.toNat

/-- The dispatches among what the handler has heard, in order. -/
def callsOf (ms : List Msg) : List (Kind × Cycle) :=
  ms.filterMap (fun m => match m with
    | .call k t => some (k, t)
    | .response _ => none)

/-! ### The opcode table -/

/-- A row of 30_encoding.md R123: the header's `match` under its `mask`, and the number k of operand words. -/
structure OpcodeRow where
  mnemonic : String
  pattern : Word
  mask : Word
  operands : Nat
deriving DecidableEq, Repr

/-- R123, row by row. -/
def opcodeRows : List OpcodeRow :=
  [ ⟨"SCHED.SCHEDULE", 0x10000000, 0xFF00FFFF, 2⟩, ⟨"SCHED.ADVANCE", 0x11000000, 0xFFFFFFFF, 2⟩,
    ⟨"SCHED.PEEK", 0x12000000, 0xFFFFFFFF, 0⟩, ⟨"SCHED.NOW", 0x13000000, 0xFFFFFFFF, 0⟩,
    ⟨"BUS.READ", 0x20000000, 0xFF0FFFFF, 1⟩, ⟨"BUS.WRITE", 0x21000000, 0xFF0FFFFF, 2⟩,
    ⟨"BUS.EXEC", 0x22000000, 0xFF0FFFFF, 1⟩, ⟨"IC.REQUEST", 0x30000000, 0xFF60FFFF, 0⟩,
    ⟨"IC.ACK", 0x31000000, 0xFF60FFFF, 0⟩, ⟨"IC.SET_IE", 0x32000000, 0xFF7FFFFF, 1⟩,
    ⟨"IC.SET_IME", 0x33000000, 0xFF7FFFFE, 0⟩, ⟨"IC.ASSERTED", 0x34000000, 0xFF7FFFFF, 0⟩,
    ⟨"IC.READ_IE", 0x35000000, 0xFF7FFFFF, 0⟩, ⟨"IC.READ_IF", 0x36000000, 0xFF7FFFFF, 0⟩,
    ⟨"IC.READ_IME", 0x37000000, 0xFF7FFFFF, 0⟩, ⟨"CLK.STEP", 0x40000000, 0xFFFFFFFF, 0⟩,
    ⟨"CLK.RUN", 0x41000000, 0xFFFFFFFF, 2⟩, ⟨"CLK.READ_LEAD", 0x42000000, 0xFFFFFFFF, 0⟩,
    ⟨"CLK.READ_TIME", 0x43000000, 0xFF7FFFFF, 0⟩ ]

/-- The header matches the row (R115). -/
def OpcodeRow.accepts (r : OpcodeRow) (h : Word) : Prop := h &&& r.mask = r.pattern

/-! ### Responses -/

/-- The words of a message that is a response. -/
def responseOf : Option Msg → Option (List Word)
  | some (.response ws) => some ws
  | some (.call _ _) => none
  | none => none

/-! ### Classes of commands -/

/-- CLK.STEP and CLK.RUN: the commands that run CPU steps. -/
def stepsCpus : Instr → Prop
  | .clkStep => True
  | .clkRun _ => True
  | _ => False

/-- The controller an IC command names (10_state.md R53). -/
def controllerOf : Instr → Option Cpu
  | .icRequest x _ => some x
  | .icAck x _ => some x
  | .icSetIe x _ => some x
  | .icSetIme x _ => some x
  | .icAsserted x => some x
  | .icReadIe x => some x
  | .icReadIf x => some x
  | .icReadIme x => some x
  | _ => none

/-- The requester a bus command names (30_encoding.md R120). -/
def requesterOf : Instr → Option Cpu
  | .busRead x _ _ _ => some x
  | .busWrite x _ _ _ _ => some x
  | .busExec x _ _ _ => some x
  | _ => none

/-- The last response sent to the collaborator, or to the host, whose context is running (30_encoding.md R116). -/
def lastResponse (s : State) : Option (List Word) :=
  match s.ctx with
  | .host => s.host.responses.getLast?
  | .cpu _ => responseOf (heardOf s).getLast?
  | .handler => responseOf (heardOf s).getLast?

/-! ### Quiet collaborators, and commands in a row -/

/-- Every step of CPU x costs c and issues no command: x is halted and nothing wakes it (44_clock.md R232), or it
repeats a step that does nothing but cost c. -/
def quietCpu (x : Cpu) (c : Word) (s : State) : Prop :=
  ((cpuCollab x s).halted = true ∧ wakes x s = false ∧ c = s.cfg.haltStepCost) ∨
    ((cpuCollab x s).halted = false ∧
      (cpuCollab x s).table[(cpuCollab x s).priv]? = some (.done ⟨c, false, (cpuCollab x s).priv, none, none⟩))

/-- The later of two times. -/
def laterOf (a b : Cycle) : Cycle := if a < b then b else a

/-- The state after commands in a row, each of which gives a next state. -/
def runAll : List Instr → State → Option State
  | [], s => some s
  | i :: is, s =>
    match exec i s with
    | .next t => runAll is t
    | .fault _ => none
    | .refused _ => none

end Sys2Proof.Machine
end

