-- ==== Sys2Proof/Certificates/Slice0/Obligations.lean ====
section
/-! DEFINITION. The statements about the model, for the provers. Each docstring names the rule of spec/ it formalises.
A response sent by `answer` is the last state change of a command, so `exec i s = .next (answer st ws t)` says the whole
next state: what t changes, the response, and nothing else. -/

open Sys2Proof Sys2Proof.Machine

/-! ## Encoding (30_encoding.md) -/

/-- R123 with R118 to R122 and R127: headers and operands written out from the formats decode to their commands. -/
def Obligations.SpecWordsDecode : Prop :=
  decodeWords [0x10610000, 0x00000010, 0x00000001] = .ok (.schedSchedule 0x61 0x100000010, []) ∧
  decodeWords [0x11000000, 0xFFFFFFFF, 0xFFFFFFFF] = .ok (.schedAdvance 0xFFFFFFFFFFFFFFFF, []) ∧
  decodeWords [0x12000000, 7] = .ok (.schedPeek, [7]) ∧
  decodeWords [0x20D00000, 0x02000004] = .ok (.busRead .slow .word true 0x02000004, []) ∧
  decodeWords [0x21200000, 0x04000000, 0xAABBCCDD] = .ok (.busWrite .fast .half false 0x04000000 0xAABBCCDD, []) ∧
  decodeWords [0x22100000, 1] = .ok (.busExec .fast .byte true 1, []) ∧
  decodeWords [0x309F0000] = .ok (.icRequest .slow 31, []) ∧
  decodeWords [0x31030000] = .ok (.icAck .fast 3, []) ∧
  decodeWords [0x33800001] = .ok (.icSetIme .slow true, []) ∧
  decodeWords [0x41000000, 4, 0] = .ok (.clkRun 4, []) ∧
  decodeWords [0x43800000] = .ok (.clkReadTime .slow, [])

/-- R110, R113, R114: every command's words decode to it, whatever follows them. -/
def Obligations.DecodeEncodeRoundTrip : Prop :=
  ∀ (i : Instr) (rest : List Word), i.wellFormed = true → decodeWords (encode i ++ rest) = .ok (i, rest)

/-- R110, R113: a packet that decodes is its command's header and operand words, the command is well-formed, and what
stands behind the k operand words is not read. -/
def Obligations.DecodedPacketIsTheEncoding : Prop :=
  ∀ (p : Packet) (i : Instr), decode p = .ok i →
    i.wellFormed = true ∧ encodeHeader i = p.header ∧
      encodeOperands i = [p.op1, p.op2].take (operandCount p.header) ∧ (encodeOperands i).length = operandCount p.header

/-- R113, R115, R123, R124: a header is reserved exactly if it matches no row of the table, or is of BUS width 0b11, or a
SCHED.SCHEDULE of kclass 5, 6 or 7; no header matches two rows; k is the row's; and a reserved header raises
RESERVED_ENCODING before any state changes: on the port, and from a collaborator. -/
def Obligations.ReservedEncodingsAreFatal : Prop :=
  (∀ p : Packet, (∃ i, decode p = .ok i) ↔
    ∃ r ∈ opcodeRows, r.accepts p.header ∧ (headerUnit p.header = 2 → headerWidth p.header ≠ 3) ∧
      (r.mnemonic = "SCHED.SCHEDULE" → (headerKind p.header).toNat / 32 < 5)) ∧
  (opcodeRows.Pairwise fun a b => ∀ h, ¬(a.accepts h ∧ b.accepts h)) ∧
  (∀ h, ∀ r ∈ opcodeRows, r.accepts h → operandCount h = r.operands) ∧
  (∀ (p : Packet) (e : DecodeError) (s : State), decode p = .error e → s.fatal = none →
    issuePacket p s = answer (.fatal .reservedEncoding) [] { s with fatal := some .reservedEncoding } ∧
    ∀ ps, s.host.pending = p :: ps →
      step s = .next (answer (.fatal .reservedEncoding) []
        { s with fatal := some .reservedEncoding, host := { s.host with pending := ps } }))

/-- R110, R126: a step takes the next packet off the port and runs the command it decodes to. With no packet on the port
nothing happens (the model's choice, log 1). -/
def Obligations.StepRunsDecodedInstruction : Prop :=
  (∀ (s : State) (p : Packet) (ps : List Packet) (i : Instr), s.host.pending = p :: ps → decode p = .ok i →
    step s = exec i { s with host := { s.host with pending := ps } }) ∧
  (∀ s : State, s.host.pending = [] → step s = .next s)

/-! ## Responses, fatal errors, contexts (30_encoding.md, 60_exceptions.md) -/

/-- R116: a response goes to the command's issuer, word 0 being the status code: to the host, or to the collaborator
whose context is running; nothing else changes. -/
def Obligations.ResponsesGoToTheIssuer : Prop :=
  ∀ (st : Status) (ws : List Word) (s : State),
    (s.ctx = .host →
      answer st ws s = { s with host := { s.host with responses := s.host.responses ++ [st.code :: ws] } }) ∧
    (∀ x, s.ctx = .cpu x →
      answer st ws s =
        setCpuCollab x { cpuCollab x s with heard := (cpuCollab x s).heard ++ [.response (st.code :: ws)] } s) ∧
    (s.ctx = .handler →
      answer st ws s =
        setHandler { s.collab.handler with heard := s.collab.handler.heard ++ [.response (st.code :: ws)] } s)

/-- R60, R126 (1), R262 (5): while FATAL is set every command answers its code and does nothing. -/
def Obligations.FatalAnswersEveryCommand : Prop :=
  ∀ (i : Instr) (s : State) (c : FatalCode), s.fatal = some c → exec i s = .next (answer (.fatal c) [] s)

/-- R125: which context may issue which command, and what a command of another context does. -/
def Obligations.ContextMatrix : Prop :=
  (∀ c : Ctx,
    (∀ k f, permitted (.schedSchedule k f) c = true) ∧ permitted .schedPeek c = true ∧ permitted .schedNow c = true ∧
    (∀ T, permitted (.schedAdvance T) c = true ↔ c = .host) ∧
    (∀ x w v a, permitted (.busRead x w v a) c = true ↔ c = .host ∨ c = .cpu x) ∧
    (∀ x w v a d, permitted (.busWrite x w v a d) c = true ↔ c = .host ∨ c = .cpu x) ∧
    (∀ x w v a, permitted (.busExec x w v a) c = true ↔ c = .host ∨ c = .cpu x) ∧
    (∀ x n, permitted (.icRequest x n) c = true) ∧
    (∀ x n, permitted (.icAck x n) c = true ↔ c = .host ∨ c = .cpu x) ∧
    (∀ x m, permitted (.icSetIe x m) c = true ↔ c = .host ∨ c = .cpu x) ∧
    (∀ x b, permitted (.icSetIme x b) c = true ↔ c = .host ∨ c = .cpu x) ∧
    (∀ x, permitted (.icAsserted x) c = true ∧ permitted (.icReadIe x) c = true ∧ permitted (.icReadIf x) c = true ∧
      permitted (.icReadIme x) c = true) ∧
    (permitted .clkStep c = true ↔ c = .host) ∧ (∀ T, permitted (.clkRun T) c = true ↔ c = .host) ∧
    permitted .clkReadLead c = true ∧ ∀ x, permitted (.clkReadTime x) c = true) ∧
  (∀ (i : Instr) (s : State), s.fatal = none → permitted i s.ctx = false →
    exec i s = .next (answer (.fatal .illegalContext) [] { s with fatal := some .illegalContext }))

/-- 00_scope.md R14, R263: a command a collaborator issues is the same command, run at once. -/
def Obligations.NestedCommandIsTheCommand : Prop :=
  ∀ (p : Packet) (i : Instr) (s : State), s.ctx ≠ .host → decode p = .ok i → exec i s = .next (issuePacket p s)

/-! ## The scheduler (41_scheduler.md) -/

/-- R140: SCHED.SCHEDULE of a fire that is not past, with room in Q and a sequence number left, inserts one event in
its place in the event order, raises next_seq by 1 and answers the event's number. -/
def Obligations.ScheduleInsertsTheEvent : Prop :=
  ∀ (kind : Kind) (fire : Cycle) (s : State), commandRuns (.schedSchedule kind fire) s → s.now ≤ fire →
    s.queue.length ≠ s.cfg.queueCapacity → s.nextSeq.toNat ≠ 2 ^ 64 - 1 →
    ∃ q : List Event,
      exec (.schedSchedule kind fire) s =
        .next (answer .ok [loWord s.nextSeq, hiWord s.nextSeq] { s with queue := q, nextSeq := s.nextSeq + 1 }) ∧
      (∀ e, e ∈ q ↔ e = ⟨fire, kind, s.nextSeq⟩ ∨ e ∈ s.queue) ∧ q.length = s.queue.length + 1 ∧
      (queueOrdered s.queue → (∀ e ∈ s.queue, e.seq < s.nextSeq) → queueOrdered q)

/-- R140: SCHED.SCHEDULE's three failures, in the order of the checks; only FATAL changes (R262). -/
def Obligations.ScheduleFails : Prop :=
  ∀ (kind : Kind) (fire : Cycle) (s : State), commandRuns (.schedSchedule kind fire) s →
    let fails (c : FatalCode) : Prop :=
      exec (.schedSchedule kind fire) s = .next (answer (.fatal c) [] { s with fatal := some c })
    (fire < s.now → fails .schedulePast) ∧
    (s.now ≤ fire → s.queue.length = s.cfg.queueCapacity → fails .queueFull) ∧
    (s.now ≤ fire → s.queue.length ≠ s.cfg.queueCapacity → s.nextSeq.toNat = 2 ^ 64 - 1 → fails .cycleOverflow)

/-- R142: SCHED.PEEK answers the least pending fire, or EMPTY, and changes nothing. -/
def Obligations.PeekAnswersTheLeastFire : Prop :=
  ∀ s : State, s.fatal = none →
    (s.queue = [] → exec .schedPeek s = .next (answer .empty [] s)) ∧
    (queueOrdered s.queue → ∀ e ∈ s.queue, (∀ e' ∈ s.queue, e.fire ≤ e'.fire) →
      exec .schedPeek s = .next (answer .ok [loWord e.fire, hiWord e.fire] s))

/-- R143, 43_interrupt.md R205 to R207, 44_clock.md R235, R236: each read command answers its field, a 64-bit one low
word first, and changes nothing, in every context. -/
def Obligations.ReadsAnswerTheirField : Prop :=
  ∀ s : State, s.fatal = none →
    exec .schedNow s = .next (answer .ok [loWord s.now, hiWord s.now] s) ∧
    (∀ x, exec (.icReadIe x) s = .next (answer .ok [perCpu s.ie x] s)) ∧
    (∀ x, exec (.icReadIf x) s = .next (answer .ok [perCpu s.iflag x] s)) ∧
    (∀ x, exec (.icReadIme x) s = .next (answer .ok [if perCpu s.ime x then 1 else 0] s)) ∧
    exec .clkReadLead s = .next (answer .ok [loWord s.lead, hiWord s.lead] s) ∧
    exec (.clkReadTime .fast) s = .next (answer .ok [loWord s.tFast, hiWord s.tFast] s) ∧
    exec (.clkReadTime .slow) s = .next (answer .ok [loWord s.tSlow, hiWord s.tSlow] s)

/-- R141: with a handler that issues no command, SCHED.ADVANCE takes every event with fire ≤ T off Q, calls the handler
with each in order, answers how many there were, and leaves `now` at the later of its old value and T. -/
def Obligations.SilentAdvanceExactly : Prop :=
  ∀ (T : Cycle) (s : State), commandRuns (.schedAdvance T) s → s.inDispatch = false →
    s.collab.handler.table[s.collab.handler.priv]? = some (.done s.collab.handler.priv) → queueOrdered s.queue →
    (∀ e ∈ s.queue, s.now ≤ e.fire) →
    let due := s.queue.filter fun e => decide (e.fire ≤ T)
    exec (.schedAdvance T) s = .next (answer .ok [BitVec.ofNat 32 due.length]
      { s with
        now := laterOf s.now T
        queue := s.queue.filter fun e => decide (T < e.fire)
        collab := { s.collab with handler := { s.collab.handler with heard := s.collab.handler.heard ++ due.map fun e => .call e.kind e.fire } } })

/-- R147: the firing law, for every handler: a SCHED.ADVANCE that ends well dispatches, each once and in ascending
(fire, seq) order, exactly the events with fire ≤ T that are pending at entry or inserted during the call; the others
are pending at exit. The events inserted carry the sequence numbers from the old next_seq up to the new one, each number
one event; no event fired or pending at exit is another, and no two of them share a number. -/
def Obligations.AdvanceFiringLaw : Prop :=
  ∀ (T : Cycle) (s t : State), MachineInv s → s.fatal = none → exec (.schedAdvance T) s = .next t → t.fatal = none →
    ∃ fired : List Event,
      callsOf t.collab.handler.heard = callsOf s.collab.handler.heard ++ fired.map (fun e => (e.kind, e.fire)) ∧
      queueOrdered fired ∧ (∀ e ∈ fired, e.fire ≤ T) ∧
      (∀ e ∈ s.queue, if e.fire ≤ T then e ∈ fired else e ∈ t.queue) ∧
      (∀ e, e ∈ fired ∨ e ∈ t.queue → e ∈ s.queue ∨ s.nextSeq ≤ e.seq ∧ e.seq < t.nextSeq) ∧
      (∀ q, s.nextSeq ≤ q → q < t.nextSeq → ∃ e, e.seq = q ∧ (e ∈ fired ∨ e ∈ t.queue)) ∧
      distinctSeqs (fired ++ t.queue) ∧
      fired.length + t.queue.length + s.nextSeq.toNat = s.queue.length + t.nextSeq.toNat ∧
      (∀ e ∈ t.queue, T < e.fire) ∧ t.now = laterOf s.now T ∧
      t.host.responses = s.host.responses ++ [[0, BitVec.ofNat 32 fired.length]]

/-- R149: a handler that schedules kind k again P ≥ 1 cycles after each dispatch of it, k being the one pending event, and
whatever private states q i it goes through: k is dispatched floor((T - first) / P) + 1 times, at first + i P, and left
pending one period after the last. -/
def Obligations.PeriodicEventFires : Prop :=
  ∀ (k : Kind) (P T : Cycle) (e : Event) (q : Nat → Nat) (s : State),
    let n := if e.fire ≤ T then (T.toNat - e.fire.toNat) / P.toNat + 1 else 0
    MachineInv s → s.fatal = none → e.kind = k → 1 ≤ P → s.queue = [e] →
    s.collab.handler.priv = q 0 → (∀ i < n, s.collab.handler.table[q i]? = some (.scheduleIn k P (.done (q (i + 1))))) →
    e.fire.toNat + n * P.toNat < 2 ^ 64 → s.nextSeq.toNat + n < 2 ^ 64 →
    ∃ t, exec (.schedAdvance T) s = .next t ∧ t.fatal = none ∧
      callsOf t.collab.handler.heard =
        callsOf s.collab.handler.heard ++ (List.range n).map (fun i => (k, e.fire + BitVec.ofNat 64 (i * P.toNat))) ∧
      (∃ m : Cycle, t.queue = [⟨e.fire + BitVec.ofNat 64 (n * P.toNat), k, m⟩]) ∧ t.now = laterOf s.now T ∧
      t.collab.handler.priv = q n ∧ t.host.responses = s.host.responses ++ [[0, BitVec.ofNat 32 n]]

/-- R141, R145: SCHED.ADVANCE to a time before every pending fire fires nothing, answers 0 and only raises `now`; a
target before `now` changes nothing at all. -/
def Obligations.AdvanceBeforeEveryFire : Prop :=
  ∀ (T : Cycle) (s : State), MachineInv s → s.fatal = none →
    ((∀ e ∈ s.queue, T < e.fire) →
      exec (.schedAdvance T) s = .next (answer .ok [0] { s with now := laterOf s.now T })) ∧
    (T < s.now → exec (.schedAdvance T) s = .next (answer .ok [0] s))

/-- R262 (2) to (4), R141: what a fatal error in a handler leaves. First, whatever activation the first due dispatch
runs, and whichever of its commands is fatal: the advance ends in the state that command left, the event off Q and `now`
at its fire, and answers the code (that ctx and in_dispatch are as before the command is the model's choice, log 10);
but where the code is CYCLE_OVERFLOW and the advance would go on for ever had sequence numbers no end, it has no end state
(41_scheduler.md R150; log 7). Then, whichever dispatch it is: the events up to its event e have been dispatched, each once and in order, and are off Q;
every other event, of those pending at entry and of those inserted (numbered from the old next_seq up to the new one),
comes after e in the event order and is pending; `now` is at e's fire, and the handler's command and SCHED.ADVANCE both
answered the code. -/
def Obligations.HandlerFatalStopsTheAdvance : Prop :=
  (∀ (T : Cycle) (s u : State) (e : Event) (later : List Event) (a : Script Nat),
    commandRuns (.schedAdvance T) s → s.inDispatch = false → s.queue = e :: later → e.fire ≤ T →
    s.collab.handler.table[s.collab.handler.priv]? = some a →
    runScript a
      { s with
        queue := later
        now := e.fire
        inDispatch := true
        ctx := .handler
        collab := { s.collab with handler := { s.collab.handler with heard := s.collab.handler.heard ++ [.call e.kind e.fire] } } } = (u, none) →
    ∃ c, u.fatal = some c ∧ exec (.schedAdvance T) s =
      if c = .cycleOverflow ∧ goesOn T { s with inDispatch := true } = true then .fault .advanceNeverEnds
      else .next (answer (.fatal c) [] { u with inDispatch := false, ctx := .host })) ∧
  (∀ (T : Cycle) (s t : State) (c : FatalCode), MachineInv s → s.fatal = none →
    exec (.schedAdvance T) s = .next t → t.fatal = some c →
    ∃ (fired : List Event) (e : Event),
      callsOf t.collab.handler.heard =
        callsOf s.collab.handler.heard ++ (fired ++ [e]).map (fun x => (x.kind, x.fire)) ∧
      queueOrdered (fired ++ [e]) ∧
      (∀ x ∈ fired ++ [e], x.fire ≤ T ∧ x ∉ t.queue) ∧ (∀ x ∈ t.queue, eventBefore e x = true) ∧
      (∀ x ∈ s.queue, x ∈ fired ++ [e] ∨ x ∈ t.queue) ∧
      (∀ x, x ∈ fired ++ [e] ∨ x ∈ t.queue → x ∈ s.queue ∨ s.nextSeq ≤ x.seq ∧ x.seq < t.nextSeq) ∧
      (∀ q, s.nextSeq ≤ q → q < t.nextSeq → ∃ x, x.seq = q ∧ (x ∈ fired ++ [e] ∨ x ∈ t.queue)) ∧
      distinctSeqs (fired ++ [e] ++ t.queue) ∧
      (fired ++ [e]).length + t.queue.length + s.nextSeq.toNat = s.queue.length + t.nextSeq.toNat ∧
      t.now = e.fire ∧ t.inDispatch = false ∧ t.ctx = .host ∧
      t.collab.handler.heard.getLast? = some (.response [c.code]) ∧
      t.host = { s.host with responses := s.host.responses ++ [[c.code]] })

/-- R128, R265: `sched.schedule_in kind, d` is SCHED.NOW, then SCHED.SCHEDULE at the answered time plus d; fatal where
that is 2^64 or more. -/
def Obligations.ScheduleInIsNowThenSchedule : Prop :=
  ∀ (kind : Kind) (d : Cycle) (s : State), s.fatal = none → kindWellFormed kind = true →
    let heard := answer .ok [loWord s.now, hiWord s.now] s
    (2 ^ 64 ≤ s.now.toNat + d.toNat →
      scheduleInMove kind d s = answer (.fatal .cycleOverflow) [] { heard with fatal := some .cycleOverflow }) ∧
    (s.now.toNat + d.toNat < 2 ^ 64 →
      exec (.schedSchedule kind (BitVec.ofNat 64 (s.now.toNat + d.toNat))) heard = .next (scheduleInMove kind d s))

/-! ## The bus (20_memory.md, 42_bus.md) -/

/-- R71, R75: in a table that construction accepts, `resolve` finds the containing region of greatest priority, the
only one of that priority, and none exactly where no region contains the address. -/
def Obligations.ResolveFindsGreatestPriority : Prop :=
  ∀ (rs : List Region) (a : Nat), (∀ r ∈ rs, windowWellFormed r = true) → anyOverlap rs = false → a < 2 ^ 32 →
    let holds (r : Region) : Prop := r.base ≤ a ∧ a < r.limit ∧ (a - r.base) % r.period < r.size
    (resolve rs a = none ↔ ∀ r ∈ rs, ¬holds r) ∧
    ∀ i r, resolve rs a = some (i, r) ↔
      rs[i]? = some r ∧ holds r ∧ ∀ j q, rs[j]? = some q → holds q → j ≠ i → q.prio.toNat < r.prio.toNat

/-- R74: the overlap check of construction finds a common address exactly where one exists. -/
def Obligations.OverlapCheckIsExact : Prop :=
  ∀ r q : Region, windowWellFormed r = true → windowWellFormed q = true →
    (overlaps r q = true ↔ ∃ a < 2 ^ 32,
      (r.base ≤ a ∧ a < r.limit ∧ (a - r.base) % r.period < r.size) ∧
        (q.base ≤ a ∧ a < q.limit ∧ (a - q.base) % q.period < q.size))

/-- R76: an aligned access never straddles two regions or a mirror boundary: each of its bytes resolves to its region,
at the next offset. -/
def Obligations.AlignedAccessDoesNotStraddle : Prop :=
  ∀ (rs : List Region) (w : Width) (addr : Word) (k : Nat), (∀ r ∈ rs, windowWellFormed r = true) →
    k < widthBytes w →
    let a := (alignDown w addr).toNat
    resolve rs (a + k) = resolve rs a ∧
      ∀ i r, resolve rs a = some (i, r) →
        regionOffset r (a + k) = regionOffset r a + k ∧ regionOffset r a + widthBytes w ≤ r.size

/-- R80: the address is aligned down to the width, and the dropped bits are ignored, by all three kinds. -/
def Obligations.MisalignedBitsAreIgnored : Prop :=
  (∀ (w : Width) (addr : Word),
    (alignDown w addr).toNat = addr.toNat / widthBytes w * widthBytes w) ∧
  ∀ (x : Cpu) (w : Width) (priv : Bool) (addr addr' data : Word) (s : State),
    addr.toNat / widthBytes w = addr'.toNat / widthBytes w →
    exec (.busRead x w priv addr) s = exec (.busRead x w priv addr') s ∧
      exec (.busWrite x w priv addr data) s = exec (.busWrite x w priv addr' data) s ∧
      exec (.busExec x w priv addr) s = exec (.busExec x w priv addr') s

/-- R81, R170, R175, R176, R180, R182: a read of a readable region, and a fetch from an executable one, that the
privilege allows answers the little-endian value of the bytes and the region's cost, S exactly where the CPU's last
access reached that region; it leaves `last` at the region and changes nothing else. -/
def Obligations.ReadsAndFetchesReturnTheBytes : Prop :=
  ∀ (x : Cpu) (w : Width) (priv : Bool) (addr : Word) (s : State) (i : Nat) (r : Region),
    resolve s.regions (alignDown w addr).toNat = some (i, r) → (r.privOnly = true → priv = true) →
    let o := regionOffset r (alignDown w addr).toNat
    let c := perWidth (perCpu r.cost x) w
    let cost := if perCpu s.last x = some i then c.seq else c.nonseq
    ∃ v : Word,
      v.toNat = ∑ k ∈ Finset.range (widthBytes w), (readBacking s i (o + k)).toNat * 2 ^ (8 * k) ∧
      (commandRuns (.busRead x w priv addr) s → r.readable = true →
        exec (.busRead x w priv addr) s =
          .next (answer .ok [v, cost] { s with last := setPerCpu s.last x (some i) })) ∧
      (commandRuns (.busExec x w priv addr) s → r.executable = true →
        exec (.busExec x w priv addr) s =
          .next (answer .ok [v, cost] { s with last := setPerCpu s.last x (some i) }))

/-- R81, R170, R175, R176, R181: a write to a writable region that the privilege allows stores the data's low bytes,
least significant first, answers the cost and leaves `last` at the region; every other byte, and everything else, is
as it was. -/
def Obligations.WritesStoreTheirBytesOnly : Prop :=
  ∀ (x : Cpu) (w : Width) (priv : Bool) (addr data : Word) (s : State) (i : Nat) (r : Region),
    memoryWf s.cfg s.backing = true → commandRuns (.busWrite x w priv addr data) s →
    resolve s.regions (alignDown w addr).toNat = some (i, r) → (r.privOnly = true → priv = true) → r.writable = true →
    let o := regionOffset r (alignDown w addr).toNat
    let c := perWidth (perCpu r.cost x) w
    let cost := if perCpu s.last x = some i then c.seq else c.nonseq
    ∃ t : State,
      exec (.busWrite x w priv addr data) s = .next (answer .ok [cost] t) ∧
      t = { s with last := setPerCpu s.last x (some i), backing := t.backing } ∧
      (∀ k < widthBytes w, readBacking t i (o + k) = (data >>> (8 * k)).setWidth 8) ∧
      ∀ key, (∀ k < widthBytes w, key ≠ cellKey i (o + k)) → readCell t key = readCell s key

/-- R171: an unmapped access is reported, changes no backing byte, sets last to none, costs UNMAPPED_COST, and answers
the open-bus value for a read or a fetch, which is below 2^(8n) (R177). -/
def Obligations.UnmappedAccess : Prop :=
  ∀ (x : Cpu) (w : Width) (priv : Bool) (addr data : Word) (s : State),
    let a := alignDown w addr
    let c := perWidth (perCpu s.cfg.unmappedCost x) w
    let t (q : Quirk) (k : AccessKind) : State :=
      { s with last := setPerCpu s.last x none, trace := s.trace ++ [⟨q, x, k, w, a, s.now⟩] }
    (openBusValue s.cfg x w a).toNat < 2 ^ (8 * widthBytes w) ∧
    (resolve s.regions a.toNat = none →
      (commandRuns (.busRead x w priv addr) s → exec (.busRead x w priv addr) s =
        .next (answer (.quirk .openBus) [openBusValue s.cfg x w a, c] (t .openBus .read))) ∧
      (commandRuns (.busExec x w priv addr) s → exec (.busExec x w priv addr) s =
        .next (answer (.quirk .openBus) [openBusValue s.cfg x w a, c] (t .openBus .execute))) ∧
      (commandRuns (.busWrite x w priv addr data) s → exec (.busWrite x w priv addr data) s =
        .next (answer (.quirk .unmappedWrite) [c] (t .unmappedWrite .write))))

/-- R172, R268: an unprivileged access to a privileged region, and a fetch the privilege allows from a region that is
not executable, are reported, cost the nonsequential cost, answer the open-bus value for a read or a fetch, and change
nothing but the trace. -/
def Obligations.AccessViolations : Prop :=
  ∀ (x : Cpu) (w : Width) (priv : Bool) (addr data : Word) (s : State) (i : Nat) (r : Region),
    let a := alignDown w addr
    let c := (perWidth (perCpu r.cost x) w).nonseq
    let t (q : Quirk) (k : AccessKind) : State := { s with trace := s.trace ++ [⟨q, x, k, w, a, s.now⟩] }
    resolve s.regions a.toNat = some (i, r) →
    (r.privOnly = true → priv = false →
      (commandRuns (.busRead x w priv addr) s → exec (.busRead x w priv addr) s =
        .next (answer (.quirk .privViolation) [openBusValue s.cfg x w a, c] (t .privViolation .read))) ∧
      (commandRuns (.busExec x w priv addr) s → exec (.busExec x w priv addr) s =
        .next (answer (.quirk .privViolation) [openBusValue s.cfg x w a, c] (t .privViolation .execute))) ∧
      (commandRuns (.busWrite x w priv addr data) s → exec (.busWrite x w priv addr data) s =
        .next (answer (.quirk .privViolation) [c] (t .privViolation .write)))) ∧
    ((r.privOnly = true → priv = true) → r.executable = false → commandRuns (.busExec x w priv addr) s →
      exec (.busExec x w priv addr) s =
        .next (answer (.quirk .execViolation) [openBusValue s.cfg x w a, c] (t .execViolation .execute)))

/-- R173, R174: a read of a region that is not readable answers the open-bus value, and a write to one that is not
writable stores nothing; both are reported, cost the normal cost and leave last at the region. -/
def Obligations.UnreadableAndReadOnlyRegions : Prop :=
  ∀ (x : Cpu) (w : Width) (priv : Bool) (addr data : Word) (s : State) (i : Nat) (r : Region),
    let a := alignDown w addr
    let c := perWidth (perCpu r.cost x) w
    let cost := if perCpu s.last x = some i then c.seq else c.nonseq
    let t (q : Quirk) (k : AccessKind) : State :=
      { s with last := setPerCpu s.last x (some i), trace := s.trace ++ [⟨q, x, k, w, a, s.now⟩] }
    resolve s.regions a.toNat = some (i, r) → (r.privOnly = true → priv = true) →
    (r.readable = false → commandRuns (.busRead x w priv addr) s → exec (.busRead x w priv addr) s =
      .next (answer (.quirk .notReadable) [openBusValue s.cfg x w a, cost] (t .notReadable .read))) ∧
    (r.writable = false → commandRuns (.busWrite x w priv addr data) s → exec (.busWrite x w priv addr data) s =
      .next (answer (.quirk .readonlyWrite) [cost] (t .readonlyWrite .write)))

/-- R97, R94: after a write of v to a readable and writable region, a read of the same width, by either CPU, in any later
state where those bytes stand as the write left them, answers v mod 2^(8n); so does a fetch, where the region is
executable. -/
def Obligations.WriteThenReadRoundTrip : Prop :=
  ∀ (x y : Cpu) (w : Width) (priv priv' : Bool) (addr v : Word) (s t u : State) (i : Nat) (r : Region),
    memoryWf s.cfg s.backing = true → commandRuns (.busWrite x w priv addr v) s →
    resolve s.regions (alignDown w addr).toNat = some (i, r) → r.writable = true → (r.privOnly = true → priv = true ∧ priv' = true) →
    exec (.busWrite x w priv addr v) s = .next t → u.regions = t.regions →
    (∀ k < widthBytes w, readBacking u i (regionOffset r (alignDown w addr).toNat + k) =
      readBacking t i (regionOffset r (alignDown w addr).toNat + k)) →
    (r.readable = true → commandRuns (.busRead y w priv' addr) u → ∃ cost u',
      exec (.busRead y w priv' addr) u =
        .next (answer .ok [BitVec.ofNat 32 (v.toNat % 2 ^ (8 * widthBytes w)), cost] u')) ∧
    (r.executable = true → commandRuns (.busExec y w priv' addr) u → ∃ cost u',
      exec (.busExec y w priv' addr) u =
        .next (answer .ok [BitVec.ofNat 32 (v.toNat % 2 ^ (8 * widthBytes w)), cost] u'))

/-- R82: after a word write, its bytes and halves read as its bits, and a byte write changes only its own bits of a
later word read. -/
def Obligations.MixedWidthView : Prop :=
  ∀ (x : Cpu) (priv : Bool) (addr v : Word) (d : Word) (k : Nat) (s t : State) (i : Nat) (r : Region),
    memoryWf s.cfg s.backing = true → (∀ q ∈ s.regions, windowWellFormed q = true) →
    commandRuns (.busWrite x .word priv addr v) s → addr.toNat % 4 = 0 →
    resolve s.regions addr.toNat = some (i, r) → r.readable = true → r.writable = true →
    (r.privOnly = true → priv = true) → exec (.busWrite x .word priv addr v) s = .next t → k < 4 →
    let at_ (n : Nat) : Word := addr + BitVec.ofNat 32 n
    (∃ cost u, exec (.busRead x .byte priv (at_ k)) t =
      .next (answer .ok [(v >>> (8 * k)) &&& 0xFF#32, cost] u)) ∧
    (∃ cost u, exec (.busRead x .half priv addr) t = .next (answer .ok [v &&& 0xFFFF#32, cost] u)) ∧
    (∃ cost u, exec (.busRead x .half priv (at_ 2)) t = .next (answer .ok [v >>> 16, cost] u)) ∧
    ∃ cost u t', exec (.busWrite x .byte priv (at_ k) d) t = .next t' ∧
      exec (.busRead x .word priv addr) t' = .next (answer .ok
        [(v &&& ~~~(0xFF#32 <<< (8 * k))) ||| ((d &&& 0xFF#32) <<< (8 * k)), cost] u)

/-- R96: where region r contains both a and its mirror a + m, and no region of its priority or above contains either, a
read the region and the privilege allow has the same effect at both. -/
def Obligations.MirrorsReadAlike : Prop :=
  ∀ (x : Cpu) (w : Width) (priv : Bool) (addr addr' : Word) (s : State) (i : Nat) (r : Region),
    let a := (alignDown w addr).toNat
    (alignDown w addr').toNat = a + r.period → s.regions[i]? = some r →
    regionContains r a = true → regionContains r (a + r.period) = true →
    (∀ j q, s.regions[j]? = some q → j ≠ i → regionContains q a = true ∨ regionContains q (a + r.period) = true →
      q.prio.toNat < r.prio.toNat) →
    r.readable = true → (r.privOnly = true → priv = true) → commandRuns (.busRead x w priv addr) s →
    regionOffset r (a + r.period) = regionOffset r a ∧
      exec (.busRead x w priv addr) s = exec (.busRead x w priv addr') s ∧
      ∃ v cost, exec (.busRead x w priv addr) s =
        .next (answer .ok [v, cost] { s with last := setPerCpu s.last x (some i) })

/-- R307, R175: one CPU's bus command leaves the other's tracker as it was, and answers and does the same whatever that
tracker is. After it, every bus command of the other CPU, issued in any context, answers the same status and the same cost
as it would have before, and leaves its tracker the same; it answers the same words altogether where the bytes it reaches
stand as before. -/
def Obligations.NoCrossCpuContention : Prop :=
  ∀ (i : Instr) (x y : Cpu) (s t : State), requesterOf i = some x → y ≠ x → exec i s = .next t →
    perCpu t.last y = perCpu s.last y ∧
    (∀ v, exec i { s with last := setPerCpu s.last y v } = .next { t with last := setPerCpu t.last y v }) ∧
    (t.fatal = none → ∀ (c : Ctx) (j : Instr) (w : Width) (priv : Bool) (addr data : Word),
      j = .busRead y w priv addr ∨ j = .busWrite y w priv addr data ∨ j = .busExec y w priv addr →
      ∃ (before after : State) (ws ws' : List Word),
        exec j { s with ctx := c } = .next before ∧ exec j { t with ctx := c } = .next after ∧
        lastResponse before = some ws ∧ lastResponse after = some ws' ∧
        ws'.length = ws.length ∧ ws'.head? = ws.head? ∧ ws'.getLast? = ws.getLast? ∧
        perCpu after.last y = perCpu before.last y ∧
        ((∀ n r, resolve s.regions (alignDown w addr).toNat = some (n, r) →
            readBytes t n (regionOffset r (alignDown w addr).toNat) (widthBytes w) =
              readBytes s n (regionOffset r (alignDown w addr).toNat) (widthBytes w)) → ws' = ws))

/-! ## The interrupt controllers (43_interrupt.md) -/

/-- R200, R201: IC.REQUEST sets bit src of IF[x], IC.ACK clears it, whatever IE and IME hold; every other bit of IF[x],
the other CPU's IF, and everything else, is as it was. -/
def Obligations.RequestAndAckOneLatch : Prop :=
  ∀ (x : Cpu) (src : BitVec 5) (s : State),
    (commandRuns (.icRequest x src) s → ∃ f : Word,
      exec (.icRequest x src) s = .next (answer .ok [] { s with iflag := setPerCpu s.iflag x f }) ∧
      ∀ n < 32, f.getLsbD n = (decide (n = src.toNat) || (perCpu s.iflag x).getLsbD n)) ∧
    (commandRuns (.icAck x src) s → ∃ f : Word,
      exec (.icAck x src) s = .next (answer .ok [] { s with iflag := setPerCpu s.iflag x f }) ∧
      ∀ n < 32, f.getLsbD n = (!decide (n = src.toNat) && (perCpu s.iflag x).getLsbD n))

/-- R202, R203: IC.SET_IE writes all 32 bits of IE[x], IC.SET_IME writes IME[x]; nothing else changes. -/
def Obligations.EnablesAreWrittenWhole : Prop :=
  ∀ (x : Cpu) (mask : Word) (val : Bool) (s : State),
    (commandRuns (.icSetIe x mask) s → exec (.icSetIe x mask) s =
      .next (answer .ok [] { s with ie := setPerCpu s.ie x mask })) ∧
    (commandRuns (.icSetIme x val) s → exec (.icSetIme x val) s =
      .next (answer .ok [] { s with ime := setPerCpu s.ime x val }))

/-- R204: IC.ASSERTED answers 1 exactly where IME[x] is set and some source is latched and enabled; it changes nothing. -/
def Obligations.AssertedLine : Prop :=
  ∀ (x : Cpu) (s : State), s.fatal = none →
    ((perCpu s.ime x = true ∧ ∃ n < 32, (perCpu s.ie x).getLsbD n = true ∧ (perCpu s.iflag x).getLsbD n = true) →
      exec (.icAsserted x) s = .next (answer .ok [1] s)) ∧
    (¬(perCpu s.ime x = true ∧ ∃ n < 32, (perCpu s.ie x).getLsbD n = true ∧ (perCpu s.iflag x).getLsbD n = true) →
      exec (.icAsserted x) s = .next (answer .ok [0] s))

/-- R208: after IC.ACK the flag bit is 0; if it was the only pending and enabled source the line is low; and the line is
low only if IME is 0 or no enabled source is left. -/
def Obligations.AcknowledgeLaw : Prop :=
  ∀ (x : Cpu) (src : BitVec 5) (s : State), commandRuns (.icAck x src) s →
    ∃ t : State, exec (.icAck x src) s = .next t ∧ (perCpu t.iflag x).getLsbD src.toNat = false ∧
      t.ie = s.ie ∧ t.ime = s.ime ∧
      (perCpu t.ime x = true → (asserted x t = false ↔ perCpu t.ie x &&& perCpu t.iflag x = 0)) ∧
      ((∀ n < 32, n ≠ src.toNat → (perCpu s.ie x &&& perCpu s.iflag x).getLsbD n = false) → asserted x t = false)

/-- 10_state.md R53: a command that names controller x neither writes nor reads the other CPU's IE, IF and IME. -/
def Obligations.ControllersAreIndependent : Prop :=
  ∀ (i : Instr) (x y : Cpu) (e f : Word) (m : Bool) (s t : State), controllerOf i = some x → y ≠ x →
    exec i s = .next t →
    perCpu t.ie y = perCpu s.ie y ∧ perCpu t.iflag y = perCpu s.iflag y ∧ perCpu t.ime y = perCpu s.ime y ∧
      exec i { s with ie := setPerCpu s.ie y e, iflag := setPerCpu s.iflag y f, ime := setPerCpu s.ime y m } =
        .next { t with ie := setPerCpu t.ie y e, iflag := setPerCpu t.iflag y f, ime := setPerCpu t.ime y m }

/-- R128: `ic.ack_mask x, m` clears exactly the bits of m, with one response for each of them; `ic.enable x, m` sets IE[x]
to m and IME[x], with two responses; nothing else changes. -/
def Obligations.InterruptPseudoCommands : Prop :=
  ∀ (x : Cpu) (m : Word) (s : State), s.fatal = none → s.ctx = .host →
    runAll (ackMask x m) s = some
      { s with
        iflag := setPerCpu s.iflag x (perCpu s.iflag x &&& ~~~m)
        host := { s.host with responses := s.host.responses ++ List.replicate ((List.range 32).filter fun n => m.getLsbD n).length [0] } } ∧
    runAll (icEnable x m) s = some
      { s with
        ie := setPerCpu s.ie x m
        ime := setPerCpu s.ime x true
        host := { s.host with responses := s.host.responses ++ [[0], [0]] } }

/-! ## The clock (44_clock.md) -/

/-- R210, R231, R232: a halted CPU that its wake condition does not wake costs HALT_STEP_COST and issues nothing; the
condition is, by WAKE_REQUIRES_IME, the line asserted(x), or any source latched and enabled. A CPU that is woken, or not
halted, runs the activation of its private state, of whatever form, in context CPU(x). Where that returns, the step has its
cost, the CPU is halted, and in the private state, as it says, and so are the device registers and the other CPU's private
state where it writes them; where a command of it is fatal, the step ends there (the collaborator's form is the model's
choice, logs 5, 17 and 28). -/
def Obligations.HaltedCpuAndItsWakeUp : Prop :=
  ∀ (x : Cpu) (s : State),
    (wakes x s = true ↔
      (s.cfg.wakeRequiresIme = true → perCpu s.ime x = true) ∧
        ∃ n < 32, (perCpu s.ie x).getLsbD n = true ∧ (perCpu s.iflag x).getLsbD n = true) ∧
    ((cpuCollab x s).halted = true → wakes x s = false →
      executeInstruction x s = .ok (s, some s.cfg.haltStepCost)) ∧
    ((cpuCollab x s).halted = false ∨ wakes x s = true →
      (∀ a, (cpuCollab x s).table[(cpuCollab x s).priv]? = some a →
        let start := setCpuCollab x { cpuCollab x s with halted := false } { s with ctx := .cpu x }
        (∀ u r, runScript a start = (u, some r) → u.fatal = s.fatal ∧ executeInstruction x s =
          .ok ({ u with
              ctx := s.ctx
              collab :=
                { cpu := setPerCpu (setPerCpu u.collab.cpu x { cpuCollab x u with halted := r.halt, priv := r.next })
                    x.other { cpuCollab x.other u with priv := r.other.getD (cpuCollab x.other u).priv }
                  handler := { u.collab.handler with priv := r.devices.getD u.collab.handler.priv } } },
            some r.cost)) ∧
        (∀ u, runScript a start = (u, none) →
          u.fatal.isSome = true ∧ executeInstruction x s = .ok ({ u with ctx := s.ctx }, none))) ∧
      ((cpuCollab x s).table[(cpuCollab x s).priv]? = none →
        executeInstruction x s = .error (.cpuNeverReturns x)))

/-- R231, R265: how a CPU step that returned cost c ends: ZERO_COST; CYCLE_OVERFLOW where its time in fast units would
pass 2^64 - 1; else its own time counter moves on by c, and nothing else. -/
def Obligations.CpuStepCost : Prop :=
  ∀ (c : Word) (s : State),
    (∀ x, c = 0 → finishStep x c s = ({ s with fatal := some .zeroCost }, none)) ∧
    (c ≠ 0 → 2 ^ 64 ≤ s.tFast.toNat + c.toNat →
      finishStep .fast c s = ({ s with fatal := some .cycleOverflow }, none)) ∧
    (c ≠ 0 → 2 ^ 64 ≤ 2 * (s.tSlow.toNat + c.toNat) →
      finishStep .slow c s = ({ s with fatal := some .cycleOverflow }, none)) ∧
    (c ≠ 0 → s.tFast.toNat + c.toNat < 2 ^ 64 →
      finishStep .fast c s = ({ s with tFast := s.tFast + c.setWidth 64 }, some c)) ∧
    (c ≠ 0 → 2 * (s.tSlow.toNat + c.toNat) < 2 ^ 64 →
      finishStep .slow c s = ({ s with tSlow := s.tSlow + c.setWidth 64 }, some c))

/-- R231, R237: a CPU step whose start time the scheduler has not passed begins with the scheduler at exactly that time
and nothing due left, before the CPU's instruction, be it the first step of an orchestration step or a SLOW step within
one. And the start times follow one another: FAST's step from a settled state (t_fast ≤ 2 t_slow), and every SLOW step,
leave the scheduler at or before SLOW's next start time, and a SLOW step that started at or before t_fast leaves it at or
before FAST's. -/
def Obligations.CpuStepStartsOnTime : Prop :=
  ∀ s : State, SchedInv s → s.inDispatch = false → s.fatal = none → 2 * s.tSlow.toNat < 2 ^ 64 →
    (∀ (x : Cpu) (s1 : State) (n : Nat), s.now ≤ absTime x s →
      advanceTo (absTime x s) s = .ok (s1, n) → s1.fatal = none →
      s1.now = absTime x s ∧ (∀ e ∈ s1.queue, s1.now < e.fire) ∧ absTime x s1 = absTime x s ∧
        cpuStep x s = (match executeInstruction x s1 with
          | .error f => .error f
          | .ok (s2, none) => .ok (s2, none)
          | .ok (s2, some c) => .ok (finishStep x c s2))) ∧
    (∀ (t : State) (c : Word), s.now ≤ absTime .fast s → s.tFast.toNat ≤ 2 * s.tSlow.toNat →
      cpuStep .fast s = .ok (t, some c) → t.now = absTime .fast s ∧ t.now ≤ absTime .slow t) ∧
    (∀ (t : State) (c : Word), s.now ≤ absTime .slow s → cpuStep .slow s = .ok (t, some c) →
      t.now = absTime .slow s ∧ t.now ≤ absTime .slow t ∧
        (2 * s.tSlow.toNat ≤ s.tFast.toNat → t.now ≤ absTime .fast t))

/-- R125, 10_state.md R53, R58, R43: what an instruction of CPU x cannot touch: times, L, the other CPU's enables and
tracker, and the configuration; of the other CPU's IF it can only set bits. -/
def Obligations.CpuStepIsolation : Prop :=
  ∀ (x y : Cpu) (s t : State) (r : Option Word), s.fatal = none → y ≠ x → executeInstruction x s = .ok (t, r) →
    t.now = s.now ∧ t.tFast = s.tFast ∧ t.tSlow = s.tSlow ∧ t.lead = s.lead ∧ t.inDispatch = s.inDispatch ∧
      t.regions = s.regions ∧ t.cfg = s.cfg ∧ t.ctx = s.ctx ∧ t.host = s.host ∧
      perCpu t.ie y = perCpu s.ie y ∧ perCpu t.ime y = perCpu s.ime y ∧ perCpu t.last y = perCpu s.last y ∧
      (∀ n, (perCpu s.iflag y).getLsbD n = true → (perCpu t.iflag y).getLsbD n = true) ∧
      (r.isSome = true ↔ t.fatal = none)

/-- R233: CLK.STEP, exactly, where no event is pending and every step of FAST costs cf and of SLOW costs cs and issues
nothing (R232: a halted CPU's step is such a step): one FAST step, L raised by cf, then SLOW steps while L ≥ 0, each
lowering L by 2 cs. -/
def Obligations.ClkStepOfQuietCpus : Prop :=
  ∀ (cf cs : Word) (s : State), MachineInv s → s.fatal = none → s.queue = [] → quietCpu .fast cf s → quietCpu .slow cs s →
    cf ≠ 0 → cs ≠ 0 → s.tFast.toNat + 2 ^ 34 ≤ 2 ^ 64 →
    let lead := s.lead.toInt + cf.toNat
    let m := if 0 ≤ lead then lead.toNat / (2 * cs.toNat) + 1 else 0
    ∃ t : State, exec .clkStep s = .next (answer .ok [BitVec.ofNat 32 m] t) ∧
      t = { s with now := t.now, tFast := t.tFast, tSlow := t.tSlow, lead := t.lead } ∧
      t.tFast.toNat = s.tFast.toNat + cf.toNat ∧ t.tSlow.toNat = s.tSlow.toNat + m * cs.toNat ∧
      t.lead.toInt = lead - 2 * m * cs.toNat ∧ t.lead.toInt < 0 ∧ (m ≠ 0 → -2 * (cs.toNat : Int) ≤ t.lead.toInt) ∧
      t.now.toNat = max (max s.now.toNat s.tFast.toNat)
        (if m = 0 then 0 else 2 * (s.tSlow.toNat + (m - 1) * cs.toNat))

/-- R233, R240, R241, R242: with collaborators that return, CLK.STEP always ends. Where no fatal error stops it, t_fast
is where the one FAST step left it, moved on by that step's cost c, 1 ≤ c < 2^32; and L = t_fast - 2 t_slow is below 0,
so that SLOW's next start is the later one (R238); and the scheduler has passed neither CPU's start time if it had not
before (R237). -/
def Obligations.ClkStepEnds : Prop :=
  ∀ s : State, MachineInv s → s.fatal = none → collabReturns s = true →
    ∃ t, exec .clkStep s = .next t ∧ (t.fatal = none →
      (∃ (s1 : State) (c : Word), cpuStep .fast s = .ok (s1, some c) ∧ t.tFast = s1.tFast ∧
        t.tFast.toNat = s.tFast.toNat + c.toNat) ∧
      s.tFast < t.tFast ∧ t.tFast.toNat < s.tFast.toNat + 2 ^ 32 ∧ s.tSlow ≤ t.tSlow ∧ t.lead.toInt < 0 ∧
        t.tFast.toNat < 2 * t.tSlow.toNat ∧ (onTime s → onTime t))

/-- R234, R244: with collaborators that return, CLK.RUN always ends: with a fatal error set, or with t_fast at or past the
target, less than one FAST cost beyond it and L below 0. A target at or before t_fast runs no step and answers 0. -/
def Obligations.ClkRunEnds : Prop :=
  ∀ (target : Cycle) (s : State), MachineInv s → s.fatal = none →
    (target ≤ s.tFast → exec (.clkRun target) s = .next (answer .ok [0] s)) ∧
    (s.tFast < target → collabReturns s = true → ∃ t, exec (.clkRun target) s = .next t ∧ (t.fatal = none →
      target ≤ t.tFast ∧ t.tFast.toNat < target.toNat + 2 ^ 32 ∧ s.tSlow ≤ t.tSlow ∧ t.lead.toInt < 0 ∧
        (onTime s → onTime t)))

/-- R234: CLK.RUN, exactly, where no event is pending and every step of FAST costs cf and of SLOW costs cs and issues
nothing: as many orchestration steps as FAST needs to reach the target, and their number in the answer; as many SLOW steps
as bring L below 0; `now` at the last start time. -/
def Obligations.ClkRunOfQuietCpus : Prop :=
  ∀ (cf cs : Word) (target : Cycle) (s : State), MachineInv s → s.fatal = none → s.queue = [] →
    quietCpu .fast cf s → quietCpu .slow cs s → cf ≠ 0 → cs ≠ 0 → target.toNat + 2 ^ 34 ≤ 2 ^ 64 →
    let k := (target.toNat - s.tFast.toNat + cf.toNat - 1) / cf.toNat
    let lead := s.lead.toInt + k * cf.toNat
    let m := if k ≠ 0 ∧ 0 ≤ lead then lead.toNat / (2 * cs.toNat) + 1 else 0
    ∃ t : State, exec (.clkRun target) s = .next (answer .ok [BitVec.ofNat 32 k] t) ∧
      t = { s with now := t.now, tFast := t.tFast, tSlow := t.tSlow, lead := t.lead } ∧
      t.tFast.toNat = s.tFast.toNat + k * cf.toNat ∧ target ≤ t.tFast ∧
      t.tSlow.toNat = s.tSlow.toNat + m * cs.toNat ∧
      t.lead.toInt = lead - 2 * m * cs.toNat ∧ t.lead.toInt = (t.tFast.toNat : Int) - 2 * t.tSlow.toNat ∧
      (k ≠ 0 → t.lead.toInt < 0) ∧ (m ≠ 0 → -2 * (cs.toNat : Int) ≤ t.lead.toInt) ∧
      t.now.toNat =
        if k = 0 then s.now.toNat
        else max (max s.now.toNat (s.tFast.toNat + (k - 1) * cf.toNat))
          (if m = 0 then 0 else 2 * (s.tSlow.toNat + (m - 1) * cs.toNat))

/-- 44_clock.md R244 and 41_scheduler.md R150, as the model has it (log 7): SCHED.ADVANCE, CLK.STEP and CLK.RUN have no
next state exactly where something in them never ends: a handler, in whichever dispatch, of SCHED.ADVANCE or of the advance
before whichever CPU step; an advance; or a CPU, FAST or SLOW, running or woken, in whichever step. The fault names it. -/
def Obligations.NoEndWithoutAReturn : Prop :=
  ∀ (s : State) (f : Fault), MachineInv s → s.fatal = none →
    (∀ T, exec (.schedAdvance T) s = .fault f ↔ advanceStuck T s f) ∧
    (exec .clkStep s = .fault f ↔ orchStuck s f) ∧
    (∀ target, exec (.clkRun target) s = .fault f ↔
      ∃ t, orchStepsTo target s t ∧ t.tFast < target ∧ orchStuck t f)

/-! ## Construction (70_reset_and_hazards.md) -/

/-- R294, R293: the state after a successful construction. -/
def Obligations.ConstructedState : Prop :=
  ∀ cfg : Config, constructionFatal cfg = none →
    let s := State.construct cfg
    s.now = 0 ∧ s.inDispatch = false ∧ s.tFast = 0 ∧ s.tSlow = 0 ∧ s.lead = 0 ∧
      (∀ x, perCpu s.ie x = 0 ∧ perCpu s.iflag x = 0 ∧ perCpu s.ime x = false ∧ perCpu s.last x = none) ∧
      s.fatal = none ∧ s.trace = [] ∧ s.ctx = .host ∧
      s.nextSeq = BitVec.ofNat 64 cfg.initialEvents.length ∧ queueOrdered s.queue ∧
      ∀ e, e ∈ s.queue ↔ ∃ n v, cfg.initialEvents[n]? = some v ∧ e = ⟨v.fire, v.kind, BitVec.ofNat 64 n⟩

/-- R291, R292, 10_state.md R57: what the backing bytes are after a successful construction, at every offset a bus
address can reach: the boot images, the cartridge header at its destination, which fits, and INITIAL_BACKING. -/
def Obligations.BackingAfterConstruction : Prop :=
  ∀ cfg : Config, constructionFatal cfg = none →
    let s := State.construct cfg
    let dest := 0x027FFE00 &&& (cfg.wmSize - 1)
    (∀ x o b, o < 2 ^ 32 → (perCpu cfg.bootImage x)[o]? = some b → readBacking s (perCpu cfg.bootRegion x) o = b) ∧
    dest + 0x160 ≤ cfg.wmSize ∧
    (∀ o b, o < 0x160 → cfg.cartImage[o]? = some b → readBacking s cfg.wmRegion (dest + o) = b) ∧
    (∀ r o, o < 2 ^ 32 → (∀ x, r = perCpu cfg.bootRegion x → (perCpu cfg.bootImage x).length ≤ o) →
      (r = cfg.wmRegion → o < dest ∨ dest + 0x160 ≤ o) → readBacking s r o = initialBacking cfg r o)

/-- R290, R291, R292, R73, R74, R264: construction succeeds exactly if every region's cost table is complete and its
window well-formed, no two regions of equal priority share an address, the boot ROMs and working memory are as R291 and
R292 require, the cartridge holds a header, and the initial events are accepted; the first failing check decides the
code. -/
def Obligations.ConstructionChecks : Prop :=
  ∀ cfg : Config,
    let rs := buildRegions cfg.regions
    let regionsOk : Prop := ∀ c ∈ cfg.regions,
      (∀ x w q, ∃ e ∈ c.costs, e.cpu = x ∧ e.width = w ∧ e.seq = q) ∧
        c.base % 4 = 0 ∧ c.size % 4 = 0 ∧ c.period % 4 = 0 ∧ c.limit % 4 = 0 ∧ 1 ≤ c.size ∧ c.size ≤ c.period ∧
        c.base < c.limit ∧ c.limit ≤ 2 ^ 32
    let disjoint : Prop := rs.Pairwise fun r q => r.prio = q.prio →
      ∀ a < 2 ^ 32, ¬(regionContains r a = true ∧ regionContains q a = true)
    let bootOk (x : Cpu) : Prop := ∃ r, rs[perCpu cfg.bootRegion x]? = some r ∧
      (perCpu cfg.bootImage x).length ≤ r.size ∧ r.writable = false ∧ perCpu cfg.bootRegion x ≠ cfg.wmRegion
    let wmOk : Prop := ∃ r, rs[cfg.wmRegion]? = some r ∧ r.size = cfg.wmSize ∧ (∃ n, cfg.wmSize = 2 ^ n) ∧
      0x400 ≤ cfg.wmSize ∧ r.readable = true ∧ r.writable = true
    let placed : Prop := bootOk .fast ∧ bootOk .slow ∧ cfg.bootRegion.fast ≠ cfg.bootRegion.slow ∧ wmOk
    (¬regionsOk → constructionFatal cfg = some .regionMalformed) ∧
    (regionsOk → ¬disjoint → constructionFatal cfg = some .regionOverlap) ∧
    (regionsOk → disjoint → ¬placed → constructionFatal cfg = some .regionMalformed) ∧
    (regionsOk → disjoint → placed → cfg.cartImage.length < 0x160 → constructionFatal cfg = some .cartTooShort) ∧
    (regionsOk → disjoint → placed → 0x160 ≤ cfg.cartImage.length →
      constructionFatal cfg = (initialQueue cfg).2.2 ∧ constructionFatal { cfg with initialEvents := [] } = none) ∧
    ∀ c i, constructionFatal cfg = some c →
      exec i (State.construct cfg) = .next (answer (.fatal c) [] (State.construct cfg))

/-- R293: the initial events are SCHED.SCHEDULE commands issued in list order in context HOST with now = 0, a failing one
failing construction with its code. -/
def Obligations.InitialEventsAreScheduleCommands : Prop :=
  ∀ cfg : Config, constructionFatal { cfg with initialEvents := [] } = none →
    let s := cfg.initialEvents.foldl (fun s e => issuePacket (encodePacket (.schedSchedule e.kind e.fire)) s)
      (State.construct { cfg with initialEvents := [] })
    (State.construct cfg).queue = s.queue ∧ (State.construct cfg).nextSeq = s.nextSeq ∧
      (State.construct cfg).fatal = s.fatal

/-- R290 with R145, R151, R45, R73, R74: every successful construction meets the machine's invariant. -/
def Obligations.ConstructionMeetsTheInvariant : Prop :=
  ∀ cfg : Config, constructionFatal cfg = none → MachineInv (State.construct cfg)

/-- The reset state (the configuration TC, the model's choice, log 4) is a successful construction, and meets the
machine's invariant. -/
def Obligations.ResetMeetsTheInvariant : Prop :=
  constructionFatal Config.tc = none ∧ MachineInv State.reset

/-! ## The whole machine -/

/-- R145, R151, R37, R38, R39, R62, R45, R240, R242: every step keeps the machine's invariant: the event order, no event
before now, the bound on Q, unique sequence numbers, L = t_fast - 2 t_slow within its bounds, memory's canonical form,
the region table. -/
def Obligations.StepKeepsTheInvariant : Prop :=
  ∀ s t : State, MachineInv s → step s = .next t → MachineInv t

/-- R146, R43, R56, R60, R61: no step lowers now, t_fast, t_slow or next_seq, changes the region table or the
configuration, takes a record off TRACE, or clears FATAL. -/
def Obligations.StepsNeverTakeBack : Prop :=
  ∀ s t : State, MachineInv s → step s = .next t →
    s.now ≤ t.now ∧ s.tFast ≤ t.tFast ∧ s.tSlow ≤ t.tSlow ∧ s.nextSeq ≤ t.nextSeq ∧ t.regions = s.regions ∧
      t.cfg = s.cfg ∧ s.trace <+: t.trace ∧ ∀ c, s.fatal = some c → t.fatal = some c

/-- R116, R260, R262: a packet on the port is taken off and answered once, by the command's status word and its data
words; the status is fatal exactly where FATAL is set then, and a fatal or EMPTY status has no data words. -/
def Obligations.OneResponsePerPacket : Prop :=
  ∀ (s t : State) (p : Packet) (ps : List Packet), MachineInv s → s.host.pending = p :: ps → step s = .next t →
    ∃ (st : Status) (ws : List Word), t.host = ⟨ps, s.host.responses ++ [st.code :: ws]⟩ ∧
      (∀ c, st = .fatal c ↔ t.fatal = some c) ∧ (st = .empty → ws = []) ∧ ∀ c, st = .fatal c → ws = []

/-- 10_state.md R64, R51, R57, R83: which commands write which field, for every command in every state. -/
def Obligations.OnlyTheseCommandsWrite : Prop :=
  ∀ (i : Instr) (s t : State), exec i s = .next t →
    let isAdvance : Prop := ∃ T, i = .schedAdvance T
    let isSchedule : Prop := ∃ k f, i = .schedSchedule k f
    let isWrite : Prop := ∃ x w v a d, i = .busWrite x w v a d
    t.regions = s.regions ∧ t.cfg = s.cfg ∧ t.ctx = s.ctx ∧
    (¬stepsCpus i → t.tFast = s.tFast ∧ t.tSlow = s.tSlow ∧ t.lead = s.lead ∧
      (¬isAdvance → t.now = s.now ∧ (¬isSchedule → t.queue = s.queue ∧ t.nextSeq = s.nextSeq)) ∧
      (¬isWrite → t.backing = s.backing) ∧
      (requesterOf i = none → t.last = s.last ∧ t.trace = s.trace) ∧
      ((∀ x m, i ≠ .icSetIe x m) → t.ie = s.ie) ∧ ((∀ x b, i ≠ .icSetIme x b) → t.ime = s.ime) ∧
      ((∀ x n, i ≠ .icAck x n) → ∀ x n, (perCpu s.iflag x).getLsbD n = true → (perCpu t.iflag x).getLsbD n = true) ∧
      (¬isAdvance → (∀ x n, i ≠ .icAck x n) → (∀ x n, i ≠ .icRequest x n) → t.iflag = s.iflag))

/-! ## Activations, and advances that never end -/

/-- 60_exceptions.md R262, R263 and 41_scheduler.md R144: the commands of an activation run one after the other, each in
the state the one before it left; a fatal one is the last. And 00_scope.md R7 to R9: a collaborator can be any function of
its private state and the others', of whether a CPU is halted, of each answer and of the call it is given, over as many of
them as can come (that it is a table of trees of moves is the model's choice, log 5; who reads what, log 28). -/
def Obligations.ActivationIssuesInOrder : Prop :=
  (∀ (ρ : Type) (ps : List Packet) (r : ρ) (s : State), s.fatal = none →
    let activation : Script ρ := ps.foldr Script.issue (.done r)
    let after (n : Nat) : State := (ps.take n).foldl (fun s p => issuePacket p s) s
    ((after ps.length).fatal = none → runScript activation s = (after ps.length, some r)) ∧
    (∀ n < ps.length, (after n).fatal = none → (after (n + 1)).fatal.isSome = true →
      runScript activation s = (after (n + 1), none)) ∧
    ∀ n m, n ≤ m → m ≤ ps.length → (after m).fatal = none → (after n).fatal = none) ∧
  (∀ (ρ : Type) (n q : Nat) (f : Nat → Script ρ), q < n → (tableOf n f)[q]? = some (f q)) ∧
  (∀ (ρ : Type) (answers : List (Word × List Word)) (f : Word × List Word → Script ρ) (otherwise : Script ρ) (s : State),
    ∀ a ∈ answers, (heardOf s).getLast? = some (.response (a.1 :: a.2)) →
      runScript (afterAnswer answers f otherwise) s = runScript (f a) s) ∧
  (∀ (ρ : Type) (p : Part) (privs : List Nat) (f : Nat → Script ρ) (otherwise : Script ρ) (s : State),
    privOf p s ∈ privs → runScript (afterPriv p privs f otherwise) s = runScript (f (privOf p s)) s) ∧
  (∀ (ρ : Type) (x : Cpu) (f : Bool → Script ρ) (s : State),
    runScript (.ifHalted x (f true) (f false)) s = runScript (f (cpuCollab x s).halted) s) ∧
  ∀ (ρ : Type) (kinds : List Kind) (fires : List Cycle) (f : Kind → Cycle → Script ρ) (otherwise : Script ρ) (s : State),
    ∀ k ∈ kinds, ∀ t ∈ fires, lastCall (heardOf s) = some (k, t) →
      runScript (afterCall kinds fires f otherwise) s = runScript (f k t) s

/-- R306, R150: an advance that would dispatch for ever, had sequence numbers no end, has no end state, and no other is
stopped so (that the 64-bit numbers running out do not end it is log 7); so with a handler that, on each dispatch of kind k
at cycle t, schedules k at t again, once an event of kind k is due, whatever it does on the answers. A handler that, after
finitely many calls, schedules nothing at its own cycle makes no advance diverge. -/
def Obligations.PeriodZeroNeverEnds : Prop :=
  ∀ (T : Cycle) (s : State), MachineInv s → s.fatal = none →
    (exec (.schedAdvance T) s = .fault .advanceNeverEnds ↔ endless T s) ∧
    (∀ (k : Kind) (e : Event) (status : Word) (data : List Word), e ∈ s.queue → e.kind = k → e.fire ≤ T →
      (∀ q, q < s.collab.handler.table.length → ∃ yes no,
        yes < s.collab.handler.table.length ∧ no < s.collab.handler.table.length ∧
        s.collab.handler.table[q]? =
          some (.ifKind k (.scheduleIn k 0 (.ifAnswered status data (.done yes) (.done no))) (.done q))) →
      s.collab.handler.priv < s.collab.handler.table.length →
      exec (.schedAdvance T) s = .fault .advanceNeverEnds) ∧
    (handlerMovesOn s.collab.handler = true → ∃ t, exec (.schedAdvance T) s = .next t)

/-- R149: a handler that, on each dispatch of kind k at cycle t, schedules k at t + P, P ≥ 1, and does nothing on other
kinds; e is the one pending event of kind k, whatever others are pending. k is dispatched floor((T - first) / P) + 1
times, at first + i P, and left pending one period after the last (not at all, and left as it was, where first > T);
of the events of other kinds, those after T are left. -/
def Obligations.PeriodicAmongOthers : Prop :=
  ∀ (k : Kind) (P T : Cycle) (e : Event) (s : State),
    let n := if e.fire ≤ T then (T.toNat - e.fire.toNat) / P.toNat + 1 else 0
    MachineInv s → s.fatal = none → 1 ≤ P → e ∈ s.queue → e.kind = k → (∀ x ∈ s.queue, x.kind = k → x = e) →
    s.collab.handler.table[s.collab.handler.priv]? =
      some (.ifKind k (.scheduleIn k P (.done s.collab.handler.priv)) (.done s.collab.handler.priv)) →
    e.fire.toNat + n * P.toNat < 2 ^ 64 → s.nextSeq.toNat + n < 2 ^ 64 →
    ∃ t, exec (.schedAdvance T) s = .next t ∧ t.fatal = none ∧
      (callsOf t.collab.handler.heard).filter (fun c => decide (c.1 = k)) =
        (callsOf s.collab.handler.heard).filter (fun c => decide (c.1 = k)) ++
          (List.range n).map (fun i => (k, e.fire + BitVec.ofNat 64 (i * P.toNat))) ∧
      (∃ q : Cycle, ⟨e.fire + BitVec.ofNat 64 (n * P.toNat), k, q⟩ ∈ t.queue ∧
        ∀ x ∈ t.queue, x.kind = k → x = ⟨e.fire + BitVec.ofNat 64 (n * P.toNat), k, q⟩) ∧
      (∀ x, x.kind ≠ k → (x ∈ t.queue ↔ x ∈ s.queue ∧ T < x.fire)) ∧ t.now = laterOf s.now T
end

