-- ==== Sys2Proof/Laws/Decode.lean ====
section
/-! SUPPORT. What the decoder's checks let through, and that whatever decodes is well-formed. -/

namespace Sys2Proof

theorem checkMbz_eq_ok {h mbz : Word} {k : Except DecodeError Instr} {i : Instr} :
    checkMbz h mbz k = .ok i ↔ h &&& mbz = 0 ∧ k = .ok i := by
  unfold checkMbz; split <;> simp_all

theorem decodeBus_eq_ok {h : Word} {k : Cpu → Width → Bool → Instr} {i : Instr} :
    decodeBus h k = .ok i ↔
      h &&& 0x000FFFFF = 0 ∧ ∃ w, widthOfCode (headerWidth h) = some w ∧ i = k (headerCpu h) w (headerPriv h) := by
  unfold decodeBus
  rw [checkMbz_eq_ok]
  cases widthOfCode (headerWidth h) <;> simp [eq_comm]

theorem decode_wellFormed {p : Packet} {i : Instr} (h : decode p = .ok i) : i.wellFormed = true := by
  unfold decode at h
  simp only at h
  split at h
  case h_1 =>
    obtain ⟨-, h⟩ := checkMbz_eq_ok.mp h
    split at h
    · injection h with h; subst h; assumption
    · cases h
  all_goals first
    | (obtain ⟨-, w, -, rfl⟩ := decodeBus_eq_ok.mp h; rfl)
    | (obtain ⟨-, h⟩ := checkMbz_eq_ok.mp h; injection h with h; subst h; rfl)
    | cases h

/-- The packet of SCHED.SCHEDULE decodes to it, but for a reserved kind (R118, R124). -/
theorem decode_schedule_packet (k : Kind) (f : Cycle) :
    decode (encodePacket (.schedSchedule k f)) =
      if kindWellFormed k then .ok (.schedSchedule k f) else .error .reservedKind := by
  have e1 : headerUnit (encodeHeader (.schedSchedule k f)) = 1 := by
    simp [headerUnit, encodeHeader]; ext i hi; simp; interval_cases i <;> simp
  have e2 : headerOp (encodeHeader (.schedSchedule k f)) = 0 := by
    simp [headerOp, encodeHeader]; ext i hi; simp; interval_cases i <;> simp
  have e3 : headerKind (encodeHeader (.schedSchedule k f)) = k := by
    simp [headerKind, encodeHeader]; ext i hi; simp; interval_cases i <;> simp
  have e4 : encodeHeader (.schedSchedule k f) &&& 0x0000FFFF = 0 := by
    simp [encodeHeader]; ext i hi; simp; interval_cases i <;> simp
  have e5 : joinWords (loWord f) (hiWord f) = f := by
    apply BitVec.eq_of_toNat_eq
    have := f.isLt
    unfold joinWords loWord hiWord
    simp only [BitVec.toNat_append, BitVec.extractLsb'_toNat, Nat.shiftRight_zero]
    rw [← Nat.shiftLeft_add_eq_or_of_lt (by omega)]
    omega
  unfold decode
  simp only [encodePacket, packetOfWords, encodeOperands, List.getD_cons_zero, List.getD_cons_succ, e1, e2, e3, e5]
  rw [checkMbz, if_pos e4]
  rfl

end Sys2Proof
end

