-- ==== Sys2Proof/Laws/State.lean ====
section
/-! SUPPORT. What each named update changes and what it leaves: one lemma per field per update. -/

namespace Sys2Proof.Machine

open Sys2Proof

/-! ### Pairs by CPU -/

@[simp] theorem perCpu_setPerCpu_same {α : Type} (p : PerCpu α) (x : Cpu) (v : α) : perCpu (setPerCpu p x v) x = v := by
  cases x <;> rfl

theorem perCpu_setPerCpu_other {α : Type} (p : PerCpu α) (x y : Cpu) (v : α) (h : y ≠ x) :
    perCpu (setPerCpu p x v) y = perCpu p y := by
  cases x <;> cases y <;> first | rfl | exact absurd rfl h

theorem perCpu_setPerCpu {α : Type} (p : PerCpu α) (x y : Cpu) (v : α) :
    perCpu (setPerCpu p x v) y = if y = x then v else perCpu p y := by
  cases x <;> cases y <;> rfl

theorem perCpu_ext {α : Type} (p q : PerCpu α) (h : ∀ x, perCpu p x = perCpu q x) : p = q := by
  have hf := h .fast
  have hs := h .slow
  cases p; cases q; simp_all [perCpu]

/-! ### setCpuCollab -/

@[simp] theorem setCpuCollab_cfg (x : Cpu) (c : CpuCollab) (s : State) : (setCpuCollab x c s).cfg = s.cfg := rfl

@[simp] theorem setCpuCollab_now (x : Cpu) (c : CpuCollab) (s : State) : (setCpuCollab x c s).now = s.now := rfl

@[simp] theorem setCpuCollab_queue (x : Cpu) (c : CpuCollab) (s : State) : (setCpuCollab x c s).queue = s.queue := rfl

@[simp] theorem setCpuCollab_nextSeq (x : Cpu) (c : CpuCollab) (s : State) : (setCpuCollab x c s).nextSeq = s.nextSeq := rfl

@[simp] theorem setCpuCollab_inDispatch (x : Cpu) (c : CpuCollab) (s : State) : (setCpuCollab x c s).inDispatch = s.inDispatch := rfl

@[simp] theorem setCpuCollab_tFast (x : Cpu) (c : CpuCollab) (s : State) : (setCpuCollab x c s).tFast = s.tFast := rfl

@[simp] theorem setCpuCollab_tSlow (x : Cpu) (c : CpuCollab) (s : State) : (setCpuCollab x c s).tSlow = s.tSlow := rfl

@[simp] theorem setCpuCollab_lead (x : Cpu) (c : CpuCollab) (s : State) : (setCpuCollab x c s).lead = s.lead := rfl

@[simp] theorem setCpuCollab_ie (x : Cpu) (c : CpuCollab) (s : State) : (setCpuCollab x c s).ie = s.ie := rfl

@[simp] theorem setCpuCollab_iflag (x : Cpu) (c : CpuCollab) (s : State) : (setCpuCollab x c s).iflag = s.iflag := rfl

@[simp] theorem setCpuCollab_ime (x : Cpu) (c : CpuCollab) (s : State) : (setCpuCollab x c s).ime = s.ime := rfl

@[simp] theorem setCpuCollab_regions (x : Cpu) (c : CpuCollab) (s : State) : (setCpuCollab x c s).regions = s.regions := rfl

@[simp] theorem setCpuCollab_backing (x : Cpu) (c : CpuCollab) (s : State) : (setCpuCollab x c s).backing = s.backing := rfl

@[simp] theorem setCpuCollab_last (x : Cpu) (c : CpuCollab) (s : State) : (setCpuCollab x c s).last = s.last := rfl

@[simp] theorem setCpuCollab_fatal (x : Cpu) (c : CpuCollab) (s : State) : (setCpuCollab x c s).fatal = s.fatal := rfl

@[simp] theorem setCpuCollab_trace (x : Cpu) (c : CpuCollab) (s : State) : (setCpuCollab x c s).trace = s.trace := rfl

@[simp] theorem setCpuCollab_ctx (x : Cpu) (c : CpuCollab) (s : State) : (setCpuCollab x c s).ctx = s.ctx := rfl

@[simp] theorem setCpuCollab_host (x : Cpu) (c : CpuCollab) (s : State) : (setCpuCollab x c s).host = s.host := rfl

@[simp] theorem setCpuCollab_handler (x : Cpu) (c : CpuCollab) (s : State) :
    (setCpuCollab x c s).collab.handler = s.collab.handler := rfl

@[simp] theorem setCpuCollab_cpu (x : Cpu) (c : CpuCollab) (s : State) :
    (setCpuCollab x c s).collab.cpu = setPerCpu s.collab.cpu x c := rfl

/-! ### setHandler -/

@[simp] theorem setHandler_cfg (h : HandlerCollab) (s : State) : (setHandler h s).cfg = s.cfg := rfl

@[simp] theorem setHandler_now (h : HandlerCollab) (s : State) : (setHandler h s).now = s.now := rfl

@[simp] theorem setHandler_queue (h : HandlerCollab) (s : State) : (setHandler h s).queue = s.queue := rfl

@[simp] theorem setHandler_nextSeq (h : HandlerCollab) (s : State) : (setHandler h s).nextSeq = s.nextSeq := rfl

@[simp] theorem setHandler_inDispatch (h : HandlerCollab) (s : State) : (setHandler h s).inDispatch = s.inDispatch := rfl

@[simp] theorem setHandler_tFast (h : HandlerCollab) (s : State) : (setHandler h s).tFast = s.tFast := rfl

@[simp] theorem setHandler_tSlow (h : HandlerCollab) (s : State) : (setHandler h s).tSlow = s.tSlow := rfl

@[simp] theorem setHandler_lead (h : HandlerCollab) (s : State) : (setHandler h s).lead = s.lead := rfl

@[simp] theorem setHandler_ie (h : HandlerCollab) (s : State) : (setHandler h s).ie = s.ie := rfl

@[simp] theorem setHandler_iflag (h : HandlerCollab) (s : State) : (setHandler h s).iflag = s.iflag := rfl

@[simp] theorem setHandler_ime (h : HandlerCollab) (s : State) : (setHandler h s).ime = s.ime := rfl

@[simp] theorem setHandler_regions (h : HandlerCollab) (s : State) : (setHandler h s).regions = s.regions := rfl

@[simp] theorem setHandler_backing (h : HandlerCollab) (s : State) : (setHandler h s).backing = s.backing := rfl

@[simp] theorem setHandler_last (h : HandlerCollab) (s : State) : (setHandler h s).last = s.last := rfl

@[simp] theorem setHandler_fatal (h : HandlerCollab) (s : State) : (setHandler h s).fatal = s.fatal := rfl

@[simp] theorem setHandler_trace (h : HandlerCollab) (s : State) : (setHandler h s).trace = s.trace := rfl

@[simp] theorem setHandler_ctx (h : HandlerCollab) (s : State) : (setHandler h s).ctx = s.ctx := rfl

@[simp] theorem setHandler_host (h : HandlerCollab) (s : State) : (setHandler h s).host = s.host := rfl

@[simp] theorem setHandler_handler (h : HandlerCollab) (s : State) : (setHandler h s).collab.handler = h := rfl

@[simp] theorem setHandler_cpu (h : HandlerCollab) (s : State) : (setHandler h s).collab.cpu = s.collab.cpu := rfl

/-! ### cpuReturned -/

@[simp] theorem cpuReturned_cfg (x : Cpu) (r : CpuReturn) (s : State) : (cpuReturned x r s).cfg = s.cfg := rfl

@[simp] theorem cpuReturned_now (x : Cpu) (r : CpuReturn) (s : State) : (cpuReturned x r s).now = s.now := rfl

@[simp] theorem cpuReturned_queue (x : Cpu) (r : CpuReturn) (s : State) : (cpuReturned x r s).queue = s.queue := rfl

@[simp] theorem cpuReturned_nextSeq (x : Cpu) (r : CpuReturn) (s : State) : (cpuReturned x r s).nextSeq = s.nextSeq := rfl

@[simp] theorem cpuReturned_inDispatch (x : Cpu) (r : CpuReturn) (s : State) : (cpuReturned x r s).inDispatch = s.inDispatch := rfl

@[simp] theorem cpuReturned_tFast (x : Cpu) (r : CpuReturn) (s : State) : (cpuReturned x r s).tFast = s.tFast := rfl

@[simp] theorem cpuReturned_tSlow (x : Cpu) (r : CpuReturn) (s : State) : (cpuReturned x r s).tSlow = s.tSlow := rfl

@[simp] theorem cpuReturned_lead (x : Cpu) (r : CpuReturn) (s : State) : (cpuReturned x r s).lead = s.lead := rfl

@[simp] theorem cpuReturned_ie (x : Cpu) (r : CpuReturn) (s : State) : (cpuReturned x r s).ie = s.ie := rfl

@[simp] theorem cpuReturned_iflag (x : Cpu) (r : CpuReturn) (s : State) : (cpuReturned x r s).iflag = s.iflag := rfl

@[simp] theorem cpuReturned_ime (x : Cpu) (r : CpuReturn) (s : State) : (cpuReturned x r s).ime = s.ime := rfl

@[simp] theorem cpuReturned_regions (x : Cpu) (r : CpuReturn) (s : State) : (cpuReturned x r s).regions = s.regions := rfl

@[simp] theorem cpuReturned_backing (x : Cpu) (r : CpuReturn) (s : State) : (cpuReturned x r s).backing = s.backing := rfl

@[simp] theorem cpuReturned_last (x : Cpu) (r : CpuReturn) (s : State) : (cpuReturned x r s).last = s.last := rfl

@[simp] theorem cpuReturned_fatal (x : Cpu) (r : CpuReturn) (s : State) : (cpuReturned x r s).fatal = s.fatal := rfl

@[simp] theorem cpuReturned_trace (x : Cpu) (r : CpuReturn) (s : State) : (cpuReturned x r s).trace = s.trace := rfl

@[simp] theorem cpuReturned_ctx (x : Cpu) (r : CpuReturn) (s : State) : (cpuReturned x r s).ctx = s.ctx := rfl

@[simp] theorem cpuReturned_host (x : Cpu) (r : CpuReturn) (s : State) : (cpuReturned x r s).host = s.host := rfl

@[simp] theorem cpuReturned_handler (x : Cpu) (r : CpuReturn) (s : State) : (cpuReturned x r s).collab.handler =
    { s.collab.handler with priv := r.devices.getD s.collab.handler.priv } := rfl

@[simp] theorem cpuReturned_same (x : Cpu) (r : CpuReturn) (s : State) : cpuCollab x (cpuReturned x r s) =
    { cpuCollab x s with halted := r.halt, priv := r.next } := by cases x <;> rfl

@[simp] theorem cpuReturned_other (x : Cpu) (r : CpuReturn) (s : State) : cpuCollab x.other (cpuReturned x r s) =
    { cpuCollab x.other s with priv := r.other.getD (cpuCollab x.other s).priv } := by cases x <;> rfl

/-! ### setFatal -/

@[simp] theorem setFatal_cfg (c : FatalCode) (s : State) : (setFatal c s).cfg = s.cfg := rfl

@[simp] theorem setFatal_now (c : FatalCode) (s : State) : (setFatal c s).now = s.now := rfl

@[simp] theorem setFatal_queue (c : FatalCode) (s : State) : (setFatal c s).queue = s.queue := rfl

@[simp] theorem setFatal_nextSeq (c : FatalCode) (s : State) : (setFatal c s).nextSeq = s.nextSeq := rfl

@[simp] theorem setFatal_inDispatch (c : FatalCode) (s : State) : (setFatal c s).inDispatch = s.inDispatch := rfl

@[simp] theorem setFatal_tFast (c : FatalCode) (s : State) : (setFatal c s).tFast = s.tFast := rfl

@[simp] theorem setFatal_tSlow (c : FatalCode) (s : State) : (setFatal c s).tSlow = s.tSlow := rfl

@[simp] theorem setFatal_lead (c : FatalCode) (s : State) : (setFatal c s).lead = s.lead := rfl

@[simp] theorem setFatal_ie (c : FatalCode) (s : State) : (setFatal c s).ie = s.ie := rfl

@[simp] theorem setFatal_iflag (c : FatalCode) (s : State) : (setFatal c s).iflag = s.iflag := rfl

@[simp] theorem setFatal_ime (c : FatalCode) (s : State) : (setFatal c s).ime = s.ime := rfl

@[simp] theorem setFatal_regions (c : FatalCode) (s : State) : (setFatal c s).regions = s.regions := rfl

@[simp] theorem setFatal_backing (c : FatalCode) (s : State) : (setFatal c s).backing = s.backing := rfl

@[simp] theorem setFatal_last (c : FatalCode) (s : State) : (setFatal c s).last = s.last := rfl

@[simp] theorem setFatal_trace (c : FatalCode) (s : State) : (setFatal c s).trace = s.trace := rfl

@[simp] theorem setFatal_ctx (c : FatalCode) (s : State) : (setFatal c s).ctx = s.ctx := rfl

@[simp] theorem setFatal_collab (c : FatalCode) (s : State) : (setFatal c s).collab = s.collab := rfl

@[simp] theorem setFatal_host (c : FatalCode) (s : State) : (setFatal c s).host = s.host := rfl

@[simp] theorem setFatal_fatal (c : FatalCode) (s : State) : (setFatal c s).fatal = some c := rfl

/-! ### setLast -/

@[simp] theorem setLast_cfg (x : Cpu) (r : Option Nat) (s : State) : (setLast x r s).cfg = s.cfg := rfl

@[simp] theorem setLast_now (x : Cpu) (r : Option Nat) (s : State) : (setLast x r s).now = s.now := rfl

@[simp] theorem setLast_queue (x : Cpu) (r : Option Nat) (s : State) : (setLast x r s).queue = s.queue := rfl

@[simp] theorem setLast_nextSeq (x : Cpu) (r : Option Nat) (s : State) : (setLast x r s).nextSeq = s.nextSeq := rfl

@[simp] theorem setLast_inDispatch (x : Cpu) (r : Option Nat) (s : State) : (setLast x r s).inDispatch = s.inDispatch := rfl

@[simp] theorem setLast_tFast (x : Cpu) (r : Option Nat) (s : State) : (setLast x r s).tFast = s.tFast := rfl

@[simp] theorem setLast_tSlow (x : Cpu) (r : Option Nat) (s : State) : (setLast x r s).tSlow = s.tSlow := rfl

@[simp] theorem setLast_lead (x : Cpu) (r : Option Nat) (s : State) : (setLast x r s).lead = s.lead := rfl

@[simp] theorem setLast_ie (x : Cpu) (r : Option Nat) (s : State) : (setLast x r s).ie = s.ie := rfl

@[simp] theorem setLast_iflag (x : Cpu) (r : Option Nat) (s : State) : (setLast x r s).iflag = s.iflag := rfl

@[simp] theorem setLast_ime (x : Cpu) (r : Option Nat) (s : State) : (setLast x r s).ime = s.ime := rfl

@[simp] theorem setLast_regions (x : Cpu) (r : Option Nat) (s : State) : (setLast x r s).regions = s.regions := rfl

@[simp] theorem setLast_backing (x : Cpu) (r : Option Nat) (s : State) : (setLast x r s).backing = s.backing := rfl

@[simp] theorem setLast_fatal (x : Cpu) (r : Option Nat) (s : State) : (setLast x r s).fatal = s.fatal := rfl

@[simp] theorem setLast_trace (x : Cpu) (r : Option Nat) (s : State) : (setLast x r s).trace = s.trace := rfl

@[simp] theorem setLast_ctx (x : Cpu) (r : Option Nat) (s : State) : (setLast x r s).ctx = s.ctx := rfl

@[simp] theorem setLast_collab (x : Cpu) (r : Option Nat) (s : State) : (setLast x r s).collab = s.collab := rfl

@[simp] theorem setLast_host (x : Cpu) (r : Option Nat) (s : State) : (setLast x r s).host = s.host := rfl

@[simp] theorem setLast_last (x : Cpu) (r : Option Nat) (s : State) : (setLast x r s).last = setPerCpu s.last x r := rfl

/-! ### traceQuirk -/

@[simp] theorem traceQuirk_cfg (q : Quirk) (x : Cpu) (k : AccessKind) (w : Width) (a : Word) (s : State) : (traceQuirk q x k w a s).cfg = s.cfg := rfl

@[simp] theorem traceQuirk_now (q : Quirk) (x : Cpu) (k : AccessKind) (w : Width) (a : Word) (s : State) : (traceQuirk q x k w a s).now = s.now := rfl

@[simp] theorem traceQuirk_queue (q : Quirk) (x : Cpu) (k : AccessKind) (w : Width) (a : Word) (s : State) : (traceQuirk q x k w a s).queue = s.queue := rfl

@[simp] theorem traceQuirk_nextSeq (q : Quirk) (x : Cpu) (k : AccessKind) (w : Width) (a : Word) (s : State) : (traceQuirk q x k w a s).nextSeq = s.nextSeq := rfl

@[simp] theorem traceQuirk_inDispatch (q : Quirk) (x : Cpu) (k : AccessKind) (w : Width) (a : Word) (s : State) : (traceQuirk q x k w a s).inDispatch = s.inDispatch := rfl

@[simp] theorem traceQuirk_tFast (q : Quirk) (x : Cpu) (k : AccessKind) (w : Width) (a : Word) (s : State) : (traceQuirk q x k w a s).tFast = s.tFast := rfl

@[simp] theorem traceQuirk_tSlow (q : Quirk) (x : Cpu) (k : AccessKind) (w : Width) (a : Word) (s : State) : (traceQuirk q x k w a s).tSlow = s.tSlow := rfl

@[simp] theorem traceQuirk_lead (q : Quirk) (x : Cpu) (k : AccessKind) (w : Width) (a : Word) (s : State) : (traceQuirk q x k w a s).lead = s.lead := rfl

@[simp] theorem traceQuirk_ie (q : Quirk) (x : Cpu) (k : AccessKind) (w : Width) (a : Word) (s : State) : (traceQuirk q x k w a s).ie = s.ie := rfl

@[simp] theorem traceQuirk_iflag (q : Quirk) (x : Cpu) (k : AccessKind) (w : Width) (a : Word) (s : State) : (traceQuirk q x k w a s).iflag = s.iflag := rfl

@[simp] theorem traceQuirk_ime (q : Quirk) (x : Cpu) (k : AccessKind) (w : Width) (a : Word) (s : State) : (traceQuirk q x k w a s).ime = s.ime := rfl

@[simp] theorem traceQuirk_regions (q : Quirk) (x : Cpu) (k : AccessKind) (w : Width) (a : Word) (s : State) : (traceQuirk q x k w a s).regions = s.regions := rfl

@[simp] theorem traceQuirk_backing (q : Quirk) (x : Cpu) (k : AccessKind) (w : Width) (a : Word) (s : State) : (traceQuirk q x k w a s).backing = s.backing := rfl

@[simp] theorem traceQuirk_last (q : Quirk) (x : Cpu) (k : AccessKind) (w : Width) (a : Word) (s : State) : (traceQuirk q x k w a s).last = s.last := rfl

@[simp] theorem traceQuirk_fatal (q : Quirk) (x : Cpu) (k : AccessKind) (w : Width) (a : Word) (s : State) : (traceQuirk q x k w a s).fatal = s.fatal := rfl

@[simp] theorem traceQuirk_ctx (q : Quirk) (x : Cpu) (k : AccessKind) (w : Width) (a : Word) (s : State) : (traceQuirk q x k w a s).ctx = s.ctx := rfl

@[simp] theorem traceQuirk_collab (q : Quirk) (x : Cpu) (k : AccessKind) (w : Width) (a : Word) (s : State) : (traceQuirk q x k w a s).collab = s.collab := rfl

@[simp] theorem traceQuirk_host (q : Quirk) (x : Cpu) (k : AccessKind) (w : Width) (a : Word) (s : State) : (traceQuirk q x k w a s).host = s.host := rfl

@[simp] theorem traceQuirk_trace (q : Quirk) (x : Cpu) (k : AccessKind) (w : Width) (a : Word) (s : State) :
    (traceQuirk q x k w a s).trace = s.trace ++ [⟨q, x, k, w, a, s.now⟩] := rfl

/-! ### writeBacking -/

@[simp] theorem writeBacking_cfg (r o : Nat) (b : Byte) (s : State) : (writeBacking r o b s).cfg = s.cfg := rfl

@[simp] theorem writeBacking_now (r o : Nat) (b : Byte) (s : State) : (writeBacking r o b s).now = s.now := rfl

@[simp] theorem writeBacking_queue (r o : Nat) (b : Byte) (s : State) : (writeBacking r o b s).queue = s.queue := rfl

@[simp] theorem writeBacking_nextSeq (r o : Nat) (b : Byte) (s : State) : (writeBacking r o b s).nextSeq = s.nextSeq := rfl

@[simp] theorem writeBacking_inDispatch (r o : Nat) (b : Byte) (s : State) : (writeBacking r o b s).inDispatch = s.inDispatch := rfl

@[simp] theorem writeBacking_tFast (r o : Nat) (b : Byte) (s : State) : (writeBacking r o b s).tFast = s.tFast := rfl

@[simp] theorem writeBacking_tSlow (r o : Nat) (b : Byte) (s : State) : (writeBacking r o b s).tSlow = s.tSlow := rfl

@[simp] theorem writeBacking_lead (r o : Nat) (b : Byte) (s : State) : (writeBacking r o b s).lead = s.lead := rfl

@[simp] theorem writeBacking_ie (r o : Nat) (b : Byte) (s : State) : (writeBacking r o b s).ie = s.ie := rfl

@[simp] theorem writeBacking_iflag (r o : Nat) (b : Byte) (s : State) : (writeBacking r o b s).iflag = s.iflag := rfl

@[simp] theorem writeBacking_ime (r o : Nat) (b : Byte) (s : State) : (writeBacking r o b s).ime = s.ime := rfl

@[simp] theorem writeBacking_regions (r o : Nat) (b : Byte) (s : State) : (writeBacking r o b s).regions = s.regions := rfl

@[simp] theorem writeBacking_last (r o : Nat) (b : Byte) (s : State) : (writeBacking r o b s).last = s.last := rfl

@[simp] theorem writeBacking_fatal (r o : Nat) (b : Byte) (s : State) : (writeBacking r o b s).fatal = s.fatal := rfl

@[simp] theorem writeBacking_trace (r o : Nat) (b : Byte) (s : State) : (writeBacking r o b s).trace = s.trace := rfl

@[simp] theorem writeBacking_ctx (r o : Nat) (b : Byte) (s : State) : (writeBacking r o b s).ctx = s.ctx := rfl

@[simp] theorem writeBacking_collab (r o : Nat) (b : Byte) (s : State) : (writeBacking r o b s).collab = s.collab := rfl

@[simp] theorem writeBacking_host (r o : Nat) (b : Byte) (s : State) : (writeBacking r o b s).host = s.host := rfl

/-! ### latchSource -/

@[simp] theorem latchSource_cfg (x : Cpu) (src : BitVec 5) (s : State) : (latchSource x src s).cfg = s.cfg := rfl

@[simp] theorem latchSource_now (x : Cpu) (src : BitVec 5) (s : State) : (latchSource x src s).now = s.now := rfl

@[simp] theorem latchSource_queue (x : Cpu) (src : BitVec 5) (s : State) : (latchSource x src s).queue = s.queue := rfl

@[simp] theorem latchSource_nextSeq (x : Cpu) (src : BitVec 5) (s : State) : (latchSource x src s).nextSeq = s.nextSeq := rfl

@[simp] theorem latchSource_inDispatch (x : Cpu) (src : BitVec 5) (s : State) : (latchSource x src s).inDispatch = s.inDispatch := rfl

@[simp] theorem latchSource_tFast (x : Cpu) (src : BitVec 5) (s : State) : (latchSource x src s).tFast = s.tFast := rfl

@[simp] theorem latchSource_tSlow (x : Cpu) (src : BitVec 5) (s : State) : (latchSource x src s).tSlow = s.tSlow := rfl

@[simp] theorem latchSource_lead (x : Cpu) (src : BitVec 5) (s : State) : (latchSource x src s).lead = s.lead := rfl

@[simp] theorem latchSource_ie (x : Cpu) (src : BitVec 5) (s : State) : (latchSource x src s).ie = s.ie := rfl

@[simp] theorem latchSource_ime (x : Cpu) (src : BitVec 5) (s : State) : (latchSource x src s).ime = s.ime := rfl

@[simp] theorem latchSource_regions (x : Cpu) (src : BitVec 5) (s : State) : (latchSource x src s).regions = s.regions := rfl

@[simp] theorem latchSource_backing (x : Cpu) (src : BitVec 5) (s : State) : (latchSource x src s).backing = s.backing := rfl

@[simp] theorem latchSource_last (x : Cpu) (src : BitVec 5) (s : State) : (latchSource x src s).last = s.last := rfl

@[simp] theorem latchSource_fatal (x : Cpu) (src : BitVec 5) (s : State) : (latchSource x src s).fatal = s.fatal := rfl

@[simp] theorem latchSource_trace (x : Cpu) (src : BitVec 5) (s : State) : (latchSource x src s).trace = s.trace := rfl

@[simp] theorem latchSource_ctx (x : Cpu) (src : BitVec 5) (s : State) : (latchSource x src s).ctx = s.ctx := rfl

@[simp] theorem latchSource_collab (x : Cpu) (src : BitVec 5) (s : State) : (latchSource x src s).collab = s.collab := rfl

@[simp] theorem latchSource_host (x : Cpu) (src : BitVec 5) (s : State) : (latchSource x src s).host = s.host := rfl

@[simp] theorem latchSource_iflag (x : Cpu) (src : BitVec 5) (s : State) :
    (latchSource x src s).iflag = setPerCpu s.iflag x (perCpu s.iflag x ||| sourceBit src) := rfl

/-! ### clearSource -/

@[simp] theorem clearSource_cfg (x : Cpu) (src : BitVec 5) (s : State) : (clearSource x src s).cfg = s.cfg := rfl

@[simp] theorem clearSource_now (x : Cpu) (src : BitVec 5) (s : State) : (clearSource x src s).now = s.now := rfl

@[simp] theorem clearSource_queue (x : Cpu) (src : BitVec 5) (s : State) : (clearSource x src s).queue = s.queue := rfl

@[simp] theorem clearSource_nextSeq (x : Cpu) (src : BitVec 5) (s : State) : (clearSource x src s).nextSeq = s.nextSeq := rfl

@[simp] theorem clearSource_inDispatch (x : Cpu) (src : BitVec 5) (s : State) : (clearSource x src s).inDispatch = s.inDispatch := rfl

@[simp] theorem clearSource_tFast (x : Cpu) (src : BitVec 5) (s : State) : (clearSource x src s).tFast = s.tFast := rfl

@[simp] theorem clearSource_tSlow (x : Cpu) (src : BitVec 5) (s : State) : (clearSource x src s).tSlow = s.tSlow := rfl

@[simp] theorem clearSource_lead (x : Cpu) (src : BitVec 5) (s : State) : (clearSource x src s).lead = s.lead := rfl

@[simp] theorem clearSource_ie (x : Cpu) (src : BitVec 5) (s : State) : (clearSource x src s).ie = s.ie := rfl

@[simp] theorem clearSource_ime (x : Cpu) (src : BitVec 5) (s : State) : (clearSource x src s).ime = s.ime := rfl

@[simp] theorem clearSource_regions (x : Cpu) (src : BitVec 5) (s : State) : (clearSource x src s).regions = s.regions := rfl

@[simp] theorem clearSource_backing (x : Cpu) (src : BitVec 5) (s : State) : (clearSource x src s).backing = s.backing := rfl

@[simp] theorem clearSource_last (x : Cpu) (src : BitVec 5) (s : State) : (clearSource x src s).last = s.last := rfl

@[simp] theorem clearSource_fatal (x : Cpu) (src : BitVec 5) (s : State) : (clearSource x src s).fatal = s.fatal := rfl

@[simp] theorem clearSource_trace (x : Cpu) (src : BitVec 5) (s : State) : (clearSource x src s).trace = s.trace := rfl

@[simp] theorem clearSource_ctx (x : Cpu) (src : BitVec 5) (s : State) : (clearSource x src s).ctx = s.ctx := rfl

@[simp] theorem clearSource_collab (x : Cpu) (src : BitVec 5) (s : State) : (clearSource x src s).collab = s.collab := rfl

@[simp] theorem clearSource_host (x : Cpu) (src : BitVec 5) (s : State) : (clearSource x src s).host = s.host := rfl

@[simp] theorem clearSource_iflag (x : Cpu) (src : BitVec 5) (s : State) :
    (clearSource x src s).iflag = setPerCpu s.iflag x (perCpu s.iflag x &&& ~~~ sourceBit src) := rfl

/-! ### addLead -/

@[simp] theorem addLead_cfg (c : Word) (s : State) : (addLead c s).cfg = s.cfg := rfl

@[simp] theorem addLead_now (c : Word) (s : State) : (addLead c s).now = s.now := rfl

@[simp] theorem addLead_queue (c : Word) (s : State) : (addLead c s).queue = s.queue := rfl

@[simp] theorem addLead_nextSeq (c : Word) (s : State) : (addLead c s).nextSeq = s.nextSeq := rfl

@[simp] theorem addLead_inDispatch (c : Word) (s : State) : (addLead c s).inDispatch = s.inDispatch := rfl

@[simp] theorem addLead_tFast (c : Word) (s : State) : (addLead c s).tFast = s.tFast := rfl

@[simp] theorem addLead_tSlow (c : Word) (s : State) : (addLead c s).tSlow = s.tSlow := rfl

@[simp] theorem addLead_ie (c : Word) (s : State) : (addLead c s).ie = s.ie := rfl

@[simp] theorem addLead_iflag (c : Word) (s : State) : (addLead c s).iflag = s.iflag := rfl

@[simp] theorem addLead_ime (c : Word) (s : State) : (addLead c s).ime = s.ime := rfl

@[simp] theorem addLead_regions (c : Word) (s : State) : (addLead c s).regions = s.regions := rfl

@[simp] theorem addLead_backing (c : Word) (s : State) : (addLead c s).backing = s.backing := rfl

@[simp] theorem addLead_last (c : Word) (s : State) : (addLead c s).last = s.last := rfl

@[simp] theorem addLead_fatal (c : Word) (s : State) : (addLead c s).fatal = s.fatal := rfl

@[simp] theorem addLead_trace (c : Word) (s : State) : (addLead c s).trace = s.trace := rfl

@[simp] theorem addLead_ctx (c : Word) (s : State) : (addLead c s).ctx = s.ctx := rfl

@[simp] theorem addLead_collab (c : Word) (s : State) : (addLead c s).collab = s.collab := rfl

@[simp] theorem addLead_host (c : Word) (s : State) : (addLead c s).host = s.host := rfl

@[simp] theorem addLead_lead (c : Word) (s : State) : (addLead c s).lead = s.lead + c.setWidth 64 := rfl

/-! ### subLead -/

@[simp] theorem subLead_cfg (c : Word) (s : State) : (subLead c s).cfg = s.cfg := rfl

@[simp] theorem subLead_now (c : Word) (s : State) : (subLead c s).now = s.now := rfl

@[simp] theorem subLead_queue (c : Word) (s : State) : (subLead c s).queue = s.queue := rfl

@[simp] theorem subLead_nextSeq (c : Word) (s : State) : (subLead c s).nextSeq = s.nextSeq := rfl

@[simp] theorem subLead_inDispatch (c : Word) (s : State) : (subLead c s).inDispatch = s.inDispatch := rfl

@[simp] theorem subLead_tFast (c : Word) (s : State) : (subLead c s).tFast = s.tFast := rfl

@[simp] theorem subLead_tSlow (c : Word) (s : State) : (subLead c s).tSlow = s.tSlow := rfl

@[simp] theorem subLead_ie (c : Word) (s : State) : (subLead c s).ie = s.ie := rfl

@[simp] theorem subLead_iflag (c : Word) (s : State) : (subLead c s).iflag = s.iflag := rfl

@[simp] theorem subLead_ime (c : Word) (s : State) : (subLead c s).ime = s.ime := rfl

@[simp] theorem subLead_regions (c : Word) (s : State) : (subLead c s).regions = s.regions := rfl

@[simp] theorem subLead_backing (c : Word) (s : State) : (subLead c s).backing = s.backing := rfl

@[simp] theorem subLead_last (c : Word) (s : State) : (subLead c s).last = s.last := rfl

@[simp] theorem subLead_fatal (c : Word) (s : State) : (subLead c s).fatal = s.fatal := rfl

@[simp] theorem subLead_trace (c : Word) (s : State) : (subLead c s).trace = s.trace := rfl

@[simp] theorem subLead_ctx (c : Word) (s : State) : (subLead c s).ctx = s.ctx := rfl

@[simp] theorem subLead_collab (c : Word) (s : State) : (subLead c s).collab = s.collab := rfl

@[simp] theorem subLead_host (c : Word) (s : State) : (subLead c s).host = s.host := rfl

@[simp] theorem subLead_lead (c : Word) (s : State) :
    (subLead c s).lead = s.lead - BitVec.ofNat 64 (clockRatio * c.toNat) := rfl

/-! ### raiseNow -/

@[simp] theorem raiseNow_cfg (t : Cycle) (s : State) : (raiseNow t s).cfg = s.cfg := rfl

@[simp] theorem raiseNow_queue (t : Cycle) (s : State) : (raiseNow t s).queue = s.queue := rfl

@[simp] theorem raiseNow_nextSeq (t : Cycle) (s : State) : (raiseNow t s).nextSeq = s.nextSeq := rfl

@[simp] theorem raiseNow_inDispatch (t : Cycle) (s : State) : (raiseNow t s).inDispatch = s.inDispatch := rfl

@[simp] theorem raiseNow_tFast (t : Cycle) (s : State) : (raiseNow t s).tFast = s.tFast := rfl

@[simp] theorem raiseNow_tSlow (t : Cycle) (s : State) : (raiseNow t s).tSlow = s.tSlow := rfl

@[simp] theorem raiseNow_lead (t : Cycle) (s : State) : (raiseNow t s).lead = s.lead := rfl

@[simp] theorem raiseNow_ie (t : Cycle) (s : State) : (raiseNow t s).ie = s.ie := rfl

@[simp] theorem raiseNow_iflag (t : Cycle) (s : State) : (raiseNow t s).iflag = s.iflag := rfl

@[simp] theorem raiseNow_ime (t : Cycle) (s : State) : (raiseNow t s).ime = s.ime := rfl

@[simp] theorem raiseNow_regions (t : Cycle) (s : State) : (raiseNow t s).regions = s.regions := rfl

@[simp] theorem raiseNow_backing (t : Cycle) (s : State) : (raiseNow t s).backing = s.backing := rfl

@[simp] theorem raiseNow_last (t : Cycle) (s : State) : (raiseNow t s).last = s.last := rfl

@[simp] theorem raiseNow_fatal (t : Cycle) (s : State) : (raiseNow t s).fatal = s.fatal := rfl

@[simp] theorem raiseNow_trace (t : Cycle) (s : State) : (raiseNow t s).trace = s.trace := rfl

@[simp] theorem raiseNow_ctx (t : Cycle) (s : State) : (raiseNow t s).ctx = s.ctx := rfl

@[simp] theorem raiseNow_collab (t : Cycle) (s : State) : (raiseNow t s).collab = s.collab := rfl

@[simp] theorem raiseNow_host (t : Cycle) (s : State) : (raiseNow t s).host = s.host := rfl

@[simp] theorem raiseNow_now (t : Cycle) (s : State) : (raiseNow t s).now = if s.now < t then t else s.now := rfl

/-! ### writeBytes -/

@[simp] theorem writeBytes_cfg (r o : Nat) (bs : List Byte) (s : State) : (writeBytes r o bs s).cfg = s.cfg := by
  induction bs generalizing o s with
  | nil => rfl
  | cons b bs ih => simp [writeBytes, ih]

@[simp] theorem writeBytes_now (r o : Nat) (bs : List Byte) (s : State) : (writeBytes r o bs s).now = s.now := by
  induction bs generalizing o s with
  | nil => rfl
  | cons b bs ih => simp [writeBytes, ih]

@[simp] theorem writeBytes_queue (r o : Nat) (bs : List Byte) (s : State) : (writeBytes r o bs s).queue = s.queue := by
  induction bs generalizing o s with
  | nil => rfl
  | cons b bs ih => simp [writeBytes, ih]

@[simp] theorem writeBytes_nextSeq (r o : Nat) (bs : List Byte) (s : State) : (writeBytes r o bs s).nextSeq = s.nextSeq := by
  induction bs generalizing o s with
  | nil => rfl
  | cons b bs ih => simp [writeBytes, ih]

@[simp] theorem writeBytes_inDispatch (r o : Nat) (bs : List Byte) (s : State) : (writeBytes r o bs s).inDispatch = s.inDispatch := by
  induction bs generalizing o s with
  | nil => rfl
  | cons b bs ih => simp [writeBytes, ih]

@[simp] theorem writeBytes_tFast (r o : Nat) (bs : List Byte) (s : State) : (writeBytes r o bs s).tFast = s.tFast := by
  induction bs generalizing o s with
  | nil => rfl
  | cons b bs ih => simp [writeBytes, ih]

@[simp] theorem writeBytes_tSlow (r o : Nat) (bs : List Byte) (s : State) : (writeBytes r o bs s).tSlow = s.tSlow := by
  induction bs generalizing o s with
  | nil => rfl
  | cons b bs ih => simp [writeBytes, ih]

@[simp] theorem writeBytes_lead (r o : Nat) (bs : List Byte) (s : State) : (writeBytes r o bs s).lead = s.lead := by
  induction bs generalizing o s with
  | nil => rfl
  | cons b bs ih => simp [writeBytes, ih]

@[simp] theorem writeBytes_ie (r o : Nat) (bs : List Byte) (s : State) : (writeBytes r o bs s).ie = s.ie := by
  induction bs generalizing o s with
  | nil => rfl
  | cons b bs ih => simp [writeBytes, ih]

@[simp] theorem writeBytes_iflag (r o : Nat) (bs : List Byte) (s : State) : (writeBytes r o bs s).iflag = s.iflag := by
  induction bs generalizing o s with
  | nil => rfl
  | cons b bs ih => simp [writeBytes, ih]

@[simp] theorem writeBytes_ime (r o : Nat) (bs : List Byte) (s : State) : (writeBytes r o bs s).ime = s.ime := by
  induction bs generalizing o s with
  | nil => rfl
  | cons b bs ih => simp [writeBytes, ih]

@[simp] theorem writeBytes_regions (r o : Nat) (bs : List Byte) (s : State) : (writeBytes r o bs s).regions = s.regions := by
  induction bs generalizing o s with
  | nil => rfl
  | cons b bs ih => simp [writeBytes, ih]

@[simp] theorem writeBytes_last (r o : Nat) (bs : List Byte) (s : State) : (writeBytes r o bs s).last = s.last := by
  induction bs generalizing o s with
  | nil => rfl
  | cons b bs ih => simp [writeBytes, ih]

@[simp] theorem writeBytes_fatal (r o : Nat) (bs : List Byte) (s : State) : (writeBytes r o bs s).fatal = s.fatal := by
  induction bs generalizing o s with
  | nil => rfl
  | cons b bs ih => simp [writeBytes, ih]

@[simp] theorem writeBytes_trace (r o : Nat) (bs : List Byte) (s : State) : (writeBytes r o bs s).trace = s.trace := by
  induction bs generalizing o s with
  | nil => rfl
  | cons b bs ih => simp [writeBytes, ih]

@[simp] theorem writeBytes_ctx (r o : Nat) (bs : List Byte) (s : State) : (writeBytes r o bs s).ctx = s.ctx := by
  induction bs generalizing o s with
  | nil => rfl
  | cons b bs ih => simp [writeBytes, ih]

@[simp] theorem writeBytes_collab (r o : Nat) (bs : List Byte) (s : State) : (writeBytes r o bs s).collab = s.collab := by
  induction bs generalizing o s with
  | nil => rfl
  | cons b bs ih => simp [writeBytes, ih]

@[simp] theorem writeBytes_host (r o : Nat) (bs : List Byte) (s : State) : (writeBytes r o bs s).host = s.host := by
  induction bs generalizing o s with
  | nil => rfl
  | cons b bs ih => simp [writeBytes, ih]

/-! ### tell -/

@[simp] theorem tell_cfg (m : Msg) (s : State) : (tell m s).cfg = s.cfg := by unfold tell; split <;> rfl

@[simp] theorem tell_now (m : Msg) (s : State) : (tell m s).now = s.now := by unfold tell; split <;> rfl

@[simp] theorem tell_queue (m : Msg) (s : State) : (tell m s).queue = s.queue := by unfold tell; split <;> rfl

@[simp] theorem tell_nextSeq (m : Msg) (s : State) : (tell m s).nextSeq = s.nextSeq := by unfold tell; split <;> rfl

@[simp] theorem tell_inDispatch (m : Msg) (s : State) : (tell m s).inDispatch = s.inDispatch := by unfold tell; split <;> rfl

@[simp] theorem tell_tFast (m : Msg) (s : State) : (tell m s).tFast = s.tFast := by unfold tell; split <;> rfl

@[simp] theorem tell_tSlow (m : Msg) (s : State) : (tell m s).tSlow = s.tSlow := by unfold tell; split <;> rfl

@[simp] theorem tell_lead (m : Msg) (s : State) : (tell m s).lead = s.lead := by unfold tell; split <;> rfl

@[simp] theorem tell_ie (m : Msg) (s : State) : (tell m s).ie = s.ie := by unfold tell; split <;> rfl

@[simp] theorem tell_iflag (m : Msg) (s : State) : (tell m s).iflag = s.iflag := by unfold tell; split <;> rfl

@[simp] theorem tell_ime (m : Msg) (s : State) : (tell m s).ime = s.ime := by unfold tell; split <;> rfl

@[simp] theorem tell_regions (m : Msg) (s : State) : (tell m s).regions = s.regions := by unfold tell; split <;> rfl

@[simp] theorem tell_backing (m : Msg) (s : State) : (tell m s).backing = s.backing := by unfold tell; split <;> rfl

@[simp] theorem tell_last (m : Msg) (s : State) : (tell m s).last = s.last := by unfold tell; split <;> rfl

@[simp] theorem tell_fatal (m : Msg) (s : State) : (tell m s).fatal = s.fatal := by unfold tell; split <;> rfl

@[simp] theorem tell_trace (m : Msg) (s : State) : (tell m s).trace = s.trace := by unfold tell; split <;> rfl

@[simp] theorem tell_ctx (m : Msg) (s : State) : (tell m s).ctx = s.ctx := by unfold tell; split <;> rfl

@[simp] theorem tell_host (m : Msg) (s : State) : (tell m s).host = s.host := by unfold tell; split <;> rfl

/-! ### respond -/

@[simp] theorem respond_cfg (ws : List Word) (s : State) : (respond ws s).cfg = s.cfg := by unfold respond; split <;> simp

@[simp] theorem respond_now (ws : List Word) (s : State) : (respond ws s).now = s.now := by unfold respond; split <;> simp

@[simp] theorem respond_queue (ws : List Word) (s : State) : (respond ws s).queue = s.queue := by unfold respond; split <;> simp

@[simp] theorem respond_nextSeq (ws : List Word) (s : State) : (respond ws s).nextSeq = s.nextSeq := by unfold respond; split <;> simp

@[simp] theorem respond_inDispatch (ws : List Word) (s : State) : (respond ws s).inDispatch = s.inDispatch := by unfold respond; split <;> simp

@[simp] theorem respond_tFast (ws : List Word) (s : State) : (respond ws s).tFast = s.tFast := by unfold respond; split <;> simp

@[simp] theorem respond_tSlow (ws : List Word) (s : State) : (respond ws s).tSlow = s.tSlow := by unfold respond; split <;> simp

@[simp] theorem respond_lead (ws : List Word) (s : State) : (respond ws s).lead = s.lead := by unfold respond; split <;> simp

@[simp] theorem respond_ie (ws : List Word) (s : State) : (respond ws s).ie = s.ie := by unfold respond; split <;> simp

@[simp] theorem respond_iflag (ws : List Word) (s : State) : (respond ws s).iflag = s.iflag := by unfold respond; split <;> simp

@[simp] theorem respond_ime (ws : List Word) (s : State) : (respond ws s).ime = s.ime := by unfold respond; split <;> simp

@[simp] theorem respond_regions (ws : List Word) (s : State) : (respond ws s).regions = s.regions := by unfold respond; split <;> simp

@[simp] theorem respond_backing (ws : List Word) (s : State) : (respond ws s).backing = s.backing := by unfold respond; split <;> simp

@[simp] theorem respond_last (ws : List Word) (s : State) : (respond ws s).last = s.last := by unfold respond; split <;> simp

@[simp] theorem respond_fatal (ws : List Word) (s : State) : (respond ws s).fatal = s.fatal := by unfold respond; split <;> simp

@[simp] theorem respond_trace (ws : List Word) (s : State) : (respond ws s).trace = s.trace := by unfold respond; split <;> simp

@[simp] theorem respond_ctx (ws : List Word) (s : State) : (respond ws s).ctx = s.ctx := by unfold respond; split <;> simp

theorem respond_host_ctx (ws : List Word) (s : State) (h : s.ctx = .host) :
    respond ws s = { s with host := { s.host with responses := s.host.responses ++ [ws] } } := by
  simp [respond, h]

theorem respond_host_of_nested (ws : List Word) (s : State) (h : s.ctx ≠ .host) : (respond ws s).host = s.host := by
  unfold respond; split
  · contradiction
  · simp
  · simp

/-! ### answer -/

@[simp] theorem answer_cfg (st : Status) (ws : List Word) (s : State) : (answer st ws s).cfg = s.cfg := by simp [answer]

@[simp] theorem answer_now (st : Status) (ws : List Word) (s : State) : (answer st ws s).now = s.now := by simp [answer]

@[simp] theorem answer_queue (st : Status) (ws : List Word) (s : State) : (answer st ws s).queue = s.queue := by simp [answer]

@[simp] theorem answer_nextSeq (st : Status) (ws : List Word) (s : State) : (answer st ws s).nextSeq = s.nextSeq := by simp [answer]

@[simp] theorem answer_inDispatch (st : Status) (ws : List Word) (s : State) : (answer st ws s).inDispatch = s.inDispatch := by simp [answer]

@[simp] theorem answer_tFast (st : Status) (ws : List Word) (s : State) : (answer st ws s).tFast = s.tFast := by simp [answer]

@[simp] theorem answer_tSlow (st : Status) (ws : List Word) (s : State) : (answer st ws s).tSlow = s.tSlow := by simp [answer]

@[simp] theorem answer_lead (st : Status) (ws : List Word) (s : State) : (answer st ws s).lead = s.lead := by simp [answer]

@[simp] theorem answer_ie (st : Status) (ws : List Word) (s : State) : (answer st ws s).ie = s.ie := by simp [answer]

@[simp] theorem answer_iflag (st : Status) (ws : List Word) (s : State) : (answer st ws s).iflag = s.iflag := by simp [answer]

@[simp] theorem answer_ime (st : Status) (ws : List Word) (s : State) : (answer st ws s).ime = s.ime := by simp [answer]

@[simp] theorem answer_regions (st : Status) (ws : List Word) (s : State) : (answer st ws s).regions = s.regions := by simp [answer]

@[simp] theorem answer_backing (st : Status) (ws : List Word) (s : State) : (answer st ws s).backing = s.backing := by simp [answer]

@[simp] theorem answer_last (st : Status) (ws : List Word) (s : State) : (answer st ws s).last = s.last := by simp [answer]

@[simp] theorem answer_fatal (st : Status) (ws : List Word) (s : State) : (answer st ws s).fatal = s.fatal := by simp [answer]

@[simp] theorem answer_trace (st : Status) (ws : List Word) (s : State) : (answer st ws s).trace = s.trace := by simp [answer]

@[simp] theorem answer_ctx (st : Status) (ws : List Word) (s : State) : (answer st ws s).ctx = s.ctx := by simp [answer]

/-! ### raiseFatal -/

@[simp] theorem raiseFatal_cfg (c : FatalCode) (s : State) : (raiseFatal c s).cfg = s.cfg := by simp [raiseFatal]

@[simp] theorem raiseFatal_now (c : FatalCode) (s : State) : (raiseFatal c s).now = s.now := by simp [raiseFatal]

@[simp] theorem raiseFatal_queue (c : FatalCode) (s : State) : (raiseFatal c s).queue = s.queue := by simp [raiseFatal]

@[simp] theorem raiseFatal_nextSeq (c : FatalCode) (s : State) : (raiseFatal c s).nextSeq = s.nextSeq := by simp [raiseFatal]

@[simp] theorem raiseFatal_inDispatch (c : FatalCode) (s : State) : (raiseFatal c s).inDispatch = s.inDispatch := by simp [raiseFatal]

@[simp] theorem raiseFatal_tFast (c : FatalCode) (s : State) : (raiseFatal c s).tFast = s.tFast := by simp [raiseFatal]

@[simp] theorem raiseFatal_tSlow (c : FatalCode) (s : State) : (raiseFatal c s).tSlow = s.tSlow := by simp [raiseFatal]

@[simp] theorem raiseFatal_lead (c : FatalCode) (s : State) : (raiseFatal c s).lead = s.lead := by simp [raiseFatal]

@[simp] theorem raiseFatal_ie (c : FatalCode) (s : State) : (raiseFatal c s).ie = s.ie := by simp [raiseFatal]

@[simp] theorem raiseFatal_iflag (c : FatalCode) (s : State) : (raiseFatal c s).iflag = s.iflag := by simp [raiseFatal]

@[simp] theorem raiseFatal_ime (c : FatalCode) (s : State) : (raiseFatal c s).ime = s.ime := by simp [raiseFatal]

@[simp] theorem raiseFatal_regions (c : FatalCode) (s : State) : (raiseFatal c s).regions = s.regions := by simp [raiseFatal]

@[simp] theorem raiseFatal_backing (c : FatalCode) (s : State) : (raiseFatal c s).backing = s.backing := by simp [raiseFatal]

@[simp] theorem raiseFatal_last (c : FatalCode) (s : State) : (raiseFatal c s).last = s.last := by simp [raiseFatal]

@[simp] theorem raiseFatal_trace (c : FatalCode) (s : State) : (raiseFatal c s).trace = s.trace := by simp [raiseFatal]

@[simp] theorem raiseFatal_ctx (c : FatalCode) (s : State) : (raiseFatal c s).ctx = s.ctx := by simp [raiseFatal]

@[simp] theorem raiseFatal_fatal (c : FatalCode) (s : State) : (raiseFatal c s).fatal = some c := by simp [raiseFatal]

/-! ### answerFatal -/

@[simp] theorem answerFatal_cfg (s : State) : (answerFatal s).cfg = s.cfg := by unfold answerFatal; split <;> simp

@[simp] theorem answerFatal_now (s : State) : (answerFatal s).now = s.now := by unfold answerFatal; split <;> simp

@[simp] theorem answerFatal_queue (s : State) : (answerFatal s).queue = s.queue := by unfold answerFatal; split <;> simp

@[simp] theorem answerFatal_nextSeq (s : State) : (answerFatal s).nextSeq = s.nextSeq := by unfold answerFatal; split <;> simp

@[simp] theorem answerFatal_inDispatch (s : State) : (answerFatal s).inDispatch = s.inDispatch := by unfold answerFatal; split <;> simp

@[simp] theorem answerFatal_tFast (s : State) : (answerFatal s).tFast = s.tFast := by unfold answerFatal; split <;> simp

@[simp] theorem answerFatal_tSlow (s : State) : (answerFatal s).tSlow = s.tSlow := by unfold answerFatal; split <;> simp

@[simp] theorem answerFatal_lead (s : State) : (answerFatal s).lead = s.lead := by unfold answerFatal; split <;> simp

@[simp] theorem answerFatal_ie (s : State) : (answerFatal s).ie = s.ie := by unfold answerFatal; split <;> simp

@[simp] theorem answerFatal_iflag (s : State) : (answerFatal s).iflag = s.iflag := by unfold answerFatal; split <;> simp

@[simp] theorem answerFatal_ime (s : State) : (answerFatal s).ime = s.ime := by unfold answerFatal; split <;> simp

@[simp] theorem answerFatal_regions (s : State) : (answerFatal s).regions = s.regions := by unfold answerFatal; split <;> simp

@[simp] theorem answerFatal_backing (s : State) : (answerFatal s).backing = s.backing := by unfold answerFatal; split <;> simp

@[simp] theorem answerFatal_last (s : State) : (answerFatal s).last = s.last := by unfold answerFatal; split <;> simp

@[simp] theorem answerFatal_fatal (s : State) : (answerFatal s).fatal = s.fatal := by unfold answerFatal; split <;> simp

@[simp] theorem answerFatal_trace (s : State) : (answerFatal s).trace = s.trace := by unfold answerFatal; split <;> simp

@[simp] theorem answerFatal_ctx (s : State) : (answerFatal s).ctx = s.ctx := by unfold answerFatal; split <;> simp


@[simp] theorem cpuCollab_setCpuCollab_same (x : Cpu) (c : CpuCollab) (s : State) :
    cpuCollab x (setCpuCollab x c s) = c := by simp [cpuCollab]

end Sys2Proof.Machine
end

