-- ==== Sys2Proof/Laws/Memory.lean ====
section
/-! SUPPORT. Backing memory: read after write, and the canonical form that every operation keeps. -/

namespace Sys2Proof.Machine

open Sys2Proof

/-- The keys of a memory rise strictly. -/
abbrev risingKeys (m : Memory) : Prop := (m.map Prod.fst).Pairwise (· < ·)

theorem risingKeys_cons {p : Host.Cell} {m : Memory} : risingKeys (p :: m) ↔ (∀ q ∈ m, p.1 < q.1) ∧ risingKeys m := by
  simp [risingKeys]

theorem lookupCell_eq_none_of_lt {k : Nat} {m : Memory} (h : ∀ p ∈ m, k < p.1) : lookupCell k m = none := by
  induction m with
  | nil => rfl
  | cons p m ih =>
    have hp := h p (by simp)
    have hne : p.1 ≠ k := by omega
    simp only [lookupCell, if_neg hne]
    exact ih (fun q hq => h q (by simp [hq]))

/-- What a store puts at its key when read with the default there, and that it leaves every other key alone. -/
theorem lookup_storeCell (f : Nat → Byte) (k j : Nat) (b : Byte) {m : Memory} (h : risingKeys m) :
    (lookupCell j (storeCell (f k) k b m)).getD (f j) = if j = k then b else (lookupCell j m).getD (f j) := by
  induction m with
  | nil =>
    by_cases hb : b = f k <;> by_cases hj : j = k
    · subst hj; simp [storeCell, hb, lookupCell]
    · simp [storeCell, hb, lookupCell, hj]
    · subst hj; simp [storeCell, hb, lookupCell]
    · simp [storeCell, hb, lookupCell, hj, Ne.symm hj]
  | cons p m ih =>
    obtain ⟨i, c⟩ := p
    rw [risingKeys_cons] at h
    have ih := ih h.2
    simp only [storeCell]
    rcases lt_trichotomy k i with hki | hki | hki
    · have hnone : lookupCell k ((i, c) :: m) = none :=
        lookupCell_eq_none_of_lt (by
          intro q hq
          rcases List.mem_cons.mp hq with rfl | hq
          · exact hki
          · exact lt_trans hki (h.1 q hq))
      rw [if_pos hki]
      by_cases hb : b = f k <;> by_cases hj : j = k
      · subst hj; simp [hb, hnone]
      · simp [hb, hj]
      · subst hj; simp [hb, lookupCell]
      · simp [hb, hj, lookupCell, Ne.symm hj]
    · subst hki
      have hnone : lookupCell k m = none := lookupCell_eq_none_of_lt h.1
      rw [if_neg (lt_irrefl k), if_pos rfl]
      by_cases hb : b = f k <;> by_cases hj : j = k
      · subst hj; simp [hb, hnone]
      · simp [hb, hj, lookupCell, Ne.symm hj]
      · subst hj; simp [hb, lookupCell]
      · simp [hb, hj, lookupCell, Ne.symm hj]
    · rw [if_neg (by omega), if_neg (by omega)]
      by_cases hij : i = j
      · subst hij; simp [lookupCell, show i ≠ k by omega]
      · simpa only [lookupCell, if_neg hij] using ih

theorem mem_storeCell {d b : Byte} {k : Nat} {m : Memory} {p : Host.Cell} (h : p ∈ storeCell d k b m) :
    p = (k, b) ∧ b ≠ d ∨ p ∈ m := by
  induction m with
  | nil => simp only [storeCell] at h; split at h <;> simp_all
  | cons q m ih =>
    obtain ⟨i, c⟩ := q
    simp only [storeCell] at h
    split at h
    · split at h
      · exact .inr h
      · rcases List.mem_cons.mp h with rfl | h
        · exact .inl ⟨rfl, ‹_›⟩
        · exact .inr h
    · split at h
      · split at h
        · exact .inr (List.mem_cons_of_mem _ h)
        · rcases List.mem_cons.mp h with rfl | h
          · exact .inl ⟨rfl, ‹_›⟩
          · exact .inr (List.mem_cons_of_mem _ h)
      · rcases List.mem_cons.mp h with rfl | h
        · exact .inr (by simp)
        · rcases ih h with h | h
          · exact .inl h
          · exact .inr (List.mem_cons_of_mem _ h)

theorem risingKeys_storeCell (d b : Byte) (k : Nat) {m : Memory} (h : risingKeys m) : risingKeys (storeCell d k b m) := by
  induction m with
  | nil => simp only [storeCell]; split <;> simp [risingKeys]
  | cons p m ih =>
    obtain ⟨i, c⟩ := p
    have h' := risingKeys_cons.mp h
    simp only [storeCell]
    split
    · rename_i hki
      split
      · exact h
      · refine risingKeys_cons.mpr ⟨fun q hq => ?_, h⟩
        rcases List.mem_cons.mp hq with rfl | hq
        · exact hki
        · exact lt_trans hki (h'.1 q hq)
    · split
      · split
        · exact h'.2
        · rename_i hk _; subst hk; exact risingKeys_cons.mpr h'
      · refine risingKeys_cons.mpr ⟨fun q hq => ?_, ih h'.2⟩
        rcases mem_storeCell hq with ⟨rfl, -⟩ | hq
        · simp only; omega
        · exact h'.1 q hq

theorem memoryWf_iff {cfg : Config} {m : Memory} :
    memoryWf cfg m = true ↔ risingKeys m ∧ ∀ p ∈ m, p.2 ≠ defaultByte cfg p.1 := by
  simp [memoryWf, risingKeys]

theorem memoryWf_nil (cfg : Config) : memoryWf cfg [] = true := by simp [memoryWf_iff, risingKeys]

theorem memoryWf_storeCell {cfg : Config} {m : Memory} (k : Nat) (b : Byte) (h : memoryWf cfg m = true) :
    memoryWf cfg (storeCell (defaultByte cfg k) k b m) = true := by
  rw [memoryWf_iff] at h ⊢
  refine ⟨risingKeys_storeCell _ _ _ h.1, fun p hp => ?_⟩
  rcases mem_storeCell hp with ⟨rfl, hb⟩ | hp
  · exact hb
  · exact h.2 p hp

theorem memoryWf_writeBacking {s : State} (r o : Nat) (b : Byte) (h : memoryWf s.cfg s.backing = true) :
    memoryWf (writeBacking r o b s).cfg (writeBacking r o b s).backing = true := memoryWf_storeCell _ _ h

theorem memoryWf_writeBytes {s : State} (r o : Nat) (bs : List Byte) (h : memoryWf s.cfg s.backing = true) :
    memoryWf (writeBytes r o bs s).cfg (writeBytes r o bs s).backing = true := by
  induction bs generalizing o s with
  | nil => exact h
  | cons b bs ih => exact ih _ (memoryWf_writeBacking _ _ _ h)

theorem readCell_eq_getD (s : State) (key : Nat) :
    readCell s key = (lookupCell key s.backing).getD (defaultByte s.cfg key) := by
  unfold readCell; cases lookupCell key s.backing <;> rfl

/-- Reading a cell depends on the configuration and the backing memory alone. -/
theorem readCell_congr {s t : State} (hc : t.cfg = s.cfg) (hb : t.backing = s.backing) (key : Nat) :
    readCell t key = readCell s key := by simp [readCell_eq_getD, hc, hb]

theorem readCell_writeBacking {s : State} (h : risingKeys s.backing) (r o : Nat) (b : Byte) (key : Nat) :
    readCell (writeBacking r o b s) key = if key = cellKey r o then b else readCell s key := by
  simp only [readCell_eq_getD]
  exact lookup_storeCell (defaultByte s.cfg) (cellKey r o) key b h

theorem cellKey_succ (r o : Nat) : cellKey r (o + 1) = cellKey r o + 1 := (Nat.add_assoc _ o 1).symm

/-- A run of stores: the bytes stored, in order, from the first key on, and every other cell as before. -/
theorem readCell_writeBytes (r : Nat) (bs : List Byte) {o : Nat} {s : State} (h : risingKeys s.backing) (key : Nat) :
    readCell (writeBytes r o bs s) key
      = if cellKey r o ≤ key then bs.getD (key - cellKey r o) (readCell s key) else readCell s key := by
  induction bs generalizing o s with
  | nil => simp [writeBytes]
  | cons b bs ih =>
    have hr : risingKeys (writeBacking r o b s).backing := risingKeys_storeCell _ _ _ h
    rw [writeBytes, ih hr, readCell_writeBacking h, cellKey_succ]
    generalize cellKey r o = K
    rcases lt_trichotomy key K with hk | hk | hk
    · rw [if_neg (by omega), if_neg (by omega), if_neg (by omega)]
    · subst hk
      rw [if_neg (by omega), if_pos rfl, if_pos (le_refl _), Nat.sub_self, List.getD_cons_zero]
    · have e : key - K = (key - (K + 1)) + 1 := by omega
      rw [if_pos (by omega), if_neg (by omega), if_pos (by omega), e, List.getD_cons_succ]

/-- Offsets a bus access reaches keep regions apart. -/
theorem cellKey_inj {r q o p : Nat} (ho : o < 2 ^ 33) (hp : p < 2 ^ 33) (h : cellKey r o = cellKey q p) :
    r = q ∧ o = p := by
  have hr : (r * 2 ^ 33 + o) / 2 ^ 33 = r := by rw [mul_comm, Nat.mul_add_div (by norm_num), Nat.div_eq_of_lt ho, add_zero]
  have hq : (q * 2 ^ 33 + p) / 2 ^ 33 = q := by rw [mul_comm, Nat.mul_add_div (by norm_num), Nat.div_eq_of_lt hp, add_zero]
  have e : r = q := by rw [← hr, ← hq]; exact congrArg (· / 2 ^ 33) h
  subst e
  exact ⟨rfl, Nat.add_left_cancel h⟩

/-! ### Little-endian bytes -/

@[simp] theorem leBytes_length (n : Nat) (w : Word) : (leBytes n w).length = n := by
  induction n generalizing w with
  | zero => rfl
  | succ n ih => simp [leBytes, ih]

theorem leBytes_getElem? {n k : Nat} (w : Word) (h : k < n) :
    (leBytes n w)[k]? = some ((w >>> (8 * k)).setWidth 8) := by
  induction n generalizing w k with
  | zero => omega
  | succ n ih =>
    cases k with
    | zero => simp [leBytes]
    | succ k =>
      rw [leBytes, List.getElem?_cons_succ, ih _ (by omega), show 8 * (k + 1) = 8 + 8 * k by omega,
        BitVec.shiftRight_add]

/-- Bytes stored low first read back as the word's low bits (20_memory.md R81, R97). -/
theorem leValue_leBytes (w : Width) (v : Word) : leValue (leBytes (widthBytes w) v) = v &&& widthMask w := by
  cases w <;> simp only [widthBytes, leBytes, leValue, widthMask]
  all_goals
    apply BitVec.eq_of_getLsbD_eq
    intro i hi
    interval_cases i <;> simp

end Sys2Proof.Machine
end

