-- ==== Sys2Proof/Laws/Scheduler.lean ====
section
/-! SUPPORT. The event queue: what inserting does, the event order, and the outcome of SCHED.SCHEDULE. -/

namespace Sys2Proof.Machine

open Sys2Proof

theorem eventBefore_iff {a b : Event} : eventBefore a b = true ↔ a.fire < b.fire ∨ a.fire = b.fire ∧ a.seq < b.seq := by
  simp [eventBefore]

theorem eventBefore_trans {a b c : Event} (h : eventBefore a b = true) (h' : eventBefore b c = true) :
    eventBefore a c = true := by
  rw [eventBefore_iff] at *
  rcases h with h | ⟨h, hs⟩ <;> rcases h' with h' | ⟨h', hs'⟩
  · exact .inl (BitVec.lt_trans h h')
  · exact .inl (h' ▸ h)
  · exact .inl (h ▸ h')
  · exact .inr ⟨h.trans h', BitVec.lt_trans hs hs'⟩

/-- Two events of different sequence numbers are ordered one way or the other. -/
theorem eventBefore_total {a b : Event} (hs : a.seq ≠ b.seq) : eventBefore a b = true ∨ eventBefore b a = true := by
  simp only [eventBefore_iff]
  rcases lt_trichotomy a.fire.toNat b.fire.toNat with h | h | h
  · exact .inl (.inl h)
  · have hf : a.fire = b.fire := BitVec.eq_of_toNat_eq h
    have hne : a.seq.toNat ≠ b.seq.toNat := fun h => hs (BitVec.eq_of_toNat_eq h)
    rcases Nat.lt_or_gt_of_ne hne with h | h
    · exact .inl (.inr ⟨hf, h⟩)
    · exact .inr (.inr ⟨hf.symm, h⟩)
  · exact .inr (.inl h)

theorem fire_le_of_eventBefore {a b : Event} (h : eventBefore a b = true) : a.fire ≤ b.fire := by
  rcases eventBefore_iff.mp h with h | ⟨h, -⟩
  · exact BitVec.le_of_lt h
  · rw [h]; exact BitVec.le_refl _

@[simp] theorem mem_insertEvent {e x : Event} {q : List Event} : x ∈ insertEvent e q ↔ x = e ∨ x ∈ q := by
  induction q with
  | nil => simp [insertEvent]
  | cons y q ih =>
    simp only [insertEvent]
    split
    · simp
    · simp [ih]; tauto

@[simp] theorem length_insertEvent (e : Event) (q : List Event) : (insertEvent e q).length = q.length + 1 := by
  induction q with
  | nil => rfl
  | cons y q ih => simp only [insertEvent]; split <;> simp [ih]

/-- Inserting an event whose sequence number is new keeps the order. -/
theorem queueOrdered_insertEvent {e : Event} {q : List Event} (h : queueOrdered q) (hs : ∀ x ∈ q, x.seq ≠ e.seq) :
    queueOrdered (insertEvent e q) := by
  induction q with
  | nil => simp [insertEvent, queueOrdered]
  | cons y q ih =>
    have h' := List.pairwise_cons.mp h
    simp only [insertEvent]
    split
    · rename_i hb
      refine List.pairwise_cons.mpr ⟨fun x hx => ?_, h⟩
      rcases List.mem_cons.mp hx with rfl | hx
      · exact hb
      · exact eventBefore_trans hb (h'.1 x hx)
    · rename_i hb
      refine List.pairwise_cons.mpr ⟨fun x hx => ?_, ih h'.2 (fun x hx => hs x (List.mem_cons_of_mem _ hx))⟩
      rcases mem_insertEvent.mp hx with rfl | hx
      · exact (eventBefore_total (hs y (by simp))).resolve_right hb
      · exact h'.1 x hx

/-- Inserting an event whose sequence number is new keeps the numbers distinct. -/
theorem distinctSeqs_insertEvent {e : Event} {q : List Event} (h : distinctSeqs q) (hs : ∀ x ∈ q, x.seq ≠ e.seq) :
    distinctSeqs (insertEvent e q) := by
  induction q with
  | nil => simp [insertEvent, distinctSeqs]
  | cons y q ih =>
    have h' := List.pairwise_cons.mp h
    simp only [insertEvent]
    split
    · exact List.pairwise_cons.mpr ⟨fun x hx he => hs x hx he.symm, h⟩
    · refine List.pairwise_cons.mpr ⟨fun x hx => ?_, ih h'.2 (fun x hx => hs x (List.mem_cons_of_mem _ hx))⟩
      rcases mem_insertEvent.mp hx with rfl | hx
      · exact hs y (by simp)
      · exact h'.1 x hx

/-- Inserting an event leaves the events of another cycle as they were. -/
theorem filter_insertEvent {e : Event} {q : List Event} {c : Cycle} (h : e.fire ≠ c) :
    (insertEvent e q).filter (fun x => decide (x.fire = c)) = q.filter (fun x => decide (x.fire = c)) := by
  induction q with
  | nil => simp [insertEvent, h]
  | cons y q ih => simp only [insertEvent]; split <;> simp [List.filter_cons, h, ih]

/-- An event that fires no earlier than every pending one, with a larger sequence number, is the last. -/
theorem insertEvent_last {e : Event} {q : List Event} (hf : ∀ x ∈ q, x.fire ≤ e.fire) (hs : ∀ x ∈ q, x.seq < e.seq) :
    insertEvent e q = q ++ [e] := by
  induction q with
  | nil => rfl
  | cons y q ih =>
    have hn : ¬ eventBefore e y = true := by
      rw [eventBefore_iff]
      rintro (h | ⟨-, h⟩)
      · exact absurd (hf y (by simp)) (by simpa using h)
      · exact absurd (hs y (by simp)) (by simpa using BitVec.le_of_lt h)
    rw [insertEvent, if_neg hn, ih (fun x hx => hf x (by simp [hx])) (fun x hx => hs x (by simp [hx]))]
    rfl

/-- The three failures of SCHED.SCHEDULE, in the order of R140. -/
theorem scheduleError_eq_none {cap : Nat} {now n f : Cycle} {q : List Event} :
    scheduleError cap now q n f = none ↔ now ≤ f ∧ q.length ≠ cap ∧ n ≠ lastSeq := by
  unfold scheduleError
  split <;> rename_i h1
  · simp [BitVec.not_le.mpr h1]
  · split <;> rename_i h2
    · simp [h2]
    · split <;> rename_i h3
      · simp [h3]
      · simp [BitVec.not_lt.mp h1, h2, h3]

/-- Everything SCHED.SCHEDULE's own rule can do. -/
theorem scheduleEffect_cases (kind : Kind) (fire : Cycle) (s : State) :
    (∃ c, scheduleEffect kind fire s = raiseFatal c s) ∨
    (s.now ≤ fire ∧ s.queue.length ≠ s.cfg.queueCapacity ∧ s.nextSeq ≠ lastSeq ∧
      scheduleEffect kind fire s = answer .ok (cycleWords s.nextSeq)
        { s with queue := insertEvent ⟨fire, kind, s.nextSeq⟩ s.queue, nextSeq := s.nextSeq + 1 }) := by
  unfold scheduleEffect
  split <;> rename_i h
  · exact .inl ⟨_, rfl⟩
  · obtain ⟨h1, h2, h3⟩ := scheduleError_eq_none.mp h
    exact .inr ⟨h1, h2, h3, rfl⟩

theorem lastSeq_toNat : lastSeq.toNat = 2 ^ 64 - 1 := rfl

theorem succ_seq_toNat {n : Cycle} (h : n ≠ lastSeq) : (n + 1).toNat = n.toNat + 1 := by
  have : n.toNat ≠ 2 ^ 64 - 1 := fun h' => h (BitVec.eq_of_toNat_eq (by simpa [lastSeq] using h'))
  have := n.isLt
  rw [BitVec.toNat_add]; simp; omega

end Sys2Proof.Machine
end

