-- ==== Sys2Proof/Laws/Nested.lean ====
section
/-! SUPPORT. Everything a command of a collaborator can do, said once (`CollabRel`), for one command, for a script, and
for the two contexts' limits (30_encoding.md R125). -/

namespace Sys2Proof.Machine

open Sys2Proof

/-! ### Messages -/

@[simp] theorem tell_handler_priv (m : Msg) (s : State) :
    (tell m s).collab.handler.priv = s.collab.handler.priv := by unfold tell; split <;> rfl

@[simp] theorem tell_handler_table (m : Msg) (s : State) :
    (tell m s).collab.handler.table = s.collab.handler.table := by unfold tell; split <;> rfl

/-- What a CPU collaborator keeps apart from what it has heard. -/
def cpuRest (x : Cpu) (s : State) : Bool × Nat × List (Script CpuReturn) :=
  ((cpuCollab x s).halted, (cpuCollab x s).priv, (cpuCollab x s).table)

@[simp] theorem tell_cpuRest (m : Msg) (x : Cpu) (s : State) : cpuRest x (tell m s) = cpuRest x s := by
  unfold tell
  split
  · rfl
  · rename_i y _; cases x <;> cases y <;> rfl
  · rfl

/-- A response is no dispatch. -/
theorem callsOf_tell_response (ws : List Word) (s : State) :
    callsOf (tell (.response ws) s).collab.handler.heard = callsOf s.collab.handler.heard := by
  unfold tell; split <;> simp [callsOf]

theorem answer_eq_tell (st : Status) (ws : List Word) (s : State) (h : s.ctx ≠ .host) :
    answer st ws s = tell (.response (st.code :: ws)) s := by
  unfold answer respond; split <;> first | contradiction | rfl

theorem answer_eq_host (st : Status) (ws : List Word) (s : State) (h : s.ctx = .host) :
    answer st ws s = { s with host := { s.host with responses := s.host.responses ++ [st.code :: ws] } } :=
  respond_host_ctx _ _ h

/-! ### The scheduler's invariant -/

/-- The next sequence number is new (10_state.md R37, R38). -/
theorem SchedInv.seq_ne {s : State} (h : SchedInv s) : ∀ x ∈ s.queue, x.seq ≠ s.nextSeq := fun x hx he => by
  have := h.seqs x hx
  rw [he] at this
  exact BitVec.lt_irrefl _ this

/-- Scheduling keeps the scheduler's invariant. -/
theorem SchedInv.schedule {s : State} (h : SchedInv s) {kind : Kind} {fire : Cycle} (hk : kindWellFormed kind = true)
    (hf : s.now ≤ fire) (hb : s.queue.length ≠ s.cfg.queueCapacity) (hn : s.nextSeq ≠ lastSeq) :
    SchedInv { s with queue := insertEvent ⟨fire, kind, s.nextSeq⟩ s.queue, nextSeq := s.nextSeq + 1 } where
  ordered := queueOrdered_insertEvent h.ordered h.seq_ne
  future e he := by
    rcases mem_insertEvent.mp he with rfl | he
    · exact hf
    · exact h.future e he
  seqs e he := by
    have hs := succ_seq_toNat hn
    rw [BitVec.lt_def, hs]
    rcases mem_insertEvent.mp he with rfl | he
    · simp
    · have := BitVec.lt_def.mp (h.seqs e he); omega
  distinct := distinctSeqs_insertEvent h.distinct h.seq_ne
  kinds e he := by
    rcases mem_insertEvent.mp he with rfl | he
    · exact hk
    · exact h.kinds e he
  bound := by
    have := h.bound
    simp only [length_insertEvent]; omega

/-! ### What collaborators' commands can do -/

/-- What any sequence of commands in a collaborator's context does to the state (30_encoding.md R125, 60_exceptions.md
R262): time, the configuration, the context and the collaborators' private states stay; the queue only grows, by new events;
the trace only grows; the invariants of the scheduler and of memory are kept; FATAL is sticky. -/
structure CollabRel (s t : State) : Prop where
  cfg : t.cfg = s.cfg
  now : t.now = s.now
  inDispatch : t.inDispatch = s.inDispatch
  tFast : t.tFast = s.tFast
  tSlow : t.tSlow = s.tSlow
  lead : t.lead = s.lead
  regions : t.regions = s.regions
  ctx : t.ctx = s.ctx
  host : t.host = s.host
  priv : t.collab.handler.priv = s.collab.handler.priv
  table : t.collab.handler.table = s.collab.handler.table
  rest : ∀ x, cpuRest x t = cpuRest x s
  calls : callsOf t.collab.handler.heard = callsOf s.collab.handler.heard
  trace : s.trace <+: t.trace
  keeps : ∀ e ∈ s.queue, e ∈ t.queue
  fresh : ∀ e ∈ t.queue, e ∈ s.queue ∨ s.nextSeq ≤ e.seq ∧ e.seq < t.nextSeq
  covers : ∀ q, s.nextSeq ≤ q → q < t.nextSeq → ∃ e ∈ t.queue, e.seq = q
  seqLe : s.nextSeq ≤ t.nextSeq
  grows : t.queue.length + s.nextSeq.toNat = s.queue.length + t.nextSeq.toNat
  sched : SchedInv s → SchedInv t
  memory : memoryWf s.cfg s.backing = true → memoryWf t.cfg t.backing = true
  sticky : ∀ c, s.fatal = some c → t.fatal = some c

/-- No sequence number lies at or above a bound and below it. -/
theorem seq_absurd {a q : Cycle} {P : Prop} (h : a ≤ q) (h' : q < a) : P := absurd h' (BitVec.not_lt.mpr h)

theorem cycle_lt_of_lt_of_le {a b c : Cycle} (h : a < b) (h' : b ≤ c) : a < c := by bv_omega

theorem CollabRel.refl (s : State) : CollabRel s s where
  cfg := rfl
  now := rfl
  inDispatch := rfl
  tFast := rfl
  tSlow := rfl
  lead := rfl
  regions := rfl
  ctx := rfl
  host := rfl
  priv := rfl
  table := rfl
  rest _ := rfl
  calls := rfl
  trace := List.prefix_rfl
  keeps _ h := h
  fresh _ h := .inl h
  covers _ h h' := seq_absurd h h'
  seqLe := BitVec.le_refl _
  grows := rfl
  sched h := h
  memory h := h
  sticky _ h := h

theorem CollabRel.trans {s t u : State} (h : CollabRel s t) (h' : CollabRel t u) : CollabRel s u where
  cfg := h'.cfg.trans h.cfg
  now := h'.now.trans h.now
  inDispatch := h'.inDispatch.trans h.inDispatch
  tFast := h'.tFast.trans h.tFast
  tSlow := h'.tSlow.trans h.tSlow
  lead := h'.lead.trans h.lead
  regions := h'.regions.trans h.regions
  ctx := h'.ctx.trans h.ctx
  host := h'.host.trans h.host
  priv := h'.priv.trans h.priv
  table := h'.table.trans h.table
  rest x := (h'.rest x).trans (h.rest x)
  calls := h'.calls.trans h.calls
  trace := h.trace.trans h'.trace
  keeps e he := h'.keeps e (h.keeps e he)
  covers q hq hq' := by
    by_cases hlt : q < t.nextSeq
    · obtain ⟨e, he, hs⟩ := h.covers q hq hlt
      exact ⟨e, h'.keeps e he, hs⟩
    · exact h'.covers q (BitVec.not_lt.mp hlt) hq'
  fresh e he := by
    rcases h'.fresh e he with he | ⟨hl, hb⟩
    · exact (h.fresh e he).imp_right fun hn => ⟨hn.1, cycle_lt_of_lt_of_le hn.2 h'.seqLe⟩
    · exact .inr ⟨BitVec.le_trans h.seqLe hl, hb⟩
  seqLe := BitVec.le_trans h.seqLe h'.seqLe
  grows := by have := h.grows; have := h'.grows; omega
  sched hs := h'.sched (h.sched hs)
  memory hm := h'.memory (h.memory hm)
  sticky c hc := h'.sticky c (h.sticky c hc)

/-- Answering a collaborator. -/
theorem CollabRel.answer {s : State} (h : s.ctx ≠ .host) (st : Status) (ws : List Word) : CollabRel s (answer st ws s) := by
  rw [answer_eq_tell _ _ _ h]
  exact { CollabRel.refl s with
    cfg := by simp
    now := by simp
    inDispatch := by simp
    tFast := by simp
    tSlow := by simp
    lead := by simp
    regions := by simp
    ctx := by simp
    host := by simp
    priv := by simp
    table := by simp
    rest := by simp
    calls := callsOf_tell_response _ _
    trace := by simp
    keeps := by simp
    fresh := fun e he => .inl (by simpa using he)
    covers := fun q h1 h2 => seq_absurd h1 (by simpa using h2)
    seqLe := by simp
    grows := by simp
    sched := fun hs => ⟨by simpa using hs.ordered, by simpa using hs.future, by simpa using hs.seqs,
      by simpa using hs.distinct, by simpa using hs.kinds, by simpa using hs.bound⟩
    memory := by simp
    sticky := by simp }

theorem CollabRel.setFatal {s : State} (c : FatalCode) (h : s.fatal = none) : CollabRel s (setFatal c s) :=
  { CollabRel.refl s with
    sched := fun hs => ⟨hs.ordered, hs.future, hs.seqs, hs.distinct, hs.kinds, hs.bound⟩
    sticky := fun d hd => by simp [h] at hd }

theorem CollabRel.raiseFatal {s : State} (hc : s.ctx ≠ .host) (c : FatalCode) (h : s.fatal = none) :
    CollabRel s (raiseFatal c s) := (CollabRel.setFatal c h).trans (.answer (by simpa using hc) _ _)

/-- Changes that CollabRel does not look at: enables, latches and trackers. -/
theorem CollabRel.flags (s : State) (ie iflag : PerCpu Word) (ime : PerCpu Bool) (last : PerCpu (Option Nat)) :
    CollabRel s { s with ie := ie, iflag := iflag, ime := ime, last := last } :=
  { CollabRel.refl s with sched := fun hs => ⟨hs.ordered, hs.future, hs.seqs, hs.distinct, hs.kinds, hs.bound⟩ }

theorem CollabRel.setLast (s : State) (x : Cpu) (r : Option Nat) : CollabRel s (setLast x r s) :=
  .flags s s.ie s.iflag s.ime (setPerCpu s.last x r)

theorem CollabRel.traceQuirk (s : State) (q : Quirk) (x : Cpu) (k : AccessKind) (w : Width) (a : Word) :
    CollabRel s (traceQuirk q x k w a s) :=
  { CollabRel.refl s with
    trace := List.prefix_append _ _
    sched := fun hs => ⟨hs.ordered, hs.future, hs.seqs, hs.distinct, hs.kinds, hs.bound⟩ }

theorem CollabRel.writeBytes (s : State) (r o : Nat) (bs : List Byte) : CollabRel s (writeBytes r o bs s) :=
  { CollabRel.refl s with
    cfg := by simp
    now := by simp
    inDispatch := by simp
    tFast := by simp
    tSlow := by simp
    lead := by simp
    regions := by simp
    ctx := by simp
    host := by simp
    priv := by simp
    table := by simp
    rest := fun x => by simp [cpuRest, cpuCollab]
    calls := by simp
    trace := by simp
    keeps := by simp
    fresh := fun e he => .inl (by simpa using he)
    covers := fun q h1 h2 => seq_absurd h1 (by simpa using h2)
    seqLe := by simp
    grows := by simp
    sched := fun hs => ⟨by simpa using hs.ordered, by simpa using hs.future, by simpa using hs.seqs,
      by simpa using hs.distinct, by simpa using hs.kinds, by simpa using hs.bound⟩
    memory := fun hm => memoryWf_writeBytes _ _ _ hm
    sticky := by simp }

/-- The bus access, whatever path it takes. -/
theorem CollabRel.access {s : State} (h : s.ctx ≠ .host) (x : Cpu) (k : AccessKind) (w : Width) (priv : Bool)
    (addr data : Word) : CollabRel s (accessEffect x k w priv addr data s) := by
  unfold accessEffect
  simp only
  split
  · exact ((CollabRel.setLast s _ _).trans (.traceQuirk _ _ _ _ _ _)).trans (.answer (by simpa using h) _ _)
  · exact (CollabRel.traceQuirk s _ _ _ _ _).trans (.answer (by simpa using h) _ _)
  · exact ((CollabRel.setLast s _ _).trans (.traceQuirk _ _ _ _ _ _)).trans (.answer (by simpa using h) _ _)
  · unfold grantedEffect
    cases k
    · exact (CollabRel.setLast s _ _).trans (.answer (by simpa using h) _ _)
    · exact ((CollabRel.setLast s _ _).trans (.writeBytes _ _ _ _)).trans (.answer (by simpa using h) _ _)
    · exact (CollabRel.setLast s _ _).trans (.answer (by simpa using h) _ _)

/-- Inserting the event of a SCHED.SCHEDULE that does not fail (R140). -/
theorem CollabRel.insert {s : State} {kind : Kind} {fire : Cycle} (hk : kindWellFormed kind = true) (h1 : s.now ≤ fire)
    (h2 : s.queue.length ≠ s.cfg.queueCapacity) (h3 : s.nextSeq ≠ lastSeq) :
    CollabRel s { s with queue := insertEvent ⟨fire, kind, s.nextSeq⟩ s.queue, nextSeq := s.nextSeq + 1 } :=
  { CollabRel.refl s with
    keeps := fun e he => mem_insertEvent.mpr (.inr he)
    fresh := fun e he => by
      rcases mem_insertEvent.mp he with rfl | he
      · exact .inr ⟨BitVec.le_refl _, by rw [BitVec.lt_def, succ_seq_toNat h3]; exact Nat.lt_succ_self _⟩
      · exact .inl he
    covers := fun q h1 h2 => by
      refine ⟨⟨fire, kind, s.nextSeq⟩, mem_insertEvent.mpr (.inl rfl), ?_⟩
      rw [BitVec.lt_def] at h2
      simp only [succ_seq_toNat h3] at h2
      rw [BitVec.le_def] at h1
      exact BitVec.eq_of_toNat_eq (by simp only; omega)
    seqLe := by rw [BitVec.le_def]; simp only [succ_seq_toNat h3]; omega
    grows := by simp only [succ_seq_toNat h3, length_insertEvent]; omega
    sched := fun hs => hs.schedule hk h1 h2 h3 }

theorem CollabRel.schedule {s : State} (h : s.ctx ≠ .host) (hf : s.fatal = none) {kind : Kind} (fire : Cycle)
    (hk : kindWellFormed kind = true) : CollabRel s (scheduleEffect kind fire s) := by
  rcases scheduleEffect_cases kind fire s with ⟨c, e⟩ | ⟨h1, h2, h3, e⟩
  · rw [e]; exact .raiseFatal h c hf
  · rw [e]; exact (CollabRel.insert hk h1 h2 h3).trans (.answer (by exact h) _ _)

/-- The own rule of every well-formed command a collaborator may issue. -/
theorem CollabRel.nestedEffect {s : State} (i : Instr) (h : s.ctx ≠ .host) (hf : s.fatal = none)
    (hw : i.wellFormed = true) : CollabRel s (nestedEffect i s) := by
  cases i
  case schedSchedule kind fire => exact .schedule h hf fire hw
  case schedPeek => unfold Machine.nestedEffect peekEffect; simp only; split <;> exact .answer h _ _
  case busRead => exact .access h _ _ _ _ _ _
  case busWrite => exact .access h _ _ _ _ _ _
  case busExec => exact .access h _ _ _ _ _ _
  case icRequest x src =>
    exact (CollabRel.flags s s.ie (latchSource x src s).iflag s.ime s.last).trans (CollabRel.answer (by exact h) _ _)
  case icAck x src =>
    exact (CollabRel.flags s s.ie (clearSource x src s).iflag s.ime s.last).trans (CollabRel.answer (by exact h) _ _)
  case icSetIe x mask =>
    exact (CollabRel.flags s (setPerCpu s.ie x mask) s.iflag s.ime s.last).trans (CollabRel.answer (by exact h) _ _)
  case icSetIme x val =>
    exact (CollabRel.flags s s.ie s.iflag (setPerCpu s.ime x val) s.last).trans (CollabRel.answer (by exact h) _ _)
  case schedAdvance => exact .raiseFatal h _ hf
  case clkStep => exact .raiseFatal h _ hf
  case clkRun => exact .raiseFatal h _ hf
  all_goals exact .answer h _ _

theorem CollabRel.answerFatal {s : State} (h : s.ctx ≠ .host) : CollabRel s (answerFatal s) := by
  unfold Machine.answerFatal; split
  · exact .answer h _ _
  · exact .refl s

theorem CollabRel.runNested {s : State} (i : Instr) (h : s.ctx ≠ .host) (hw : i.wellFormed = true) :
    CollabRel s (runNested i s) := by
  unfold Machine.runNested runCommand turnedAway
  cases hf : s.fatal with
  | some c => exact .answerFatal h
  | none =>
    by_cases hp : permitted i s.ctx = true
    · simpa [hp] using CollabRel.nestedEffect i h hf hw
    · simpa [hp] using CollabRel.raiseFatal h .illegalContext hf

theorem CollabRel.issuePacket {s : State} (p : Packet) (h : s.ctx ≠ .host) : CollabRel s (issuePacket p s) := by
  unfold Machine.issuePacket
  split
  · rename_i i hd; exact .runNested i h (decode_wellFormed hd)
  · unfold answerReserved
    split
    · exact .answerFatal h
    · rename_i hf; exact .raiseFatal h _ hf

theorem issue_now {s : State} (h : s.fatal = none) :
    issuePacket (encodePacket .schedNow) s = answer .ok (cycleWords s.now) s := by
  have hd : decode (encodePacket .schedNow) = .ok .schedNow := by decide
  simp [issuePacket, hd, runNested, runCommand, turnedAway, h, permitted, nestedEffect, nowEffect]

theorem not_isSome {α : Type} {o : Option α} (h : ¬ o.isSome = true) : o = none := by simpa using h

/-- A property of single commands, kept by composition, holds of a whole activation, however its commands are run. -/
theorem runScriptWith_induction {ρ : Type} {issue : Packet → State → State} (R : State → State → Prop) (c : Ctx)
    (hrefl : ∀ s, R s s) (htrans : ∀ s t u, R s t → R t u → R s u) (hctx : ∀ p s, s.ctx = c → (issue p s).ctx = c)
    (hnow : ∀ s, s.ctx = c → s.fatal = none → (issue (encodePacket .schedNow) s).fatal = none)
    (hissue : ∀ p s, s.ctx = c → s.fatal = none → R s (issue p s))
    (hraise : ∀ s, s.ctx = c → s.fatal = none → R s (raiseFatal .cycleOverflow s)) (a : Script ρ) {s : State}
    (h : s.ctx = c) (hf : s.fatal = none) : R s (runScriptWith issue a s).1 := by
  induction a generalizing s with
  | done r => exact hrefl s
  | issue p next ih =>
    simp only [runScriptWith]
    split
    · exact hissue p s h hf
    · exact htrans _ _ _ (hissue p s h hf) (ih (hctx p s h) (not_isSome ‹_›))
  | scheduleIn k d next ih =>
    have h1 := hctx (encodePacket .schedNow) s h
    have h2 := hnow s h hf
    have hm : R s (scheduleInWith issue k d s) ∧ (scheduleInWith issue k d s).ctx = c := by
      unfold scheduleInWith scheduleAfter
      split
      · exact ⟨htrans _ _ _ (hissue _ s h hf) (hraise _ h1 h2), by simpa using h1⟩
      · exact ⟨htrans _ _ _ (hissue _ s h hf) (hissue _ _ h1 h2), hctx _ _ h1⟩
    simp only [runScriptWith]
    split
    · exact hm.1
    · exact htrans _ _ _ hm.1 (ih hm.2 (not_isSome ‹_›))
  | ifAnswered status data yes no ihy ihn => simp only [runScriptWith]; split; exacts [ihy h hf, ihn h hf]
  | ifKind k yes no ihy ihn => simp only [runScriptWith]; split; exacts [ihy h hf, ihn h hf]
  | ifFire t yes no ihy ihn => simp only [runScriptWith]; split; exacts [ihy h hf, ihn h hf]
  | ifPriv p q yes no ihy ihn => simp only [runScriptWith]; split; exacts [ihy h hf, ihn h hf]
  | ifHalted x yes no ihy ihn => simp only [runScriptWith]; split; exacts [ihy h hf, ihn h hf]

theorem issue_now_fatal {s : State} (h : s.fatal = none) : (issuePacket (encodePacket .schedNow) s).fatal = none := by
  rw [issue_now h]; simpa using h

/-- Everything one activation of a collaborator can do. -/
theorem CollabRel.runScript {ρ : Type} (a : Script ρ) {s : State} (h : s.ctx ≠ .host) (hf : s.fatal = none) :
    CollabRel s (runScript a s).1 :=
  runScriptWith_induction CollabRel s.ctx .refl (fun _ _ _ => .trans)
    (fun p t ht => (CollabRel.issuePacket p (by rw [ht]; exact h)).ctx.trans ht) (fun _ _ => issue_now_fatal)
    (fun p t ht _ => .issuePacket p (by rw [ht]; exact h)) (fun t ht hn => .raiseFatal (by rw [ht]; exact h) _ hn) a rfl hf

/-- An activation returns a result exactly when no command of it was fatal. -/
theorem runScriptWith_result {ρ : Type} {issue : Packet → State → State} (a : Script ρ) {s : State} (hf : s.fatal = none) :
    (runScriptWith issue a s).2.isSome = true ↔ (runScriptWith issue a s).1.fatal = none := by
  induction a generalizing s with
  | done r => simp [runScriptWith, hf]
  | issue p next ih =>
    simp only [runScriptWith]
    split
    · rename_i h; simpa [← Option.isSome_iff_ne_none] using h
    · exact ih (not_isSome ‹_›)
  | scheduleIn k d next ih =>
    simp only [runScriptWith]
    split
    · rename_i h; simpa [← Option.isSome_iff_ne_none] using h
    · exact ih (not_isSome ‹_›)
  | ifAnswered status data yes no ihy ihn => simp only [runScriptWith]; split; exacts [ihy hf, ihn hf]
  | ifKind k yes no ihy ihn => simp only [runScriptWith]; split; exacts [ihy hf, ihn hf]
  | ifFire t yes no ihy ihn => simp only [runScriptWith]; split; exacts [ihy hf, ihn hf]
  | ifPriv p q yes no ihy ihn => simp only [runScriptWith]; split; exacts [ihy hf, ihn hf]
  | ifHalted x yes no ihy ihn => simp only [runScriptWith]; split; exacts [ihy hf, ihn hf]

/-- An activation returns in one of the ways its tree gives. -/
theorem runScriptWith_returns {ρ : Type} {issue : Packet → State → State} {p : ρ → Bool} (a : Script ρ) {s t : State} {r : ρ}
    (ha : returnsAll p a = true) (h : runScriptWith issue a s = (t, some r)) : p r = true := by
  induction a generalizing s with
  | done r => simp only [runScriptWith, Prod.mk.injEq, Option.some.injEq] at h; rw [← h.2]; exact ha
  | issue p next ih =>
    simp only [runScriptWith] at h
    split at h
    · cases h
    · exact ih ha h
  | scheduleIn k d next ih =>
    simp only [runScriptWith] at h
    split at h
    · cases h
    · exact ih ha h
  | ifAnswered status data yes no ihy ihn =>
    simp only [returnsAll, Bool.and_eq_true] at ha
    simp only [runScriptWith] at h; split at h; exacts [ihy ha.1 h, ihn ha.2 h]
  | ifKind k yes no ihy ihn =>
    simp only [returnsAll, Bool.and_eq_true] at ha
    simp only [runScriptWith] at h; split at h; exacts [ihy ha.1 h, ihn ha.2 h]
  | ifFire t yes no ihy ihn =>
    simp only [returnsAll, Bool.and_eq_true] at ha
    simp only [runScriptWith] at h; split at h; exacts [ihy ha.1 h, ihn ha.2 h]
  | ifPriv p q yes no ihy ihn =>
    simp only [returnsAll, Bool.and_eq_true] at ha
    simp only [runScriptWith] at h; split at h; exacts [ihy ha.1 h, ihn ha.2 h]
  | ifHalted x yes no ihy ihn =>
    simp only [returnsAll, Bool.and_eq_true] at ha
    simp only [runScriptWith] at h; split at h; exacts [ihy ha.1 h, ihn ha.2 h]

/-! ### Commands and activations that schedule nothing at their own cycle -/

theorem accessEffect_queue (x : Cpu) (k : AccessKind) (w : Width) (priv : Bool) (addr data : Word) (s : State) :
    (accessEffect x k w priv addr data s).queue = s.queue := by
  unfold accessEffect; simp only
  split
  · simp
  · simp
  · simp
  · unfold grantedEffect; cases k <;> simp

theorem nestedEffect_queue {i : Instr} (h : ∀ k f, i ≠ .schedSchedule k f) (s : State) :
    (nestedEffect i s).queue = s.queue := by
  cases i
  case schedSchedule k f => exact absurd rfl (h k f)
  case schedPeek => unfold nestedEffect peekEffect; simp only; split <;> simp
  case busRead => exact accessEffect_queue _ _ _ _ _ _ s
  case busWrite => exact accessEffect_queue _ _ _ _ _ _ s
  case busExec => exact accessEffect_queue _ _ _ _ _ _ s
  all_goals simp [nestedEffect, nowEffect, requestEffect, ackEffect, setIeEffect, setImeEffect, assertedEffect,
    readIeEffect, readIfEffect, readImeEffect, readLeadEffect, readTimeEffect]

theorem isSchedule_of_decode {p : Packet} {k : Kind} {f : Cycle} (h : decode p = .ok (.schedSchedule k f)) :
    isSchedule p = true := by
  unfold decode at h
  simp only at h
  split at h
  case h_1 h1 h2 =>
    simp only [isSchedule, Bool.and_eq_true, decide_eq_true_eq]
    exact ⟨BitVec.eq_of_toNat_eq h1, BitVec.eq_of_toNat_eq h2⟩
  all_goals first
    | cases h
    | (obtain ⟨-, w, -, h⟩ := decodeBus_eq_ok.mp h; cases h)
    | (obtain ⟨-, h⟩ := checkMbz_eq_ok.mp h; cases h)

/-- A packet that is no SCHED.SCHEDULE leaves Q as it was. -/
theorem issuePacket_queue {p : Packet} (h : isSchedule p = false) (s : State) : (issuePacket p s).queue = s.queue := by
  unfold issuePacket
  split
  · rename_i i hd
    have hi : ∀ k f, i ≠ .schedSchedule k f := by
      rintro k f rfl
      rw [isSchedule_of_decode hd] at h; cases h
    unfold runNested runCommand
    split
    · rename_i h
      unfold turnedAway at h
      split at h
      · injection h with h; subst h; simp
      · split at h
        · cases h
        · injection h with h; subst h; simp
    · exact nestedEffect_queue hi s
  · unfold answerReserved; split <;> simp

/-- The events of cycle c among q. -/
def eventsAt (c : Cycle) (q : List Event) : List Event := q.filter (fun e => decide (e.fire = c))

theorem delay_ne {a d : Cycle} (hd : d ≠ 0) : a + d ≠ a := by
  intro h
  apply hd
  have := congrArg BitVec.toNat h
  rw [BitVec.toNat_add] at this
  have hd' := d.isLt
  exact BitVec.eq_of_toNat_eq (by simp only [BitVec.ofNat_eq_ofNat, BitVec.toNat_ofNat]; omega)

/-- An activation that schedules nothing at its own cycle leaves the pending events of that cycle as they were. -/
theorem runScriptWith_eventsAt {ρ : Type} {issue : Packet → State → State} (c : Ctx)
    (hctx : ∀ p s, s.ctx = c → (issue p s).ctx = c) (hnow : ∀ p s, s.ctx = c → (issue p s).now = s.now)
    (hfat : ∀ s, s.ctx = c → s.fatal = none → (issue (encodePacket .schedNow) s).fatal = none)
    (hother : ∀ p s, s.ctx = c → isSchedule p = false → (issue p s).queue = s.queue)
    (hsched : ∀ k f s, s.ctx = c → s.fatal = none → f ≠ s.now →
      eventsAt s.now (issue (encodePacket (.schedSchedule k f)) s).queue = eventsAt s.now s.queue)
    (a : Script ρ) {s : State} (ha : schedulesLater a = true) (h : s.ctx = c) (hf : s.fatal = none) :
    eventsAt s.now (runScriptWith issue a s).1.queue = eventsAt s.now s.queue := by
  induction a generalizing s with
  | done r => rfl
  | issue p next ih =>
    simp only [schedulesLater, Bool.and_eq_true, Bool.not_eq_true'] at ha
    simp only [runScriptWith]
    split
    · rw [hother p s h ha.1]
    · rw [← hnow p s h, ih ha.2 (hctx p s h) (not_isSome ‹_›), hother p s h ha.1]
  | scheduleIn k d next ih =>
    simp only [schedulesLater, Bool.and_eq_true, decide_eq_true_eq] at ha
    have h1 := hctx (encodePacket .schedNow) s h
    have h2 := hnow (encodePacket .schedNow) s h
    have h3 := hother (encodePacket .schedNow) s h (by decide)
    have hm : eventsAt s.now (scheduleInWith issue k d s).queue = eventsAt s.now s.queue ∧
        (scheduleInWith issue k d s).ctx = c ∧ (scheduleInWith issue k d s).now = s.now := by
      unfold scheduleInWith scheduleAfter
      split
      · exact ⟨by simp [h3], by simpa using h1, by simpa using h2⟩
      · refine ⟨?_, hctx _ _ h1, (hnow _ _ h1).trans h2⟩
        have := hsched k _ _ h1 (hfat s h hf) (delay_ne (a := (issue (encodePacket .schedNow) s).now) ha.1)
        rw [h3] at this
        rwa [h2] at this ⊢
    simp only [runScriptWith]
    split
    · exact hm.1
    · rw [← hm.2.2, ih ha.2 hm.2.1 (not_isSome ‹_›), hm.2.2, hm.1]
  | ifAnswered status data yes no ihy ihn =>
    simp only [schedulesLater, Bool.and_eq_true] at ha
    simp only [runScriptWith]; split; exacts [ihy ha.1 h hf, ihn ha.2 h hf]
  | ifKind k yes no ihy ihn =>
    simp only [schedulesLater, Bool.and_eq_true] at ha
    simp only [runScriptWith]; split; exacts [ihy ha.1 h hf, ihn ha.2 h hf]
  | ifFire t yes no ihy ihn =>
    simp only [schedulesLater, Bool.and_eq_true] at ha
    simp only [runScriptWith]; split; exacts [ihy ha.1 h hf, ihn ha.2 h hf]
  | ifPriv p q yes no ihy ihn =>
    simp only [schedulesLater, Bool.and_eq_true] at ha
    simp only [runScriptWith]; split; exacts [ihy ha.1 h hf, ihn ha.2 h hf]
  | ifHalted x yes no ihy ihn =>
    simp only [schedulesLater, Bool.and_eq_true] at ha
    simp only [runScriptWith]; split; exacts [ihy ha.1 h hf, ihn ha.2 h hf]

/-! ### The last call -/

theorem lastCall_append_call (ms : List Msg) (k : Kind) (t : Cycle) : lastCall (ms ++ [.call k t]) = some (k, t) := by
  induction ms with
  | nil => rfl
  | cons m ms ih => cases m <;> simp [lastCall, ih]

theorem lastCall_append_response (ms : List Msg) (ws : List Word) : lastCall (ms ++ [.response ws]) = lastCall ms := by
  induction ms with
  | nil => rfl
  | cons m ms ih => cases m <;> simp [lastCall, ih]

end Sys2Proof.Machine
end

