-- ==== Sys2Proof/Laws/Advance.lean ====
section
/-! SUPPORT. What the contexts HANDLER and CPU(x) cannot do (30_encoding.md R125), and everything a dispatch and
advance_to can do (41_scheduler.md R141, R144 to R147). -/

namespace Sys2Proof.Machine

open Sys2Proof

/-! ### The limits of the contexts -/

/-- No bit of any IF is cleared. -/
def latchesKept (s t : State) : Prop := ∀ x, perCpu t.iflag x &&& perCpu s.iflag x = perCpu s.iflag x

theorem latchesKept_refl (s : State) : latchesKept s s := fun _ => BitVec.and_self

theorem latchesKept.trans {s t u : State} (h : latchesKept s t) (h' : latchesKept t u) : latchesKept s u := by
  intro x
  have h1 := h x
  have h2 := h' x
  rw [← h1, ← BitVec.and_assoc, h2]

theorem latchesKept_of_eq {s t : State} (h : t.iflag = s.iflag) : latchesKept s t := fun x => by rw [h, BitVec.and_self]

theorem latchesKept_latchSource (x : Cpu) (src : BitVec 5) (s : State) : latchesKept s (latchSource x src s) := by
  intro y
  simp only [latchSource_iflag, perCpu_setPerCpu]
  split
  · rename_i h; subst h; ext i hi; simp only [BitVec.getElem_and, BitVec.getElem_or]; cases (perCpu s.iflag y)[i] <;> simp
  · exact BitVec.and_self

/-- What the handler leaves alone: enables, backing, trackers, the trace, and every latched request. -/
structure HandlerLimits (s t : State) : Prop where
  ie : t.ie = s.ie
  ime : t.ime = s.ime
  backing : t.backing = s.backing
  last : t.last = s.last
  trace : t.trace = s.trace
  latches : latchesKept s t

theorem HandlerLimits.refl (s : State) : HandlerLimits s s := ⟨rfl, rfl, rfl, rfl, rfl, latchesKept_refl s⟩

theorem HandlerLimits.trans {s t u : State} (h : HandlerLimits s t) (h' : HandlerLimits t u) : HandlerLimits s u :=
  ⟨h'.ie.trans h.ie, h'.ime.trans h.ime, h'.backing.trans h.backing, h'.last.trans h.last, h'.trace.trans h.trace,
    h.latches.trans h'.latches⟩

theorem HandlerLimits.answer (st : Status) (ws : List Word) (s : State) : HandlerLimits s (answer st ws s) :=
  ⟨by simp, by simp, by simp, by simp, by simp, latchesKept_of_eq (by simp)⟩

theorem HandlerLimits.raiseFatal (c : FatalCode) (s : State) : HandlerLimits s (raiseFatal c s) :=
  ⟨by simp, by simp, by simp, by simp, by simp, latchesKept_of_eq (by simp)⟩

theorem HandlerLimits.answerFatal (s : State) : HandlerLimits s (answerFatal s) :=
  ⟨by simp, by simp, by simp, by simp, by simp, latchesKept_of_eq (by simp)⟩

theorem HandlerLimits.schedule (kind : Kind) (fire : Cycle) (s : State) : HandlerLimits s (scheduleEffect kind fire s) := by
  rcases scheduleEffect_cases kind fire s with ⟨c, e⟩ | ⟨-, -, -, e⟩
  · rw [e]; exact .raiseFatal _ _
  · rw [e]; exact ⟨by simp, by simp, by simp, by simp, by simp, latchesKept_of_eq (by simp)⟩

/-- A command that is turned away changes FATAL and what its issuer has heard, and nothing else. -/
theorem HandlerLimits.turnedAway {i : Instr} {s t : State} (h : turnedAway i s = some t) : HandlerLimits s t := by
  unfold Machine.turnedAway at h
  split at h
  · injection h with h; subst h; exact .answerFatal s
  · split at h
    · cases h
    · injection h with h; subst h; exact .raiseFatal _ s

theorem HandlerLimits.runNested {s : State} (i : Instr) (h : s.ctx = .handler) : HandlerLimits s (runNested i s) := by
  unfold Machine.runNested runCommand
  split
  · rename_i t ht; exact .turnedAway ht
  · rename_i hn
    have hp : permitted i .handler = true := by
      unfold Machine.turnedAway at hn
      rw [h] at hn
      split at hn
      · cases hn
      · by_contra hp; simp [hp] at hn
    cases i
    case schedSchedule => exact .schedule _ _ _
    case schedPeek => unfold nestedEffect peekEffect; simp only; split <;> exact .answer _ _ _
    case icRequest x src =>
      exact (⟨rfl, rfl, rfl, rfl, rfl, latchesKept_latchSource x src s⟩ : HandlerLimits s (latchSource x src s)).trans
        (.answer _ _ _)
    all_goals first
      | exact .answer _ _ _
      | exact .raiseFatal _ _
      | (simp [permitted] at hp)

theorem HandlerLimits.issuePacket {s : State} (p : Packet) (h : s.ctx = .handler) : HandlerLimits s (issuePacket p s) := by
  unfold Machine.issuePacket
  split
  · exact .runNested _ h
  · unfold answerReserved; split
    · exact .answerFatal s
    · exact .raiseFatal _ s

/-- What CPU x's context leaves alone of the other CPU: its enables, its tracker, its latched requests. -/
structure CpuLimits (x : Cpu) (s t : State) : Prop where
  ie : ∀ y, y ≠ x → perCpu t.ie y = perCpu s.ie y
  ime : ∀ y, y ≠ x → perCpu t.ime y = perCpu s.ime y
  last : ∀ y, y ≠ x → perCpu t.last y = perCpu s.last y
  latches : ∀ y, y ≠ x → perCpu t.iflag y &&& perCpu s.iflag y = perCpu s.iflag y

theorem CpuLimits.of_handler (x : Cpu) {s t : State} (h : HandlerLimits s t) : CpuLimits x s t :=
  ⟨fun _ _ => by rw [h.ie], fun _ _ => by rw [h.ime], fun _ _ => by rw [h.last], fun y _ => h.latches y⟩

theorem CpuLimits.trans {x : Cpu} {s t u : State} (h : CpuLimits x s t) (h' : CpuLimits x t u) : CpuLimits x s u :=
  ⟨fun y hy => (h'.ie y hy).trans (h.ie y hy), fun y hy => (h'.ime y hy).trans (h.ime y hy),
    fun y hy => (h'.last y hy).trans (h.last y hy), fun y hy => by
      have h1 := h.latches y hy
      have h2 := h'.latches y hy
      rw [← h1, ← BitVec.and_assoc, h2]⟩

/-- An access changes its own CPU's tracker only, and no enable or latch. -/
theorem CpuLimits.access (x : Cpu) (k : AccessKind) (w : Width) (priv : Bool) (addr data : Word) (s : State) :
    CpuLimits x s (accessEffect x k w priv addr data s) := by
  unfold accessEffect; simp only
  split
  · exact ⟨by simp, by simp, fun y hy => by simp [perCpu_setPerCpu_other _ _ _ _ hy], by simp [BitVec.and_self]⟩
  · exact ⟨by simp, by simp, by simp, by simp [BitVec.and_self]⟩
  · exact ⟨by simp, by simp, fun y hy => by simp [perCpu_setPerCpu_other _ _ _ _ hy], by simp [BitVec.and_self]⟩
  · unfold grantedEffect; cases k <;>
      exact ⟨by simp, by simp, fun y hy => by simp [perCpu_setPerCpu_other _ _ _ _ hy], by simp [BitVec.and_self]⟩

theorem CpuLimits.runNested {x : Cpu} {s : State} (i : Instr) (h : s.ctx = .cpu x) : CpuLimits x s (runNested i s) := by
  unfold Machine.runNested runCommand
  split
  · rename_i t ht; exact .of_handler x (.turnedAway ht)
  · rename_i hn
    have hp : permitted i (.cpu x) = true := by
      unfold Machine.turnedAway at hn
      rw [h] at hn
      split at hn
      · cases hn
      · by_contra hp; simp [hp] at hn
    cases i
    case schedSchedule => exact .of_handler x (.schedule _ _ _)
    case schedPeek => unfold nestedEffect peekEffect; simp only; split <;> exact .of_handler x (.answer _ _ _)
    case busRead y _ _ _ =>
      obtain rfl : x = y := by simpa [permitted] using hp
      exact .access _ _ _ _ _ _ _
    case busWrite y _ _ _ _ =>
      obtain rfl : x = y := by simpa [permitted] using hp
      exact .access _ _ _ _ _ _ _
    case busExec y _ _ _ =>
      obtain rfl : x = y := by simpa [permitted] using hp
      exact .access _ _ _ _ _ _ _
    case icRequest y src =>
      exact .of_handler x ((⟨rfl, rfl, rfl, rfl, rfl, latchesKept_latchSource y src s⟩ :
        HandlerLimits s (latchSource y src s)).trans (.answer _ _ _))
    case icAck y src =>
      obtain rfl : x = y := by simpa [permitted] using hp
      exact ⟨by simp [nestedEffect, ackEffect], by simp [nestedEffect, ackEffect], by simp [nestedEffect, ackEffect],
        fun z hz => by simp [nestedEffect, ackEffect, perCpu_setPerCpu_other _ _ _ _ hz, BitVec.and_self]⟩
    case icSetIe y mask =>
      obtain rfl : x = y := by simpa [permitted] using hp
      exact ⟨fun z hz => by simp [nestedEffect, setIeEffect, perCpu_setPerCpu_other _ _ _ _ hz],
        by simp [nestedEffect, setIeEffect], by simp [nestedEffect, setIeEffect],
        by simp [nestedEffect, setIeEffect, BitVec.and_self]⟩
    case icSetIme y val =>
      obtain rfl : x = y := by simpa [permitted] using hp
      exact ⟨by simp [nestedEffect, setImeEffect],
        fun z hz => by simp [nestedEffect, setImeEffect, perCpu_setPerCpu_other _ _ _ _ hz],
        by simp [nestedEffect, setImeEffect], by simp [nestedEffect, setImeEffect, BitVec.and_self]⟩
    all_goals first
      | exact .of_handler x (.answer _ _ _)
      | exact .of_handler x (.raiseFatal _ _)

theorem CpuLimits.issuePacket {x : Cpu} {s : State} (p : Packet) (h : s.ctx = .cpu x) :
    CpuLimits x s (issuePacket p s) := by
  unfold Machine.issuePacket
  split
  · exact .runNested _ h
  · unfold answerReserved; split
    · exact .of_handler x (.answerFatal s)
    · exact .of_handler x (.raiseFatal _ s)

theorem HandlerLimits.runScript {ρ : Type} (a : Script ρ) {s : State} (h : s.ctx = .handler) (hf : s.fatal = none) :
    HandlerLimits s (runScript a s).1 :=
  runScriptWith_induction HandlerLimits .handler .refl (fun _ _ _ => .trans)
    (fun p t ht => (CollabRel.issuePacket p (by simp [ht])).ctx.trans ht) (fun _ _ => issue_now_fatal)
    (fun p _ ht _ => .issuePacket p ht) (fun t _ _ => .raiseFatal _ t) a h hf

theorem CpuLimits.runScript {ρ : Type} (x : Cpu) (a : Script ρ) {s : State} (h : s.ctx = .cpu x) (hf : s.fatal = none) :
    CpuLimits x s (runScript a s).1 :=
  runScriptWith_induction (CpuLimits x) (.cpu x) (fun s => .of_handler x (.refl s)) (fun _ _ _ => .trans)
    (fun p t ht => (CollabRel.issuePacket p (by simp [ht])).ctx.trans ht) (fun _ _ => issue_now_fatal)
    (fun p _ ht _ => .issuePacket p ht) (fun t _ _ => .of_handler x (.raiseFatal _ t)) a h hf

/-! ### Dispatch and advance_to -/

theorem cycle_lt_or_eq {a b : Cycle} (h : a ≤ b) : a < b ∨ a = b := by bv_omega

/-- Everything a dispatch or an advance can do: time of the CPUs, the configuration, the context, the port and the CPUs'
moves stay; the handler's limits hold; the scheduler's invariant is kept. -/
structure AdvanceRel (s t : State) : Prop where
  cfg : t.cfg = s.cfg
  inDispatch : t.inDispatch = s.inDispatch
  tFast : t.tFast = s.tFast
  tSlow : t.tSlow = s.tSlow
  lead : t.lead = s.lead
  regions : t.regions = s.regions
  ctx : t.ctx = s.ctx
  host : t.host = s.host
  table : t.collab.handler.table = s.collab.handler.table
  moves : handlerMovesOn s.collab.handler = true → handlerMovesOn t.collab.handler = true
  rest : ∀ x, cpuRest x t = cpuRest x s
  limits : HandlerLimits s t
  seqLe : s.nextSeq ≤ t.nextSeq
  nowLe : SchedInv s → s.now ≤ t.now
  sched : SchedInv s → SchedInv t

theorem AdvanceRel.refl (s : State) : AdvanceRel s s :=
  ⟨rfl, rfl, rfl, rfl, rfl, rfl, rfl, rfl, rfl, id, fun _ => rfl, .refl s, BitVec.le_refl _, fun _ => BitVec.le_refl _,
    fun h => h⟩

theorem AdvanceRel.trans {s t u : State} (h : AdvanceRel s t) (h' : AdvanceRel t u) : AdvanceRel s u :=
  ⟨h'.cfg.trans h.cfg, h'.inDispatch.trans h.inDispatch, h'.tFast.trans h.tFast, h'.tSlow.trans h.tSlow,
    h'.lead.trans h.lead, h'.regions.trans h.regions, h'.ctx.trans h.ctx, h'.host.trans h.host,
    h'.table.trans h.table, fun hm => h'.moves (h.moves hm), fun x => (h'.rest x).trans (h.rest x), h.limits.trans h'.limits,
    BitVec.le_trans h.seqLe h'.seqLe, fun hs => BitVec.le_trans (h.nowLe hs) (h'.nowLe (h.sched hs)),
    fun hs => h'.sched (h.sched hs)⟩

/-- The state in which the handler's activation starts. -/
def calledState (kind : Kind) (fire : Cycle) (s : State) : State := tell (.call kind fire) { s with ctx := .handler }

theorem calledState_eq (kind : Kind) (fire : Cycle) (s : State) :
    calledState kind fire s
      = { s with ctx := .handler, collab := { s.collab with handler := { s.collab.handler with heard := s.collab.handler.heard ++ [.call kind fire] } } } := rfl

/-- A dispatch that returns: the call is heard, the handler's activation runs, the context is restored. -/
theorem dispatch_eq_ok {issue : Packet → State → State} {kind : Kind} {fire : Cycle} {s t : State} :
    dispatch issue kind fire s = .ok t ↔ ∃ a, s.collab.handler.table[s.collab.handler.priv]? = some a ∧
      t = { handlerReturned (runScriptWith issue a (calledState kind fire s)) with ctx := s.ctx } := by
  unfold dispatch calledState
  cases s.collab.handler.table[s.collab.handler.priv]? <;> simp [eq_comm]

/-- The private state the handler returned to is the one thing `handlerReturned` changes. -/
theorem handlerReturned_eq (p : State × Option Nat) : handlerReturned p =
    { p.1 with collab := { p.1.collab with handler := { p.1.collab.handler with priv := p.2.getD p.1.collab.handler.priv } } } := by
  obtain ⟨s, _ | q⟩ := p <;> rfl

theorem handlerMovesOn_iff {h : HandlerCollab} : handlerMovesOn h = true ↔ h.priv < h.table.length ∧
    ∃ m ≤ h.table.length, ∀ (i : Nat) (a : Script Nat), h.table[i]? = some a → rowMovesOn m h.table.length i a = true := by
  simp only [handlerMovesOn, Bool.and_eq_true, decide_eq_true_eq, List.any_eq_true, List.mem_range, List.all_eq_true,
    Prod.forall, Nat.lt_succ_iff, List.mem_zipIdx_iff_getElem?]
  exact and_congr_right fun _ => exists_congr fun m => and_congr_right fun _ =>
    ⟨fun h i a => h a i, fun h a i => h i a⟩

theorem returnsAll_mono {ρ : Type} {p q : ρ → Bool} (h : ∀ r, p r = true → q r = true) {a : Script ρ}
    (ha : returnsAll p a = true) : returnsAll q a = true := by
  induction a with
  | done r => exact h r ha
  | issue _ _ ih => exact ih ha
  | scheduleIn _ _ _ ih => exact ih ha
  | ifAnswered _ _ _ _ ihy ihn => simp only [returnsAll, Bool.and_eq_true] at *; exact ⟨ihy ha.1, ihn ha.2⟩
  | ifKind _ _ _ ihy ihn => simp only [returnsAll, Bool.and_eq_true] at *; exact ⟨ihy ha.1, ihn ha.2⟩
  | ifFire _ _ _ ihy ihn => simp only [returnsAll, Bool.and_eq_true] at *; exact ⟨ihy ha.1, ihn ha.2⟩
  | ifPriv _ _ _ _ ihy ihn => simp only [returnsAll, Bool.and_eq_true] at *; exact ⟨ihy ha.1, ihn ha.2⟩
  | ifHalted _ _ _ ihy ihn => simp only [returnsAll, Bool.and_eq_true] at *; exact ⟨ihy ha.1, ihn ha.2⟩

/-- A row that moves on leads to rows of the table. -/
theorem rowMovesOn_returns {m n i : Nat} {a : Script Nat} (h : rowMovesOn m n i a = true) :
    returnsAll (fun q => decide (q < n)) a = true := by
  unfold rowMovesOn at h
  split at h
  · exact returnsAll_mono (fun q hq => by simp at hq ⊢; exact hq.2) h
  · rw [Bool.and_eq_true] at h
    exact returnsAll_mono (fun q hq => by simp at hq ⊢; exact hq.2) h.2

/-- Taking min(Q) off the queue, with `now` at its fire, keeps the scheduler's invariant (R145). -/
theorem SchedInv.pop {s : State} {e : Event} {rest : List Event} (h : SchedInv s) (hq : s.queue = e :: rest) :
    SchedInv { s with queue := rest, now := e.fire } := by
  have ho := h.ordered; rw [hq] at ho
  have ho := List.pairwise_cons.mp ho
  exact
    { ordered := ho.2
      future := fun x hx => fire_le_of_eventBefore (ho.1 x hx)
      seqs := fun x hx => h.seqs x (by rw [hq]; simp [hx])
      distinct := by have := h.distinct; rw [hq] at this; exact (List.pairwise_cons.mp this).2
      kinds := fun x hx => h.kinds x (by rw [hq]; simp [hx])
      bound := by have := h.bound; rw [hq] at this; simp only [List.length_cons] at this; show rest.length ≤ s.cfg.queueCapacity; omega }

/-- Everything the dispatch of min(Q) does, when it returns. -/
theorem dispatch_spec {s t : State} {e : Event} {rest : List Event} (hq : s.queue = e :: rest) (hf : s.fatal = none)
    (h : dispatch issuePacket e.kind e.fire { s with queue := rest, now := e.fire } = .ok t) :
    AdvanceRel s t ∧ t.now = e.fire ∧
      callsOf t.collab.handler.heard = callsOf s.collab.handler.heard ++ [(e.kind, e.fire)] ∧
      (∀ x ∈ rest, x ∈ t.queue) ∧ (∀ x ∈ t.queue, x ∈ rest ∨ s.nextSeq ≤ x.seq ∧ x.seq < t.nextSeq) ∧
      (∀ q, s.nextSeq ≤ q → q < t.nextSeq → ∃ x ∈ t.queue, x.seq = q) ∧
      t.queue.length + s.nextSeq.toNat = rest.length + t.nextSeq.toNat := by
  obtain ⟨a, ha, rfl⟩ := dispatch_eq_ok.mp h
  set s0 : State := { s with queue := rest, now := e.fire } with hs0
  set s1 := calledState e.kind e.fire s0 with hs1
  have hs1' := calledState_eq e.kind e.fire s0
  rw [← hs1] at hs1'
  have hctx : s1.ctx = .handler := by rw [hs1']
  have hf1 : s1.fatal = none := by rw [hs1']; exact hf
  have hne : s1.ctx ≠ .host := by rw [hctx]; decide
  have hrel := CollabRel.runScript a hne hf1
  have hlim := HandlerLimits.runScript a hctx hf1
  have hret := fun r (hr : (runScriptWith issuePacket a s1).2 = some r) => @runScriptWith_returns Nat issuePacket
    (fun q => decide (q < s.collab.handler.table.length)) a s1 (runScriptWith issuePacket a s1).1 r
  unfold runScript at hrel hlim
  rw [handlerReturned_eq]
  set u := runScriptWith issuePacket a s1 with hu
  have hpop : SchedInv s → SchedInv s1 := fun hs => by
    have := hs.pop hq
    rw [hs1']
    exact ⟨this.ordered, this.future, this.seqs, this.distinct, this.kinds, this.bound⟩
  refine ⟨?_, ?_, ?_, ?_, ?_, ?_, ?_⟩
  · exact
      { cfg := by simp [hrel.cfg, hs1', hs0]
        inDispatch := by simp [hrel.inDispatch, hs1', hs0]
        tFast := by simp [hrel.tFast, hs1', hs0]
        tSlow := by simp [hrel.tSlow, hs1', hs0]
        lead := by simp [hrel.lead, hs1', hs0]
        regions := by simp [hrel.regions, hs1', hs0]
        ctx := rfl
        host := by simp [hrel.host, hs1', hs0]
        table := by simp [hrel.table, hs1', hs0]
        moves := fun hm => by
          obtain ⟨h1, m, hm, h2⟩ := handlerMovesOn_iff.mp hm
          have htab : u.1.collab.handler.table = s.collab.handler.table := by simp [hrel.table, hs1', hs0]
          have hpriv : u.1.collab.handler.priv = s.collab.handler.priv := by simp [hrel.priv, hs1', hs0]
          refine handlerMovesOn_iff.mpr ⟨?_, m, by simpa [htab] using hm, by simpa [htab] using h2⟩
          simp only [htab, hpriv]
          cases hr : u.2 with
          | none => exact h1
          | some q => simpa using hret q hr (rowMovesOn_returns (h2 _ _ ha)) (Prod.ext rfl hr)
        rest := fun x => (hrel.rest x).trans (by rw [hs1']; rfl)
        limits := (by rw [hs1']; exact ⟨rfl, rfl, rfl, rfl, rfl, latchesKept_refl _⟩ : HandlerLimits s s1).trans
          ⟨hlim.ie, hlim.ime, hlim.backing, hlim.last, hlim.trace, hlim.latches⟩
        seqLe := by have := hrel.seqLe; rw [hs1'] at this; exact this
        nowLe := fun hs => by
          have := hs.future e (by rw [hq]; simp)
          simpa [hrel.now, hs1', hs0] using this
        sched := fun hs => by
          have := hrel.sched (hpop hs)
          exact ⟨this.ordered, this.future, this.seqs, this.distinct, this.kinds, this.bound⟩ }
  · simp [hrel.now, hs1', hs0]
  · have := hrel.calls
    rw [hs1'] at this
    simpa [callsOf, hs0] using this
  · intro x hx
    exact hrel.keeps x (by rw [hs1']; exact hx)
  · intro x hx
    have := hrel.fresh x hx
    rw [hs1'] at this
    exact this
  · intro q h1 h2
    exact hrel.covers q (by rw [hs1']; exact h1) h2
  · have := hrel.grows
    rw [hs1'] at this
    exact this

/-- A dispatch uses up at least one of the dispatches that are left. -/
theorem dispatchBound_step {s t : State} {e : Event} {rest : List Event} (hq : s.queue = e :: rest)
    (hle : s.nextSeq ≤ t.nextSeq) (hn : t.queue.length + s.nextSeq.toNat = rest.length + t.nextSeq.toNat) :
    dispatchBound t + 1 ≤ dispatchBound s := by
  have := t.nextSeq.isLt
  have := BitVec.le_def.mp hle
  unfold dispatchBound
  rw [hq, List.length_cons, lastSeq_toNat]
  omega

/-! ### The events an advance fires -/

/-- Between s and t, exactly the events of `fired` were dispatched, each once and in this order (41_scheduler.md R147):
every event pending at s, and every event inserted since, was fired or is pending at t; and nothing else was. -/
structure FiredRel (T : Cycle) (fired : List Event) (s t : State) : Prop where
  calls : callsOf t.collab.handler.heard = callsOf s.collab.handler.heard ++ fired.map (fun e => (e.kind, e.fire))
  due : ∀ e ∈ fired, e.fire ≤ T
  known : ∀ e, e ∈ fired ∨ e ∈ t.queue → e ∈ s.queue ∨ s.nextSeq ≤ e.seq ∧ e.seq < t.nextSeq
  old : ∀ e ∈ s.queue, e ∈ fired ∨ e ∈ t.queue
  covers : ∀ q, s.nextSeq ≤ q → q < t.nextSeq → ∃ e, e.seq = q ∧ (e ∈ fired ∨ e ∈ t.queue)
  seqLe : s.nextSeq ≤ t.nextSeq
  count : fired.length + t.queue.length + s.nextSeq.toNat = s.queue.length + t.nextSeq.toNat
  ordered : SchedInv s → queueOrdered fired
  notPast : SchedInv s → ∀ e ∈ fired, s.now ≤ e.fire
  distinct : SchedInv s → distinctSeqs (fired ++ t.queue)

theorem FiredRel.nil (T : Cycle) (s : State) : FiredRel T [] s s where
  calls := by simp
  due := by simp
  known e h := .inl (by simpa using h)
  old e h := .inr h
  covers q h h' := seq_absurd h h'
  seqLe := BitVec.le_refl _
  count := by simp
  ordered _ := List.Pairwise.nil
  notPast := by simp
  distinct h := h.distinct

/-- What is pending when min(Q) has been taken off, or is inserted later, comes after it in the event order if it does
not fire earlier, and carries another number. -/
theorem SchedInv.head_before {s : State} {e x : Event} {rest : List Event} (h : SchedInv s) (hq : s.queue = e :: rest)
    (hx : x ∈ rest ∨ s.nextSeq ≤ x.seq) : e.seq ≠ x.seq ∧ (e.fire ≤ x.fire → eventBefore e x = true) := by
  have ho := h.ordered
  have hd := h.distinct
  have hs := h.seqs e (by rw [hq]; simp)
  rw [hq] at ho hd
  rcases hx with hx | hx
  · exact ⟨(List.pairwise_cons.mp hd).1 x hx, fun _ => (List.pairwise_cons.mp ho).1 x hx⟩
  · have hlt := cycle_lt_of_lt_of_le hs hx
    refine ⟨fun he => ?_, fun hf => eventBefore_iff.mpr ((cycle_lt_or_eq hf).imp_right fun heq => ⟨heq, hlt⟩)⟩
    rw [he] at hlt
    exact BitVec.lt_irrefl _ hlt

/-- The dispatch of min(Q), then what the rest of the advance fires. -/
theorem FiredRel.cons {T : Cycle} {fired : List Event} {e : Event} {rest : List Event} {s s' t : State}
    (hq : s.queue = e :: rest) (hf : s.fatal = none) (hT : e.fire ≤ T)
    (hd : dispatch issuePacket e.kind e.fire { s with queue := rest, now := e.fire } = .ok s') (h : FiredRel T fired s' t) :
    FiredRel T (e :: fired) s t := by
  obtain ⟨hrel, hnow, hcalls, hkeep, hfresh, hcover, hcount⟩ := dispatch_spec hq hf hd
  have hknown : ∀ x, x ∈ fired ∨ x ∈ t.queue → x ∈ rest ∨ s.nextSeq ≤ x.seq ∧ x.seq < t.nextSeq := fun x hx => by
    rcases h.known x hx with hx | ⟨h1, h2⟩
    · exact (hfresh x hx).imp_right fun hn => ⟨hn.1, cycle_lt_of_lt_of_le hn.2 h.seqLe⟩
    · exact .inr ⟨BitVec.le_trans hrel.seqLe h1, h2⟩
  have hpend : ∀ x ∈ s'.queue, x ∈ e :: fired ∨ x ∈ t.queue := fun x hx =>
    (h.old x hx).imp_left fun hx => List.mem_cons_of_mem _ hx
  have hlater : SchedInv s → ∀ x ∈ fired, e.fire ≤ x.fire := fun hs x hx =>
    hnow ▸ h.notPast (hrel.sched hs) x hx
  exact
    { calls := by simp [h.calls, hcalls]
      due := by
        rintro x hx
        rcases List.mem_cons.mp hx with rfl | hx
        · exact hT
        · exact h.due x hx
      known := fun x hx => by
        rw [List.mem_cons, or_assoc] at hx
        rcases hx with rfl | hx
        · exact .inl (by rw [hq]; simp)
        · exact (hknown x hx).imp_left fun hx => by rw [hq]; exact List.mem_cons_of_mem _ hx
      old := fun x hx => by
        rw [hq] at hx
        rcases List.mem_cons.mp hx with rfl | hx
        · exact .inl (by simp)
        · exact hpend x (hkeep x hx)
      covers := fun q h1 h2 => by
        by_cases hlt : q < s'.nextSeq
        · obtain ⟨x, hx, hs⟩ := hcover q h1 hlt
          exact ⟨x, hs, hpend x hx⟩
        · obtain ⟨x, hs, hx⟩ := h.covers q (BitVec.not_lt.mp hlt) h2
          exact ⟨x, hs, hx.imp_left fun hx => List.mem_cons_of_mem _ hx⟩
      seqLe := BitVec.le_trans hrel.seqLe h.seqLe
      count := by
        have := h.count
        rw [hq, List.length_cons, List.length_cons]
        omega
      ordered := fun hs => List.pairwise_cons.mpr
        ⟨fun x hx => (hs.head_before hq ((hknown x (.inl hx)).imp_right And.left)).2 (hlater hs x hx),
          h.ordered (hrel.sched hs)⟩
      notPast := fun hs x hx => by
        have hen : s.now ≤ e.fire := hs.future e (by rw [hq]; simp)
        rcases List.mem_cons.mp hx with rfl | hx
        · exact hen
        · exact BitVec.le_trans hen (hlater hs x hx)
      distinct := fun hs => List.pairwise_cons.mpr
        ⟨fun x hx => (hs.head_before hq ((hknown x (List.mem_append.mp hx)).imp_right And.left)).1,
          h.distinct (hrel.sched hs)⟩ }

/-- A fatal error stopped the advance in the dispatch of e, the last event fired (60_exceptions.md R262): `now` is at
its fire, and every pending event comes after it. -/
def StoppedAt (fired : List Event) (s t : State) : Prop :=
  ∃ init e, fired = init ++ [e] ∧ t.now = e.fire ∧ (SchedInv s → ∀ x ∈ t.queue, eventBefore e x = true)

/-- The loop of advance_to, however far it gets: what it does, what it fired (R147), where a fatal error stopped it, and
that, given as much fuel as `dispatchBound` says, it ends with nothing due left. -/
theorem advanceLoop_spec {fuel : Nat} {T : Cycle} {n : Nat} {s t : State} {m : Nat}
    (hf : s.fatal = none) (h : advanceLoop issuePacket fuel T n s = .ok (t, m)) :
    AdvanceRel s t ∧ ∃ fired, FiredRel T fired s t ∧ (t.fatal.isSome = true → StoppedAt fired s t) ∧
      (t.fatal = none → m = n + fired.length ∧ (SchedInv s → (s.now ≤ T → t.now ≤ T) ∧
        (fired = [] → t.now = s.now) ∧ (dispatchBound s ≤ fuel → ∀ e ∈ t.queue, T < e.fire))) := by
  induction fuel generalizing n s with
  | zero =>
    simp only [advanceLoop, Except.ok.injEq, Prod.mk.injEq] at h
    obtain ⟨rfl, rfl⟩ := h
    refine ⟨.refl s, [], .nil T s, by simp [hf], fun _ => ⟨rfl, fun _ => ⟨id, fun _ => rfl, fun hb e he => ?_⟩⟩⟩
    have : s.queue.length = 0 := by unfold dispatchBound at hb; omega
    rw [List.length_eq_zero_iff.mp this] at he; cases he
  | succ fuel ih =>
    simp only [advanceLoop] at h
    cases hq : s.queue with
    | nil =>
      simp only [hq, Except.ok.injEq, Prod.mk.injEq] at h
      obtain ⟨rfl, rfl⟩ := h
      exact ⟨.refl s, [], .nil T s, by simp [hf],
        fun _ => ⟨rfl, fun _ => ⟨id, fun _ => rfl, fun _ e he => by rw [hq] at he; cases he⟩⟩⟩
    | cons e rest =>
      simp only [hq] at h
      split at h
      · rename_i hle
        cases hd : dispatch issuePacket e.kind e.fire { s with queue := rest, now := e.fire } with
        | error f => rw [hd] at h; simp at h
        | ok s' =>
          rw [hd] at h
          simp only at h
          obtain ⟨hrel, hnow, -, -, hfresh, -, hcount⟩ := dispatch_spec hq hf hd
          split at h
          · rename_i hfat
            simp only [Except.ok.injEq, Prod.mk.injEq] at h
            obtain ⟨rfl, rfl⟩ := h
            refine ⟨hrel, [e], .cons hq hf hle hd (.nil T s'), fun _ => ⟨[], e, rfl, hnow, fun hs x hx => ?_⟩,
              fun hn => by rw [hn] at hfat; simp at hfat⟩
            exact (hs.head_before hq ((hfresh x hx).imp_right And.left)).2 (hnow ▸ (hrel.sched hs).future x hx)
          · rename_i hnf
            obtain ⟨hrel', fired, hfired, hstop, hend⟩ := ih (not_isSome hnf) h
            refine ⟨hrel.trans hrel', e :: fired, .cons hq hf hle hd hfired, fun hfat => ?_, fun hn => ?_⟩
            · obtain ⟨init, l, rfl, h1, h2⟩ := hstop hfat
              exact ⟨e :: init, l, rfl, h1, fun hs => h2 (hrel.sched hs)⟩
            · obtain ⟨hm, hinv⟩ := hend hn
              refine ⟨by rw [hm, List.length_cons]; omega, fun hs => ?_⟩
              obtain ⟨h2, -, h4⟩ := hinv (hrel.sched hs)
              have := dispatchBound_step hq hrel.seqLe hcount
              exact ⟨fun _ => h2 (by rw [hnow]; exact hle), by simp, fun hb => h4 (by omega)⟩
      · rename_i hgt
        simp only [Except.ok.injEq, Prod.mk.injEq] at h
        obtain ⟨rfl, rfl⟩ := h
        refine ⟨.refl s, [], .nil T s, by simp [hf], fun _ => ⟨rfl, fun hs => ⟨id, fun _ => rfl, fun _ x hx => ?_⟩⟩⟩
        have ho := hs.ordered; rw [hq] at ho hx
        have hgt : T < e.fire := BitVec.not_le.mp hgt
        rcases List.mem_cons.mp hx with rfl | hx
        · exact hgt
        · exact cycle_lt_of_lt_of_le hgt (fire_le_of_eventBefore ((List.pairwise_cons.mp ho).1 x hx))

/-- What an advance fired, stated of the states around the whole of advance_to. -/
theorem FiredRel.congr {T : Cycle} {fired : List Event} {s s' t t' : State} (h : FiredRel T fired s t)
    (hs : SchedInv s' → SchedInv s) (h1 : s'.collab = s.collab) (h2 : s'.queue = s.queue) (h3 : s'.nextSeq = s.nextSeq)
    (h4 : s'.now = s.now) (g1 : t'.collab = t.collab) (g2 : t'.queue = t.queue) (g3 : t'.nextSeq = t.nextSeq) :
    FiredRel T fired s' t' where
  calls := by rw [g1, h1]; exact h.calls
  due := h.due
  known := by rw [g2, g3, h2, h3]; exact h.known
  old := by rw [g2, h2]; exact h.old
  covers := by rw [g2, g3, h3]; exact h.covers
  seqLe := by rw [g3, h3]; exact h.seqLe
  count := by rw [g2, g3, h2, h3]; exact h.count
  ordered hi := h.ordered (hs hi)
  notPast hi := by rw [h4]; exact h.notPast (hs hi)
  distinct hi := by rw [g2]; exact h.distinct (hs hi)

/-- Everything advance_to can do when it is not nested in another (R141): it ends with `in_dispatch` clear; what it fired
(R147); where a fatal error stopped it (60_exceptions.md R262); and, where none did, with `now` at the later of the old
time and the target, and nothing due left (R145, R146). -/
theorem advanceTo_spec {T : Cycle} {s t : State} {m : Nat} (hd : s.inDispatch = false) (hf : s.fatal = none)
    (h : advanceTo T s = .ok (t, m)) :
    AdvanceRel s t ∧ ∃ fired, FiredRel T fired s t ∧ (t.fatal.isSome = true → StoppedAt fired s t) ∧
      (t.fatal = none → m = fired.length ∧
        (SchedInv s → t.now = (if s.now < T then T else s.now) ∧ ∀ e ∈ t.queue, T < e.fire)) := by
  unfold advanceTo at h
  rw [hd] at h
  simp only [Bool.false_eq_true, if_false] at h
  have hinv0 : SchedInv s → SchedInv { s with inDispatch := true } := fun hs =>
    ⟨hs.ordered, hs.future, hs.seqs, hs.distinct, hs.kinds, hs.bound⟩
  cases hl : advanceLoop issuePacket (dispatchBound s) T 0 { s with inDispatch := true } with
  | error f => rw [hl] at h; simp at h
  | ok p =>
    obtain ⟨u, n⟩ := p
    rw [hl] at h
    simp only at h
    obtain ⟨hrel, fired, hfired, hstop, hend⟩ := advanceLoop_spec (s := { s with inDispatch := true }) hf hl
    have hback : AdvanceRel s { u with inDispatch := false } :=
      { hrel with
        inDispatch := hd.symm
        limits := ⟨hrel.limits.ie, hrel.limits.ime, hrel.limits.backing, hrel.limits.last, hrel.limits.trace,
          hrel.limits.latches⟩
        nowLe := fun hs => hrel.nowLe (hinv0 hs)
        sched := fun hs => by
          have := hrel.sched (hinv0 hs)
          exact ⟨this.ordered, this.future, this.seqs, this.distinct, this.kinds, this.bound⟩ }
    split at h
    · cases h
    split at h
    · rename_i hfat
      simp only [Except.ok.injEq, Prod.mk.injEq] at h
      obtain ⟨rfl, rfl⟩ := h
      refine ⟨hback, fired, hfired.congr hinv0 rfl rfl rfl rfl rfl rfl rfl, fun _ => ?_,
        fun hn => by rw [show u.fatal = none from hn] at hfat; simp at hfat⟩
      obtain ⟨init, e, h1, h2, h3⟩ := hstop hfat
      exact ⟨init, e, h1, h2, fun hs => h3 (hinv0 hs)⟩
    · rename_i hnf
      have hun := not_isSome hnf
      simp only [Except.ok.injEq, Prod.mk.injEq] at h
      obtain ⟨rfl, rfl⟩ := h
      obtain ⟨hm, hinv⟩ := hend hun
      have hs1 : SchedInv s → s.now ≤ u.now := fun hs => hrel.nowLe (hinv0 hs)
      refine ⟨{ hback with limits := hback.limits.trans ⟨rfl, rfl, rfl, rfl, rfl, latchesKept_refl _⟩, nowLe := fun hs => ?_, sched := fun hs => ?_ },
        fired, hfired.congr hinv0 rfl rfl rfl rfl rfl rfl rfl,
        fun hfat => absurd hfat hnf,
        fun _ => ⟨by rw [hm, Nat.zero_add], fun hs => ⟨?_, (hinv (hinv0 hs)).2.2 (Nat.le_refl _)⟩⟩⟩
      · have h1 := hs1 hs
        simp only [raiseNow_now]
        split <;> bv_omega
      · have h1 := hrel.sched (hinv0 hs)
        obtain ⟨-, -, h4⟩ := hinv (hinv0 hs)
        refine ⟨h1.ordered, fun e he => ?_, h1.seqs, h1.distinct, h1.kinds, h1.bound⟩
        have := h4 (Nat.le_refl _) e he
        have := h1.future e he
        simp only [raiseNow_now]
        split <;> bv_omega
      · obtain ⟨h2, h3, -⟩ := hinv (hinv0 hs)
        have hs1 := hs1 hs
        simp only [raiseNow_now]
        by_cases hlt : s.now ≤ T
        · have hu : u.now ≤ T := h2 hlt
          split <;> split <;> bv_omega
        · have hnil : fired = [] := List.eq_nil_iff_forall_not_mem.mpr fun e he =>
            hlt (BitVec.le_trans (hfired.notPast (hinv0 hs) e he) (hfired.due e he))
          have h3 : u.now = s.now := h3 hnil
          rw [h3]

end Sys2Proof.Machine
end

