-- ==== Sys2Proof/Laws/Bus.lean ====
section
/-! SUPPORT. Regions, resolution and the bytes of an access (20_memory.md R71 to R81, 42_bus.md R170). -/

namespace Sys2Proof.Machine

open Sys2Proof

/-! ### Regions -/

theorem windowWellFormed_iff {r : Region} : windowWellFormed r = true ↔
    r.base % 4 = 0 ∧ r.size % 4 = 0 ∧ r.period % 4 = 0 ∧ r.limit % 4 = 0 ∧ 1 ≤ r.size ∧ r.size ≤ r.period ∧
      r.base < r.limit ∧ r.limit ≤ 2 ^ 32 := by
  simp [windowWellFormed, and_assoc]

theorem regionContains_iff {r : Region} {a : Nat} :
    regionContains r a = true ↔ r.base ≤ a ∧ a < r.limit ∧ (a - r.base) % r.period < r.size := by
  simp [regionContains, and_assoc]

theorem nextCopy_ge (r : Region) (a : Nat) : a ≤ nextCopy r a := by
  unfold nextCopy; simp only; split <;> omega

theorem nextCopy_eq_iff {r : Region} (hp : 0 < r.period) (a : Nat) :
    nextCopy r a = a ↔ (a - r.base) % r.period < r.size := by
  have := Nat.mod_lt (a - r.base) hp
  unfold nextCopy; simp only; split <;> constructor <;> intro h <;> first | assumption | rfl | omega

/-- Nothing of a region lies between an address and the next copy. -/
theorem nextCopy_skips {r : Region} (hp : 0 < r.period) {a b : Nat} (hb : r.base ≤ a) (h : a ≤ b)
    (h' : b < nextCopy r a) : ¬(b - r.base) % r.period < r.size := by
  unfold nextCopy at h'
  simp only at h'
  split at h'
  · omega
  · have hlt := Nat.mod_lt (a - r.base) hp
    obtain ⟨k, rfl⟩ : ∃ k, b = a + k := ⟨b - a, by omega⟩
    have e : a + k - r.base = (a - r.base) + k := by omega
    have : (a + k - r.base) % r.period = (a - r.base) % r.period + k := by
      rw [e, Nat.add_mod, Nat.mod_eq_of_lt (show k < r.period by omega)]
      exact Nat.mod_eq_of_lt (by omega)
    omega

/-- A well-formed region holds a 4-byte block whole or not at all, at consecutive offsets. -/
theorem region_block {r : Region} (h : windowWellFormed r = true) {a k : Nat} (ha : a % 4 = 0) (hk : k < 4) :
    regionContains r (a + k) = regionContains r a ∧
      (r.base ≤ a → regionOffset r (a + k) = regionOffset r a + k ∧ regionOffset r a % 4 = 0) := by
  obtain ⟨h1, h2, h3, h4, h5, h6, h7, h8⟩ := windowWellFormed_iff.mp h
  have key : r.base ≤ a → (a + k - r.base) % r.period = (a - r.base) % r.period + k ∧
      ((a - r.base) % r.period) % 4 = 0 := by
    intro hb
    obtain ⟨p, hp⟩ : ∃ p, r.period = 4 * p := ⟨r.period / 4, by omega⟩
    obtain ⟨d, hd⟩ : ∃ d, a - r.base = 4 * d := ⟨(a - r.base) / 4, by omega⟩
    have e : a + k - r.base = 4 * d + k := by omega
    have hpp : 0 < p := by omega
    have e2 : (4 * d) % (4 * p) = 4 * (d % p) := Nat.mul_mod_mul_left 4 d p
    have hlt := Nat.mod_lt d hpp
    rw [e, hd, hp, e2]
    refine ⟨?_, by omega⟩
    rw [Nat.add_mod, e2, Nat.mod_eq_of_lt (show k < 4 * p by omega), Nat.mod_eq_of_lt (by omega)]
  refine ⟨?_, fun hb => key hb⟩
  rw [Bool.eq_iff_iff, regionContains_iff, regionContains_iff]
  constructor
  · rintro ⟨g1, g2, g3⟩
    have hb : r.base ≤ a := by omega
    have := key hb
    exact ⟨hb, by omega, by omega⟩
  · rintro ⟨g1, g2, g3⟩
    have := key g1
    exact ⟨by omega, by omega, by omega⟩

/-! ### Resolution -/

theorem resolveFrom_congr {rs : List Region} {a b n : Nat}
    (h : ∀ r ∈ rs, regionContains r a = regionContains r b) : resolveFrom n rs a = resolveFrom n rs b := by
  induction rs generalizing n with
  | nil => rfl
  | cons r rs ih =>
    simp only [resolveFrom]
    rw [ih (fun r hr => h r (by simp [hr])), h r (by simp)]

theorem resolveFrom_some {rs : List Region} {a n i : Nat} {r : Region} (h : resolveFrom n rs a = some (i, r)) :
    n ≤ i ∧ rs[i - n]? = some r ∧ regionContains r a = true := by
  induction rs generalizing n i r with
  | nil => simp [resolveFrom] at h
  | cons q rs ih =>
    simp only [resolveFrom] at h
    cases hr : resolveFrom (n + 1) rs a with
    | none =>
      rw [hr] at h
      simp only at h
      split at h
      · simp only [Option.some.injEq, Prod.mk.injEq] at h
        obtain ⟨rfl, rfl⟩ := h
        simp; assumption
      · cases h
    | some p =>
      obtain ⟨j, q'⟩ := p
      rw [hr] at h
      simp only at h
      split at h
      · rename_i hc
        simp only [Option.some.injEq, Prod.mk.injEq] at h
        obtain ⟨rfl, rfl⟩ := h
        simp only [Bool.and_eq_true] at hc
        simp; exact hc.1
      · simp only [Option.some.injEq, Prod.mk.injEq] at h
        obtain ⟨rfl, rfl⟩ := h
        obtain ⟨h1, h2, h3⟩ := ih hr
        refine ⟨by omega, ?_, h3⟩
        rw [show j - n = (j - (n + 1)) + 1 by omega, List.getElem?_cons_succ]; exact h2

theorem resolveFrom_none {rs : List Region} {a n : Nat} :
    resolveFrom n rs a = none ↔ ∀ r ∈ rs, ¬regionContains r a = true := by
  induction rs generalizing n with
  | nil => simp [resolveFrom]
  | cons q rs ih =>
    simp only [resolveFrom]
    cases hr : resolveFrom (n + 1) rs a with
    | none =>
      have := ih.mp hr
      simp only [List.forall_mem_cons]
      split <;> simp_all
    | some p =>
      have : ¬∀ r ∈ rs, ¬regionContains r a = true := by rw [← ih (n := n + 1), hr]; simp
      simp only [List.forall_mem_cons]
      split <;> simp only [reduceCtorEq, false_iff] <;> tauto

theorem resolveFrom_max {rs : List Region} {a n i : Nat} {r : Region} (h : resolveFrom n rs a = some (i, r)) :
    ∀ q ∈ rs, regionContains q a = true → q.prio.toNat ≤ r.prio.toNat := by
  induction rs generalizing n i r with
  | nil => simp
  | cons q rs ih =>
    simp only [resolveFrom] at h
    intro z hz hc
    cases hr : resolveFrom (n + 1) rs a with
    | none =>
      have := resolveFrom_none.mp hr
      rw [hr] at h; simp only at h
      rcases List.mem_cons.mp hz with rfl | hz
      · split at h
        · simp only [Option.some.injEq, Prod.mk.injEq] at h; rw [h.2]
        · contradiction
      · exact absurd hc (this z hz)
    | some p =>
      obtain ⟨j, q'⟩ := p
      rw [hr] at h; simp only at h
      split at h
      · rename_i hcc
        simp only [Option.some.injEq, Prod.mk.injEq] at h
        simp only [Bool.and_eq_true, decide_eq_true_eq] at hcc
        obtain ⟨rfl, rfl⟩ := h
        rcases List.mem_cons.mp hz with rfl | hz
        · exact Nat.le_refl _
        · have := ih hr z hz hc; omega
      · rename_i hcc
        simp only [Option.some.injEq, Prod.mk.injEq] at h
        simp only [Bool.and_eq_true, decide_eq_true_eq, not_and, not_le] at hcc
        obtain ⟨rfl, rfl⟩ := h
        rcases List.mem_cons.mp hz with rfl | hz
        · have := hcc hc; omega
        · exact ih hr z hz hc

/-! ### The access -/

/-- The path of an access whose region the privilege allows (R170). -/
theorem accessPath_of_resolve {rs : List Region} {k : AccessKind} {priv : Bool} {a : Word} {i : Nat} {r : Region}
    (hr : resolve rs a.toNat = some (i, r)) (hp : r.privOnly = true → priv = true) :
    accessPath rs k priv a =
      match k with
      | .execute => if r.executable then .granted i r else .violation .execViolation r
      | .read => if r.readable then .granted i r else .denied .notReadable i r
      | .write => if r.writable then .granted i r else .denied .readonlyWrite i r := by
  unfold accessPath; rw [hr]; simp only
  have : (r.privOnly && !priv) = false := by cases h : r.privOnly <;> simp_all
  rw [this]; cases k <;> rfl

theorem accessCost_isSequential (r : Region) (x : Cpu) (w : Width) (i : Nat) (s : State) :
    accessCost r x w (isSequential x i s) =
      if perCpu s.last x = some i then (perWidth (perCpu r.cost x) w).seq else (perWidth (perCpu r.cost x) w).nonseq := by
  unfold accessCost isSequential; by_cases h : perCpu s.last x = some i <;> simp [h]

@[simp] theorem readBytes_length (s : State) (r o n : Nat) : (readBytes s r o n).length = n := by simp [readBytes]

theorem widthBytes_le (w : Width) : widthBytes w ≤ 4 := by cases w <;> simp [widthBytes]

/-- A run of stores changes backing memory alone. -/
theorem writeBytes_eq (i o : Nat) (bs : List Byte) (s : State) :
    writeBytes i o bs s = { s with backing := (writeBytes i o bs s).backing } := by
  induction bs generalizing o s with
  | nil => rfl
  | cons b bs ih => simp only [writeBytes]; rw [ih]; rfl

theorem leValue_cons_toNat {b : Byte} {bs : List Byte} (h : (leValue bs).toNat < 2 ^ 24) :
    (leValue (b :: bs)).toNat = b.toNat + 256 * (leValue bs).toNat := by
  have hb := b.isLt
  simp only [leValue, BitVec.toNat_or, BitVec.toNat_shiftLeft, BitVec.toNat_setWidth]
  rw [Nat.mod_eq_of_lt (a := b.toNat) (by omega), Nat.shiftLeft_eq, Nat.mod_eq_of_lt (by omega), ← Nat.shiftLeft_eq,
    ← Nat.shiftLeft_add_eq_or_of_lt (by omega), Nat.shiftLeft_eq]
  omega

theorem leValue_lt (bs : List Byte) (h : bs.length ≤ 4) : (leValue bs).toNat < 2 ^ (8 * bs.length) := by
  induction bs with
  | nil => simp [leValue]
  | cons b bs ih =>
    have hl : bs.length ≤ 3 := by simp at h; omega
    have h2 := ih (by omega)
    have h3 : (leValue bs).toNat < 2 ^ 24 := lt_of_lt_of_le h2 (Nat.pow_le_pow_right (by omega) (by omega))
    have hb := b.isLt
    rw [leValue_cons_toNat h3, List.length_cons, show 8 * (bs.length + 1) = 8 * bs.length + 8 by ring, pow_add]
    omega

end Sys2Proof.Machine
end

