-- ==== Sys2Proof/Laws/Divergence.lean ====
section
/-! SUPPORT. Advances that never end (41_scheduler.md R150): what an advance can do had sequence numbers no end, that
`goesOn` says of it whether it goes on for ever, and when advance_to ends. -/

namespace Sys2Proof.Machine

open Sys2Proof

/-! ### What the advance with unlimited numbers depends on and can change -/

/-- The state with another history of the handler. -/
def hearing (ms : List Msg) (s : State) : State :=
  { s with collab := { s.collab with handler := { s.collab.handler with heard := ms } } }

/-- The state after commands of the handler: all that they can change (30_encoding.md R125). -/
def moved (q : List Event) (n : Cycle) (f : PerCpu Word) (c : Option FatalCode) (ms : List Msg) (s : State) : State :=
  { hearing ms s with queue := q, nextSeq := n, iflag := f, fatal := c }

/-- The pending events are in the order of their cycles, none before `now`, and fit in Q. -/
structure FireInv (now : Cycle) (cap : Nat) (q : List Event) : Prop where
  sorted : q.Pairwise (fun a b => a.fire ≤ b.fire)
  future : ∀ e ∈ q, now ≤ e.fire
  bound : q.length ≤ cap

theorem SchedInv.fireInv {s : State} (h : SchedInv s) : FireInv s.now s.cfg.queueCapacity s.queue :=
  ⟨h.ordered.imp fire_le_of_eventBefore, h.future, h.bound⟩

theorem fire_le_of_not_before {a b : Event} (h : ¬eventBefore a b = true) : b.fire ≤ a.fire := by
  rw [eventBefore_iff, not_or] at h
  exact BitVec.not_lt.mp h.1

theorem FireInv.insert {now : Cycle} {cap : Nat} {q : List Event} {e : Event} (h : FireInv now cap q)
    (he : now ≤ e.fire) (hn : q.length ≠ cap) : FireInv now cap (insertEvent e q) := by
  refine ⟨?_, fun x hx => ?_, by have := h.bound; rw [length_insertEvent]; omega⟩
  · have hs := h.sorted
    clear h hn
    induction q with
    | nil => simp [insertEvent]
    | cons y q ih =>
      have hs' := List.pairwise_cons.mp hs
      simp only [insertEvent]
      split
      · rename_i hb
        refine List.pairwise_cons.mpr ⟨fun x hx => ?_, hs⟩
        have hey := fire_le_of_eventBefore hb
        rcases List.mem_cons.mp hx with rfl | hx
        · exact hey
        · exact BitVec.le_trans hey (hs'.1 x hx)
      · rename_i hb
        refine List.pairwise_cons.mpr ⟨fun x hx => ?_, ih hs'.2⟩
        rcases mem_insertEvent.mp hx with rfl | hx
        · exact fire_le_of_not_before hb
        · exact hs'.1 x hx
  · rcases mem_insertEvent.mp hx with rfl | hx
    · exact he
    · exact h.future x hx

/-- What a command of the handler does to Q: nothing, or one insertion (41_scheduler.md R140). -/
def queueStep (s : State) (q : List Event) : Prop :=
  q = s.queue ∨ ∃ e, s.now ≤ e.fire ∧ s.queue.length ≠ s.cfg.queueCapacity ∧ q = insertEvent e s.queue

theorem queueStep.fireInv {s : State} {q : List Event} (h : queueStep s q)
    (hi : FireInv s.now s.cfg.queueCapacity s.queue) : FireInv s.now s.cfg.queueCapacity q := by
  rcases h with rfl | ⟨e, h1, h2, rfl⟩
  exacts [hi, hi.insert h1 h2]

/-- What running f in the handler's context does, whatever the handler has heard. -/
def deaf (f : State → State) (s : State) : Prop :=
  ∃ q n g c m, queueStep s q ∧ ∀ ms, f (hearing ms s) = moved q n g c (ms ++ [m]) s

theorem answer_moved {s : State} (h : s.ctx = .handler) (q : List Event) (n : Cycle) (g : PerCpu Word)
    (c : Option FatalCode) (st : Status) (ws : List Word) (ms : List Msg) :
    answer st ws (moved q n g c ms s) = moved q n g c (ms ++ [.response (st.code :: ws)]) s := by
  rw [answer_eq_tell _ _ _ (by simp [moved, hearing, h])]
  simp [tell, moved, hearing, h, setHandler]

theorem moved_self (ms : List Msg) (s : State) : hearing ms s = moved s.queue s.nextSeq s.iflag s.fatal ms s := rfl

theorem deaf_congr {f g : State → State} {s : State} (hg : deaf g s) (h : ∀ ms, f (hearing ms s) = g (hearing ms s)) :
    deaf f s := by
  obtain ⟨q, n, i, c, m, hq, he⟩ := hg
  exact ⟨q, n, i, c, m, hq, fun ms => (h ms).trans (he ms)⟩

theorem deaf_answer {s : State} (h : s.ctx = .handler) (st : Status) (ws : List Word) :
    deaf (answer st ws) s :=
  ⟨_, _, _, _, _, .inl rfl, fun ms => by rw [moved_self, answer_moved h]⟩

theorem deaf_raiseFatal {s : State} (h : s.ctx = .handler) (c : FatalCode) : deaf (raiseFatal c) s :=
  ⟨s.queue, s.nextSeq, s.iflag, some c, _, .inl rfl, fun ms => answer_moved h _ _ _ (some c) _ _ ms⟩

theorem deaf_schedule {s : State} (h : s.ctx = .handler) (kind : Kind) (fire : Cycle) :
    deaf (scheduleEffect kind fire) s := by
  have hu : ∀ ms, scheduleError (hearing ms s).cfg.queueCapacity (hearing ms s).now (hearing ms s).queue
    (hearing ms s).nextSeq fire = scheduleError s.cfg.queueCapacity s.now s.queue s.nextSeq fire := fun _ => rfl
  cases he : scheduleError s.cfg.queueCapacity s.now s.queue s.nextSeq fire with
  | some c => exact deaf_congr (deaf_raiseFatal h c) fun ms => by simp only [scheduleEffect, hu, he]
  | none =>
    obtain ⟨h1, h2, -⟩ := scheduleError_eq_none.mp he
    exact ⟨insertEvent ⟨fire, kind, s.nextSeq⟩ s.queue, s.nextSeq + 1, s.iflag, s.fatal,
      .response (Status.ok.code :: cycleWords s.nextSeq), .inr ⟨_, h1, h2, rfl⟩, fun ms => by
        simp only [scheduleEffect, hu, he]
        exact answer_moved h _ _ _ _ _ _ ms⟩

/-- A command of the handler does not look at what the handler has heard. -/
theorem deaf_runNested {s : State} (i : Instr) (h : s.ctx = .handler) : deaf (runNested i) s := by
  cases hf : s.fatal with
  | some c =>
    exact deaf_congr (deaf_answer h (.fatal c) []) fun ms => by
      simp [runNested, runCommand, turnedAway, answerFatal, hearing, hf]
  | none =>
    by_cases hp : permitted i .handler = true
    · suffices hd : deaf (nestedEffect i) s from deaf_congr hd fun ms => by
        simp [runNested, runCommand, turnedAway, hearing, hf, h, hp]
      cases i
      case schedSchedule k f => exact deaf_schedule h k f
      case schedPeek =>
        cases hq : s.queue with
        | nil => exact deaf_congr (deaf_answer h .empty []) fun ms => by simp [nestedEffect, peekEffect, hearing, hq]
        | cons e rest =>
          exact deaf_congr (deaf_answer h .ok (cycleWords e.fire)) fun ms => by
            simp [nestedEffect, peekEffect, hearing, hq]
      case icRequest x src =>
        exact ⟨s.queue, s.nextSeq, (latchSource x src s).iflag, s.fatal, .response [Status.ok.code], .inl rfl,
          fun ms => answer_moved h s.queue s.nextSeq (latchSource x src s).iflag s.fatal _ _ ms⟩
      case schedNow => exact deaf_congr (deaf_answer h .ok (cycleWords s.now)) fun _ => rfl
      case icAsserted x => exact deaf_congr (deaf_answer h .ok [if asserted x s then 1 else 0]) fun _ => rfl
      case icReadIe x => exact deaf_congr (deaf_answer h .ok [perCpu s.ie x]) fun _ => rfl
      case icReadIf x => exact deaf_congr (deaf_answer h .ok [perCpu s.iflag x]) fun _ => rfl
      case icReadIme x => exact deaf_congr (deaf_answer h .ok [if perCpu s.ime x then 1 else 0]) fun _ => rfl
      case clkReadLead => exact deaf_congr (deaf_answer h .ok (cycleWords s.lead)) fun _ => rfl
      case clkReadTime x => exact deaf_congr (deaf_answer h .ok (cycleWords (ownTime x s))) fun _ => rfl
      all_goals simp [permitted] at hp
    · exact deaf_congr (deaf_raiseFatal h .illegalContext) fun ms => by
        simp [runNested, runCommand, turnedAway, hearing, hf, h, hp]

theorem deaf_issuePacket {s : State} (p : Packet) (h : s.ctx = .handler) : deaf (issuePacket p) s := by
  unfold issuePacket
  cases decode p with
  | ok i => exact deaf_runNested i h
  | error e =>
    cases hf : s.fatal with
    | some c =>
      exact deaf_congr (deaf_answer h (.fatal c) []) fun ms => by simp [answerReserved, answerFatal, hearing, hf]
    | none => exact deaf_congr (deaf_raiseFatal h .reservedEncoding) fun ms => by simp [answerReserved, hearing, hf]

/-- The packet is a SCHED.SCHEDULE that R140's last check alone refuses. -/
def outOfNumbers (p : Packet) (s : State) : Prop :=
  s.nextSeq = lastSeq ∧ ∃ kind fire, decode p = .ok (.schedSchedule kind fire) ∧ s.now ≤ fire ∧
    s.queue.length ≠ s.cfg.queueCapacity

theorem issueUnlimited_of_not {p : Packet} {s : State} (h : ¬outOfNumbers p s) : issueUnlimited p s = issuePacket p s := by
  unfold issueUnlimited
  split <;> try rfl
  rename_i kind fire hd
  split <;> try rfl
  rename_i hc
  obtain ⟨h1, h2, -⟩ := scheduleError_eq_none.mp hc.2
  exact absurd ⟨hc.1, kind, fire, hd, h1, h2⟩ h

theorem issueUnlimited_of {p : Packet} {s : State} {kind : Kind} {fire : Cycle} (hn : s.nextSeq = lastSeq)
    (hd : decode p = .ok (.schedSchedule kind fire)) (h1 : s.now ≤ fire) (h2 : s.queue.length ≠ s.cfg.queueCapacity) :
    issueUnlimited p s = scheduleUnnumbered kind fire s := by
  simp only [issueUnlimited, hd]
  exact if_pos ⟨hn, scheduleError_eq_none.mpr ⟨h1, h2, by decide⟩⟩

theorem deaf_issueUnlimited {s : State} (p : Packet) (h : s.ctx = .handler) : deaf (issueUnlimited p) s := by
  by_cases hc : outOfNumbers p s
  · obtain ⟨hn, kind, fire, hd, h1, h2⟩ := hc
    refine ⟨insertEvent ⟨fire, kind, lastSeq⟩ s.queue, s.nextSeq, s.iflag, s.fatal, .response [],
      .inr ⟨_, h1, h2, rfl⟩, fun ms => ?_⟩
    rw [issueUnlimited_of (s := hearing ms s) hn hd h1 h2]
    simp [scheduleUnnumbered, tell, hearing, moved, h, setHandler]
  · exact deaf_congr (deaf_issuePacket p h) fun ms => issueUnlimited_of_not (s := hearing ms s) hc

/-- Two histories that the handler's activation cannot tell apart. -/
def heardAlike (ms ms' : List Msg) : Prop := ms.getLast? = ms'.getLast? ∧ lastCall ms = lastCall ms'

theorem lastCall_append (ms ms' : List Msg) : lastCall (ms ++ ms') = (lastCall ms').or (lastCall ms) := by
  induction ms with
  | nil => simp [lastCall]
  | cons m ms ih => cases m <;> simp [lastCall, ih]

theorem heardAlike.append {ms ms' : List Msg} (h : heardAlike ms ms') (ext : List Msg) :
    heardAlike (ms ++ ext) (ms' ++ ext) :=
  ⟨by rw [List.getLast?_append, List.getLast?_append, h.1], by rw [lastCall_append, lastCall_append, h.2]⟩

/-- What the handler does keeps Q fit. -/
def queueFits (s : State) (q : List Event) : Prop :=
  FireInv s.now s.cfg.queueCapacity s.queue → FireInv s.now s.cfg.queueCapacity q

theorem deaf_scheduleIn {s : State} (kind : Kind) (d : Cycle) (h : s.ctx = .handler) :
    ∃ q n g c ext, queueFits s q ∧
      ∀ ms, scheduleInWith issueUnlimited kind d (hearing ms s) = moved q n g c (ms ++ ext) s := by
  obtain ⟨q, n, g, c, m, hq, he⟩ := deaf_issueUnlimited (encodePacket .schedNow) h
  set t := moved q n g c [] s with ht
  have hts : ∀ ms, moved q n g c ms s = hearing ms t := fun _ => rfl
  have hsum : ∀ ms, (hearing ms t).now.toNat = s.now.toNat := fun _ => rfl
  unfold scheduleInWith scheduleAfter
  by_cases hd : 2 ^ 64 ≤ s.now.toNat + d.toNat
  · refine ⟨q, n, g, some .cycleOverflow, [m, .response (Status.code (.fatal .cycleOverflow) :: [])], hq.fireInv, fun ms => ?_⟩
    simp only [he, hts, hsum, if_pos hd]
    rw [show ms ++ [m, .response (Status.code (.fatal .cycleOverflow) :: [])] =
      ms ++ [m] ++ [.response (Status.code (.fatal .cycleOverflow) :: [])] by simp]
    exact answer_moved h q n g (some .cycleOverflow) _ _ (ms ++ [m])
  · obtain ⟨q', n', g', c', m', hq', he'⟩ :=
      deaf_issueUnlimited (s := t) (encodePacket (.schedSchedule kind (s.now + d))) h
    refine ⟨q', n', g', c', [m, m'], fun hi => hq'.fireInv (hq.fireInv hi), fun ms => ?_⟩
    simp only [he, hts, hsum, if_neg hd]
    rw [show ms ++ [m, m'] = ms ++ [m] ++ [m'] by simp]
    exact he' (ms ++ [m])

/-- An activation of the handler does not look at more of what it has heard than the last answer and call. -/
theorem deaf_runScript (a : Script Nat) {s : State} (h : s.ctx = .handler) (ms₀ : List Msg) :
    ∃ q n g c ext r, queueFits s q ∧
      ∀ ms, heardAlike ms ms₀ → runScriptWith issueUnlimited a (hearing ms s) = (moved q n g c (ms ++ ext) s, r) := by
  induction a generalizing s ms₀ with
  | done r => exact ⟨s.queue, s.nextSeq, s.iflag, s.fatal, [], some r, id, fun ms _ => by simp [runScriptWith, moved_self]⟩
  | issue p next ih =>
    obtain ⟨q, n, g, c, m, hq, he⟩ := deaf_issueUnlimited p h
    by_cases hc : c.isSome = true
    · exact ⟨q, n, g, c, [m], none, hq.fireInv, fun ms _ => by
        simp only [runScriptWith, he]; exact if_pos hc⟩
    · obtain ⟨q', n', g', c', ext, r, hq', he'⟩ := ih (s := moved q n g c [] s) h (ms₀ ++ [m])
      refine ⟨q', n', g', c', m :: ext, r, fun hi => hq' (hq.fireInv hi), fun ms hms => ?_⟩
      have := he' (ms ++ [m]) (hms.append [m])
      simp only [runScriptWith, he]
      rw [if_neg (by exact hc), show ms ++ m :: ext = ms ++ [m] ++ ext by simp]
      exact this
  | scheduleIn k d next ih =>
    obtain ⟨q, n, g, c, e, hq, he⟩ := deaf_scheduleIn k d h
    by_cases hc : c.isSome = true
    · exact ⟨q, n, g, c, e, none, hq, fun ms _ => by
        simp only [runScriptWith, he]; exact if_pos hc⟩
    · obtain ⟨q', n', g', c', ext, r, hq', he'⟩ := ih (s := moved q n g c [] s) h (ms₀ ++ e)
      refine ⟨q', n', g', c', e ++ ext, r, fun hi => hq' (hq hi), fun ms hms => ?_⟩
      have := he' (ms ++ e) (hms.append e)
      simp only [runScriptWith, he]
      rw [if_neg (by exact hc), ← List.append_assoc]
      exact this
  | ifAnswered status data yes no ihy ihn =>
    have hh : ∀ ms, heardOf (hearing ms s) = ms := fun ms => by simp [heardOf, hearing, h]
    simp only [runScriptWith, hh]
    by_cases hc : ms₀.getLast? = some (.response (status :: data))
    · obtain ⟨q, n, g, c, ext, r, hq, he⟩ := ihy h ms₀
      exact ⟨q, n, g, c, ext, r, hq, fun ms hms => by rw [if_pos (hms.1.trans hc)]; exact he ms hms⟩
    · obtain ⟨q, n, g, c, ext, r, hq, he⟩ := ihn h ms₀
      exact ⟨q, n, g, c, ext, r, hq, fun ms hms => by rw [if_neg (by rw [hms.1]; exact hc)]; exact he ms hms⟩
  | ifKind k yes no ihy ihn =>
    have hh : ∀ ms, heardOf (hearing ms s) = ms := fun ms => by simp [heardOf, hearing, h]
    simp only [runScriptWith, hh]
    by_cases hc : (lastCall ms₀).map Prod.fst = some k
    · obtain ⟨q, n, g, c, ext, r, hq, he⟩ := ihy h ms₀
      exact ⟨q, n, g, c, ext, r, hq, fun ms hms => by rw [if_pos (by rw [hms.2]; exact hc)]; exact he ms hms⟩
    · obtain ⟨q, n, g, c, ext, r, hq, he⟩ := ihn h ms₀
      exact ⟨q, n, g, c, ext, r, hq, fun ms hms => by rw [if_neg (by rw [hms.2]; exact hc)]; exact he ms hms⟩
  | ifFire t yes no ihy ihn =>
    have hh : ∀ ms, heardOf (hearing ms s) = ms := fun ms => by simp [heardOf, hearing, h]
    simp only [runScriptWith, hh]
    by_cases hc : (lastCall ms₀).map Prod.snd = some t
    · obtain ⟨q, n, g, c, ext, r, hq, he⟩ := ihy h ms₀
      exact ⟨q, n, g, c, ext, r, hq, fun ms hms => by rw [if_pos (by rw [hms.2]; exact hc)]; exact he ms hms⟩
    · obtain ⟨q, n, g, c, ext, r, hq, he⟩ := ihn h ms₀
      exact ⟨q, n, g, c, ext, r, hq, fun ms hms => by rw [if_neg (by rw [hms.2]; exact hc)]; exact he ms hms⟩
  | ifPriv p q yes no ihy ihn =>
    have hh : ∀ ms, privOf p (hearing ms s) = privOf p s := fun ms => by cases p <;> rfl
    simp only [runScriptWith, hh]
    by_cases hc : privOf p s = q
    · obtain ⟨q', n, g, c, ext, r, hq, he⟩ := ihy h ms₀
      exact ⟨q', n, g, c, ext, r, hq, fun ms hms => by rw [if_pos hc]; exact he ms hms⟩
    · obtain ⟨q', n, g, c, ext, r, hq, he⟩ := ihn h ms₀
      exact ⟨q', n, g, c, ext, r, hq, fun ms hms => by rw [if_neg hc]; exact he ms hms⟩
  | ifHalted x yes no ihy ihn =>
    have hh : ∀ ms, cpuCollab x (hearing ms s) = cpuCollab x s := fun ms => rfl
    simp only [runScriptWith, hh]
    by_cases hc : (cpuCollab x s).halted = true
    · obtain ⟨q', n, g, c, ext, r, hq, he⟩ := ihy h ms₀
      exact ⟨q', n, g, c, ext, r, hq, fun ms hms => by rw [if_pos hc]; exact he ms hms⟩
    · obtain ⟨q', n, g, c, ext, r, hq, he⟩ := ihn h ms₀
      exact ⟨q', n, g, c, ext, r, hq, fun ms hms => by rw [if_neg hc]; exact he ms hms⟩

/-! ### Going round -/

/-- How a machine stands before a dispatch of one advance, what the handler has heard apart. -/
structure Stand where
  now : Cycle
  queue : List Event
  nextSeq : Cycle
  iflag : PerCpu Word
  priv : Nat

/-- The state s, standing at v. -/
def stood (v : Stand) (ms : List Msg) (s : State) : State :=
  { s with now := v.now, queue := v.queue, nextSeq := v.nextSeq, iflag := v.iflag, collab := { s.collab with handler := { s.collab.handler with priv := v.priv, heard := ms } } }

def standOf (s : State) : Stand := ⟨s.now, s.queue, s.nextSeq, s.iflag, s.collab.handler.priv⟩

theorem stood_standOf (s : State) : stood (standOf s) s.collab.handler.heard s = s := rfl

/-- The dispatch that is due at v leads to v', without a fatal error, whatever the handler has heard. -/
def nextStand (T : Cycle) (s : State) (v v' : Stand) : Prop :=
  ∃ e rest ext, v.queue = e :: rest ∧ e.fire ≤ T ∧ v.priv < s.collab.handler.table.length ∧
    (FireInv v.now s.cfg.queueCapacity v.queue → FireInv v'.now s.cfg.queueCapacity v'.queue) ∧
    ∀ ms, dispatch issueUnlimited e.kind e.fire { stood v ms s with queue := rest, now := e.fire } =
      .ok (stood v' (ms ++ ext) s)

theorem FireInv.pop {now : Cycle} {cap : Nat} {e : Event} {rest : List Event} (h : FireInv now cap (e :: rest)) :
    FireInv e.fire cap rest :=
  ⟨(List.pairwise_cons.mp h.sorted).2, (List.pairwise_cons.mp h.sorted).1, by have := h.bound; simp at this; omega⟩

/-- A dispatch does not look at what the handler has heard. -/
theorem dispatch_deaf {T : Cycle} {s : State} {v : Stand} {e : Event} {rest : List Event} (hq : v.queue = e :: rest)
    (hT : e.fire ≤ T) (hf : s.fatal = none) :
    (∀ ms, dispatch issueUnlimited e.kind e.fire { stood v ms s with queue := rest, now := e.fire } =
      .error .handlerNeverReturns) ∨
    (∃ c, ∀ ms, ∃ t, t.fatal = some c ∧
      dispatch issueUnlimited e.kind e.fire { stood v ms s with queue := rest, now := e.fire } = .ok t) ∨
    ∃ v', nextStand T s v v' := by
  cases ha : s.collab.handler.table[v.priv]? with
  | none =>
    refine .inl fun ms => ?_
    unfold dispatch
    rw [show (stood v ms s).collab.handler.table[(stood v ms s).collab.handler.priv]? = none from ha]
  | some a =>
    set b : State := { stood v [] s with queue := rest, now := e.fire, ctx := .handler } with hb
    obtain ⟨q, n, g, c, ext, r, hfit, he⟩ := deaf_runScript a (s := b) rfl [.call e.kind e.fire]
    have hrun : ∀ ms, dispatch issueUnlimited e.kind e.fire { stood v ms s with queue := rest, now := e.fire } =
        .ok { handlerReturned (moved q n g c (ms ++ [.call e.kind e.fire] ++ ext) b, r) with ctx := s.ctx } := fun ms => by
      refine dispatch_eq_ok.mpr ⟨a, ha, ?_⟩
      rw [show calledState e.kind e.fire { stood v ms s with queue := rest, now := e.fire } =
        hearing (ms ++ [.call e.kind e.fire]) b from rfl, he _ ⟨by simp, by rw [lastCall_append]; rfl⟩]
      rfl
    cases c with
    | some c =>
      refine .inr (.inl ⟨c, fun ms => ⟨_, ?_, hrun ms⟩⟩)
      rw [handlerReturned_eq]; rfl
    | none =>
      refine .inr (.inr ⟨⟨e.fire, q, n, g, r.getD v.priv⟩, e, rest, .call e.kind e.fire :: ext, hq, hT,
        (List.getElem?_eq_some_iff.mp ha).1, fun hi => hfit (by rw [hq] at hi; exact hi.pop), fun ms => ?_⟩)
      rw [hrun, handlerReturned_eq, show ms ++ .call e.kind e.fire :: ext = ms ++ [.call e.kind e.fire] ++ ext by simp]
      simp only [moved, hearing, stood, b, hf]

theorem advanceLoop_count (issue : Packet → State → State) (fuel : Nat) (T : Cycle) (n : Nat) (s : State) :
    advanceLoop issue fuel T n s = (advanceLoop issue fuel T 0 s).map fun p => (p.1, p.2 + n) := by
  induction fuel generalizing n s with
  | zero => simp [advanceLoop, Except.map]
  | succ fuel ih =>
    simp only [advanceLoop]
    split
    · simp [Except.map]
    · split
      · split
        · rfl
        · split
          · simp [Except.map]
          · rename_i s' _ _
            rw [ih (n + 1), ih (0 + 1)]
            cases advanceLoop issue fuel T 0 s' <;> simp [Except.map, Nat.add_assoc, Nat.add_comm 1]
      · simp [Except.map]

/-- From where the count stands does not matter to whether the advance goes on. -/
theorem goesOnAfter_iff {fuel : Nat} {T : Cycle} {s : State} (n : Nat) : goesOnAfter fuel T s = true ↔
    ∃ t m, advanceLoop issueUnlimited fuel T n s = .ok (t, m) ∧ t.fatal = none ∧ isDue T t = true := by
  unfold goesOnAfter
  rw [advanceLoop_count _ _ _ n]
  cases advanceLoop issueUnlimited fuel T 0 s with
  | error f => simp [Except.map]
  | ok p => simp [Except.map]

/-- From v the advance makes so many dispatches, and the next is due. -/
def path (T : Cycle) (s : State) : Nat → Stand → Prop
  | 0, v => ∃ e rest, v.queue = e :: rest ∧ e.fire ≤ T
  | n + 1, v => ∃ v', nextStand T s v v' ∧ path T s n v'

theorem isDue_stood {T : Cycle} {s : State} {v : Stand} {ms : List Msg} :
    isDue T (stood v ms s) = true ↔ ∃ e rest, v.queue = e :: rest ∧ e.fire ≤ T := by
  unfold isDue
  show (match v.queue with | [] => false | e :: _ => decide (e.fire ≤ T)) = true ↔ _
  cases v.queue <;> simp

theorem goesOnAfter_iff_path {fuel : Nat} {T : Cycle} {s : State} {v : Stand} {ms : List Msg} (hf : s.fatal = none) :
    goesOnAfter fuel T (stood v ms s) = true ↔ path T s fuel v := by
  induction fuel generalizing v ms with
  | zero =>
    rw [goesOnAfter_iff 0]
    refine ⟨fun h => ?_, fun h => ⟨_, _, rfl, hf, isDue_stood.mpr h⟩⟩
    obtain ⟨t, m, h1, -, h2⟩ := h
    simp only [advanceLoop, Except.ok.injEq, Prod.mk.injEq] at h1
    rw [← h1.1] at h2
    exact isDue_stood.mp h2
  | succ fuel ih =>
    have hstep : ∀ n, advanceLoop issueUnlimited (fuel + 1) T n (stood v ms s) =
        match v.queue with
        | [] => .ok (stood v ms s, n)
        | e :: rest =>
          if e.fire ≤ T then
            match dispatch issueUnlimited e.kind e.fire { stood v ms s with queue := rest, now := e.fire } with
            | .error f => .error f
            | .ok s' => if s'.fatal.isSome then .ok (s', n) else advanceLoop issueUnlimited fuel T (n + 1) s'
          else .ok (stood v ms s, n) := fun _ => rfl
    rw [goesOnAfter_iff 0]
    constructor
    · rintro ⟨t, m, h1, h2, h3⟩
      rw [hstep] at h1
      cases hq : v.queue with
      | nil =>
        simp only [hq, Except.ok.injEq, Prod.mk.injEq] at h1
        rw [← h1.1] at h3
        obtain ⟨e, rest, he, -⟩ := isDue_stood.mp h3
        rw [hq] at he; cases he
      | cons e rest =>
        simp only [hq] at h1
        by_cases hT : e.fire ≤ T
        · rw [if_pos hT] at h1
          rcases dispatch_deaf hq hT hf with hd | ⟨c, hd⟩ | ⟨v', hv⟩
          · rw [hd] at h1; cases h1
          · obtain ⟨u, hu, hd⟩ := hd ms
            rw [hd] at h1
            simp only [hu, Option.isSome_some, if_true, Except.ok.injEq, Prod.mk.injEq] at h1
            rw [← h1.1, hu] at h2; cases h2
          · refine ⟨v', hv, ?_⟩
            obtain ⟨e', rest', ext, hq', -, -, -, hd⟩ := hv
            rw [hq] at hq'
            obtain ⟨rfl, rfl⟩ := List.cons.inj hq'
            rw [hd] at h1
            simp only [show (stood v' (ms ++ ext) s).fatal = none from hf, Option.isSome_none, Bool.false_eq_true,
              if_false] at h1
            exact ih.mp ((goesOnAfter_iff _).mpr ⟨t, m, h1, h2, h3⟩)
        · rw [if_neg hT] at h1
          simp only [Except.ok.injEq, Prod.mk.injEq] at h1
          rw [← h1.1] at h3
          obtain ⟨e', rest', he, hT'⟩ := isDue_stood.mp h3
          rw [hq] at he
          obtain ⟨rfl, rfl⟩ := List.cons.inj he
          exact absurd hT' hT
    · rintro ⟨v', ⟨e, rest, ext, hq, hT, -, -, hd⟩, hp⟩
      rw [hstep]
      simp only [hq, if_pos hT, hd, show (stood v' (ms ++ ext) s).fatal = none from hf, Option.isSome_none,
        Bool.false_eq_true, if_false]
      exact (goesOnAfter_iff (0 + 1)).mp (ih.mpr hp)

theorem nextStand.due {T : Cycle} {s : State} {v v' : Stand} (h : nextStand T s v v') : path T s 0 v := by
  obtain ⟨e, rest, -, hq, hT, -⟩ := h
  exact ⟨e, rest, hq, hT⟩

/-- A path as a sequence. -/
theorem path_seq {T : Cycle} {s : State} {n : Nat} {v : Stand} (h : path T s n v) :
    ∃ f : Nat → Stand, f 0 = v ∧ ∀ i < n, nextStand T s (f i) (f (i + 1)) := by
  induction n generalizing v with
  | zero => exact ⟨fun _ => v, rfl, by simp⟩
  | succ n ih =>
    obtain ⟨v', hv, hp⟩ := h
    obtain ⟨f, h0, hf⟩ := ih hp
    refine ⟨fun i => match i with | 0 => v | i + 1 => f i, rfl, fun i hi => ?_⟩
    cases i with
    | zero => simpa [h0] using hv
    | succ i => exact hf i (by omega)

/-- An advance that stands twice alike goes round for ever. -/
theorem path_of_round {T : Cycle} {s : State} {f : Nat → Stand} {i j : Nat} (hij : i < j) (he : f i = f j)
    (hf : ∀ k < j, nextStand T s (f k) (f (k + 1))) (n : Nat) : ∀ k < j, path T s n (f k) := by
  induction n with
  | zero => exact fun k hk => (hf k hk).due
  | succ n ih =>
    refine fun k hk => ⟨f (k + 1), hf k hk, ?_⟩
    by_cases hk' : k + 1 < j
    · exact ih _ hk'
    · rw [show k + 1 = j by omega, ← he]; exact ih i hij

/-! ### As many ways to stand as `standings` says -/

/-- An event as a number, and 0 for none. -/
def eventCode : Option Event → Fin (2 ^ 136 + 1)
  | none => 0
  | some e => ⟨1 + (e.fire.toNat * 2 ^ 72 + e.kind.toNat * 2 ^ 64 + e.seq.toNat), by
      have := e.fire.isLt; have := e.kind.isLt; have := e.seq.isLt; omega⟩

theorem eventCode_inj {a b : Option Event} (h : eventCode a = eventCode b) : a = b := by
  cases a with
  | none =>
    cases b with
    | none => rfl
    | some b => have := congrArg Fin.val h; simp only [eventCode, Fin.val_zero] at this; omega
  | some a =>
    cases b with
    | none => have := congrArg Fin.val h; simp only [eventCode, Fin.val_zero] at this; omega
    | some b =>
      have hv := congrArg Fin.val h
      simp only [eventCode] at hv
      obtain ⟨f, k, n⟩ := a
      obtain ⟨f', k', n'⟩ := b
      have := f.isLt; have := k.isLt; have := n.isLt; have := f'.isLt; have := k'.isLt; have := n'.isLt
      have h1 : f = f' := BitVec.eq_of_toNat_eq (by simp only at hv; omega)
      have h2 : k = k' := BitVec.eq_of_toNat_eq (by simp only at hv; omega)
      have h3 : n = n' := BitVec.eq_of_toNat_eq (by simp only at hv; omega)
      rw [h1, h2, h3]

/-- The ways to stand with at most cap events, in one of r private states. -/
abbrev StandCode (r cap : Nat) : Type :=
  Fin r × Fin (2 ^ 64) × Fin (2 ^ 64) × (Fin (2 ^ 32) × Fin (2 ^ 32)) × (Fin cap → Fin (2 ^ 136 + 1))

theorem card_standCode (r cap : Nat) :
    Fintype.card (StandCode r cap) = r * 2 ^ 192 * (2 ^ 136 + 1) ^ cap := by
  simp only [StandCode, Fintype.card_prod, Fintype.card_fin, Fintype.card_fun]
  ring

def standCode (r cap : Nat) (v : Stand) (h : v.priv < r) : StandCode r cap :=
  (⟨v.priv, h⟩, v.now.toFin, v.nextSeq.toFin, (v.iflag.fast.toFin, v.iflag.slow.toFin),
    fun i => eventCode v.queue[i.val]?)

theorem standCode_inj {r cap : Nat} {v w : Stand} {hv : v.priv < r} {hw : w.priv < r} (h1 : v.queue.length ≤ cap)
    (h2 : w.queue.length ≤ cap) (h : standCode r cap v hv = standCode r cap w hw) : v = w := by
  obtain ⟨n, q, m, ⟨f, g⟩, p⟩ := v
  obtain ⟨n', q', m', ⟨f', g'⟩, p'⟩ := w
  simp only [standCode, Prod.mk.injEq, Fin.mk.injEq] at h
  obtain ⟨rfl, a, b, ⟨c, d⟩, e⟩ := h
  have hq : q = q' := by
    apply List.ext_getElem?
    intro i
    by_cases hi : i < cap
    · exact eventCode_inj (congrFun e ⟨i, hi⟩)
    · simp only at h1 h2
      rw [List.getElem?_eq_none (by omega), List.getElem?_eq_none (by omega)]
  simp only [BitVec.toFin_inj] at a b c d
  rw [hq, a, b, c, d]

/-- After as many dispatches as there are ways to stand, the advance goes round for ever. -/
theorem path_endless {T : Cycle} {s : State} {v : Stand} {N : Nat}
    (hi : FireInv v.now s.cfg.queueCapacity v.queue)
    (hN : s.collab.handler.table.length * 2 ^ 192 * (2 ^ 136 + 1) ^ s.cfg.queueCapacity < N)
    (h : path T s N v) (n : Nat) : path T s n v := by
  obtain ⟨f, h0, hf⟩ := path_seq h
  have hinv : ∀ i ≤ N, FireInv (f i).now s.cfg.queueCapacity (f i).queue := by
    intro i
    induction i with
    | zero => intro _; rw [h0]; exact hi
    | succ i ih =>
      intro hiN
      obtain ⟨-, -, -, -, -, -, hk, -⟩ := hf i (by omega)
      exact hk (ih (by omega))
  have hpriv : ∀ i < N, (f i).priv < s.collab.handler.table.length := fun i hi => by
    obtain ⟨-, -, -, -, -, hp, -⟩ := hf i hi
    exact hp
  obtain ⟨a, b, hab, he⟩ := Fintype.exists_ne_map_eq_of_card_lt
    (fun i : Fin N => standCode _ s.cfg.queueCapacity (f i) (hpriv i i.isLt))
    (by rw [card_standCode, Fintype.card_fin]; exact hN)
  have he' : f a = f b := standCode_inj (hinv a a.isLt.le).bound (hinv b b.isLt.le).bound he
  have hne : a.val ≠ b.val := fun h => hab (Fin.ext h)
  rcases Nat.lt_or_gt_of_ne hne with hlt | hlt
  · rw [← h0]
    exact path_of_round hlt he' (fun k hk => hf k (hk.trans b.isLt)) n 0 (by omega)
  · rw [← h0]
    exact path_of_round hlt he'.symm (fun k hk => hf k (hk.trans a.isLt)) n 0 (by omega)

theorem standings_gt {s : State} (hb : s.queue.length ≤ s.cfg.queueCapacity) :
    s.collab.handler.table.length * 2 ^ 192 * (2 ^ 136 + 1) ^ s.cfg.queueCapacity < standings s := by
  unfold standings
  rw [Nat.max_eq_left hb]
  exact Nat.mul_lt_mul_of_pos_right (Nat.mul_lt_mul_of_pos_right (Nat.lt_succ_self _) (by positivity)) (by positivity)

/-- `goesOn` says exactly whether the advance would dispatch for ever. -/
theorem goesOn_iff {T : Cycle} {s : State} (hs : SchedInv s) (hf : s.fatal = none) :
    goesOn T { s with inDispatch := true } = true ↔ endless T s := by
  set s1 : State := { s with inDispatch := true } with hs1
  have hp : ∀ n, goesOnAfter n T s1 = true ↔ path T s1 n (standOf s1) := fun n =>
    goesOnAfter_iff_path (s := s1) (v := standOf s1) (ms := s1.collab.handler.heard) hf
  refine ⟨fun h n => (hp n).mpr ?_, fun h => h _⟩
  exact path_endless (s := s1) hs.fireInv (standings_gt (s := s1) hs.bound) ((hp _).mp h) n

/-! ### The advance as it is, and as it would be had sequence numbers no end -/

theorem issuePacket_outOfNumbers {p : Packet} {s : State} (hf : s.fatal = none) (h : outOfNumbers p s) :
    (issuePacket p s).fatal = some .cycleOverflow := by
  obtain ⟨hn, kind, fire, hd, h1, h2⟩ := h
  have he : scheduleError s.cfg.queueCapacity s.now s.queue s.nextSeq fire = some .cycleOverflow := by
    simp [scheduleError, BitVec.not_lt.mpr h1, h2, hn]
  simp [issuePacket, hd, runNested, runCommand, turnedAway, hf, permitted, nestedEffect, scheduleEffect, he]

/-- The two agree, or the one that has numbers runs out of them. -/
theorem issueUnlimited_sync {s : State} (p : Packet) (hf : s.fatal = none) :
    issueUnlimited p s = issuePacket p s ∨ (issuePacket p s).fatal = some .cycleOverflow := by
  by_cases h : outOfNumbers p s
  · exact .inr (issuePacket_outOfNumbers hf h)
  · exact .inl (issueUnlimited_of_not h)

theorem issueUnlimited_now (s : State) :
    issueUnlimited (encodePacket .schedNow) s = issuePacket (encodePacket .schedNow) s :=
  issueUnlimited_of_not fun ⟨_, _, _, h, _⟩ => by
    rw [show decode (encodePacket .schedNow) = .ok .schedNow by decide] at h; cases h

theorem scheduleIn_sync {s : State} (kind : Kind) (d : Cycle) (hf : s.fatal = none) :
    scheduleInWith issueUnlimited kind d s = scheduleInWith issuePacket kind d s ∨
      (scheduleInWith issuePacket kind d s).fatal = some .cycleOverflow := by
  unfold scheduleInWith scheduleAfter
  rw [issueUnlimited_now]
  split
  · exact .inl rfl
  · exact issueUnlimited_sync _ (issue_now_fatal hf)

theorem runScript_sync {ρ : Type} (a : Script ρ) {s : State} (hf : s.fatal = none) :
    runScriptWith issueUnlimited a s = runScriptWith issuePacket a s ∨
      (runScriptWith issuePacket a s).1.fatal = some .cycleOverflow := by
  induction a generalizing s with
  | done r => exact .inl rfl
  | issue p next ih =>
    simp only [runScriptWith]
    rcases issueUnlimited_sync p hf with h | h
    · rw [h]
      split
      · exact .inl rfl
      · exact ih (not_isSome ‹_›)
    · exact .inr (by simp [h])
  | scheduleIn k d next ih =>
    simp only [runScriptWith]
    rcases scheduleIn_sync k d hf with h | h
    · rw [h]
      split
      · exact .inl rfl
      · exact ih (not_isSome ‹_›)
    · exact .inr (by simp [h])
  | ifAnswered status data yes no ihy ihn => simp only [runScriptWith]; split; exacts [ihy hf, ihn hf]
  | ifKind k yes no ihy ihn => simp only [runScriptWith]; split; exacts [ihy hf, ihn hf]
  | ifFire t yes no ihy ihn => simp only [runScriptWith]; split; exacts [ihy hf, ihn hf]
  | ifPriv p q yes no ihy ihn => simp only [runScriptWith]; split; exacts [ihy hf, ihn hf]
  | ifHalted x yes no ihy ihn => simp only [runScriptWith]; split; exacts [ihy hf, ihn hf]

theorem dispatch_sync {kind : Kind} {fire : Cycle} {s : State} (hf : s.fatal = none) :
    dispatch issueUnlimited kind fire s = dispatch issuePacket kind fire s ∨
      ∃ t, dispatch issuePacket kind fire s = .ok t ∧ t.fatal = some .cycleOverflow := by
  unfold dispatch
  split
  · rename_i a _
    rcases runScript_sync a (s := calledState kind fire s) hf with h | h
    · left; unfold calledState at h; rw [h]
    · exact .inr ⟨_, rfl, by rw [handlerReturned_eq]; exact h⟩
  · exact .inl rfl

theorem advanceLoop_sync (fuel : Nat) (T : Cycle) (n : Nat) {s : State} (hf : s.fatal = none) :
    advanceLoop issueUnlimited fuel T n s = advanceLoop issuePacket fuel T n s ∨
      ∃ t m, advanceLoop issuePacket fuel T n s = .ok (t, m) ∧ t.fatal = some .cycleOverflow := by
  induction fuel generalizing n s with
  | zero => exact .inl rfl
  | succ fuel ih =>
    simp only [advanceLoop]
    split
    · exact .inl rfl
    · rename_i e rest _
      split
      · rcases dispatch_sync (kind := e.kind) (fire := e.fire) (s := { s with queue := rest, now := e.fire }) hf with h | ⟨t, h, ht⟩
        · rw [h]
          split
          · exact .inl rfl
          · split
            · exact .inl rfl
            · exact ih _ (not_isSome ‹_›)
        · exact .inr ⟨t, n, by rw [h]; simp [ht], ht⟩
      · exact .inl rfl

/-- The loop ends with nothing due, or with a fatal error (R145, R147). -/
theorem advanceLoop_not_due {T : Cycle} {s t : State} {m : Nat} (hs : SchedInv s) (hf : s.fatal = none)
    (h : advanceLoop issuePacket (dispatchBound s) T 0 s = .ok (t, m)) (ht : t.fatal = none) : isDue T t = false := by
  obtain ⟨-, fired, -, -, hend⟩ := advanceLoop_spec hf h
  have hnot := ((hend ht).2 hs).2.2 (Nat.le_refl _)
  unfold isDue
  cases hq : t.queue with
  | nil => rfl
  | cons e rest =>
    have := hnot e (by rw [hq]; simp)
    simpa using this

/-- advance_to has no end exactly where the advance would dispatch for ever had sequence numbers no end (R150), or the
handler never returns. -/
theorem advanceTo_neverEnds_iff {T : Cycle} {s : State} (hs : SchedInv s) (hd : s.inDispatch = false)
    (hf : s.fatal = none) : advanceTo T s = .error .advanceNeverEnds ↔ endless T s := by
  rw [← goesOn_iff hs hf]
  have hs1 : SchedInv { s with inDispatch := true } := ⟨hs.ordered, hs.future, hs.seqs, hs.distinct, hs.kinds, hs.bound⟩
  unfold advanceTo
  simp only [hd, Bool.false_eq_true, if_false]
  generalize hg : goesOn T { s with inDispatch := true } = g
  cases hl : advanceLoop issuePacket (dispatchBound s) T 0 { s with inDispatch := true } with
  | error f =>
    refine ⟨fun h => ?_, fun hgt => ?_⟩
    · exfalso
      simp only [Except.error.injEq] at h
      subst h
      clear hg hs1 hs
      have : ∀ fuel n (u : State), advanceLoop issuePacket fuel T n u ≠ .error .advanceNeverEnds := by
        intro fuel
        induction fuel with
        | zero => intro n u; simp [advanceLoop]
        | succ fuel ih =>
          intro n u
          simp only [advanceLoop]
          split
          · simp
          · split
            · split
              · rename_i f hd
                unfold dispatch at hd
                split at hd
                · cases hd
                · cases hd; simp
              · split
                · simp
                · exact ih _ _
            · simp
      exact this _ _ _ hl
    · subst hgt
      have := (goesOn_iff hs hf).mp hg (dispatchBound s)
      obtain ⟨t, m, h1, -⟩ := (goesOnAfter_iff 0).mp this
      rcases advanceLoop_sync (dispatchBound s) T 0 (s := { s with inDispatch := true }) hf with h | ⟨t, m, h, -⟩
      · rw [h, hl] at h1; cases h1
      · rw [hl] at h; cases h
  | ok p =>
    obtain ⟨u, n⟩ := p
    simp only
    refine ⟨fun h => ?_, fun hgt => ?_⟩
    · split at h
      · rename_i hc; exact hc.2
      · split at h <;> cases h
    · subst hgt
      have := (goesOn_iff hs hf).mp hg (dispatchBound s)
      obtain ⟨t, m, h1, h2, h3⟩ := (goesOnAfter_iff 0).mp this
      rcases advanceLoop_sync (dispatchBound s) T 0 (s := { s with inDispatch := true }) hf with h | ⟨t', m', h, h'⟩
      · rw [h] at h1
        have := advanceLoop_not_due hs1 hf h1 h2
        rw [h3] at this; cases this
      · rw [hl] at h
        obtain ⟨rfl, rfl⟩ := Prod.mk.inj (Except.ok.inj h)
        rw [if_pos ⟨h', rfl⟩]

/-! ### When an advance ends -/

/-- As many dispatches as a handler that moves on can still be given: up to m private states in which it is free, and then
at each cycle no more than are pending. -/
def dispatchesLeft (m cap : Nat) (v : Stand) : Nat :=
  (m - v.priv) * (2 ^ 64 * (cap + 1) + cap + 1) + (2 ^ 64 - v.now.toNat) * (cap + 1) + (eventsAt v.now v.queue).length

theorem issueUnlimited_other {p : Packet} {s : State} (h : isSchedule p = false) :
    issueUnlimited p s = issuePacket p s :=
  issueUnlimited_of_not fun ⟨_, _, _, hd, _⟩ => by rw [isSchedule_of_decode hd] at h; cases h

theorem deaf_ctx_now {f : State → State} {s : State} (h : deaf f s) :
    (f s).ctx = s.ctx ∧ (f s).now = s.now := by
  obtain ⟨q, n, g, c, m, -, he⟩ := h
  have := he s.collab.handler.heard
  rw [show hearing s.collab.handler.heard s = s from rfl] at this
  rw [this]
  exact ⟨rfl, rfl⟩

theorem schedule_eventsAt {k : Kind} {f : Cycle} {s : State} (hf : s.fatal = none) (hne : f ≠ s.now) :
    eventsAt s.now (issueUnlimited (encodePacket (.schedSchedule k f)) s).queue = eventsAt s.now s.queue := by
  have hins : ∀ n, eventsAt s.now (insertEvent ⟨f, k, n⟩ s.queue) = eventsAt s.now s.queue :=
    fun n => filter_insertEvent (e := ⟨f, k, n⟩) hne
  by_cases hw : kindWellFormed k = true
  · have hd : decode (encodePacket (.schedSchedule k f)) = .ok (.schedSchedule k f) := by
      rw [decode_schedule_packet, if_pos hw]
    by_cases hc : outOfNumbers (encodePacket (.schedSchedule k f)) s
    · obtain ⟨hn, kind, fire, hd', h1, h2⟩ := hc
      rw [hd] at hd'
      obtain ⟨rfl, rfl⟩ := Instr.schedSchedule.inj (Except.ok.inj hd')
      rw [issueUnlimited_of hn hd h1 h2]
      simpa [scheduleUnnumbered] using hins lastSeq
    · rw [issueUnlimited_of_not hc]
      simp only [issuePacket, hd, runNested, runCommand, turnedAway, hf, permitted, nestedEffect, if_true]
      rcases scheduleEffect_cases k f s with ⟨c, e⟩ | ⟨-, -, -, e⟩
      · rw [e]; simp
      · rw [e]; simpa using hins _
  · have hd : ∃ e, decode (encodePacket (.schedSchedule k f)) = .error e := ⟨_, by
      rw [decode_schedule_packet, if_neg hw]⟩
    obtain ⟨e, hd⟩ := hd
    simp [issueUnlimited, issuePacket, hd, answerReserved, hf]

theorem eventsAt_length_le (c : Cycle) (q : List Event) : (eventsAt c q).length ≤ q.length := List.length_filter_le _ _

/-- Each dispatch of a handler that moves on uses up one. -/
theorem nextStand.left {T : Cycle} {s : State} {v v' : Stand} {m : Nat} (h : nextStand T s v v')
    (hi : FireInv v.now s.cfg.queueCapacity v.queue) (hf : s.fatal = none)
    (hm : ∀ (i : Nat) (a : Script Nat), s.collab.handler.table[i]? = some a →
      rowMovesOn m s.collab.handler.table.length i a = true) :
    dispatchesLeft m s.cfg.queueCapacity v' + 1 ≤ dispatchesLeft m s.cfg.queueCapacity v := by
  obtain ⟨e, rest, ext, hq, hT, -, hfit, hd⟩ := h
  have hi' := hfit hi
  obtain ⟨a, ha, heq⟩ := dispatch_eq_ok.mp (hd [])
  have hrow := hm _ a ha
  have hrow : rowMovesOn m s.collab.handler.table.length v.priv a = true := hrow
  set b := calledState e.kind e.fire { stood v [] s with queue := rest, now := e.fire } with hb
  have hbf : b.fatal = none := hf
  have hbc : b.ctx = .handler := rfl
  obtain ⟨u, r, hu⟩ : ∃ u r, runScriptWith issueUnlimited a b = (u, r) := ⟨_, _, rfl⟩
  rw [hu, handlerReturned_eq] at heq
  have hfu : u.fatal = none := by
    have := congrArg State.fatal heq
    exact this.symm.trans hf
  have hsome : r.isSome = true := by
    have := (runScriptWith_result (issue := issueUnlimited) a hbf)
    rw [hu] at this
    exact this.mpr hfu
  obtain ⟨q, rfl⟩ := Option.isSome_iff_exists.mp hsome
  have hpriv : v'.priv = q := congrArg (fun t => t.collab.handler.priv) heq
  have hqueue : v'.queue = u.queue := congrArg State.queue heq
  have hunow : u.now = e.fire := by
    have := runScriptWith_induction (issue := issueUnlimited) (fun s t => t.now = s.now) .handler (fun _ => rfl)
      (fun _ _ _ h h' => h'.trans h) (fun p t ht => (deaf_ctx_now (deaf_issueUnlimited p ht)).1.trans ht)
      (fun t _ htf => by rw [issueUnlimited_now]; exact issue_now_fatal htf)
      (fun p t ht _ => (deaf_ctx_now (deaf_issueUnlimited p ht)).2) (fun t _ _ => by simp) a hbc hbf
    rw [hu] at this
    exact this
  have hnow : v'.now = e.fire := (congrArg State.now heq).trans hunow
  have hen : v.now ≤ e.fire := hi.future e (by rw [hq]; simp)
  have hcap := hi'.bound
  have hlen := (eventsAt_length_le v'.now v'.queue).trans hcap
  unfold dispatchesLeft
  rw [hpriv]
  unfold rowMovesOn at hrow
  split at hrow
  · rename_i hvm
    have hret := runScriptWith_returns a hrow hu
    simp only [decide_eq_true_eq] at hret
    have hmul : (m - q + 1) * (2 ^ 64 * (s.cfg.queueCapacity + 1) + s.cfg.queueCapacity + 1) ≤
        (m - v.priv) * (2 ^ 64 * (s.cfg.queueCapacity + 1) + s.cfg.queueCapacity + 1) :=
      Nat.mul_le_mul_right _ (by omega)
    have hmul2 : (2 ^ 64 - v'.now.toNat) * (s.cfg.queueCapacity + 1) ≤ 2 ^ 64 * (s.cfg.queueCapacity + 1) :=
      Nat.mul_le_mul_right _ (by omega)
    rw [Nat.add_mul] at hmul
    omega
  · rename_i hvm
    rw [Bool.and_eq_true] at hrow
    have hret := runScriptWith_returns a hrow.2 hu
    simp only [decide_eq_true_eq] at hret
    have hat := runScriptWith_eventsAt .handler (fun p t ht => (deaf_ctx_now (deaf_issueUnlimited p ht)).1.trans ht)
      (fun p t ht => (deaf_ctx_now (deaf_issueUnlimited p ht)).2)
      (fun t _ htf => by rw [issueUnlimited_now]; exact issue_now_fatal htf)
      (fun p t _ hp => by rw [issueUnlimited_other hp]; exact issuePacket_queue hp t)
      (fun k f t ht htf hne => schedule_eventsAt htf hne) a hrow.1 hbc hbf
    rw [hu] at hat
    have hat : eventsAt e.fire u.queue = eventsAt e.fire rest := hat
    rw [show m - q = 0 by omega, show m - v.priv = 0 by omega, hnow, hqueue, hat, hq]
    rcases cycle_lt_or_eq hen with hlt | heq'
    · rw [BitVec.lt_def] at hlt
      have hl2 : (eventsAt e.fire rest).length ≤ s.cfg.queueCapacity := by
        have := eventsAt_length_le e.fire rest
        have := hi.bound; rw [hq, List.length_cons] at this
        omega
      have := e.fire.isLt
      have hmul : (2 ^ 64 - e.fire.toNat + 1) * (s.cfg.queueCapacity + 1) ≤
          (2 ^ 64 - v.now.toNat) * (s.cfg.queueCapacity + 1) := Nat.mul_le_mul_right _ (by omega)
      rw [Nat.add_mul] at hmul
      omega
    · rw [heq', show (eventsAt e.fire (e :: rest)) = e :: eventsAt e.fire rest by simp [eventsAt]]
      simp only [List.length_cons]
      omega

/-- The advance of a handler that moves on does not go on for ever. -/
theorem path_le {T : Cycle} {s : State} {v : Stand} {m n : Nat} (h : path T s n v)
    (hi : FireInv v.now s.cfg.queueCapacity v.queue) (hf : s.fatal = none)
    (hm : ∀ (i : Nat) (a : Script Nat), s.collab.handler.table[i]? = some a →
      rowMovesOn m s.collab.handler.table.length i a = true) : n ≤ dispatchesLeft m s.cfg.queueCapacity v := by
  induction n generalizing v with
  | zero => exact Nat.zero_le _
  | succ n ih =>
    obtain ⟨v', hv, hp⟩ := h
    have hi' : FireInv v'.now s.cfg.queueCapacity v'.queue := by
      obtain ⟨-, -, -, -, -, -, hfit, -⟩ := hv
      exact hfit hi
    exact (Nat.succ_le_succ (ih hp hi')).trans (hv.left hi hf hm)

theorem not_goesOn_of_movesOn {T : Cycle} {s : State} (hs : SchedInv s) (hf : s.fatal = none)
    (hm : handlerMovesOn s.collab.handler = true) : ¬goesOn T { s with inDispatch := true } = true := by
  rw [goesOn_iff hs hf]
  intro h
  obtain ⟨-, m, -, hrows⟩ := handlerMovesOn_iff.mp hm
  set s1 : State := { s with inDispatch := true } with hs1
  have := path_le (s := s1) ((goesOnAfter_iff_path (s := s1) (v := standOf s1) (ms := s1.collab.handler.heard) hf).mp
    (h (dispatchesLeft m s.cfg.queueCapacity (standOf s1) + 1))) hs.fireInv hf hrows
  exact absurd this (Nat.not_succ_le_self _)

/-- The loop returns whenever the handler does. -/
theorem advanceLoop_ends (fuel : Nat) (T : Cycle) (n : Nat) (s : State) (hf : s.fatal = none)
    (hm : handlerMovesOn s.collab.handler = true) : ∃ t m, advanceLoop issuePacket fuel T n s = .ok (t, m) := by
  induction fuel generalizing n s with
  | zero => exact ⟨_, _, rfl⟩
  | succ fuel ih =>
    simp only [advanceLoop]
    cases hq : s.queue with
    | nil => exact ⟨_, _, rfl⟩
    | cons e rest =>
      simp only
      split
      · cases hd : dispatch issuePacket e.kind e.fire { s with queue := rest, now := e.fire } with
        | error f =>
          exfalso
          unfold dispatch at hd
          have := (handlerMovesOn_iff.mp hm).1
          simp only [List.getElem?_eq_getElem this] at hd
          cases hd
        | ok s' =>
          obtain ⟨hrel, -⟩ := dispatch_spec hq hf hd
          simp only
          split
          · exact ⟨_, _, rfl⟩
          · exact ih _ _ (not_isSome ‹_›) (hrel.moves hm)
      · exact ⟨_, _, rfl⟩

/-- advance_to ends whenever the handler moves on. -/
theorem advanceTo_ends (T : Cycle) (s : State) (hs : SchedInv s) (hf : s.fatal = none)
    (hm : handlerMovesOn s.collab.handler = true) : ∃ t m, advanceTo T s = .ok (t, m) := by
  unfold advanceTo
  split
  · exact ⟨_, _, rfl⟩
  · obtain ⟨t, m, h⟩ := advanceLoop_ends (dispatchBound s) T 0 { s with inDispatch := true } hf hm
    have hg := not_goesOn_of_movesOn (T := T) hs hf hm
    rw [h]; simp only
    rw [if_neg fun hc => hg hc.2]
    split <;> exact ⟨_, _, rfl⟩

end Sys2Proof.Machine
end

