-- ==== Sys2Proof/Laws/Clock.lean ====
section
/-! SUPPORT. Everything a CPU step, the SLOW loop, an orchestration step and a run can do (44_clock.md R231 to R242). -/

namespace Sys2Proof.Machine

open Sys2Proof

/-- What any stretch of CPU steps does beside moving time and L: the configuration, the context and the port stay, the
collaborators go on returning, the trace grows, and the invariants are kept. -/
structure ClockRel (s t : State) : Prop where
  cfg : t.cfg = s.cfg
  inDispatch : t.inDispatch = s.inDispatch
  regions : t.regions = s.regions
  ctx : t.ctx = s.ctx
  host : t.host = s.host
  returns : collabReturns s = true → collabReturns t = true
  trace : s.trace <+: t.trace
  seqLe : s.nextSeq ≤ t.nextSeq
  nowLe : SchedInv s → s.now ≤ t.now
  sched : SchedInv s → SchedInv t
  memory : memoryWf s.cfg s.backing = true → memoryWf t.cfg t.backing = true

theorem ClockRel.refl (s : State) : ClockRel s s :=
  ⟨rfl, rfl, rfl, rfl, rfl, id, List.prefix_rfl, BitVec.le_refl _, fun _ => BitVec.le_refl _, id, id⟩

theorem ClockRel.trans {s t u : State} (h : ClockRel s t) (h' : ClockRel t u) : ClockRel s u :=
  ⟨h'.cfg.trans h.cfg, h'.inDispatch.trans h.inDispatch, h'.regions.trans h.regions, h'.ctx.trans h.ctx,
    h'.host.trans h.host, fun hr => h'.returns (h.returns hr), h.trace.trans h'.trace,
    BitVec.le_trans h.seqLe h'.seqLe, fun hs => BitVec.le_trans (h.nowLe hs) (h'.nowLe (h.sched hs)),
    fun hs => h'.sched (h.sched hs), fun hm => h'.memory (h.memory hm)⟩

/-- Time, L and FATAL are not looked at. -/
theorem ClockRel.times {s t : State} (h : ClockRel s t) (f : Option FatalCode) (a b l : Cycle) :
    ClockRel s { t with fatal := f, tFast := a, tSlow := b, lead := l } :=
  ⟨h.cfg, h.inDispatch, h.regions, h.ctx, h.host, h.returns, h.trace, h.seqLe, h.nowLe,
    fun hs => have := h.sched hs; ⟨this.ordered, this.future, this.seqs, this.distinct, this.kinds, this.bound⟩, h.memory⟩

/-- The collaborators go on returning while their tables stay and each stands in a private state with a row. -/
theorem collabReturns_congr {s t : State} (hh : t.collab.handler.table = s.collab.handler.table)
    (hc : ∀ x, (cpuCollab x t).table = (cpuCollab x s).table)
    (hp : t.collab.handler.priv < t.collab.handler.table.length)
    (hq : ∀ x, (cpuCollab x t).priv < (cpuCollab x t).table.length) (h : collabReturns s = true) :
    collabReturns t = true := by
  have hl : ∀ x, leavesRows x t.collab = leavesRows x s.collab := fun x => funext fun r => by
    have h1 := hc x
    have h2 := hc x.other
    unfold cpuCollab at h1 h2
    unfold leavesRows; rw [h1, h2, hh]
  have hr : ∀ x, cpuReturns x s.collab = true → cpuReturns x t.collab = true := fun x hx => by
    have h1 := hc x
    have h2 := hq x
    unfold cpuCollab at h1 h2
    unfold cpuReturns at hx ⊢
    rw [Bool.and_eq_true] at hx ⊢
    exact ⟨decide_eq_true h2, by rw [h1, hl]; exact hx.2⟩
  unfold collabReturns at h ⊢
  rw [Bool.and_eq_true, Bool.and_eq_true] at h ⊢
  refine ⟨⟨?_, hr .fast h.1.2⟩, hr .slow h.2⟩
  have h1 := h.1.1
  unfold handlerMovesOn at h1 ⊢
  rw [Bool.and_eq_true] at h1 ⊢
  exact ⟨decide_eq_true hp, by rw [hh]; exact h1.2⟩

theorem collabReturns_handler {s : State} (h : collabReturns s = true) : handlerMovesOn s.collab.handler = true := by
  simp only [collabReturns, Bool.and_eq_true] at h; exact h.1.1

theorem collabReturns_cpu {s : State} (h : collabReturns s = true) (x : Cpu) :
    (cpuCollab x s).priv < (cpuCollab x s).table.length ∧
      ∀ a ∈ (cpuCollab x s).table, returnsAll (leavesRows x s.collab) a = true := by
  have hx : cpuReturns x s.collab = true := by
    simp only [collabReturns, Bool.and_eq_true] at h
    cases x
    exacts [h.1.2, h.2]
  simpa [cpuReturns, cpuCollab] using hx

theorem table_of_rest {s t : State} {x : Cpu} (h : cpuRest x t = cpuRest x s) :
    (cpuCollab x t).table = (cpuCollab x s).table ∧ (cpuCollab x t).priv = (cpuCollab x s).priv := by
  simp only [cpuRest, Prod.mk.injEq] at h
  exact ⟨h.2.2, h.2.1⟩

/-- What leaves the private states where they have rows. -/
theorem collabReturns_of_rest {s t : State} (hh : t.collab.handler.table = s.collab.handler.table)
    (hm : handlerMovesOn s.collab.handler = true → handlerMovesOn t.collab.handler = true)
    (hr : ∀ x, cpuRest x t = cpuRest x s) (h : collabReturns s = true) : collabReturns t = true :=
  collabReturns_congr hh (fun x => (table_of_rest (hr x)).1)
    (handlerMovesOn_iff.mp (hm (collabReturns_handler h))).1
    (fun x => by rw [(table_of_rest (hr x)).1, (table_of_rest (hr x)).2]; exact (collabReturns_cpu h x).1) h

theorem ClockRel.of_advance {s t : State} (h : AdvanceRel s t) : ClockRel s t where
  cfg := h.cfg
  inDispatch := h.inDispatch
  regions := h.regions
  ctx := h.ctx
  host := h.host
  returns := collabReturns_of_rest h.table h.moves h.rest
  trace := by rw [h.limits.trace]
  seqLe := h.seqLe
  nowLe := h.nowLe
  sched := h.sched
  memory hm := by rw [h.limits.backing, h.cfg]; exact hm

theorem ClockRel.of_collab {s t : State} (h : CollabRel s t) : ClockRel s t where
  cfg := h.cfg
  inDispatch := h.inDispatch
  regions := h.regions
  ctx := h.ctx
  host := h.host
  returns := collabReturns_of_rest h.table (fun hm => by
    unfold handlerMovesOn at hm ⊢; rw [h.priv, h.table]; exact hm) h.rest
  trace := h.trace
  seqLe := h.seqLe
  nowLe _ := by rw [h.now]; exact BitVec.le_refl _
  sched := h.sched
  memory := h.memory

/-- A CPU step that leaves every collaborator a row leaves them returning. -/
theorem collabReturns_cpuReturned {x : Cpu} {r : CpuReturn} {s : State} (h : collabReturns s = true)
    (hr : leavesRows x s.collab r = true) : collabReturns (cpuReturned x r s) = true := by
  simp only [leavesRows, Bool.and_eq_true, decide_eq_true_eq] at hr
  obtain ⟨⟨h1, h2⟩, h3⟩ := hr
  have hd : r.devices.getD s.collab.handler.priv < s.collab.handler.table.length := by
    cases hx : r.devices with
    | none => exact (handlerMovesOn_iff.mp (collabReturns_handler h)).1
    | some q => simpa [hx] using h2
  have ho : r.other.getD (cpuCollab x.other s).priv < (cpuCollab x.other s).table.length := by
    cases hx : r.other with
    | none => exact (collabReturns_cpu h x.other).1
    | some q => simpa [hx, cpuCollab] using h3
  have hcase : ∀ y, y = x ∨ y = x.other := fun y => by cases x <;> cases y <;> simp [Cpu.other]
  refine collabReturns_congr (s := s) (by simp) (fun y => ?_) (by simpa using hd) (fun y => ?_) h
  · rcases hcase y with rfl | rfl <;> simp
  · rcases hcase y with rfl | rfl
    · rw [cpuReturned_same]; exact h1
    · rw [cpuReturned_other]; exact ho

/-! ### One CPU step -/

/-- Everything one instruction of CPU x can do to the block (R231): nothing is left of its context, time stands, and
the other CPU is out of reach. -/
theorem executeInstruction_spec {x : Cpu} {s t : State} {r : Option Word} (hf : s.fatal = none)
    (h : executeInstruction x s = .ok (t, r)) :
    ClockRel s t ∧ t.now = s.now ∧ t.tFast = s.tFast ∧ t.tSlow = s.tSlow ∧ t.lead = s.lead ∧ CpuLimits x s t ∧
      callsOf t.collab.handler.heard = callsOf s.collab.handler.heard ∧
      (r.isSome = true ↔ t.fatal = none) := by
  unfold executeInstruction at h
  split at h
  · injection h with h
    obtain ⟨rfl, rfl⟩ := Prod.mk.inj h
    exact ⟨.refl s, rfl, rfl, rfl, rfl, .of_handler x (.refl s), rfl, by simp [hf]⟩
  · unfold runCpu at h
    cases ha : (cpuCollab x s).table[(cpuCollab x s).priv]? with
    | none => rw [ha] at h; simp at h
    | some a =>
      rw [ha] at h
      simp only at h
      set s1 := setCpuCollab x { cpuCollab x s with halted := false } { s with ctx := .cpu x } with hs1
      have hctx : s1.ctx = .cpu x := rfl
      have hf1 : s1.fatal = none := hf
      have hrel := CollabRel.runScript a (by rw [hctx]; simp : s1.ctx ≠ .host) hf1
      have hlim := CpuLimits.runScript x a hctx hf1
      have hres := runScriptWith_result (issue := issuePacket) a hf1
      have hin : ∀ u : State, ClockRel s1 u → ClockRel s { u with ctx := s.ctx } := fun u hu =>
        { hu with
          ctx := rfl
          returns := fun hr => hu.returns (collabReturns_congr (s := s) (t := s1) rfl
            (fun y => by rw [hs1]; cases x <;> cases y <;> rfl)
            (handlerMovesOn_iff.mp (collabReturns_handler hr)).1
            (fun y => by have := (collabReturns_cpu hr y).1; rw [hs1]; cases x <;> cases y <;> exact this) hr)
          nowLe := fun hs => hu.nowLe ⟨hs.ordered, hs.future, hs.seqs, hs.distinct, hs.kinds, hs.bound⟩
          sched := fun hs => by
            have := hu.sched ⟨hs.ordered, hs.future, hs.seqs, hs.distinct, hs.kinds, hs.bound⟩
            exact ⟨this.ordered, this.future, this.seqs, this.distinct, this.kinds, this.bound⟩ }
      have hcr := ClockRel.of_collab hrel
      split at h
      · rename_i u he
        injection h with h
        obtain ⟨rfl, rfl⟩ := Prod.mk.inj h
        unfold runScript at he hrel hlim hcr
        rw [he] at hrel hlim hres hcr
        refine ⟨hin u hcr, hrel.now, hrel.tFast, hrel.tSlow, hrel.lead, ⟨hlim.ie, hlim.ime, hlim.last, hlim.latches⟩,
          hrel.calls, ?_⟩
        simpa using hres
      · rename_i u rr he
        injection h with h
        obtain ⟨rfl, rfl⟩ := Prod.mk.inj h
        unfold runScript at he hrel hlim hcr
        have hret := @runScriptWith_returns CpuReturn issuePacket (leavesRows x u.collab) a s1 u rr
        rw [he] at hrel hlim hres hcr
        refine ⟨hin (cpuReturned x rr u) ?_, hrel.now, hrel.tFast, hrel.tSlow, hrel.lead,
          ⟨hlim.ie, hlim.ime, hlim.last, hlim.latches⟩, hrel.calls, ?_⟩
        · exact { hcr with
            returns := fun hr => by
              have hu := hcr.returns hr
              have htab : (cpuCollab x u).table = (cpuCollab x s).table :=
                (table_of_rest (hrel.rest x)).1.trans (by rw [hs1]; cases x <;> rfl)
              exact collabReturns_cpuReturned hu
                (hret ((collabReturns_cpu hu x).2 a (by rw [htab]; exact List.mem_of_getElem? ha)) he)
            sched := fun hs => have := hcr.sched hs; ⟨this.ordered, this.future, this.seqs, this.distinct, this.kinds, this.bound⟩ }
        · simpa using hres

/-- An instruction ends whenever its collaborator returns (44_clock.md R241). -/
theorem executeInstruction_ends (x : Cpu) (s : State) (ht : collabReturns s = true) :
    ∃ t r, executeInstruction x s = .ok (t, r) := by
  unfold executeInstruction
  split
  · exact ⟨_, _, rfl⟩
  · unfold runCpu
    rw [List.getElem?_eq_getElem (collabReturns_cpu ht x).1]
    simp only
    split <;> exact ⟨_, _, rfl⟩

/-- CPU x's time moved on by c (R231). -/
def timeMoved (x : Cpu) (c : Word) (s t : State) : Prop :=
  match x with
  | .fast => t.tFast.toNat = s.tFast.toNat + c.toNat ∧ t.tSlow = s.tSlow
  | .slow => t.tSlow.toNat = s.tSlow.toNat + c.toNat ∧ t.tFast = s.tFast ∧ 2 * t.tSlow.toNat < 2 ^ 64

theorem toNat_ofNat_of_lt {n : Nat} (h : n < 2 ^ 64) : (BitVec.ofNat 64 n).toNat = n := by
  rw [BitVec.toNat_ofNat]; exact Nat.mod_eq_of_lt h

theorem addCost_fast (c : Word) (s : State) : addCost .fast c s =
    if 2 ^ 64 ≤ s.tFast.toNat + c.toNat then none
    else some { s with tFast := BitVec.ofNat 64 (s.tFast.toNat + c.toNat) } := rfl

theorem addCost_slow (c : Word) (s : State) : addCost .slow c s =
    if 2 ^ 64 ≤ 2 * (s.tSlow.toNat + c.toNat) then none
    else some { s with tSlow := BitVec.ofNat 64 (s.tSlow.toNat + c.toNat) } := rfl

theorem addCost_cases (x : Cpu) (c : Word) (s : State) :
    addCost x c s = none ∨
    ∃ a b, addCost x c s = some { s with tFast := a, tSlow := b } ∧ timeMoved x c s { s with tFast := a, tSlow := b } := by
  cases x
  · by_cases h : 2 ^ 64 ≤ s.tFast.toNat + c.toNat
    · exact .inl (if_pos h)
    · exact .inr ⟨_, _, if_neg h, toNat_ofNat_of_lt (by omega), rfl⟩
  · by_cases h : 2 ^ 64 ≤ clockRatio * (s.tSlow.toNat + c.toNat)
    · exact .inl (if_pos h)
    · simp only [clockRatio] at h
      have e : (BitVec.ofNat 64 (s.tSlow.toNat + c.toNat)).toNat = s.tSlow.toNat + c.toNat :=
        toNat_ofNat_of_lt (by omega)
      refine .inr ⟨_, _, if_neg h, e, rfl, ?_⟩
      show 2 * (BitVec.ofNat 64 (s.tSlow.toNat + c.toNat)).toNat < 2 ^ 64
      omega

theorem finishStep_cases (x : Cpu) (c : Word) (s : State) :
    (∃ d, finishStep x c s = (setFatal d s, none)) ∨
    (c ≠ 0 ∧ ∃ a b, finishStep x c s = ({ s with tFast := a, tSlow := b }, some c) ∧
      timeMoved x c s { s with tFast := a, tSlow := b }) := by
  unfold finishStep
  split
  · exact .inl ⟨_, rfl⟩
  · rename_i hc
    rcases addCost_cases x c s with h | ⟨a, b, h, hm⟩
    · exact .inl ⟨.cycleOverflow, by rw [h]⟩
    · exact .inr ⟨hc, a, b, by rw [h], hm⟩

/-- An advance with nothing pending only raises `now`. -/
theorem advanceTo_nothing {T : Cycle} {s : State} (hd : s.inDispatch = false) (hf : s.fatal = none)
    (hq : s.queue = []) : advanceTo T s = .ok (raiseNow T s, 0) := by
  have hl : advanceLoop issuePacket (dispatchBound s) T 0 { s with inDispatch := true } =
      .ok ({ s with inDispatch := true }, 0) := by
    cases dispatchBound s <;> simp [advanceLoop, hq]
  simp only [advanceTo, hd, Bool.false_eq_true, if_false]
  rw [hl]
  simp only [hf, Option.isSome_none, Bool.false_eq_true, if_false, raiseNow, reduceCtorEq, false_and]
  rw [← hd]

/-- A quiet CPU's instruction changes nothing (R232). -/
theorem executeInstruction_quiet {x : Cpu} {c : Word} {s : State} (h : quietCpu x c s) :
    executeInstruction x s = .ok (s, some c) := by
  rcases h with ⟨h1, h2, rfl⟩ | ⟨h1, h2⟩
  · simp [executeInstruction, h1, h2]
  · have hh : ((cpuCollab x s).halted && !wakes x s) = false := by simp [h1]
    simp only [executeInstruction, hh, Bool.false_eq_true, if_false, runCpu, h2, runScript, runScriptWith]
    cases x <;> simp [cpuReturned, Cpu.other, setCpuCollab, cpuCollab, perCpu, setPerCpu] at h1 ⊢ <;> rw [← h1]

/-- Everything cpu_step can do (R231): on a fatal error the times stand; else x's time moves on by a cost that is not 0,
and the scheduler stood at x's start time, if it was not past it (R237). -/
theorem cpuStep_spec {x : Cpu} {s t : State} {r : Option Word} (hd : s.inDispatch = false) (hf : s.fatal = none)
    (h : cpuStep x s = .ok (t, r)) :
    ClockRel s t ∧ t.lead = s.lead ∧
      (r = none → t.fatal.isSome = true ∧ t.tFast = s.tFast ∧ t.tSlow = s.tSlow) ∧
      (∀ c, r = some c → t.fatal = none ∧ c ≠ 0 ∧ timeMoved x c s t ∧
        (SchedInv s → t.now = if s.now < absTime x s then absTime x s else s.now)) := by
  unfold cpuStep at h
  cases ha : advanceTo (absTime x s) s with
  | error f => rw [ha] at h; simp at h
  | ok p =>
    obtain ⟨s1, n⟩ := p
    rw [ha] at h
    simp only at h
    obtain ⟨hadv, fired, -, -, hend⟩ := advanceTo_spec hd hf ha
    have hc1 := ClockRel.of_advance hadv
    split at h
    · rename_i hfat
      injection h with h
      obtain ⟨rfl, rfl⟩ := Prod.mk.inj h
      exact ⟨hc1, hadv.lead, fun _ => ⟨hfat, hadv.tFast, hadv.tSlow⟩, by simp⟩
    · rename_i hnf
      have hf1 := not_isSome hnf
      cases he : executeInstruction x s1 with
      | error f => rw [he] at h; simp at h
      | ok q =>
        obtain ⟨s2, r2⟩ := q
        rw [he] at h
        obtain ⟨hc2, hnow, htf, hts, hlead, -, -, hres⟩ := executeInstruction_spec hf1 he
        cases r2 with
        | none =>
          simp only at h
          injection h with h
          obtain ⟨rfl, rfl⟩ := Prod.mk.inj h
          refine ⟨hc1.trans hc2, hlead.trans hadv.lead, fun _ => ⟨?_, htf.trans hadv.tFast, hts.trans hadv.tSlow⟩, by simp⟩
          cases hh : s2.fatal with
          | none => simp [hh] at hres
          | some c => rfl
        | some c =>
          simp only at h
          injection h with h
          have hf2 : s2.fatal = none := hres.mp rfl
          rcases finishStep_cases x c s2 with ⟨d, e⟩ | ⟨hc0, a, b, e, hm⟩
          · rw [e] at h
            obtain ⟨rfl, rfl⟩ := Prod.mk.inj h
            exact ⟨(hc1.trans hc2).times _ _ _ _, hlead.trans hadv.lead,
              fun _ => ⟨rfl, htf.trans hadv.tFast, hts.trans hadv.tSlow⟩, by simp⟩
          · rw [e] at h
            obtain ⟨rfl, rfl⟩ := Prod.mk.inj h
            refine ⟨(hc1.trans hc2).times _ _ _ _, hlead.trans hadv.lead, by simp, ?_⟩
            rintro c' hc'
            obtain rfl : c = c' := by simpa using hc'
            refine ⟨hf2, hc0, ?_, fun hs => ?_⟩
            · cases x
              · exact ⟨by rw [hm.1, htf, hadv.tFast], by rw [hm.2, hts, hadv.tSlow]⟩
              · exact ⟨by rw [hm.1, hts, hadv.tSlow], by rw [hm.2.1, htf, hadv.tFast], hm.2.2⟩
            · show s2.now = _
              rw [hnow, ((hend hf1).2 hs).1]

/-- A CPU step ends whenever the collaborators return. -/
theorem cpuStep_ends (x : Cpu) (s : State) (hs : SchedInv s) (hd : s.inDispatch = false) (hf : s.fatal = none)
    (hr : collabReturns s = true) : ∃ t r, cpuStep x s = .ok (t, r) := by
  obtain ⟨s1, n, ha⟩ := advanceTo_ends (absTime x s) s hs hf (collabReturns_handler hr)
  have hrel := ClockRel.of_advance (advanceTo_spec hd hf ha).1
  unfold cpuStep
  rw [ha]; simp only
  split
  · exact ⟨_, _, rfl⟩
  · obtain ⟨s2, r, he⟩ := executeInstruction_ends x s1 (hrel.returns hr)
    rw [he]
    cases r <;> exact ⟨_, _, rfl⟩

/-! ### The SLOW loop and the orchestration step -/

/-- The part of the machine's invariant about time and L, as it stands inside an orchestration step. -/
structure LeadInv (s : State) : Prop where
  leadEq : s.lead.toInt = (s.tFast.toNat : Int) - 2 * (s.tSlow.toNat : Int)
  leadLow : -(2 ^ 33) < s.lead.toInt
  leadHigh : s.lead.toInt < 2 ^ 32
  slowTime : 2 * s.tSlow.toNat < 2 ^ 64

theorem word_pos {c : Word} (h : c ≠ 0) : 0 < c.toNat := by
  rcases Nat.eq_zero_or_pos c.toNat with h' | h'
  · exact absurd (BitVec.eq_of_toNat_eq (by simpa using h')) h
  · exact h'

/-- L after `subLead`, where it does not leave 64 bits (R233 step 3). -/
theorem subLead_toInt {c : Word} {s : State} (h0 : 0 ≤ s.lead.toInt) :
    (subLead c s).lead.toInt = s.lead.toInt - 2 * c.toNat := by
  have hc := c.isLt
  have hlt := BitVec.toInt_lt (x := s.lead)
  have hcw : (BitVec.ofNat 64 (clockRatio * c.toNat)).toInt = 2 * c.toNat := by
    rw [BitVec.toInt_eq_toNat_bmod, toNat_ofNat_of_lt (by simp only [clockRatio]; omega), Int.bmod_def]
    norm_num [clockRatio]
    omega
  rw [subLead_lead, BitVec.toInt_sub, hcw]
  simp only [Int.bmod_def] at *
  norm_num at *
  omega

/-- L after `addLead`, where it does not leave 64 bits (R233 step 2). -/
theorem addLead_toInt {c : Word} {s : State} (h0 : s.lead.toInt ≤ 0) :
    (addLead c s).lead.toInt = s.lead.toInt + c.toNat := by
  have hc := c.isLt
  have hge := BitVec.le_toInt (x := s.lead)
  have hcw : (c.setWidth 64).toInt = c.toNat := by
    rw [BitVec.toInt_eq_toNat_bmod, BitVec.toNat_setWidth, Int.bmod_def]
    norm_num
    omega
  rw [addLead_lead, BitVec.toInt_add, hcw]
  simp only [Int.bmod_def] at *
  norm_num at *
  omega

theorem LeadInv.congr {s t : State} (h : LeadInv s) (hf : t.tFast = s.tFast) (hs : t.tSlow = s.tSlow)
    (hl : t.lead = s.lead) : LeadInv t :=
  ⟨by rw [hf, hs, hl]; exact h.leadEq, by rw [hl]; exact h.leadLow, by rw [hl]; exact h.leadHigh,
    by rw [hs]; exact h.slowTime⟩

theorem ClockRel.lead {s t : State} (h : ClockRel s t) (l : Cycle) : ClockRel s { t with lead := l } :=
  h.times t.fatal t.tFast t.tSlow l

theorem SchedInv.lead {s : State} (h : SchedInv s) (l : Cycle) : SchedInv { s with lead := l } :=
  ⟨h.ordered, h.future, h.seqs, h.distinct, h.kinds, h.bound⟩

theorem absTime_slow_toNat {s : State} (h : LeadInv s) : (absTime .slow s).toNat = 2 * s.tSlow.toNat := by
  have := h.slowTime
  exact toNat_ofNat_of_lt this

/-- One SLOW step of the loop: L falls by R times its cost, and the invariant stays (R233 step 3). -/
theorem slowStep_spec {s t : State} {c : Word} (hd : s.inDispatch = false) (hf : s.fatal = none) (hi : LeadInv s)
    (hl : 0 ≤ s.lead.toInt) (h : cpuStep .slow s = .ok (t, some c)) :
    ClockRel s (subLead c t) ∧ LeadInv (subLead c t) ∧ (subLead c t).fatal = none ∧
      (subLead c t).tFast = s.tFast ∧ (subLead c t).tSlow.toNat = s.tSlow.toNat + c.toNat ∧
      (subLead c t).lead.toInt = s.lead.toInt - 2 * c.toNat ∧ 0 < c.toNat ∧
      (SchedInv s → onTime s → onTime (subLead c t)) := by
  obtain ⟨hrel, hlead, -, hok⟩ := cpuStep_spec hd hf h
  obtain ⟨hft, hc0, ⟨hts, htf, hst⟩, hnow⟩ := hok c rfl
  have hc := word_pos hc0
  have hcl := c.isLt
  have hL := subLead_toInt (c := c) (s := t) (by rw [hlead]; exact hl)
  rw [hlead] at hL
  have e1 := hi.leadEq
  have e2 := hi.leadHigh
  refine ⟨hrel.lead _, ⟨?_, ?_, ?_, hst⟩, hft, htf, hts, hL, hc, fun hs ho => ?_⟩
  · rw [hL]; show _ = (t.tFast.toNat : Int) - 2 * (t.tSlow.toNat : Int); rw [htf, hts]; push_cast; omega
  · rw [hL]; omega
  · rw [hL]; omega
  · have hn := hnow hs
    have ha := absTime_slow_toNat hi
    obtain ⟨o1, o2⟩ := ho
    have hn2 : t.now.toNat = 2 * s.tSlow.toNat := by
      rw [hn]
      split
      · exact ha
      · rename_i hlt; rw [BitVec.lt_def] at hlt; omega
    constructor
    · show t.now.toNat ≤ t.tFast.toNat
      rw [hn2, htf]; omega
    · show t.now.toNat ≤ 2 * t.tSlow.toNat
      rw [hn2, hts]; omega

theorem leadNonneg_iff {s : State} : leadNonneg s = true ↔ 0 ≤ s.lead.toInt := by simp [leadNonneg]

/-- Everything the SLOW loop can do, given fuel enough for L (R233 step 3, R240, R241). -/
theorem slowLoop_spec {fuel m : Nat} {s t : State} {r : Option Nat} (hd : s.inDispatch = false) (hf : s.fatal = none)
    (hi : LeadInv s) (hfuel : s.lead.toInt < 2 * (fuel : Int)) (h : slowLoop fuel m s = .ok (t, r)) :
    ClockRel s t ∧ LeadInv t ∧ t.tFast = s.tFast ∧ s.tSlow ≤ t.tSlow ∧
      (r = none → t.fatal.isSome = true) ∧
      (∀ k, r = some k → t.fatal = none ∧ t.lead.toInt < 0 ∧ m ≤ k ∧ (SchedInv s → onTime s → onTime t)) := by
  induction fuel generalizing m s with
  | zero =>
    simp only [slowLoop, Except.ok.injEq, Prod.mk.injEq] at h
    obtain ⟨rfl, rfl⟩ := h
    exact ⟨.refl s, hi, rfl, BitVec.le_refl _, by simp, fun k hk => by
      obtain rfl : m = k := by simpa using hk
      exact ⟨hf, by simpa using hfuel, Nat.le_refl _, fun _ ho => ho⟩⟩
  | succ fuel ih =>
    simp only [slowLoop] at h
    split at h
    · rename_i hn
      have hl := leadNonneg_iff.mp hn
      cases hc : cpuStep .slow s with
      | error f => rw [hc] at h; simp at h
      | ok p =>
        obtain ⟨s1, rc⟩ := p
        rw [hc] at h
        cases rc with
        | none =>
          simp only [Except.ok.injEq, Prod.mk.injEq] at h
          obtain ⟨rfl, rfl⟩ := h
          obtain ⟨hrel, hlead, hnone, -⟩ := cpuStep_spec hd hf hc
          obtain ⟨hfat, htf, hts⟩ := hnone rfl
          exact ⟨hrel, hi.congr htf hts hlead, htf, by rw [hts]; exact BitVec.le_refl _, fun _ => hfat, by simp⟩
        | some c =>
          simp only at h
          obtain ⟨hrel, hi', hf', htf, hts, hL, hcp, ho⟩ := slowStep_spec hd hf hi hl hc
          obtain ⟨g1, g2, g3, g4, g5, g6⟩ :=
            ih (hrel.inDispatch.trans hd) hf' hi' (by rw [hL]; push_cast at hfuel; omega) h
          refine ⟨hrel.trans g1, g2, g3.trans htf, ?_, g5, fun k hk => ?_⟩
          · refine BitVec.le_trans ?_ g4
            rw [BitVec.le_def, hts]; omega
          · obtain ⟨k1, k2, k3, k4⟩ := g6 k hk
            exact ⟨k1, k2, by omega, fun hs hon => k4 (hrel.sched hs) (ho hs hon)⟩
    · rename_i hn
      injection h with h
      obtain ⟨rfl, rfl⟩ := Prod.mk.inj h
      exact ⟨.refl s, hi, rfl, BitVec.le_refl _, by simp, fun k hk => by
        obtain rfl : m = k := by simpa using hk
        exact ⟨hf, by rw [leadNonneg_iff] at hn; omega, Nat.le_refl _, fun _ ho => ho⟩⟩

theorem slowBound_enough (s : State) : s.lead.toInt < 2 * (slowBound s : Int) := by
  unfold slowBound
  by_cases hn : leadNonneg s = true
  · rw [if_pos hn]
    have h0 := leadNonneg_iff.mp hn
    have : s.lead.toInt = s.lead.toNat := by
      rw [BitVec.toInt_eq_toNat_cond] at *
      split at h0
      · simp_all
      · omega
    simp only [clockRatio]
    push_cast
    omega
  · rw [if_neg hn]
    rw [leadNonneg_iff] at hn
    push_cast; omega

/-- The FAST step of an orchestration step: L rises by its cost, and the invariant stays (R233 steps 1 and 2). -/
theorem fastStep_spec {s t : State} {c : Word} (hd : s.inDispatch = false) (hf : s.fatal = none) (hi : LeadInv s)
    (hl : s.lead.toInt ≤ 0) (h : cpuStep .fast s = .ok (t, some c)) :
    ClockRel s (addLead c t) ∧ LeadInv (addLead c t) ∧ (addLead c t).fatal = none ∧
      (addLead c t).tFast.toNat = s.tFast.toNat + c.toNat ∧ (addLead c t).tSlow = s.tSlow ∧ 0 < c.toNat ∧
      (SchedInv s → onTime s → onTime (addLead c t)) := by
  obtain ⟨hrel, hlead, -, hok⟩ := cpuStep_spec hd hf h
  obtain ⟨hft, hc0, ⟨htf, hts⟩, hnow⟩ := hok c rfl
  have hcl := c.isLt
  have hL := addLead_toInt (c := c) (s := t) (by rw [hlead]; exact hl)
  rw [hlead] at hL
  have e1 := hi.leadEq
  have e2 := hi.leadLow
  refine ⟨hrel.lead _, ⟨?_, by rw [hL]; omega, by rw [hL]; omega, ?_⟩, hft, htf, hts, word_pos hc0, fun hs ho => ?_⟩
  · rw [hL]; show _ = (t.tFast.toNat : Int) - 2 * (t.tSlow.toNat : Int); rw [htf, hts]; push_cast; omega
  · show 2 * t.tSlow.toNat < 2 ^ 64; rw [hts]; exact hi.slowTime
  · obtain ⟨o1, o2⟩ := ho
    have hn : t.now.toNat = s.tFast.toNat := by
      rw [hnow hs]
      split
      · rfl
      · rename_i hlt; rw [BitVec.lt_def] at hlt; simp only [absTime] at hlt; omega
    constructor
    · show t.now.toNat ≤ t.tFast.toNat; omega
    · show t.now.toNat ≤ 2 * t.tSlow.toNat; rw [hn, hts]; omega

/-- Everything an orchestration step can do from a settled state (R233, R240): at a good end t_fast has grown, and L is
below 0. -/
theorem orchStep_spec {s t : State} {r : Option Nat} (hd : s.inDispatch = false) (hf : s.fatal = none) (hi : LeadInv s)
    (hl : s.lead.toInt ≤ 0) (h : orchStep s = .ok (t, r)) :
    ClockRel s t ∧ LeadInv t ∧ s.tFast ≤ t.tFast ∧ s.tSlow ≤ t.tSlow ∧
      (r = none → t.fatal.isSome = true) ∧
      (∀ k, r = some k → t.fatal = none ∧ t.lead.toInt < 0 ∧ s.tFast < t.tFast ∧ (SchedInv s → onTime s → onTime t)) := by
  unfold orchStep at h
  cases hc : cpuStep .fast s with
  | error f => rw [hc] at h; simp at h
  | ok p =>
    obtain ⟨s1, rc⟩ := p
    rw [hc] at h
    obtain ⟨hrel, hlead, hnone, hok⟩ := cpuStep_spec hd hf hc
    cases rc with
    | none =>
      simp only [Except.ok.injEq, Prod.mk.injEq] at h
      obtain ⟨rfl, rfl⟩ := h
      obtain ⟨hfat, htf, hts⟩ := hnone rfl
      exact ⟨hrel, hi.congr htf hts hlead, by rw [htf]; exact BitVec.le_refl _, by rw [hts]; exact BitVec.le_refl _,
        fun _ => hfat, by simp⟩
    | some c =>
      simp only at h
      obtain ⟨hrel1, hi1, hf1, htf, hts, hcp, ho1⟩ := fastStep_spec hd hf hi hl hc
      obtain ⟨g1, g2, g3, g4, g5, g6⟩ := slowLoop_spec (hrel1.inDispatch.trans hd) hf1 hi1 (slowBound_enough _) h
      have hlt : s.tFast < t.tFast := by rw [g3, BitVec.lt_def]; omega
      refine ⟨hrel1.trans g1, g2, BitVec.le_of_lt hlt, hts ▸ g4, g5, fun k hk => ?_⟩
      obtain ⟨k1, k2, -, k4⟩ := g6 k hk
      exact ⟨k1, k2, hlt, fun hs ho => k4 (hrel1.sched hs) (ho1 hs ho)⟩

/-- At a good end of an orchestration step t_fast has moved on by the cost of its one FAST step: no SLOW step moves it
(R233). -/
theorem orchStep_tFast {s t : State} {k : Nat} (hd : s.inDispatch = false) (hf : s.fatal = none) (hi : LeadInv s)
    (hl : s.lead.toInt ≤ 0) (h : orchStep s = .ok (t, some k)) :
    ∃ s1 c, cpuStep .fast s = .ok (s1, some c) ∧ t.tFast = s1.tFast ∧ t.tFast.toNat = s.tFast.toNat + c.toNat := by
  unfold orchStep at h
  cases hc : cpuStep .fast s with
  | error f => rw [hc] at h; simp at h
  | ok p =>
    obtain ⟨s1, rc⟩ := p
    rw [hc] at h
    cases rc with
    | none => simp at h
    | some c =>
      obtain ⟨hrel, hi1, hf1, htf, -⟩ := fastStep_spec hd hf hi hl hc
      have e := (slowLoop_spec (hrel.inDispatch.trans hd) hf1 hi1 (slowBound_enough _) h).2.2.1
      exact ⟨s1, c, rfl, e, by rw [e]; exact htf⟩

/-- Everything CLK.RUN's loop can do from a settled state (R234, R244): at a good end t_fast has reached the target. -/
theorem runLoop_spec {fuel k : Nat} {target : Cycle} {s t : State} {r : Option Nat} (hd : s.inDispatch = false)
    (hf : s.fatal = none) (hi : LeadInv s) (hl : s.lead.toInt ≤ 0) (hfuel : target.toNat ≤ s.tFast.toNat + fuel)
    (h : runLoop fuel target k s = .ok (t, r)) :
    ClockRel s t ∧ LeadInv t ∧ s.tFast ≤ t.tFast ∧ s.tSlow ≤ t.tSlow ∧
      (r = none → t.fatal.isSome = true) ∧
      (∀ n, r = some n → t.fatal = none ∧ t.lead.toInt ≤ 0 ∧ target ≤ t.tFast ∧
        (s.tFast < target → t.lead.toInt < 0) ∧ (SchedInv s → onTime s → onTime t)) := by
  induction fuel generalizing k s with
  | zero =>
    simp only [runLoop, Except.ok.injEq, Prod.mk.injEq] at h
    obtain ⟨rfl, rfl⟩ := h
    refine ⟨.refl s, hi, BitVec.le_refl _, BitVec.le_refl _, by simp, fun n hn => ⟨hf, hl, ?_, ?_, fun _ ho => ho⟩⟩
    · rw [BitVec.le_def]; omega
    · intro hlt; rw [BitVec.lt_def] at hlt; omega
  | succ fuel ih =>
    simp only [runLoop] at h
    split at h
    · rename_i hlt
      cases hc : orchStep s with
      | error f => rw [hc] at h; simp at h
      | ok p =>
        obtain ⟨s1, rc⟩ := p
        rw [hc] at h
        obtain ⟨hrel, hi1, hfl, hsl, hnone, hok⟩ := orchStep_spec hd hf hi hl hc
        cases rc with
        | none =>
          simp only [Except.ok.injEq, Prod.mk.injEq] at h
          obtain ⟨rfl, rfl⟩ := h
          exact ⟨hrel, hi1, hfl, hsl, fun _ => hnone rfl, by simp⟩
        | some c =>
          simp only at h
          obtain ⟨hf1, hl1, hft, ho⟩ := hok c rfl
          obtain ⟨g1, g2, g3, g4, g5, g6⟩ := ih (hrel.inDispatch.trans hd) hf1 hi1 (by omega)
            (by rw [BitVec.lt_def] at hft; omega) h
          refine ⟨hrel.trans g1, g2, BitVec.le_trans hfl g3, BitVec.le_trans hsl g4, g5, fun n hn => ?_⟩
          obtain ⟨k1, k2, k3, k4, k5⟩ := g6 n hn
          refine ⟨k1, k2, k3, fun _ => ?_, fun hs hon => k5 (hrel.sched hs) (ho hs hon)⟩
          by_cases h2 : s1.tFast < target
          · exact k4 h2
          · have : t = s1 := by
              cases fuel with
              | zero => simp only [runLoop, Except.ok.injEq, Prod.mk.injEq] at h; exact h.1.symm
              | succ fuel => simp only [runLoop, h2, if_false, Except.ok.injEq, Prod.mk.injEq] at h; exact h.1.symm
            rw [this]; exact hl1
    · rename_i hlt
      injection h with h
      obtain ⟨rfl, rfl⟩ := Prod.mk.inj h
      refine ⟨.refl s, hi, BitVec.le_refl _, BitVec.le_refl _, by simp,
        fun n hn => ⟨hf, hl, ?_, fun h' => absurd h' hlt, fun _ ho => ho⟩⟩
      rw [BitVec.lt_def] at hlt; rw [BitVec.le_def]; omega

/-! ### The commands end whenever the collaborators return (R241, R244) -/

theorem slowLoop_ends (fuel m : Nat) (s : State) (hs : SchedInv s) (hd : s.inDispatch = false) (hf : s.fatal = none)
    (hr : collabReturns s = true) : ∃ t r, slowLoop fuel m s = .ok (t, r) := by
  induction fuel generalizing m s with
  | zero => exact ⟨_, _, rfl⟩
  | succ fuel ih =>
    simp only [slowLoop]
    split
    · obtain ⟨s1, rc, hc⟩ := cpuStep_ends .slow s hs hd hf hr
      rw [hc]
      obtain ⟨hrel, -, -, hok⟩ := cpuStep_spec hd hf hc
      cases rc with
      | none => exact ⟨_, _, rfl⟩
      | some c =>
        have hrel' : ClockRel s (subLead c s1) := hrel.lead _
        exact ih _ _ (hrel'.sched hs) (hrel'.inDispatch.trans hd) (hok c rfl).1 (hrel'.returns hr)
    · exact ⟨_, _, rfl⟩

theorem orchStep_ends (s : State) (hs : SchedInv s) (hd : s.inDispatch = false) (hf : s.fatal = none) (hr : collabReturns s = true) :
    ∃ t r, orchStep s = .ok (t, r) := by
  unfold orchStep
  obtain ⟨s1, rc, hc⟩ := cpuStep_ends .fast s hs hd hf hr
  rw [hc]
  obtain ⟨hrel, -, -, hok⟩ := cpuStep_spec hd hf hc
  cases rc with
  | none => exact ⟨_, _, rfl⟩
  | some c =>
    have hrel' : ClockRel s (addLead c s1) := hrel.lead _
    exact slowLoop_ends _ _ _ (hrel'.sched hs) (hrel'.inDispatch.trans hd) (hok c rfl).1 (hrel'.returns hr)

/-- What an orchestration step leaves alone, from any state. -/
theorem slowLoop_rel {fuel m : Nat} {s t : State} {r : Option Nat} (hd : s.inDispatch = false) (hf : s.fatal = none)
    (h : slowLoop fuel m s = .ok (t, r)) : ClockRel s t ∧ (r.isSome = true ↔ t.fatal = none) := by
  induction fuel generalizing m s with
  | zero =>
    simp only [slowLoop, Except.ok.injEq, Prod.mk.injEq] at h
    obtain ⟨rfl, rfl⟩ := h
    exact ⟨.refl s, by simp [hf]⟩
  | succ fuel ih =>
    simp only [slowLoop] at h
    split at h
    · cases hc : cpuStep .slow s with
      | error f => rw [hc] at h; simp at h
      | ok p =>
        obtain ⟨s1, rc⟩ := p
        rw [hc] at h
        obtain ⟨hrel, -, hnone, hok⟩ := cpuStep_spec hd hf hc
        cases rc with
        | none =>
          simp only [Except.ok.injEq, Prod.mk.injEq] at h
          obtain ⟨rfl, rfl⟩ := h
          refine ⟨hrel, ?_⟩
          have := (hnone rfl).1
          cases hs : s1.fatal <;> simp_all
        | some c =>
          have hrel' : ClockRel s (subLead c s1) := hrel.lead _
          obtain ⟨g1, g2⟩ := ih (hrel'.inDispatch.trans hd) (hok c rfl).1 h
          exact ⟨hrel'.trans g1, g2⟩
    · injection h with h
      obtain ⟨rfl, rfl⟩ := Prod.mk.inj h
      exact ⟨.refl s, by simp [hf]⟩

theorem orchStep_rel {s t : State} {r : Option Nat} (hd : s.inDispatch = false) (hf : s.fatal = none)
    (h : orchStep s = .ok (t, r)) : ClockRel s t ∧ (r.isSome = true ↔ t.fatal = none) := by
  unfold orchStep at h
  cases hc : cpuStep .fast s with
  | error f => rw [hc] at h; simp at h
  | ok p =>
    obtain ⟨s1, rc⟩ := p
    rw [hc] at h
    obtain ⟨hrel, -, hnone, hok⟩ := cpuStep_spec hd hf hc
    cases rc with
    | none =>
      simp only [Except.ok.injEq, Prod.mk.injEq] at h
      obtain ⟨rfl, rfl⟩ := h
      refine ⟨hrel, ?_⟩
      have := (hnone rfl).1
      cases hs : s1.fatal <;> simp_all
    | some c =>
      have hrel' : ClockRel s (addLead c s1) := hrel.lead _
      obtain ⟨g1, g2⟩ := slowLoop_rel (hrel'.inDispatch.trans hd) (hok c rfl).1 h
      exact ⟨hrel'.trans g1, g2⟩

theorem runLoop_rel {fuel k : Nat} {target : Cycle} {s t : State} {r : Option Nat} (hd : s.inDispatch = false)
    (hf : s.fatal = none) (h : runLoop fuel target k s = .ok (t, r)) :
    ClockRel s t ∧ (r.isSome = true ↔ t.fatal = none) := by
  induction fuel generalizing k s with
  | zero =>
    simp only [runLoop, Except.ok.injEq, Prod.mk.injEq] at h
    obtain ⟨rfl, rfl⟩ := h
    exact ⟨.refl s, by simp [hf]⟩
  | succ fuel ih =>
    simp only [runLoop] at h
    split at h
    · cases hc : orchStep s with
      | error f => rw [hc] at h; simp at h
      | ok p =>
        obtain ⟨s1, rc⟩ := p
        rw [hc] at h
        obtain ⟨hrel, hres⟩ := orchStep_rel hd hf hc
        cases rc with
        | none =>
          simp only [Except.ok.injEq, Prod.mk.injEq] at h
          obtain ⟨rfl, rfl⟩ := h
          exact ⟨hrel, hres⟩
        | some c =>
          obtain ⟨g1, g2⟩ := ih (hrel.inDispatch.trans hd) (hres.mp rfl) h
          exact ⟨hrel.trans g1, g2⟩
    · injection h with h
      obtain ⟨rfl, rfl⟩ := Prod.mk.inj h
      exact ⟨.refl s, by simp [hf]⟩

theorem runLoop_ends (fuel : Nat) (target : Cycle) (k : Nat) (s : State) (hs : SchedInv s) (hd : s.inDispatch = false)
    (hf : s.fatal = none) (hr : collabReturns s = true) : ∃ t r, runLoop fuel target k s = .ok (t, r) := by
  induction fuel generalizing k s with
  | zero => exact ⟨_, _, rfl⟩
  | succ fuel ih =>
    simp only [runLoop]
    split
    · obtain ⟨s1, rc, hc⟩ := orchStep_ends s hs hd hf hr
      rw [hc]
      obtain ⟨hrel, hres⟩ := orchStep_rel hd hf hc
      cases rc with
      | none => exact ⟨_, _, rfl⟩
      | some c => exact ih _ _ (hrel.sched hs) (hrel.inDispatch.trans hd) (hres.mp rfl) (hrel.returns hr)
    · exact ⟨_, _, rfl⟩

end Sys2Proof.Machine
end

