-- ==== Sys2Proof/Laws/PerInstr.lean ====
section
/-! SUPPORT. Statements made per instruction, about commands as syntax: one lemma for each constructor of Instr. -/

/-- The command's header matches a row of 30_encoding.md R123 under its mask, and it has the row's k operand words. -/
def Sys2Proof.Laws.Row.Statement (i : Sys2Proof.Instr) : Prop :=
  ∃ r ∈ Sys2Proof.Machine.opcodeRows,
    r.accepts (Sys2Proof.encodeHeader i) ∧ (Sys2Proof.encodeOperands i).length = r.operands

namespace Sys2Proof.Laws.Row

open Sys2Proof Sys2Proof.Machine

/-- A row by its place in the table. -/
theorem of_row {i : Instr} (n : Nat) (r : OpcodeRow) (hr : opcodeRows[n]? = some r)
    (hm : encodeHeader i &&& r.mask = r.pattern) (hk : (encodeOperands i).length = r.operands) : Row.Statement i :=
  ⟨r, List.mem_of_getElem? hr, hm, hk⟩

theorem schedSchedule (kind : Kind) (fire : Cycle) : Row.Statement (.schedSchedule kind fire) :=
  of_row 0 _ rfl (by simp only [encodeHeader]; ext n h; interval_cases n <;> simp) rfl

theorem schedAdvance (target : Cycle) : Row.Statement (.schedAdvance target) := of_row 1 _ rfl (by simp only [encodeHeader]; rfl) rfl

theorem schedPeek : Row.Statement .schedPeek := of_row 2 _ rfl rfl rfl

theorem schedNow : Row.Statement .schedNow := of_row 3 _ rfl rfl rfl

theorem busRead (cpu : Cpu) (width : Width) (priv : Bool) (addr : Word) :
    Row.Statement (.busRead cpu width priv addr) :=
  of_row 4 _ rfl (by cases cpu <;> cases width <;> cases priv <;> simp only [encodeHeader] <;> rfl) rfl

theorem busWrite (cpu : Cpu) (width : Width) (priv : Bool) (addr data : Word) :
    Row.Statement (.busWrite cpu width priv addr data) :=
  of_row 5 _ rfl (by cases cpu <;> cases width <;> cases priv <;> simp only [encodeHeader] <;> rfl) rfl

theorem busExec (cpu : Cpu) (width : Width) (priv : Bool) (addr : Word) :
    Row.Statement (.busExec cpu width priv addr) :=
  of_row 6 _ rfl (by cases cpu <;> cases width <;> cases priv <;> simp only [encodeHeader] <;> rfl) rfl

theorem icRequest (cpu : Cpu) (src : BitVec 5) : Row.Statement (.icRequest cpu src) :=
  of_row 7 _ rfl (by cases cpu <;> revert src <;> decide) rfl

theorem icAck (cpu : Cpu) (src : BitVec 5) : Row.Statement (.icAck cpu src) :=
  of_row 8 _ rfl (by cases cpu <;> revert src <;> decide) rfl

theorem icSetIe (cpu : Cpu) (mask : Word) : Row.Statement (.icSetIe cpu mask) :=
  of_row 9 _ rfl (by cases cpu <;> simp only [encodeHeader] <;> rfl) rfl

theorem icSetIme (cpu : Cpu) (val : Bool) : Row.Statement (.icSetIme cpu val) :=
  of_row 10 _ rfl (by cases cpu <;> cases val <;> rfl) rfl

theorem icAsserted (cpu : Cpu) : Row.Statement (.icAsserted cpu) := of_row 11 _ rfl (by cases cpu <;> rfl) rfl

theorem icReadIe (cpu : Cpu) : Row.Statement (.icReadIe cpu) := of_row 12 _ rfl (by cases cpu <;> rfl) rfl

theorem icReadIf (cpu : Cpu) : Row.Statement (.icReadIf cpu) := of_row 13 _ rfl (by cases cpu <;> rfl) rfl

theorem icReadIme (cpu : Cpu) : Row.Statement (.icReadIme cpu) := of_row 14 _ rfl (by cases cpu <;> rfl) rfl

theorem clkStep : Row.Statement .clkStep := of_row 15 _ rfl rfl rfl

theorem clkRun (target : Cycle) : Row.Statement (.clkRun target) := of_row 16 _ rfl (by simp only [encodeHeader]; rfl) rfl

theorem clkReadLead : Row.Statement .clkReadLead := of_row 17 _ rfl rfl rfl

theorem clkReadTime (cpu : Cpu) : Row.Statement (.clkReadTime cpu) := of_row 18 _ rfl (by cases cpu <;> rfl) rfl

end Sys2Proof.Laws.Row
end

