-- ==== Sys2Proof/Laws/Step.lean ====
section
/-! SUPPORT. Everything a command of the host, and a step, can do (30_encoding.md R116, R126; 60_exceptions.md R262). -/

namespace Sys2Proof.Machine

open Sys2Proof

theorem answered_refl (s : State) (st : Status) (ws : List Word) :
    ∃ st' ws' u, answer st ws s = answer st' ws' u ∧ CollabRel s u := ⟨st, ws, s, rfl, .refl s⟩

theorem accessEffect_answer (x : Cpu) (k : AccessKind) (w : Width) (priv : Bool) (addr data : Word) (s : State) :
    ∃ st ws u, accessEffect x k w priv addr data s = answer st ws u ∧ CollabRel s u ∧ u.fatal = s.fatal := by
  unfold accessEffect
  simp only
  split
  · exact ⟨_, _, _, rfl, (CollabRel.setLast s _ _).trans (.traceQuirk _ _ _ _ _ _), rfl⟩
  · exact ⟨_, _, _, rfl, .traceQuirk _ _ _ _ _ _, rfl⟩
  · exact ⟨_, _, _, rfl, (CollabRel.setLast s _ _).trans (.traceQuirk _ _ _ _ _ _), rfl⟩
  · unfold grantedEffect
    cases k
    · exact ⟨_, _, _, rfl, .setLast s _ _, rfl⟩
    · exact ⟨_, _, _, rfl, (CollabRel.setLast s _ _).trans (.writeBytes _ _ _ _), by simp⟩
    · exact ⟨_, _, _, rfl, .setLast s _ _, rfl⟩

/-- A command that no collaborator takes part in changes the state as a collaborator's commands do, and sends one
response (R116). -/
theorem nestedEffect_answer (i : Instr) {s : State} (hf : s.fatal = none) (hw : i.wellFormed = true) :
    ∃ st ws u, nestedEffect i s = answer st ws u ∧ CollabRel s u := by
  cases i
  case schedSchedule kind fire =>
    rcases scheduleEffect_cases kind fire s with ⟨c, e⟩ | ⟨h1, h2, h3, e⟩
    · exact ⟨_, _, _, e, .setFatal c hf⟩
    · exact ⟨_, _, _, e, .insert hw h1 h2 h3⟩
  case schedPeek => unfold nestedEffect peekEffect; simp only; split <;> exact answered_refl _ _ _
  case busRead => obtain ⟨a, b, c, d, e, -⟩ := accessEffect_answer _ _ _ _ _ _ s; exact ⟨a, b, c, d, e⟩
  case busWrite => obtain ⟨a, b, c, d, e, -⟩ := accessEffect_answer _ _ _ _ _ _ s; exact ⟨a, b, c, d, e⟩
  case busExec => obtain ⟨a, b, c, d, e, -⟩ := accessEffect_answer _ _ _ _ _ _ s; exact ⟨a, b, c, d, e⟩
  case icRequest x src => exact ⟨_, _, _, rfl, .flags s s.ie (latchSource x src s).iflag s.ime s.last⟩
  case icAck x src => exact ⟨_, _, _, rfl, .flags s s.ie (clearSource x src s).iflag s.ime s.last⟩
  case icSetIe x mask => exact ⟨_, _, _, rfl, .flags s (setPerCpu s.ie x mask) s.iflag s.ime s.last⟩
  case icSetIme x val => exact ⟨_, _, _, rfl, .flags s s.ie s.iflag (setPerCpu s.ime x val) s.last⟩
  case schedAdvance => exact ⟨_, _, _, rfl, .setFatal _ hf⟩
  case clkStep => exact ⟨_, _, _, rfl, .setFatal _ hf⟩
  case clkRun => exact ⟨_, _, _, rfl, .setFatal _ hf⟩
  all_goals exact answered_refl _ _ _

/-- A command whose own rule runs and that no collaborator takes part in is its effect. -/
theorem exec_of_runs {i : Instr} {s : State} (h : commandRuns i s)
    (hn : ∀ t, i ≠ .schedAdvance t) (hn2 : i ≠ .clkStep) (hn3 : ∀ t, i ≠ .clkRun t) :
    exec i s = .next (nestedEffect i s) := by
  have ht : turnedAway i s = none := by unfold turnedAway; rw [h.1]; simp [h.2]
  cases i <;> first
    | exact absurd rfl (hn _)
    | exact absurd rfl hn2
    | exact absurd rfl (hn3 _)
    | (simp only [exec, execSchedSchedule, execSchedPeek, execSchedNow, execBusRead, execBusWrite, execBusExec,
        execIcRequest, execIcAck, execIcSetIe, execIcSetIme, execIcAsserted, execIcReadIe, execIcReadIf, execIcReadIme,
        execClkReadLead, execClkReadTime, runCommand, ht, nestedEffect])

/-- A command that is turned away: FATAL is set, or its context may not issue it (R125, R126). -/
theorem exec_turnedAway {i : Instr} {s t : State} (h : turnedAway i s = some t) : exec i s = .next t := by
  cases i <;> simp only [exec, execSchedSchedule, execSchedAdvance, execSchedPeek, execSchedNow, execBusRead,
    execBusWrite, execBusExec, execIcRequest, execIcAck, execIcSetIe, execIcSetIme, execIcAsserted, execIcReadIe,
    execIcReadIf, execIcReadIme, execClkStep, execClkRun, execClkReadLead, execClkReadTime, runCommand, h]

/-- The three ways a command goes on. -/
theorem turnedAway_cases (i : Instr) (s : State) :
    commandRuns i s ∧ turnedAway i s = none ∨
    (∃ c, s.fatal = some c ∧ turnedAway i s = some (answer (.fatal c) [] s)) ∨
    s.fatal = none ∧ turnedAway i s = some (raiseFatal .illegalContext s) := by
  unfold turnedAway commandRuns answerFatal
  cases hf : s.fatal with
  | some c => exact .inr (.inl ⟨c, rfl, rfl⟩)
  | none =>
    by_cases hp : permitted i s.ctx = true
    · exact .inl ⟨⟨rfl, hp⟩, by simp [hp]⟩
    · exact .inr (.inr ⟨rfl, by simp [hp]⟩)

theorem answerFatal_of_isSome {s : State} (h : s.fatal.isSome = true) :
    ∃ c, s.fatal = some c ∧ answerFatal s = answer (.fatal c) [] s := by
  cases hf : s.fatal with
  | none => rw [hf] at h; cases h
  | some c => exact ⟨c, rfl, by simp [answerFatal, hf]⟩

/-! ### The machine's invariant -/

theorem MachineInv.schedInv {s : State} (h : MachineInv s) : SchedInv s :=
  ⟨h.ordered, h.future, h.seqs, h.distinct, h.kinds, h.bound⟩

theorem MachineInv.leadInv {s : State} (h : MachineInv s) : LeadInv s := ⟨h.leadEq, h.leadLow, h.leadHigh, h.slowTime⟩

/-- The machine's invariant from its parts. -/
theorem MachineInv.of_parts {s t : State} (h : MachineInv s) (hctx : t.ctx = s.ctx) (hd : t.inDispatch = s.inDispatch)
    (hr : t.regions = s.regions) (hs : SchedInv t) (hm : memoryWf t.cfg t.backing = true) (hl : LeadInv t)
    (hset : t.fatal = none → t.lead.toInt ≤ 0) : MachineInv t :=
  ⟨hctx.trans h.ctxHost, hd.trans h.notDispatching, hs.ordered, hs.future, hs.seqs, hs.distinct, hs.kinds, hs.bound, hm,
    by rw [hr]; exact h.windows, by rw [hr]; exact h.disjoint, hl.leadEq, hl.leadLow, hl.leadHigh, hset, hl.slowTime⟩

/-- The host's side of the port is no part of the invariant. -/
theorem MachineInv.port {s : State} (h : MachineInv s) (p : HostPort) : MachineInv { s with host := p } :=
  ⟨h.ctxHost, h.notDispatching, h.ordered, h.future, h.seqs, h.distinct, h.kinds, h.bound, h.memory, h.windows, h.disjoint,
    h.leadEq, h.leadLow, h.leadHigh, h.leadSettled, h.slowTime⟩

theorem MachineInv.answer {s : State} (h : MachineInv s) (st : Status) (ws : List Word) :
    MachineInv (answer st ws s) := by
  rw [answer_eq_host _ _ _ h.ctxHost]; exact h.port _

theorem MachineInv.fatal {s : State} (h : MachineInv s) (c : FatalCode) : MachineInv (setFatal c s) :=
  ⟨h.ctxHost, h.notDispatching, h.ordered, h.future, h.seqs, h.distinct, h.kinds, h.bound, h.memory, h.windows, h.disjoint,
    h.leadEq, h.leadLow, h.leadHigh, fun e => (by cases e), h.slowTime⟩

/-- The invariant through a change of the kind collaborators' commands make. -/
theorem MachineInv.of_collab {s t : State} (h : MachineInv s) (hf : s.fatal = none) (hr : CollabRel s t) :
    MachineInv t :=
  h.of_parts hr.ctx hr.inDispatch hr.regions (hr.sched h.schedInv) (hr.memory h.memory)
    (h.leadInv.congr hr.tFast hr.tSlow hr.lead) (fun _ => by rw [hr.lead]; exact h.leadSettled hf)

end Sys2Proof.Machine
end

