-- ==== Sys2Proof/Machine/Assembler.lean ====
section
/-! DEFINITION. The textual form of commands (30_encoding.md R127), as the programs of 95_test_vectors.md write them. -/

namespace Sys2Proof.Machine

open Sys2Proof

/-- The name of an event class; reserved classes have none (R118). -/
def asmClass (kclass : Nat) : String :=
  match kclass with
  | 0 => "timer"
  | 1 => "dma"
  | 2 => "scanline"
  | 3 => "hblank"
  | 4 => "vblank"
  | _ => "reserved"

/-- A kind: its class and its number. -/
def asmKind (k : Kind) : String := asmClass (k.toNat / 32) ++ toString (k.toNat % 32)

def asmCpu : Cpu → String
  | .fast => "fast"
  | .slow => "slow"

def asmWidth : Width → String
  | .byte => "b"
  | .half => "h"
  | .word => "w"

/-- The suffix of an unprivileged access. -/
def asmPriv (priv : Bool) : String := if priv then "" else ".u"

/-- A bus command's mnemonic and first operands. -/
def asmBus (op : String) (x : Cpu) (w : Width) (priv : Bool) (addr : Word) : String :=
  "bus." ++ op ++ "." ++ asmWidth w ++ asmPriv priv ++ " " ++ asmCpu x ++ ", " ++ toString addr.toNat

/-- The text of a command; numbers in decimal. -/
def asmText : Instr → String
  | .schedSchedule kind fire => "sched.schedule " ++ asmKind kind ++ ", " ++ toString fire.toNat
  | .schedAdvance target => "sched.advance " ++ toString target.toNat
  | .schedPeek => "sched.peek"
  | .schedNow => "sched.now"
  | .busRead x w priv addr => asmBus "read" x w priv addr
  | .busWrite x w priv addr data => asmBus "write" x w priv addr ++ ", " ++ toString data.toNat
  | .busExec x w priv addr => asmBus "exec" x w priv addr
  | .icRequest x src => "ic.request " ++ asmCpu x ++ ", " ++ toString src.toNat
  | .icAck x src => "ic.ack " ++ asmCpu x ++ ", " ++ toString src.toNat
  | .icSetIe x mask => "ic.set_ie " ++ asmCpu x ++ ", " ++ toString mask.toNat
  | .icSetIme x val => "ic.set_ime " ++ asmCpu x ++ ", " ++ (if val then "1" else "0")
  | .icAsserted x => "ic.asserted " ++ asmCpu x
  | .icReadIe x => "ic.read_ie " ++ asmCpu x
  | .icReadIf x => "ic.read_if " ++ asmCpu x
  | .icReadIme x => "ic.read_ime " ++ asmCpu x
  | .clkStep => "clk.step"
  | .clkRun target => "clk.run " ++ toString target.toNat
  | .clkReadLead => "clk.read_lead"
  | .clkReadTime x => "clk.read_time " ++ asmCpu x

end Sys2Proof.Machine
end

