-- ==== Sys2Proof/Tests/Slice0.lean ====
section
/-! SUPPORT. The model's own tests: well-formedness, decoding of words written out from the spec's encodings, one step of
each command with the answers the spec's examples give, and for each statement's hypotheses a state that meets them. -/

namespace Sys2Proof.Tests

open Sys2Proof Sys2Proof.Machine

/-! ### Helpers -/

/-- The command gives a next state of which p holds. -/
def nextHas (i : Instr) (s : State) (p : State → Bool) : Bool :=
  match exec i s with
  | .next t => p t
  | .fault _ => false
  | .refused _ => false

/-- The command's response is ws. -/
def answers (i : Instr) (s : State) (ws : List Word) : Bool :=
  nextHas i s (fun t => decide (t.host.responses = s.host.responses ++ [ws]))

/-- The state after a command that gives one. -/
def afterOf (i : Instr) (s : State) : State :=
  match exec i s with
  | .next t => t
  | .fault _ => s
  | .refused _ => s

theorem next_of_good {o : Host.Outcome State Fault Refusal} (h : goodEnd o = true) :
    ∃ t, o = .next t ∧ t.fatal = none := by
  cases o with
  | next t => exact ⟨t, rfl, by simpa [goodEnd, healthy] using h⟩
  | fault f => simp [goodEnd] at h
  | refused r => simp [goodEnd] at h

/-- `MachineInv` as a check. -/
def invCheck (s : State) : Bool :=
  decide (s.ctx = .host) && !s.inDispatch && decide (s.queue.Pairwise (fun a b => eventBefore a b = true))
    && s.queue.all (fun e => decide (s.now ≤ e.fire) && decide (e.seq < s.nextSeq) && kindWellFormed e.kind)
    && decide (s.queue.Pairwise (fun a b => a.seq ≠ b.seq)) && decide (s.queue.length ≤ s.cfg.queueCapacity)
    && memoryWf s.cfg s.backing && s.regions.all windowWellFormed && !anyOverlap s.regions
    && decide (s.lead.toInt = (s.tFast.toNat : Int) - 2 * (s.tSlow.toNat : Int)) && decide (-(2 ^ 33) < s.lead.toInt)
    && decide (s.lead.toInt ≤ 0) && decide (2 * s.tSlow.toNat < 2 ^ 64)

theorem inv_of_check {s : State} (h : invCheck s = true) : MachineInv s := by
  simp only [invCheck, Bool.and_eq_true, decide_eq_true_eq, List.all_eq_true, Bool.not_eq_true'] at h
  obtain ⟨⟨⟨⟨⟨⟨⟨⟨⟨⟨⟨⟨h1, h2⟩, h3⟩, h4⟩, hd⟩, h5⟩, h6⟩, h7⟩, h8⟩, h9⟩, h10⟩, h11⟩, h12⟩ := h
  exact ⟨h1, h2, h3, fun e he => (h4 e he).1.1, fun e he => (h4 e he).1.2, hd, fun e he => (h4 e he).2, h5, h6, h7, h8, h9,
    h10, by omega, fun _ => h11, h12⟩

/-- TC with these events pending (95_test_vectors.md section 2). -/
def tcWith (now : Cycle) (q : List Event) (n : Cycle) : State := { State.reset with now := now, queue := q, nextSeq := n }

/-- The events of R141's example: (5, vblank, 1), (5, hblank, 3), (10, timer0, 0), (10, dma2, 2). -/
def exampleQueue : List Event := [⟨5, 0x80, 1⟩, ⟨5, 0x60, 3⟩, ⟨10, 0x00, 0⟩, ⟨10, 0x22, 2⟩]

/-- TC with this handler. -/
def withHandler (h : HandlerCollab) (s : State) : State := { s with collab := { s.collab with handler := h } }

/-- A handler that schedules timer0 again, this many cycles later, whenever timer0 is dispatched (R149). -/
def timer0Every (period : Cycle) : HandlerCollab :=
  ⟨0, [.ifKind 0x00 (.scheduleIn 0x00 period (.done 0)) (.done 0)], []⟩

/-- A handler that schedules once more from its first dispatch, and does nothing then. -/
def onceMore : HandlerCollab := ⟨0, [.scheduleIn 0x01 5 (.done 1), .done 1], []⟩

/-- A handler that schedules timer0 again at its own cycle, and goes into another private state once the answer is this. -/
def timer0Until (data : List Word) : HandlerCollab :=
  ⟨0, [.ifKind 0x00 (.scheduleIn 0x00 0 (.ifAnswered 0 data (.done 1) (.done 0))) (.done 0),
    .ifKind 0x00 (.scheduleIn 0x00 0 (.ifAnswered 0 data (.done 0) (.done 1))) (.done 1)], []⟩

/-- TC in another context. -/
def inCtx (c : Ctx) : State := { State.reset with ctx := c }

/-! ### Well-formedness -/

theorem test_wf_kclass5_refused : (Instr.schedSchedule 0xA0 0).wellFormed = false := by decide
theorem test_wf_kclass6_refused : (Instr.schedSchedule 0xDF 0).wellFormed = false := by decide
theorem test_wf_kclass7_refused : (Instr.schedSchedule 0xE0 0).wellFormed = false := by decide
theorem test_wf_vblank31 : (Instr.schedSchedule 0x9F 0).wellFormed = true := by decide

/-! ### Decoding: words from the formats of 30_encoding.md R119 to R123 -/

/-- unit 0001, op 0000, kind 011 00010 (hblank2), zeros; fire low word, high word. -/
theorem test_decode_schedule : decode ⟨0x10620000, 0x00000010, 0x00000001⟩ = .ok (.schedSchedule 0x62 0x100000010) := rfl
theorem test_decode_advance : decode ⟨0x11000000, 5, 0⟩ = .ok (.schedAdvance 5) := rfl
theorem test_decode_peek : decode ⟨0x12000000, 0, 0⟩ = .ok .schedPeek := rfl
theorem test_decode_now : decode ⟨0x13000000, 0, 0⟩ = .ok .schedNow := rfl
/-- cpu 1, width 10, priv 1: 1101 in H[23:20]. -/
theorem test_decode_read : decode ⟨0x20D00000, 0x02000004, 0⟩ = .ok (.busRead .slow .word true 0x02000004) := rfl
/-- cpu 0, width 01, priv 0: 0010 in H[23:20]. -/
theorem test_decode_write : decode ⟨0x21200000, 4, 0xAB⟩ = .ok (.busWrite .fast .half false 4 0xAB) := rfl
/-- cpu 0, width 00, priv 1: 0001 in H[23:20]. -/
theorem test_decode_exec : decode ⟨0x22100000, 1, 0⟩ = .ok (.busExec .fast .byte true 1) := rfl
/-- cpu 1, src 11111: 1001 1111 in H[23:16]. -/
theorem test_decode_request : decode ⟨0x309F0000, 0, 0⟩ = .ok (.icRequest .slow 31) := rfl
theorem test_decode_ack : decode ⟨0x31030000, 0, 0⟩ = .ok (.icAck .fast 3) := rfl
theorem test_decode_set_ie : decode ⟨0x32800000, 8, 0⟩ = .ok (.icSetIe .slow 8) := rfl
theorem test_decode_set_ime : decode ⟨0x33000001, 0, 0⟩ = .ok (.icSetIme .fast true) := rfl
theorem test_decode_asserted : decode ⟨0x34800000, 0, 0⟩ = .ok (.icAsserted .slow) := rfl
theorem test_decode_read_ie : decode ⟨0x35000000, 0, 0⟩ = .ok (.icReadIe .fast) := rfl
theorem test_decode_read_if : decode ⟨0x36800000, 0, 0⟩ = .ok (.icReadIf .slow) := rfl
theorem test_decode_read_ime : decode ⟨0x37000000, 0, 0⟩ = .ok (.icReadIme .fast) := rfl
theorem test_decode_step : decode ⟨0x40000000, 0, 0⟩ = .ok .clkStep := rfl
theorem test_decode_run : decode ⟨0x41000000, 4, 1⟩ = .ok (.clkRun 0x100000004) := rfl
theorem test_decode_read_lead : decode ⟨0x42000000, 0, 0⟩ = .ok .clkReadLead := rfl
theorem test_decode_read_time : decode ⟨0x43800000, 0, 0⟩ = .ok (.clkReadTime .slow) := rfl

/-- One header for each bullet of R124: unit, op, MBZ, BUS width, kclass. -/
theorem test_decode_reserved :
    decode ⟨0x50000000, 0, 0⟩ = .error .reservedUnit ∧ decode ⟨0x00000000, 0, 0⟩ = .error .reservedUnit ∧
    decode ⟨0x14000000, 0, 0⟩ = .error .reservedOp ∧ decode ⟨0x23000000, 0, 0⟩ = .error .reservedOp ∧
    decode ⟨0x38000000, 0, 0⟩ = .error .reservedOp ∧ decode ⟨0x44000000, 0, 0⟩ = .error .reservedOp ∧
    decode ⟨0x11000001, 0, 0⟩ = .error .mustBeZero ∧ decode ⟨0x33000002, 0, 0⟩ = .error .mustBeZero ∧
    decode ⟨0x20600000, 0, 0⟩ = .error .reservedWidth ∧ decode ⟨0x10A00000, 0, 0⟩ = .error .reservedKind :=
  ⟨rfl, rfl, rfl, rfl, rfl, rfl, rfl, rfl, rfl, rfl⟩

/-! ### One step of each command; the answers are the spec's examples -/

/-- R140's example. -/
theorem test_schedule : nextHas (.schedSchedule 0x00 10) State.reset (fun t =>
    decide (t.queue = [⟨10, 0x00, 0⟩]) && decide (t.nextSeq = 1) && decide (t.host.responses = [[0, 0, 0]])) = true := by
  decide
/-- R140: fire 9 at now 10 is past. -/
theorem test_schedule_past : answers (.schedSchedule 0x00 9) (tcWith 10 [] 0) [0x80] = true := by decide
/-- R141's example. -/
theorem test_advance : nextHas (.schedAdvance 10) (tcWith 0 exampleQueue 4) (fun t =>
    decide (callsOf t.collab.handler.heard = [(0x80, 5), (0x60, 5), (0x00, 10), (0x22, 10)]) && decide (t.queue = [])
      && decide (t.now = 10) && decide (t.host.responses = [[0, 4]])) = true := by decide
/-- R141: a handler's event is fired by the same call while its fire is ≤ T. -/
theorem test_advance_reschedules : nextHas (.schedAdvance 10)
    (withHandler onceMore (tcWith 0 [⟨5, 0x00, 0⟩] 1)) (fun t =>
      decide (callsOf t.collab.handler.heard = [(0x00, 5), (0x01, 10)]) && decide (t.host.responses = [[0, 2]])) = true := by
  decide
/-- R149, T = 20, first fire 10, period 5, vblank pending beside it: timer0 at 10, 15 and 20. -/
theorem test_advance_periodic : nextHas (.schedAdvance 20)
    (withHandler (timer0Every 5) (tcWith 0 [⟨10, 0x00, 0⟩, ⟨15, 0x80, 1⟩] 2)) (fun t =>
      decide (callsOf t.collab.handler.heard = [(0x00, 10), (0x80, 15), (0x00, 15), (0x00, 20)])
        && decide (t.queue = [⟨25, 0x00, 4⟩]) && decide (t.host.responses = [[0, 4]])) = true := by decide
/-- R150: period 0 goes on past the last number R140 can assign, whatever the handler does on the answer 2^64 - 1. -/
theorem test_advance_period_zero : goesOnAfter 20 20 (withHandler (timer0Until [0xFFFFFFFF, 0xFFFFFFFF])
    { tcWith 0 [⟨10, 0x00, 0⟩, ⟨10, 0x80, 1⟩] 0xFFFFFFFFFFFFFFF8 with inDispatch := true }) = true := by decide
/-- R140, R141: an advance that only has too few numbers left ends, with CYCLE_OVERFLOW. -/
theorem test_advance_out_of_numbers : nextHas (.schedAdvance 20)
    (withHandler (timer0Every 5) (tcWith 0 [⟨10, 0x00, 0⟩] 0xFFFFFFFFFFFFFFFF)) (fun t =>
      decide (t.fatal = some .cycleOverflow) && decide (t.now = 10)) = true := by decide
/-- R142's example, and EMPTY. -/
theorem test_peek : answers .schedPeek (tcWith 0 [⟨5, 0x80, 1⟩, ⟨10, 0x00, 0⟩] 2) [0, 5, 0] = true := by decide
theorem test_peek_empty : answers .schedPeek State.reset [1] = true := by decide
/-- R143's example. -/
theorem test_now : answers .schedNow (tcWith 10 [] 4) [0, 10, 0] = true := by decide
/-- R180's example: the second access is sequential, cost 1 (95_test_vectors.md section 2). -/
theorem test_read : answers (.busRead .fast .byte true 0x02000001)
    (afterOf (.busWrite .fast .word true 0x02000000 0x11223344) State.reset) [0, 0x33, 1] = true := by decide
/-- R171: unmapped, open bus. -/
theorem test_read_unmapped : answers (.busRead .slow .half true 0x0A000000) State.reset [0x10, 0xBEEF, 1] = true := by
  decide
/-- R181's example. -/
theorem test_write : nextHas (.busWrite .fast .byte true 0x02000000 0xFFFFFFAB) State.reset (fun t =>
    decide (t.backing = [(0, 0xAB)]) && decide (t.host.responses = [[0, 3]])) = true := by decide
/-- R174: region 1 is a boot ROM. -/
theorem test_write_readonly : answers (.busWrite .fast .word true 0xFFFF0000 1) State.reset [0x12, 4] = true := by decide
/-- R182's example: region 3 has X = 0. -/
theorem test_exec_violation : nextHas (.busExec .fast .word true 0x02C00000) State.reset (fun t =>
    decide (t.host.responses = [[0x14, 0xDEADBEEF, 1]]) && decide (t.last.fast = none)) = true := by decide
/-- R81, R291: the first word of SLOW's boot ROM. -/
theorem test_exec : answers (.busExec .slow .word true 0x00000000) State.reset [0, 0xEAFFFFFE, 1] = true := by decide
/-- R200's example. -/
theorem test_request : nextHas (.icRequest .fast 3) State.reset (fun t => decide (t.iflag.fast = 8)) = true := by decide
/-- R201's example. -/
theorem test_ack : nextHas (.icAck .fast 3) { State.reset with iflag := ⟨0x18, 0x18⟩ } (fun t =>
    decide (t.iflag = ⟨0x10, 0x18⟩)) = true := by decide
/-- R202's example. -/
theorem test_set_ie : nextHas (.icSetIe .fast 8) State.reset (fun t => decide (t.ie = ⟨8, 0⟩)) = true := by decide
/-- R203's example. -/
theorem test_set_ime : nextHas (.icSetIme .fast true) State.reset (fun t => decide (t.ime = ⟨true, false⟩)) = true := by
  decide
/-- R204's example. -/
theorem test_asserted : answers (.icAsserted .fast)
    { State.reset with ie := ⟨8, 0⟩, iflag := ⟨8, 0⟩, ime := ⟨true, false⟩ } [0, 1] = true := by decide
theorem test_asserted_ime0 : answers (.icAsserted .fast) { State.reset with ie := ⟨8, 0⟩, iflag := ⟨8, 0⟩ } [0, 0] = true := by
  decide
/-- R205's example. -/
theorem test_read_ie : answers (.icReadIe .fast) { State.reset with ie := ⟨8, 1⟩ } [0, 8] = true := by decide
/-- R206's example. -/
theorem test_read_if : answers (.icReadIf .fast) { State.reset with iflag := ⟨8, 1⟩ } [0, 8] = true := by decide
/-- R207's example. -/
theorem test_read_ime : answers (.icReadIme .fast) State.reset [0, 0] = true := by decide
/-- R233's example. -/
theorem test_step : nextHas .clkStep State.reset (fun t => decide (t.host.responses = [[0, 1]]) && decide (t.tFast = 1)
    && decide (t.tSlow = 1) && decide (t.lead.toInt = -1)) = true := by decide
/-- R231: a zero cost is fatal, and the time stands. -/
theorem test_step_zero_cost : nextHas .clkStep
    { State.reset with collab := ⟨⟨Config.steadyCpu 0, Config.steadyCpu 1⟩, ⟨0, [.done 0], []⟩⟩ } (fun t =>
      decide (t.host.responses = [[0x82]]) && decide (t.fatal = some .zeroCost) && decide (t.tFast = 0)) = true := by decide
/-- R7, R233: FAST's step writes the device registers, and SLOW's step after it reads what they hold. -/
theorem test_step_devices : nextHas .clkStep
    { State.reset with
      collab :=
        { cpu := ⟨⟨false, 0, [.ifPriv .devices 0 (.done ⟨1, false, 0, some 1, none⟩) (.done ⟨9, false, 0, none, none⟩)], []⟩,
            ⟨false, 0, [.ifPriv .devices 1 (.done ⟨3, false, 0, none, none⟩) (.done ⟨8, false, 0, none, none⟩)], []⟩⟩
          handler := ⟨0, [.done 0, .done 1], []⟩ } }
    (fun t => decide (t.tFast = 1) && decide (t.tSlow = 3) && decide (t.collab.handler.priv = 1)) = true := by decide
/-- R234's example. -/
theorem test_run : nextHas (.clkRun 4) State.reset (fun t => decide (t.host.responses = [[0, 4]]) && decide (t.tFast = 4)
    && decide (t.tSlow = 3) && decide (t.lead.toInt = -2)) = true := by decide
/-- R235's example. -/
theorem test_read_lead : answers .clkReadLead { State.reset with lead := BitVec.ofInt 64 (-1) }
    [0, 0xFFFFFFFF, 0xFFFFFFFF] = true := by decide
/-- R236's example. -/
theorem test_read_time : answers (.clkReadTime .slow) { State.reset with tFast := 4, tSlow := 3 } [0, 3, 0] = true := by
  decide

/-- R126 (2): a reserved header on the port. -/
theorem test_step_reserved : (match step (State.reset.withFetchWord 32 0x10A00000) with
    | .next t => decide (t.host.responses = [[0x83]])
    | .fault _ => false
    | .refused _ => false) = true := by decide

/-! ### The hypotheses of each statement are met -/

/-- A healthy state with the packet of `sched.now` on the port. -/
def portState (p : Packet) : State := { State.reset with host := ⟨[p], []⟩ }

theorem witness_DecodeEncodeRoundTrip : (Instr.schedSchedule 0x9F 0xFFFFFFFFFFFFFFFF).wellFormed = true := by decide

theorem witness_DecodedPacketIsTheEncoding : decode ⟨0x21E00000, 1, 2⟩ = .error .reservedWidth ∧
    decode ⟨0x21D00000, 1, 2⟩ = .ok (.busWrite .slow .word true 1 2) := ⟨rfl, rfl⟩

theorem witness_ReservedEncodingsAreFatal : decode ⟨0x20600000, 1, 2⟩ = .error .reservedWidth ∧
    (portState ⟨0x20600000, 1, 2⟩).fatal = none ∧
    (portState ⟨0x20600000, 1, 2⟩).host.pending = ⟨0x20600000, 1, 2⟩ :: [] := ⟨rfl, rfl, rfl⟩

theorem witness_ReservedEncodingsAreFatal_rows :
    (⟨"CLK.STEP", 0x40000000, 0xFFFFFFFF, 0⟩ : OpcodeRow) ∈ opcodeRows ∧
    (⟨"CLK.STEP", 0x40000000, 0xFFFFFFFF, 0⟩ : OpcodeRow).accepts 0x40000000 := ⟨by decide, rfl⟩

theorem witness_StepRunsDecodedInstruction :
    (portState ⟨0x13000000, 0, 0⟩).host.pending = ⟨0x13000000, 0, 0⟩ :: [] ∧
    decode ⟨0x13000000, 0, 0⟩ = .ok .schedNow ∧ State.reset.host.pending = [] := ⟨rfl, rfl, rfl⟩

theorem witness_ResponsesGoToTheIssuer :
    State.reset.ctx = .host ∧ (inCtx (.cpu .slow)).ctx = .cpu .slow ∧ (inCtx .handler).ctx = .handler := ⟨rfl, rfl, rfl⟩

theorem witness_FatalAnswersEveryCommand :
    ({ State.reset with fatal := some .queueFull } : State).fatal = some .queueFull := rfl

theorem witness_ContextMatrix : State.reset.fatal = none ∧ (inCtx .handler).fatal = none ∧
    permitted (.busRead .fast .word true 0) (inCtx .handler).ctx = false ∧
    permitted (.icAck .fast 0) (inCtx (.cpu .slow)).ctx = false ∧ permitted .clkStep (inCtx (.cpu .fast)).ctx = false ∧
    permitted (.schedAdvance 0) (inCtx (.cpu .fast)).ctx = false := by decide

theorem witness_NestedCommandIsTheCommand :
    (inCtx .handler).ctx ≠ .host ∧ decode ⟨0x30030000, 0, 0⟩ = .ok (.icRequest .fast 3) := ⟨by decide, rfl⟩

/-- At the boundary fire = now, and with 2^64 - 2 as the next sequence number. -/
theorem witness_ScheduleInsertsTheEvent :
    commandRuns (.schedSchedule 0x00 10) (tcWith 10 exampleQueue 0xFFFFFFFFFFFFFFFE) ∧
    (tcWith 10 exampleQueue 0xFFFFFFFFFFFFFFFE).now ≤ 10 ∧
    (tcWith 10 exampleQueue 0xFFFFFFFFFFFFFFFE).queue.length ≠
      (tcWith 10 exampleQueue 0xFFFFFFFFFFFFFFFE).cfg.queueCapacity ∧
    (tcWith 10 exampleQueue 0xFFFFFFFFFFFFFFFE).nextSeq.toNat ≠ 2 ^ 64 - 1 ∧
    queueOrdered (tcWith 10 exampleQueue 0xFFFFFFFFFFFFFFFE).queue ∧
    ∀ e ∈ (tcWith 10 exampleQueue 0xFFFFFFFFFFFFFFFE).queue, e.seq < (tcWith 10 exampleQueue 0xFFFFFFFFFFFFFFFE).nextSeq :=
  ⟨⟨rfl, rfl⟩, by decide, by decide, by decide, (by decide : exampleQueue.Pairwise (fun a b => eventBefore a b = true)),
    by decide⟩

/-- A machine whose queue holds one event, and is full with it. -/
def fullState (n : Cycle) : State :=
  { tcWith 10 [⟨10, 0x00, 0⟩] n with cfg := { Config.tc with queueCapacity := 1 } }

theorem witness_ScheduleFails :
    commandRuns (.schedSchedule 0x00 9) (tcWith 10 [] 0) ∧ (9 : Cycle) < (tcWith 10 [] 0).now ∧
    commandRuns (.schedSchedule 0x00 10) (fullState 1) ∧ (fullState 1).now ≤ 10 ∧
    (fullState 1).queue.length = (fullState 1).cfg.queueCapacity ∧
    (tcWith 10 [] 0xFFFFFFFFFFFFFFFF).now ≤ 10 ∧
    (tcWith 10 [] 0xFFFFFFFFFFFFFFFF).queue.length ≠ (tcWith 10 [] 0xFFFFFFFFFFFFFFFF).cfg.queueCapacity ∧
    (tcWith 10 [] 0xFFFFFFFFFFFFFFFF).nextSeq.toNat = 2 ^ 64 - 1 :=
  ⟨⟨rfl, rfl⟩, by decide, ⟨rfl, rfl⟩, by decide, by decide, by decide, by decide, by decide⟩

theorem witness_PeekAnswersTheLeastFire : (tcWith 0 exampleQueue 4).fatal = none ∧
    queueOrdered (tcWith 0 exampleQueue 4).queue ∧ (⟨5, 0x60, 3⟩ : Event) ∈ (tcWith 0 exampleQueue 4).queue ∧
    (∀ e' ∈ (tcWith 0 exampleQueue 4).queue, (⟨5, 0x60, 3⟩ : Event).fire ≤ e'.fire) ∧ State.reset.queue = [] :=
  ⟨rfl, (by decide : exampleQueue.Pairwise (fun a b => eventBefore a b = true)), by decide, by decide, by decide⟩

theorem witness_ReadsAnswerTheirField : (inCtx .handler).fatal = none := rfl

theorem witness_SilentAdvanceExactly : commandRuns (.schedAdvance 5) (tcWith 5 exampleQueue 4) ∧
    (tcWith 5 exampleQueue 4).inDispatch = false ∧
    (tcWith 5 exampleQueue 4).collab.handler.table[(tcWith 5 exampleQueue 4).collab.handler.priv]? =
      some (.done (tcWith 5 exampleQueue 4).collab.handler.priv) ∧ queueOrdered (tcWith 5 exampleQueue 4).queue ∧
    ∀ e ∈ (tcWith 5 exampleQueue 4).queue, (tcWith 5 exampleQueue 4).now ≤ e.fire :=
  ⟨⟨rfl, rfl⟩, rfl, rfl, (by decide : exampleQueue.Pairwise (fun a b => eventBefore a b = true)), by decide⟩

theorem witness_AdvanceFiringLaw : MachineInv (withHandler onceMore (tcWith 0 exampleQueue 4)) ∧
    ∃ t, exec (.schedAdvance 10) (withHandler onceMore (tcWith 0 exampleQueue 4)) = .next t ∧ t.fatal = none :=
  ⟨inv_of_check (by decide), next_of_good (by decide)⟩

/-- First fire 10, period 5, T = 20: three dispatches, through the private states 0, 1, 2, 3. -/
def periodic : State :=
  withHandler ⟨0, [.scheduleIn 0x00 5 (.done 1), .scheduleIn 0x00 5 (.done 2), .scheduleIn 0x00 5 (.done 3)], []⟩
    (tcWith 0 [⟨10, 0x00, 0⟩] 1)

theorem witness_PeriodicEventFires : MachineInv periodic ∧ periodic.fatal = none ∧ (1 : Cycle) ≤ 5 ∧
    periodic.queue = [⟨10, 0x00, 0⟩] ∧
    periodic.collab.handler.priv = id 0 ∧
    (∀ i < (if (10 : Cycle) ≤ 20 then ((20 : Cycle).toNat - (10 : Cycle).toNat) / (5 : Cycle).toNat + 1 else 0),
      periodic.collab.handler.table[id i]? = some (.scheduleIn 0x00 5 (.done (id (i + 1))))) ∧
    (10 : Cycle).toNat + 3 * (5 : Cycle).toNat < 2 ^ 64 ∧ periodic.nextSeq.toNat + 3 < 2 ^ 64 :=
  ⟨inv_of_check (by decide), rfl, by decide, rfl, rfl, by decide, by decide, by decide⟩

theorem witness_AdvanceBeforeEveryFire : MachineInv (withHandler onceMore (tcWith 3 exampleQueue 4)) ∧
    (withHandler onceMore (tcWith 3 exampleQueue 4)).fatal = none ∧
    (∀ e ∈ (withHandler onceMore (tcWith 3 exampleQueue 4)).queue, (4 : Cycle) < e.fire) ∧
    (2 : Cycle) < (withHandler onceMore (tcWith 3 exampleQueue 4)).now :=
  ⟨inv_of_check (by decide), rfl, by decide, by decide⟩

/-- A handler that requests an interrupt and then issues a reserved header. -/
def badActivation : Script Nat := .issue ⟨0x30030000, 0, 0⟩ (.issue ⟨0x50000000, 0, 0⟩ (.done 0))

/-- A handler that is fatal in its second dispatch. -/
def badLater : HandlerCollab := ⟨0, [.done 1, badActivation], []⟩

theorem next_fatal {o : Host.Outcome State Fault Refusal} {c : FatalCode}
    (h : (match o with
      | .next t => decide (t.fatal = some c)
      | .fault _ => false
      | .refused _ => false) = true) : ∃ t, o = .next t ∧ t.fatal = some c := by
  cases o with
  | next t => exact ⟨t, rfl, by simpa using h⟩
  | fault f => simp at h
  | refused r => simp at h

theorem witness_HandlerFatalStopsTheAdvance :
    commandRuns (.schedAdvance 5) (withHandler ⟨0, [badActivation], []⟩ (tcWith 0 exampleQueue 4)) ∧
    (withHandler ⟨0, [badActivation], []⟩ (tcWith 0 exampleQueue 4)).queue = ⟨5, 0x80, 1⟩ :: exampleQueue.tail ∧
    (5 : Cycle) ≤ 5 ∧
    ((runScript badActivation (withHandler ⟨0, [badActivation], [.call 0x80 5]⟩
      { tcWith 5 exampleQueue.tail 4 with inDispatch := true, ctx := .handler })).2 = none) :=
  ⟨⟨rfl, rfl⟩, rfl, by decide, by decide⟩

theorem witness_HandlerFatalStopsTheAdvance_later : MachineInv (withHandler badLater (tcWith 0 exampleQueue 4)) ∧
    (withHandler badLater (tcWith 0 exampleQueue 4)).fatal = none ∧
    ∃ t, exec (.schedAdvance 5) (withHandler badLater (tcWith 0 exampleQueue 4)) = .next t ∧
      t.fatal = some .reservedEncoding :=
  ⟨inv_of_check (by decide), rfl, next_fatal (by decide)⟩

/-- At now = 2^64 - 5: a delay of 4 stays below 2^64, one of 5 does not. -/
theorem witness_ScheduleInIsNowThenSchedule : (tcWith 0xFFFFFFFFFFFFFFFB [] 0).fatal = none ∧
    kindWellFormed 0x00 = true ∧ (tcWith 0xFFFFFFFFFFFFFFFB [] 0).now.toNat + (4 : Cycle).toNat < 2 ^ 64 ∧
    2 ^ 64 ≤ (tcWith 0xFFFFFFFFFFFFFFFB [] 0).now.toNat + (5 : Cycle).toNat := by decide

theorem witness_ResolveFindsGreatestPriority : (∀ r ∈ State.reset.regions, windowWellFormed r = true) ∧
    anyOverlap State.reset.regions = false ∧ 0x02C00000 < 2 ^ 32 ∧
    (resolve State.reset.regions 0x02C00000).isSome = true ∧ resolve State.reset.regions 0xFFFFFFFF = none := by decide

theorem witness_OverlapCheckIsExact : ∀ r ∈ State.reset.regions, windowWellFormed r = true := by decide

theorem witness_AlignedAccessDoesNotStraddle : (∀ r ∈ State.reset.regions, windowWellFormed r = true) ∧
    3 < widthBytes .word ∧ (resolve State.reset.regions (alignDown .word 0x023FFFFF).toNat).isSome = true := by decide

theorem witness_MisalignedBitsAreIgnored :
    (0x02000003 : Word).toNat / widthBytes .word = (0x02000000 : Word).toNat / widthBytes .word := by decide

/-- Region i of TC. -/
def tcRegion (i : Nat) : Region := State.reset.regions.getD i ⟨0, 0, 0, 0, 0, false, false, false, false, ⟨⟨⟨0, 0⟩, ⟨0, 0⟩, ⟨0, 0⟩⟩, ⟨⟨0, 0⟩, ⟨0, 0⟩, ⟨0, 0⟩⟩⟩⟩

/-- Main memory, at its last byte, unprivileged; and the privileged region, privileged. -/
theorem witness_ReadsAndFetchesReturnTheBytes :
    resolve State.reset.regions (alignDown .word 0x023FFFFF).toNat = some (0, tcRegion 0) ∧
    ((tcRegion 0).privOnly = true → false = true) ∧ (tcRegion 0).readable = true ∧ (tcRegion 0).executable = true ∧
    commandRuns (.busRead .slow .word false 0x023FFFFF) (inCtx (.cpu .slow)) ∧
    commandRuns (.busExec .slow .word false 0x023FFFFF) (inCtx (.cpu .slow)) ∧
    resolve State.reset.regions (alignDown .word 0x04000000).toNat = some (2, tcRegion 2) ∧
    ((tcRegion 2).privOnly = true → true = true) :=
  ⟨by decide, by decide, by decide, by decide, ⟨rfl, rfl⟩, ⟨rfl, rfl⟩, by decide, by decide⟩

theorem witness_WritesStoreTheirBytesOnly : memoryWf State.reset.cfg State.reset.backing = true ∧
    commandRuns (.busWrite .fast .half false 0x023FFFFF 0xABCD) State.reset ∧
    resolve State.reset.regions (alignDown .half 0x023FFFFF).toNat = some (0, tcRegion 0) ∧
    ((tcRegion 0).privOnly = true → false = true) ∧ (tcRegion 0).writable = true :=
  ⟨by decide, ⟨rfl, rfl⟩, by decide, by decide, by decide⟩

theorem witness_UnmappedAccess : resolve State.reset.regions (alignDown .word 0x0A000003).toNat = none ∧
    commandRuns (.busRead .fast .word true 0x0A000003) State.reset ∧
    commandRuns (.busExec .fast .word true 0x0A000003) State.reset ∧
    commandRuns (.busWrite .fast .word true 0x0A000003 1) State.reset :=
  ⟨by decide, ⟨rfl, rfl⟩, ⟨rfl, rfl⟩, ⟨rfl, rfl⟩⟩

theorem witness_AccessViolations :
    resolve State.reset.regions (alignDown .word 0x04000FFC).toNat = some (2, tcRegion 2) ∧
    (tcRegion 2).privOnly = true ∧ (tcRegion 2).executable = false ∧ ((tcRegion 2).privOnly = true → true = true) ∧
    commandRuns (.busExec .fast .word true 0x04000FFC) State.reset ∧
    commandRuns (.busWrite .fast .word false 0x04000FFC 1) State.reset :=
  ⟨by decide, by decide, by decide, by decide, ⟨rfl, rfl⟩, ⟨rfl, rfl⟩⟩

theorem witness_UnreadableAndReadOnlyRegions :
    resolve State.reset.regions (alignDown .word 0x0500000C).toNat = some (4, tcRegion 4) ∧
    (tcRegion 4).readable = false ∧ (tcRegion 4).privOnly = false ∧
    resolve State.reset.regions (alignDown .word 0xFFFF7FFC).toNat = some (1, tcRegion 1) ∧
    (tcRegion 1).writable = false ∧ (tcRegion 1).privOnly = false ∧
    commandRuns (.busRead .fast .word true 0x0500000C) State.reset ∧
    commandRuns (.busWrite .fast .word true 0xFFFF7FFC 1) State.reset :=
  ⟨by decide, by decide, by decide, by decide, by decide, by decide, ⟨rfl, rfl⟩, ⟨rfl, rfl⟩⟩

/-- With u the very state the write leaves. -/
theorem witness_WriteThenReadRoundTrip : memoryWf State.reset.cfg State.reset.backing = true ∧
    commandRuns (.busWrite .fast .word true 0x02000001 7) State.reset ∧
    resolve State.reset.regions (alignDown .word 0x02000001).toNat = some (0, tcRegion 0) ∧
    (tcRegion 0).writable = true ∧ (tcRegion 0).readable = true ∧ (tcRegion 0).executable = true ∧
    (∃ t, exec (.busWrite .fast .word true 0x02000001 7) State.reset = .next t ∧ t.fatal = none) ∧
    commandRuns (.busRead .slow .word true 0x02000001) State.reset ∧
    commandRuns (.busExec .slow .word true 0x02000001) State.reset :=
  ⟨by decide, ⟨rfl, rfl⟩, by decide, by decide, by decide, by decide, next_of_good (by decide), ⟨rfl, rfl⟩, ⟨rfl, rfl⟩⟩

theorem witness_MixedWidthView : memoryWf State.reset.cfg State.reset.backing = true ∧
    (∀ q ∈ State.reset.regions, windowWellFormed q = true) ∧
    commandRuns (.busWrite .fast .word true 0x023FFFFC 7) State.reset ∧ (0x023FFFFC : Word).toNat % 4 = 0 ∧
    resolve State.reset.regions (0x023FFFFC : Word).toNat = some (0, tcRegion 0) ∧ (tcRegion 0).readable = true ∧
    (tcRegion 0).writable = true ∧ (3 : Nat) < 4 ∧
    ∃ t, exec (.busWrite .fast .word true 0x023FFFFC 7) State.reset = .next t ∧ t.fatal = none :=
  ⟨by decide, by decide, ⟨rfl, rfl⟩, by decide, by decide, by decide, by decide, by decide, next_of_good (by decide)⟩

theorem witness_MirrorsReadAlike :
    (alignDown .word 0x02400003).toNat = (alignDown .word 0x02000000).toNat + (tcRegion 0).period ∧
    State.reset.regions[0]? = some (tcRegion 0) ∧ regionContains (tcRegion 0) 0x02000000 = true ∧
    regionContains (tcRegion 0) (0x02000000 + (tcRegion 0).period) = true ∧
    (∀ q ∈ State.reset.regions.tail, regionContains q 0x02000000 = false ∧
      regionContains q (0x02000000 + (tcRegion 0).period) = false) ∧
    (tcRegion 0).readable = true ∧ commandRuns (.busRead .fast .word true 0x02000000) State.reset :=
  ⟨by decide, by decide, by decide, by decide, by decide, by decide, ⟨rfl, rfl⟩⟩

theorem witness_NoCrossCpuContention : requesterOf (.busRead .fast .word true 0x02000000) = some .fast ∧
    Cpu.slow ≠ .fast ∧ ∃ t, exec (.busRead .fast .word true 0x02000000) State.reset = .next t ∧ t.fatal = none :=
  ⟨rfl, by decide, next_of_good (by decide)⟩

/-- A write of FAST leaves the bytes SLOW reads 4 above as they were, and not those it reads there. -/
theorem witness_NoCrossCpuContention_bytes :
    resolve State.reset.regions 0x02000004 = resolve State.reset.regions 0x02000000 ∧
    readBytes (afterOf (.busWrite .fast .word true 0x02000000 7) State.reset) 0 4 4 = readBytes State.reset 0 4 4 ∧
    readBytes (afterOf (.busWrite .fast .word true 0x02000000 7) State.reset) 0 0 4 ≠ readBytes State.reset 0 0 4 := by decide

theorem witness_RequestAndAckOneLatch : commandRuns (.icRequest .slow 31) (inCtx .handler) ∧
    commandRuns (.icAck .slow 0) (inCtx (.cpu .slow)) := ⟨⟨rfl, rfl⟩, ⟨rfl, rfl⟩⟩

theorem witness_EnablesAreWrittenWhole : commandRuns (.icSetIe .slow 0xFFFFFFFF) (inCtx (.cpu .slow)) ∧
    commandRuns (.icSetIme .fast true) State.reset := ⟨⟨rfl, rfl⟩, ⟨rfl, rfl⟩⟩

/-- A state with source 31 latched and enabled for SLOW. -/
def pendingState (ime : Bool) : State :=
  { State.reset with ie := ⟨0, 0x80000000⟩, iflag := ⟨0, 0x80000000⟩, ime := ⟨false, ime⟩ }

theorem witness_AssertedLine : (pendingState true).fatal = none ∧
    (perCpu (pendingState true).ime .slow = true ∧ ∃ n < 32, (perCpu (pendingState true).ie .slow).getLsbD n = true ∧
      (perCpu (pendingState true).iflag .slow).getLsbD n = true) ∧ perCpu (pendingState false).ime .slow = false :=
  ⟨rfl, ⟨rfl, 31, by decide, by decide, by decide⟩, rfl⟩

theorem witness_AcknowledgeLaw : commandRuns (.icAck .slow 31) (pendingState true) ∧
    (∀ n < 32, n ≠ (31 : BitVec 5).toNat →
      (perCpu (pendingState true).ie .slow &&& perCpu (pendingState true).iflag .slow).getLsbD n = false) :=
  ⟨⟨rfl, rfl⟩, by decide⟩

theorem witness_ControllersAreIndependent : controllerOf (.icSetIe .fast 8) = some .fast ∧ Cpu.slow ≠ .fast ∧
    ∃ t, exec (.icSetIe .fast 8) (pendingState true) = .next t ∧ t.fatal = none :=
  ⟨rfl, by decide, next_of_good (by decide)⟩

theorem witness_InterruptPseudoCommands : (pendingState true).fatal = none ∧ (pendingState true).ctx = .host := ⟨rfl, rfl⟩

/-- TC with these two CPUs. -/
def withCpus (f sl : CpuCollab) (s : State) : State := { s with collab := { s.collab with cpu := ⟨f, sl⟩ } }

/-- A halted CPU that returns. -/
def haltedCpu : CpuCollab := ⟨true, 0, [.issue ⟨0x37000000, 0, 0⟩ (.done ⟨2, true, 0, none, none⟩)], []⟩

/-- Halted and not woken; woken; running; stopped by a fatal command; and never returning. -/
theorem witness_HaltedCpuAndItsWakeUp :
    (cpuCollab .slow (withCpus haltedCpu haltedCpu State.reset)).halted = true ∧
    wakes .slow (withCpus haltedCpu haltedCpu State.reset) = false ∧
    wakes .slow (withCpus haltedCpu haltedCpu (pendingState false)) = true ∧
    (cpuCollab .slow (withCpus haltedCpu haltedCpu (pendingState false))).table[0]? =
      some (.issue ⟨0x37000000, 0, 0⟩ (.done ⟨2, true, 0, none, none⟩)) ∧
    (cpuCollab .fast State.reset).halted = false ∧
    (cpuCollab .fast State.reset).table[(cpuCollab .fast State.reset).priv]? = some (.done ⟨1, false, 0, none, none⟩) ∧
    runScript (.issue ⟨0x50000000, 0, 0⟩ (.done (1 : Nat))) (inCtx (.cpu .fast)) =
      ((runScript (.issue ⟨0x50000000, 0, 0⟩ (.done (1 : Nat))) (inCtx (.cpu .fast))).1, none) ∧
    (cpuCollab .fast (withCpus ⟨false, 0, [], []⟩ haltedCpu State.reset)).table[0]? = none :=
  ⟨rfl, by decide, by decide, rfl, rfl, rfl, rfl, rfl⟩

/-- The last cost that fits, and the first that does not. -/
theorem witness_CpuStepCost : (1 : Word) ≠ 0 ∧
    ({ State.reset with tFast := 0xFFFFFFFFFFFFFFFE } : State).tFast.toNat + (1 : Word).toNat < 2 ^ 64 ∧
    2 ^ 64 ≤ ({ State.reset with tFast := 0xFFFFFFFFFFFFFFFE } : State).tFast.toNat + (2 : Word).toNat ∧
    2 * (({ State.reset with tSlow := 0x7FFFFFFFFFFFFFFE } : State).tSlow.toNat + (1 : Word).toNat) < 2 ^ 64 ∧
    2 ^ 64 ≤ 2 * (({ State.reset with tSlow := 0x7FFFFFFFFFFFFFFE } : State).tSlow.toNat + (2 : Word).toNat) := by decide

/-- The machine at t_fast = 6, t_slow = 4, L = -2, with R141's events pending at 5 and 10. -/
def midState : State := { tcWith 5 exampleQueue 4 with tFast := 6, tSlow := 4, lead := BitVec.ofInt 64 (-2) }

theorem inv_midState : MachineInv midState := inv_of_check (by decide)

/-- Inside an orchestration step: t_fast = 9, t_slow = 4, L = 1, a SLOW step due at 8. -/
def innerState : State := { midState with tFast := 9, lead := 1 }

/-- A CPU step that ends well. -/
def stepsWell (x : Cpu) (s : State) : Bool :=
  match cpuStep x s with
  | .ok (_, some _) => true
  | .ok (_, none) => false
  | .error _ => false

theorem witness_CpuStepStartsOnTime : SchedInv innerState ∧ innerState.inDispatch = false ∧ innerState.fatal = none ∧
    2 * innerState.tSlow.toNat < 2 ^ 64 ∧ innerState.now ≤ absTime .slow innerState ∧ absTime .slow innerState = 8 ∧
    (match advanceTo (absTime .slow innerState) innerState with
      | .ok (s1, _) => decide (s1.fatal = none)
      | .error _ => false) = true ∧
    stepsWell .slow innerState = true ∧ 2 * innerState.tSlow.toNat ≤ innerState.tFast.toNat :=
  ⟨⟨inv_midState.ordered, inv_midState.future, inv_midState.seqs, inv_midState.distinct, inv_midState.kinds, inv_midState.bound⟩, rfl, rfl,
    by decide, by decide, by decide, by decide, by decide, by decide⟩

theorem witness_CpuStepStartsOnTime_fast : SchedInv midState ∧ 2 * midState.tSlow.toNat < 2 ^ 64 ∧
    midState.now ≤ absTime .fast midState ∧ midState.tFast.toNat ≤ 2 * midState.tSlow.toNat ∧
    stepsWell .fast midState = true := ⟨inv_midState.schedInv, by decide, by decide, by decide, by decide⟩

theorem witness_CpuStepIsolation : (pendingState true).fatal = none ∧ Cpu.slow ≠ .fast ∧
    (match executeInstruction .fast (pendingState true) with
      | .ok _ => true
      | .error _ => false) = true := ⟨rfl, by decide, by decide⟩

/-- FAST repeats a step of cost 3; SLOW is halted. -/
def quietState : State := withCpus (Config.steadyCpu 3) haltedCpu { midState with queue := [] }

theorem inv_quietState : MachineInv quietState := inv_of_check (by decide)

theorem witness_ClkStepOfQuietCpus : MachineInv quietState ∧ quietState.fatal = none ∧ quietState.queue = [] ∧
    quietCpu .fast 3 quietState ∧ quietCpu .slow 1 quietState ∧ (3 : Word) ≠ 0 ∧ (1 : Word) ≠ 0 ∧
    quietState.tFast.toNat + 2 ^ 34 ≤ 2 ^ 64 :=
  ⟨inv_quietState, rfl, rfl, .inr ⟨rfl, rfl⟩, .inl ⟨rfl, by decide, rfl⟩, by decide, by decide, by decide⟩

theorem witness_ClkStepEnds : MachineInv midState ∧ midState.fatal = none ∧ collabReturns midState = true ∧
    onTime midState ∧ ∃ t, exec .clkStep midState = .next t ∧ t.fatal = none :=
  ⟨inv_midState, rfl, by decide, ⟨by decide, by decide⟩, next_of_good (by decide)⟩

theorem witness_ClkRunEnds : MachineInv midState ∧ midState.fatal = none ∧ (6 : Cycle) ≤ midState.tFast ∧
    midState.tFast < 7 ∧ collabReturns midState = true ∧
    ∃ t, exec (.clkRun 7) midState = .next t ∧ t.fatal = none :=
  ⟨inv_midState, rfl, by decide, by decide, by decide, next_of_good (by decide)⟩

theorem witness_ClkRunOfQuietCpus : MachineInv quietState ∧ quietCpu .fast 3 quietState ∧ quietCpu .slow 1 quietState ∧
    (0xFFFFFFFC00000000 : Cycle).toNat + 2 ^ 34 ≤ 2 ^ 64 :=
  ⟨inv_quietState, .inr ⟨rfl, rfl⟩, .inl ⟨rfl, by decide, rfl⟩, by decide⟩

/-- A handler that returns from its first call only. -/
def stuckLater : State := withHandler ⟨0, [.done 1], []⟩ (tcWith 0 exampleQueue 4)

/-- SLOW is halted and woken, and never returns. -/
def stuckSlow : State := withCpus (Config.steadyCpu 1) ⟨true, 0, [], []⟩ (pendingState false)

theorem stuckSlow_orch : orchStuck stuckSlow (.cpuNeverReturns .slow) :=
  .slow (c := 1) rfl (.refl _) (by decide) (.cpu rfl rfl (.inr (by decide)) rfl)

/-- A handler stuck in its second dispatch; a woken SLOW, after a FAST step; and a FAST step whose advance is stuck. -/
theorem witness_NoEndWithoutAReturn : MachineInv stuckLater ∧ MachineInv stuckSlow ∧
    advanceStuck 10 stuckLater .handlerNeverReturns ∧ orchStuck stuckSlow (.cpuNeverReturns .slow) ∧
    (∃ t, orchStepsTo 1 stuckSlow t ∧ t.tFast < 1 ∧ orchStuck t (.cpuNeverReturns .slow)) ∧
    orchStuck { stuckLater with tFast := 6, tSlow := 4, lead := BitVec.ofInt 64 (-2) } .handlerNeverReturns :=
  ⟨inv_of_check (by decide), inv_of_check (by decide),
    .handler (.step rfl (by decide) rfl rfl (.refl _)) (by decide) rfl, stuckSlow_orch,
    ⟨_, .refl _, by decide, stuckSlow_orch⟩,
    .fast (.advance (.handler (.step rfl (by decide) rfl rfl (.refl _)) (by decide) rfl))⟩

/-- TC with two initial events. -/
def cfgWithEvents : Config := { Config.tc with initialEvents := [⟨0x80, 7⟩, ⟨0x00, 0⟩] }

theorem witness_ConstructedState : constructionFatal cfgWithEvents = none := by decide

theorem witness_BackingAfterConstruction : constructionFatal cfgWithEvents = none ∧
    (perCpu cfgWithEvents.bootImage .slow)[3]? = some 0xEA ∧ cfgWithEvents.cartImage[0x15F]? = some 0x5F :=
  ⟨by decide, by decide, by decide⟩

/-- One configuration for each failing clause. -/
theorem witness_ConstructionChecks :
    constructionFatal { Config.tc with regions := Config.tcRegions.map (fun r => { r with limit := r.base }) } =
      some .regionMalformed ∧
    constructionFatal { Config.tc with regions := Config.tcRegions.map (fun r => { r with prio := 0 }) } =
      some .regionOverlap ∧
    constructionFatal { Config.tc with wmSize := 0x200000 } = some .regionMalformed ∧
    constructionFatal { Config.tc with cartImage := Config.byteRamp } = some .cartTooShort ∧
    constructionFatal { Config.tc with initialEvents := [⟨0xA0, 0⟩] } = some .reservedEncoding :=
  ⟨by decide, by decide, by decide, by decide, by decide⟩

theorem witness_InitialEventsAreScheduleCommands : constructionFatal { cfgWithEvents with initialEvents := [] } = none := by
  decide

theorem witness_ConstructionMeetsTheInvariant : constructionFatal cfgWithEvents = none := by decide

theorem inv_port {s : State} (h : MachineInv s) (ps : List Packet) : MachineInv { s with host := ⟨ps, []⟩ } := h.port _

/-- CLK.STEP on the port of a machine under way. -/
theorem witness_StepKeepsTheInvariant : MachineInv { midState with host := ⟨[⟨0x40000000, 0, 0⟩], []⟩ } ∧
    ∃ t, step { midState with host := ⟨[⟨0x40000000, 0, 0⟩], []⟩ } = .next t ∧ t.fatal = none :=
  ⟨inv_port inv_midState _, next_of_good (by decide)⟩

theorem witness_StepsNeverTakeBack : MachineInv { midState with host := ⟨[⟨0x11000000, 9, 0⟩], []⟩ } ∧
    ∃ t, step { midState with host := ⟨[⟨0x11000000, 9, 0⟩], []⟩ } = .next t ∧ t.fatal = none :=
  ⟨inv_port inv_midState _, next_of_good (by decide)⟩

theorem witness_OneResponsePerPacket : MachineInv { midState with host := ⟨[⟨0x12000000, 0, 0⟩], []⟩ } ∧
    ({ midState with host := ⟨[⟨0x12000000, 0, 0⟩], []⟩ } : State).host.pending = ⟨0x12000000, 0, 0⟩ :: [] ∧
    ∃ t, step { midState with host := ⟨[⟨0x12000000, 0, 0⟩], []⟩ } = .next t ∧ t.fatal = none :=
  ⟨inv_port inv_midState _, rfl, next_of_good (by decide)⟩

theorem witness_OnlyTheseCommandsWrite : ∃ t, exec (.icAck .slow 31) (pendingState true) = .next t ∧ t.fatal = none :=
  next_of_good (by decide)

/-- A request, then a reserved header, then a command that is not reached. -/
theorem witness_ActivationIssuesInOrder : (inCtx (.cpu .fast)).fatal = none ∧
    (([⟨0x30030000, 0, 0⟩, ⟨0x50000000, 0, 0⟩, ⟨0x13000000, 0, 0⟩] : List Packet).take 1).foldl
      (fun s p => issuePacket p s) (inCtx (.cpu .fast)) = issuePacket ⟨0x30030000, 0, 0⟩ (inCtx (.cpu .fast)) ∧
    (issuePacket ⟨0x30030000, 0, 0⟩ (inCtx (.cpu .fast))).fatal = none ∧
    (issuePacket ⟨0x50000000, 0, 0⟩ (issuePacket ⟨0x30030000, 0, 0⟩ (inCtx (.cpu .fast)))).fatal.isSome = true ∧
    (heardOf (issuePacket ⟨0x13000000, 0, 0⟩ (inCtx (.cpu .fast)))).getLast? = some (.response [0, 0, 0]) ∧
    ((0, [0, 0]) : Word × List Word) ∈ [((0x80 : Word), []), (0, [0, 0])] ∧
    lastCall (heardOf (issuePacket ⟨0x13000000, 0, 0⟩ (withHandler ⟨0, [.done 0], [.call 0x80 5]⟩ (inCtx .handler)))) =
      some (0x80, 5) ∧
    privOf .devices (withHandler ⟨3, [], []⟩ (inCtx (.cpu .fast))) ∈ [0, 3] :=
  ⟨rfl, rfl, by decide, by decide, rfl, by decide, rfl, by decide⟩

theorem witness_PeriodZeroNeverEnds :
    MachineInv (withHandler (timer0Until [0xFFFFFFFF, 0xFFFFFFFF]) (tcWith 0 exampleQueue 4)) ∧
    (⟨10, 0x00, 0⟩ : Event) ∈ (withHandler (timer0Until [0xFFFFFFFF, 0xFFFFFFFF]) (tcWith 0 exampleQueue 4)).queue ∧
    (10 : Cycle) ≤ 10 ∧
    (timer0Until [0xFFFFFFFF, 0xFFFFFFFF]).table =
      [.ifKind 0x00 (.scheduleIn 0x00 0 (.ifAnswered 0 [0xFFFFFFFF, 0xFFFFFFFF] (.done 1) (.done 0))) (.done 0),
        .ifKind 0x00 (.scheduleIn 0x00 0 (.ifAnswered 0 [0xFFFFFFFF, 0xFFFFFFFF] (.done 0) (.done 1))) (.done 1)] ∧
    MachineInv (withHandler (timer0Every 1) (tcWith 0 exampleQueue 4)) ∧
    handlerMovesOn (withHandler (timer0Every 1) (tcWith 0 exampleQueue 4)).collab.handler = true :=
  ⟨inv_of_check (by decide), by decide, by decide, rfl, inv_of_check (by decide), by decide⟩

/-- At the boundary T = first, and at T before it. -/
theorem witness_PeriodicAmongOthers :
    MachineInv (withHandler (timer0Every 5) (tcWith 0 exampleQueue 4)) ∧ (1 : Cycle) ≤ 5 ∧
    (⟨10, 0x00, 0⟩ : Event) ∈ (withHandler (timer0Every 5) (tcWith 0 exampleQueue 4)).queue ∧
    (∀ x ∈ (withHandler (timer0Every 5) (tcWith 0 exampleQueue 4)).queue, x.kind = 0x00 → x = ⟨10, 0x00, 0⟩) ∧
    (10 : Cycle).toNat + (((10 : Cycle).toNat - (10 : Cycle).toNat) / (5 : Cycle).toNat + 1) * (5 : Cycle).toNat < 2 ^ 64 ∧
    (withHandler (timer0Every 5) (tcWith 0 exampleQueue 4)).nextSeq.toNat + 1 < 2 ^ 64 ∧ ¬(10 : Cycle) ≤ 9 :=
  ⟨inv_of_check (by decide), by decide, by decide, by decide, by decide, by decide, by decide⟩

end Sys2Proof.Tests
end

/-! ## Proofs: the scope (00_scope.md) -/

namespace Sys2Proof.Machine

open Sys2Proof

theorem issuePacket_of_decode {p : Packet} {i : Instr} (h : decode p = .ok i) (s : State) :
    issuePacket p s = runNested i s := by
  simp [issuePacket, h]

theorem runNested_turnedAway {i : Instr} {s t : State} (h : turnedAway i s = some t) : runNested i s = t := by
  simp [runNested, runCommand, h]

theorem runNested_of_not_turnedAway {i : Instr} {s : State} (h : turnedAway i s = none) :
    runNested i s = nestedEffect i s := by
  simp [runNested, runCommand, h]

/-- The commands a collaborator takes part in are HOST's alone (30_encoding.md R125). -/
theorem permitted_collaborator {i : Instr} {c : Ctx} (hc : c ≠ .host) (h : permitted i c = true) :
    (∀ T, i ≠ .schedAdvance T) ∧ i ≠ .clkStep ∧ ∀ T, i ≠ .clkRun T := by
  refine ⟨?_, ?_, ?_⟩
  · rintro T rfl; exact hc (of_decide_eq_true h)
  · rintro rfl; exact hc (of_decide_eq_true h)
  · rintro T rfl; exact hc (of_decide_eq_true h)

/-- Turned away, both ways of running a command answer alike; where its own rule runs, it is none of the three commands
that only `exec` knows, and both are its effect. -/
theorem exec_eq_runNested (i : Instr) {s : State} (hc : s.ctx ≠ .host) : exec i s = .next (runNested i s) := by
  cases ht : turnedAway i s with
  | some t => rw [exec_turnedAway ht, runNested_turnedAway ht]
  | none =>
    obtain ⟨hruns, -⟩ | ⟨c, -, he⟩ | ⟨-, he⟩ := turnedAway_cases i s
    · obtain ⟨hadvance, hstep, hrun⟩ := permitted_collaborator hc hruns.2
      rw [exec_of_runs hruns hadvance hstep hrun, runNested_of_not_turnedAway ht]
    · rw [ht] at he; cases he
    · rw [ht] at he; cases he

/-- Settles O9: the packet decodes to the command, and in a collaborator's context `exec` runs it as a nested one. -/
theorem nestedCommandIsTheCommand : Obligations.NestedCommandIsTheCommand := by
  intro p i s hc hd
  rw [issuePacket_of_decode hd, exec_eq_runNested i hc]

end Sys2Proof.Machine

/-! ## Proofs: the state (10_state.md) -/

namespace Sys2Proof.Machine

open Sys2Proof

/-! ### FATAL (R60) -/

theorem turnedAway_of_fatal {s : State} {c : FatalCode} (h : s.fatal = some c) (i : Instr) :
    turnedAway i s = some (answer (.fatal c) [] s) := by
  simp [turnedAway, answerFatal, h]

/-- Settles O7: a set FATAL turns every command away, before its own rule is looked at. -/
theorem fatalAnswersEveryCommand : Obligations.FatalAnswersEveryCommand :=
  fun i _ _ h => exec_turnedAway (turnedAway_of_fatal h i)

/-! ### What each command may write (R64) -/

/-- What a command may do to the state before it answers, in one constructor for each row of R64's table: u is s with
fields written that command i may write. -/
inductive Writes (s : State) : Instr → State → Prop where
  | nothing (i : Instr) : Writes s i s
  | fatal (i : Instr) (c : FatalCode) : Writes s i (setFatal c s)
  | event (k : Kind) (f : Cycle) (q : List Event) (n : Cycle) :
      Writes s (.schedSchedule k f) { s with queue := q, nextSeq := n }
  | access {i : Instr} {x : Cpu} (bus : requesterOf i = some x) (l : PerCpu (Option Nat)) (tr : List TraceRecord) :
      Writes s i { s with last := l, trace := tr }
  | store (x : Cpu) (w : Width) (priv : Bool) (a d : Word) (l : PerCpu (Option Nat)) (m : Memory) :
      Writes s (.busWrite x w priv a d) { s with last := l, backing := m }
  | latch (x : Cpu) (src : BitVec 5) : Writes s (.icRequest x src) (latchSource x src s)
  | clear (x : Cpu) (src : BitVec 5) : Writes s (.icAck x src) (clearSource x src s)
  | enables (x : Cpu) (mask : Word) : Writes s (.icSetIe x mask) { s with ie := setPerCpu s.ie x mask }
  | master (x : Cpu) (val : Bool) : Writes s (.icSetIme x val) { s with ime := setPerCpu s.ime x val }
  | advance {u : State} (T : Cycle) (rel : AdvanceRel s u) : Writes s (.schedAdvance T) u
  | steps {i : Instr} {u : State} (clk : stepsCpus i) (rel : ClockRel s u) : Writes s i u

/-- Command i of s writes, then sends its one response (30_encoding.md R116), which leaves t. -/
def WritesThenAnswers (i : Instr) (s t : State) : Prop := ∃ st ws u, t = answer st ws u ∧ Writes s i u

/-- An access writes the trackers and the trace; only a write stores bytes. -/
theorem accessEffect_writes (x : Cpu) (k : AccessKind) (w : Width) (priv : Bool) (addr data : Word) (s : State) :
    ∃ st ws u, accessEffect x k w priv addr data s = answer st ws u ∧
      ((∃ l tr, u = { s with last := l, trace := tr }) ∨ k = .write ∧ ∃ l m, u = { s with last := l, backing := m }) := by
  simp only [accessEffect]
  split
  · exact ⟨_, _, _, rfl, .inl ⟨_, _, rfl⟩⟩
  · exact ⟨_, _, _, rfl, .inl ⟨_, _, rfl⟩⟩
  · exact ⟨_, _, _, rfl, .inl ⟨_, _, rfl⟩⟩
  · cases k
    case write => exact ⟨_, _, _, rfl, .inr ⟨rfl, _, _, writeBytes_eq _ _ _ _⟩⟩
    all_goals exact ⟨_, _, _, rfl, .inl ⟨_, _, rfl⟩⟩

/-- BUS.READ and BUS.EXEC. -/
theorem WritesThenAnswers.access {i : Instr} {x : Cpu} (bus : requesterOf i = some x) {k : AccessKind} (hk : k ≠ .write)
    (w : Width) (priv : Bool) (addr data : Word) (s : State) :
    WritesThenAnswers i s (accessEffect x k w priv addr data s) := by
  obtain ⟨st, ws, u, e, ⟨l, tr, rfl⟩ | ⟨rfl, -⟩⟩ := accessEffect_writes x k w priv addr data s
  · exact ⟨st, ws, _, e, .access bus l tr⟩
  · exact absurd rfl hk

/-- BUS.WRITE. -/
theorem WritesThenAnswers.store (x : Cpu) (w : Width) (priv : Bool) (addr data : Word) (s : State) :
    WritesThenAnswers (.busWrite x w priv addr data) s (accessEffect x .write w priv addr data s) := by
  obtain ⟨st, ws, u, e, ⟨l, tr, rfl⟩ | ⟨-, l, m, rfl⟩⟩ := accessEffect_writes x .write w priv addr data s
  · exact ⟨st, ws, _, e, .access rfl l tr⟩
  · exact ⟨st, ws, _, e, .store x w priv addr data l m⟩

/-- SCHED.SCHEDULE. -/
theorem WritesThenAnswers.schedule (k : Kind) (f : Cycle) (s : State) :
    WritesThenAnswers (.schedSchedule k f) s (scheduleEffect k f s) := by
  obtain ⟨c, e⟩ | ⟨-, -, -, e⟩ := scheduleEffect_cases k f s
  · exact ⟨_, _, _, e, .fatal _ c⟩
  · exact ⟨_, _, _, e, .event k f _ _⟩

/-- SCHED.PEEK. -/
theorem WritesThenAnswers.peek (s : State) : WritesThenAnswers .schedPeek s (peekEffect s) := by
  unfold peekEffect
  split <;> exact ⟨_, _, _, rfl, .nothing _⟩

/-- The own rule of a command that no collaborator takes part in. -/
theorem nestedEffect_writes (i : Instr) (s : State) : WritesThenAnswers i s (nestedEffect i s) := by
  cases i
  case schedSchedule k f => exact .schedule k f s
  case schedPeek => exact .peek s
  case busRead x w priv a => exact .access rfl (by decide) w priv a 0 s
  case busExec x w priv a => exact .access rfl (by decide) w priv a 0 s
  case busWrite x w priv a d => exact .store x w priv a d s
  case icRequest x src => exact ⟨_, _, _, rfl, .latch x src⟩
  case icAck x src => exact ⟨_, _, _, rfl, .clear x src⟩
  case icSetIe x mask => exact ⟨_, _, _, rfl, .enables x mask⟩
  case icSetIme x val => exact ⟨_, _, _, rfl, .master x val⟩
  case schedAdvance => exact ⟨_, _, _, rfl, .fatal _ .illegalContext⟩
  case clkStep => exact ⟨_, _, _, rfl, .fatal _ .illegalContext⟩
  case clkRun => exact ⟨_, _, _, rfl, .fatal _ .illegalContext⟩
  all_goals exact ⟨_, _, _, rfl, .nothing _⟩

/-! ### Advances and CPU steps from any state

Between commands `in_dispatch` is clear (R39); in a state where it is set, `advance_to` is refused at once. -/

theorem advanceTo_inDispatch {s : State} (h : s.inDispatch = true) (T : Cycle) :
    advanceTo T s = .ok (setFatal .illegalContext s, 0) := by
  simp [advanceTo, h]

theorem cpuStep_inDispatch {s : State} (h : s.inDispatch = true) (x : Cpu) :
    cpuStep x s = .ok (setFatal .illegalContext s, none) := by
  simp [cpuStep, advanceTo_inDispatch h]

theorem orchStep_inDispatch {s : State} (h : s.inDispatch = true) :
    orchStep s = .ok (setFatal .illegalContext s, none) := by
  simp [orchStep, cpuStep_inDispatch h]

theorem AdvanceRel.setFatal (c : FatalCode) (s : State) : AdvanceRel s (setFatal c s) :=
  ⟨rfl, rfl, rfl, rfl, rfl, rfl, rfl, rfl, rfl, id, fun _ => rfl, ⟨rfl, rfl, rfl, rfl, rfl, latchesKept_refl s⟩,
    BitVec.le_refl _, fun _ => BitVec.le_refl _, fun h => ⟨h.ordered, h.future, h.seqs, h.distinct, h.kinds, h.bound⟩⟩

theorem advanceTo_rel {s t : State} {T : Cycle} {n : Nat} (hf : s.fatal = none) (h : advanceTo T s = .ok (t, n)) :
    AdvanceRel s t := by
  cases hd : s.inDispatch with
  | false => exact (advanceTo_spec hd hf h).1
  | true =>
    rw [advanceTo_inDispatch hd] at h
    cases h
    exact .setFatal _ s

/-- What `orchStep_rel` says of an orchestration step between commands holds from every state. -/
theorem orchStep_rel_of_any {s t : State} {r : Option Nat} (hf : s.fatal = none) (h : orchStep s = .ok (t, r)) :
    ClockRel s t ∧ (r.isSome = true ↔ t.fatal = none) := by
  cases hd : s.inDispatch with
  | false => exact orchStep_rel hd hf h
  | true =>
    rw [orchStep_inDispatch hd] at h
    cases h
    exact ⟨.of_advance (.setFatal _ s), by simp⟩

/-- What `runLoop_rel` says of a run between commands holds from every state. -/
theorem runLoop_rel_of_any {fuel k : Nat} {target : Cycle} {s t : State} {r : Option Nat} (hf : s.fatal = none)
    (h : runLoop fuel target k s = .ok (t, r)) : ClockRel s t ∧ (r.isSome = true ↔ t.fatal = none) := by
  cases hd : s.inDispatch with
  | false => exact runLoop_rel hd hf h
  | true =>
    cases fuel with
    | zero => cases h; exact ⟨.refl s, by simp [hf]⟩
    | succ fuel =>
      simp only [runLoop, orchStep_inDispatch hd] at h
      split at h
      · cases h; exact ⟨.of_advance (.setFatal _ s), by simp⟩
      · cases h; exact ⟨.refl s, by simp [hf]⟩

/-! ### Every command writes, then answers -/

theorem WritesThenAnswers.answerFatal {i : Instr} {s u : State} (h : Writes s i u) (hu : u.fatal.isSome = true) :
    WritesThenAnswers i s (answerFatal u) := by
  obtain ⟨c, -, e⟩ := answerFatal_of_isSome hu
  exact ⟨_, _, u, e, h⟩

/-- SCHED.ADVANCE. -/
theorem advanceEffect_writes {s t : State} {T : Cycle} (hf : s.fatal = none) (h : advanceEffect T s = .next t) :
    WritesThenAnswers (.schedAdvance T) s t := by
  unfold advanceEffect at h
  cases ha : advanceTo T s with
  | error f => rw [ha] at h; cases h
  | ok p =>
    obtain ⟨u, n⟩ := p
    have hw : Writes s (.schedAdvance T) u := .advance T (advanceTo_rel hf ha)
    simp only [ha] at h
    split at h
    · cases h; exact .answerFatal hw ‹_›
    · cases h; exact ⟨_, _, u, rfl, hw⟩

/-- CLK.STEP and CLK.RUN: a count, or the code that stopped them. -/
theorem answerCount_writes {s t : State} {i : Instr} {r : Except Fault (State × Option Nat)} (clk : stepsCpus i)
    (hr : ∀ u k, r = .ok (u, k) → ClockRel s u ∧ (k.isSome = true ↔ u.fatal = none)) (h : answerCount r = .next t) :
    WritesThenAnswers i s t := by
  obtain f | ⟨u, k⟩ := r
  · cases h
  · obtain ⟨hrel, hfat⟩ := hr u k rfl
    cases k with
    | none =>
      cases h
      exact .answerFatal (.steps clk hrel) (by simpa [Option.isSome_iff_ne_none] using hfat)
    | some n => cases h; exact ⟨_, _, u, rfl, .steps clk hrel⟩

/-- A command whose own rule runs. -/
theorem WritesThenAnswers.of_runs {i : Instr} {s t : State} (hr : commandRuns i s) (ht : turnedAway i s = none)
    (h : exec i s = .next t) : WritesThenAnswers i s t := by
  have hf : s.fatal = none := hr.1
  cases i
  case schedAdvance T =>
    simp only [exec, execSchedAdvance, ht] at h
    exact advanceEffect_writes hf h
  case clkStep =>
    simp only [exec, execClkStep, ht] at h
    exact answerCount_writes trivial (fun _ _ => orchStep_rel_of_any hf) h
  case clkRun T =>
    simp only [exec, execClkRun, ht] at h
    exact answerCount_writes trivial (fun _ _ => runLoop_rel_of_any hf) h
  all_goals
    rw [exec_of_runs hr (by simp) (by simp) (by simp)] at h
    cases h
    exact nestedEffect_writes _ s

/-- Every command that has a next state writes what it may write, then answers. -/
theorem exec_writes {i : Instr} {s t : State} (h : exec i s = .next t) : WritesThenAnswers i s t := by
  obtain ⟨hr, ht⟩ | ⟨c, -, ht⟩ | ⟨-, ht⟩ := turnedAway_cases i s
  · exact .of_runs hr ht h
  · rw [exec_turnedAway ht] at h
    cases h
    exact ⟨_, _, s, rfl, .nothing i⟩
  · rw [exec_turnedAway ht] at h
    cases h
    exact ⟨_, _, _, rfl, .fatal i .illegalContext⟩

theorem latchesKept.getLsbD {s t : State} (h : latchesKept s t) (x : Cpu) (n : Nat)
    (hn : (perCpu s.iflag x).getLsbD n = true) : (perCpu t.iflag x).getLsbD n = true := by
  rw [← h x, BitVec.getLsbD_and, Bool.and_eq_true] at hn
  exact hn.1

/-- Settles O57: every command writes, then answers, and the response is in none of these fields. -/
theorem onlyTheseCommandsWrite : Obligations.OnlyTheseCommandsWrite := by
  intro i s t h
  obtain ⟨st, ws, u, rfl, hw⟩ := exec_writes h
  simp only [answer_regions, answer_cfg, answer_ctx, answer_tFast, answer_tSlow, answer_lead, answer_now, answer_queue,
    answer_nextSeq, answer_backing, answer_last, answer_trace, answer_ie, answer_ime, answer_iflag]
  cases hw with
  | nothing => simp
  | fatal => simp
  | event => simp
  | access bus => simp [bus]
  | store => simp [requesterOf]
  | latch x src => simpa using fun _ => (latchesKept_latchSource x src s).getLsbD
  | clear => simp
  | enables => simp
  | master => simp
  | advance T rel =>
    have lim := rel.limits
    simpa [rel.regions, rel.cfg, rel.ctx, rel.tFast, rel.tSlow, rel.lead, lim.ie, lim.ime, lim.backing, lim.last,
      lim.trace] using fun _ => lim.latches.getLsbD
  | steps clk rel => simp [rel.regions, rel.cfg, rel.ctx, clk]

/-! ### One controller and the other (R53) -/

theorem setPerCpu_self {α : Type} (p : PerCpu α) (x : Cpu) : setPerCpu p x (perCpu p x) = p := by
  cases x <;> rfl

theorem setPerCpu_comm {α : Type} (p : PerCpu α) {x y : Cpu} (h : y ≠ x) (v w : α) :
    setPerCpu (setPerCpu p y w) x v = setPerCpu (setPerCpu p x v) y w := by
  cases x <;> cases y
  · exact absurd rfl h
  · rfl
  · rfl
  · exact absurd rfl h

/-- CPU y's IE, IF and IME hold e, f and m; nothing else differs. -/
def withController (y : Cpu) (e f : Word) (m : Bool) (s : State) : State :=
  { s with ie := setPerCpu s.ie y e, iflag := setPerCpu s.iflag y f, ime := setPerCpu s.ime y m }

theorem withController_self (y : Cpu) (s : State) :
    withController y (perCpu s.ie y) (perCpu s.iflag y) (perCpu s.ime y) s = s := by
  simp only [withController, setPerCpu_self]

section
variable (y : Cpu) (e f : Word) (m : Bool) (s : State)

@[simp] theorem withController_ie : (withController y e f m s).ie = setPerCpu s.ie y e := rfl

@[simp] theorem withController_iflag : (withController y e f m s).iflag = setPerCpu s.iflag y f := rfl

@[simp] theorem withController_ime : (withController y e f m s).ime = setPerCpu s.ime y m := rfl

theorem answer_withController (st : Status) (ws : List Word) :
    answer st ws (withController y e f m s) = withController y e f m (answer st ws s) := by
  unfold answer respond tell
  cases hc : s.ctx <;> simp [withController, hc] <;> rfl

theorem raiseFatal_withController (c : FatalCode) :
    raiseFatal c (withController y e f m s) = withController y e f m (raiseFatal c s) :=
  answer_withController y e f m (setFatal c s) (.fatal c) []

/-- Whether a command is turned away is a matter of FATAL and the context (30_encoding.md R126). -/
theorem turnedAway_withController (i : Instr) :
    turnedAway i (withController y e f m s) = (turnedAway i s).map (withController y e f m) := by
  have hf : (withController y e f m s).fatal = s.fatal := rfl
  have hc : (withController y e f m s).ctx = s.ctx := rfl
  unfold turnedAway answerFatal
  rw [hf, hc]
  cases s.fatal with
  | some c => simp [answer_withController]
  | none => cases permitted i s.ctx <;> simp [raiseFatal_withController]

end

section
variable {x y : Cpu} (h : y ≠ x) (e f : Word) (m : Bool) (s : State)
include h

theorem latchSource_withController (src : BitVec 5) :
    latchSource x src (withController y e f m s) = withController y e f m (latchSource x src s) := by
  simp [latchSource, withController, perCpu_setPerCpu_other _ _ _ _ h.symm, setPerCpu_comm _ h]

theorem clearSource_withController (src : BitVec 5) :
    clearSource x src (withController y e f m s) = withController y e f m (clearSource x src s) := by
  simp [clearSource, withController, perCpu_setPerCpu_other _ _ _ _ h.symm, setPerCpu_comm _ h]

theorem asserted_withController : asserted x (withController y e f m s) = asserted x s := by
  simp [asserted, pendingEnabled, perCpu_setPerCpu_other _ _ _ _ h.symm]

/-- The own rule of a command that names controller x does the same whatever the other CPU's controller holds. -/
theorem nestedEffect_withController {i : Instr} (hi : controllerOf i = some x) :
    nestedEffect i (withController y e f m s) = withController y e f m (nestedEffect i s) := by
  have other {α : Type} (p : PerCpu α) (v : α) : perCpu (setPerCpu p y v) x = perCpu p x :=
    perCpu_setPerCpu_other p y x v h.symm
  cases i <;> cases hi
  case icRequest src => simp [nestedEffect, requestEffect, latchSource_withController h, answer_withController]
  case icAck src => simp [nestedEffect, ackEffect, clearSource_withController h, answer_withController]
  case icSetIe mask =>
    simp only [nestedEffect, setIeEffect, ← answer_withController]
    simp [withController, setPerCpu_comm _ h]
  case icSetIme val =>
    simp only [nestedEffect, setImeEffect, ← answer_withController]
    simp [withController, setPerCpu_comm _ h]
  case icAsserted => simp [nestedEffect, assertedEffect, asserted_withController h, answer_withController]
  case icReadIe => simp [nestedEffect, readIeEffect, other, answer_withController]
  case icReadIf => simp [nestedEffect, readIfEffect, other, answer_withController]
  case icReadIme => simp [nestedEffect, readImeEffect, other, answer_withController]

theorem runNested_withController {i : Instr} (hi : controllerOf i = some x) :
    runNested i (withController y e f m s) = withController y e f m (runNested i s) := by
  cases ht : turnedAway i s with
  | some t => rw [runNested_turnedAway ht, runNested_turnedAway (by rw [turnedAway_withController, ht]; rfl)]
  | none =>
    rw [runNested_of_not_turnedAway ht, runNested_of_not_turnedAway (by rw [turnedAway_withController, ht]; rfl),
      nestedEffect_withController h e f m s hi]

end

/-- No collaborator takes part in a command that names a controller. -/
theorem exec_of_controllerOf {i : Instr} {x : Cpu} (hi : controllerOf i = some x) (s : State) :
    exec i s = .next (runNested i s) := by
  cases i <;> cases hi <;> rfl

/-- Settles O37: the command does the same whatever the other controller holds, so that it does not read it; and with the
values held already, so that it does not write it. -/
theorem controllersAreIndependent : Obligations.ControllersAreIndependent := by
  intro i x y e f m s t hi hy ht
  rw [exec_of_controllerOf hi] at ht
  cases ht
  have kept : withController y (perCpu s.ie y) (perCpu s.iflag y) (perCpu s.ime y) (runNested i s) = runNested i s := by
    rw [← runNested_withController hy _ _ _ s hi, withController_self]
  refine ⟨?_, ?_, ?_, ?_⟩
  · rw [← kept]; simp
  · rw [← kept]; simp
  · rw [← kept]; simp
  · exact (exec_of_controllerOf hi _).trans (congrArg _ (runNested_withController hy e f m s hi))

end Sys2Proof.Machine

/-! ## Proofs: memory (20_memory.md) -/

namespace Sys2Proof.Machine

open Sys2Proof

/-! ### Resolution (R71, R74, R75) -/

theorem resolve_eq_some {rs : List Region} {a i : Nat} {r : Region} (h : resolve rs a = some (i, r)) :
    rs[i]? = some r ∧ regionContains r a = true :=
  (resolveFrom_some h).2

theorem resolve_eq_none {rs : List Region} {a : Nat} : resolve rs a = none ↔ ∀ r ∈ rs, ¬regionContains r a = true :=
  resolveFrom_none

/-- A containing region that outranks every other containing one is what the address resolves to. -/
theorem resolve_of_outranks {rs : List Region} {a i : Nat} {r : Region} (hi : rs[i]? = some r)
    (hc : regionContains r a = true)
    (outranks : ∀ j q, rs[j]? = some q → regionContains q a = true → j ≠ i → q.prio.toNat < r.prio.toNat) :
    resolve rs a = some (i, r) := by
  have hmem := List.mem_of_getElem? hi
  cases hres : resolve rs a with
  | none => exact absurd hc (resolve_eq_none.mp hres r hmem)
  | some p =>
    obtain ⟨j, q⟩ := p
    obtain ⟨hj, hq⟩ := resolve_eq_some hres
    have hle : r.prio.toNat ≤ q.prio.toNat := resolveFrom_max hres r hmem hc
    have hji : j = i := by
      by_contra hne
      exact absurd (outranks j q hj hq hne) (Nat.not_lt.mpr hle)
    subst hji
    rw [hi] at hj
    cases hj
    rfl

/-- The next copy's start is not beyond any address of a copy further on. -/
theorem nextCopy_le {r : Region} (hp : 0 < r.period) {a b : Nat} (ha : r.base ≤ a) (hab : a ≤ b)
    (hb : regionOffset r b < r.size) : nextCopy r a ≤ b := by
  by_contra h
  exact nextCopy_skips hp ha hab (Nat.lt_of_not_le h) hb

/-- The search from copy to copy misses no common address, since none lies between an address and the next copy. -/
theorem overlapFrom_iff {r q : Region} (hr : 0 < r.period) (hq : 0 < q.period) {hi : Nat} :
    ∀ {f a : Nat}, r.base ≤ a → q.base ≤ a → hi ≤ a + f →
      (overlapFrom f r q hi a = true ↔
        ∃ b, a ≤ b ∧ b < hi ∧ regionOffset r b < r.size ∧ regionOffset q b < q.size) := by
  intro f
  induction f with
  | zero =>
    intro a _ _ hf
    simp only [overlapFrom, Bool.false_eq_true, false_iff]
    rintro ⟨b, hab, hb, -⟩
    omega
  | succ f ih =>
    intro a hra hqa hf
    have hr1 := nextCopy_ge r a
    have hq1 := nextCopy_ge q (nextCopy r a)
    rw [overlapFrom]
    split
    · simp only [Bool.false_eq_true, false_iff]
      rintro ⟨b, hab, hb, -⟩
      omega
    · rename_i hlt
      simp only
      split
      · rename_i hstay
        have hra' : nextCopy r a = a := by omega
        have hqa' : nextCopy q a = a := by rwa [hra'] at hstay
        exact iff_of_true rfl
          ⟨a, le_refl a, Nat.lt_of_not_le hlt, (nextCopy_eq_iff hr a).mp hra', (nextCopy_eq_iff hq a).mp hqa'⟩
      · rename_i hmove
        rw [ih (by omega) (by omega) (by omega)]
        constructor
        · rintro ⟨b, hab, hb⟩
          exact ⟨b, by omega, hb⟩
        · rintro ⟨b, hab, hb, hbr, hbq⟩
          exact ⟨b, nextCopy_le hq (by omega) (nextCopy_le hr hra hab hbr) hbq, hb, hbr, hbq⟩

/-- R74's check on two well-formed windows. -/
theorem overlaps_iff {r q : Region} (hr : windowWellFormed r = true) (hq : windowWellFormed q = true) :
    overlaps r q = true ↔ ∃ a, regionContains r a = true ∧ regionContains q a = true := by
  obtain ⟨-, -, -, -, hsize, hperiod, -, -⟩ := windowWellFormed_iff.mp hr
  obtain ⟨-, -, -, -, hsize', hperiod', -, -⟩ := windowWellFormed_iff.mp hq
  rw [overlaps, overlapFrom_iff (by omega) (by omega) (le_max_left _ _) (le_max_right _ _) (by omega)]
  simp only [regionContains_iff, regionOffset, max_le_iff, lt_min_iff]
  constructor
  · rintro ⟨a, ⟨h1, h2⟩, ⟨h3, h4⟩, h5, h6⟩
    exact ⟨a, ⟨h1, h3, h5⟩, h2, h4, h6⟩
  · rintro ⟨a, ⟨h1, h3, h5⟩, h2, h4, h6⟩
    exact ⟨a, ⟨h1, h2⟩, ⟨h3, h4⟩, h5, h6⟩

/-- A well-formed window ends inside the address space (R73). -/
theorem lt_of_regionContains {r : Region} (h : windowWellFormed r = true) {a : Nat} (ha : regionContains r a = true) :
    a < 2 ^ 32 := by
  obtain ⟨-, -, -, -, -, -, -, hlimit⟩ := windowWellFormed_iff.mp h
  obtain ⟨-, hlt, -⟩ := regionContains_iff.mp ha
  omega

/-- Settles O21: the search meets every common address, and each is below the windows' limits. -/
theorem overlapCheckIsExact : Obligations.OverlapCheckIsExact := by
  intro r q hr hq
  simp only [overlaps_iff hr hq, ← regionContains_iff]
  exact exists_congr fun a => ⟨fun h => ⟨lt_of_regionContains hr h.1, h⟩, And.right⟩

/-- Where the check of R74 finds nothing, no two regions of one priority hold a common address. -/
theorem prio_ne_of_anyOverlap_eq_false {rs : List Region} (hwf : ∀ r ∈ rs, windowWellFormed r = true)
    (h : anyOverlap rs = false) {a : Nat} :
    rs.Pairwise fun r q => regionContains r a = true → regionContains q a = true → r.prio ≠ q.prio := by
  induction rs with
  | nil => exact List.Pairwise.nil
  | cons r rs ih =>
    simp only [anyOverlap, Bool.or_eq_false_iff, List.any_eq_false, Bool.and_eq_true, decide_eq_true_eq, not_and] at h
    obtain ⟨hrow, hrest⟩ := h
    simp only [List.forall_mem_cons] at hwf
    obtain ⟨hr, hrs⟩ := hwf
    refine List.Pairwise.cons (fun q hq hcr hcq hprio => ?_) (ih hrs hrest)
    exact hrow q hq hprio ((overlaps_iff hr (hrs q hq)).mpr ⟨a, hcr, hcq⟩)

/-- In a table that meets R73 and R74 the region an address resolves to outranks every other one that contains it. -/
theorem resolve_outranks {rs : List Region} (hwf : ∀ r ∈ rs, windowWellFormed r = true) (h : anyOverlap rs = false)
    {a i : Nat} {r : Region} (hres : resolve rs a = some (i, r)) {j : Nat} {q : Region} (hj : rs[j]? = some q)
    (hq : regionContains q a = true) (hne : j ≠ i) : q.prio.toNat < r.prio.toNat := by
  obtain ⟨hi, hr⟩ := resolve_eq_some hres
  have hle : q.prio.toNat ≤ r.prio.toNat := resolveFrom_max hres q (List.mem_of_getElem? hj) hq
  have hpair := List.pairwise_iff_getElem.mp (prio_ne_of_anyOverlap_eq_false hwf h (a := a))
  obtain ⟨hilt, rfl⟩ := List.getElem?_eq_some_iff.mp hi
  obtain ⟨hjlt, rfl⟩ := List.getElem?_eq_some_iff.mp hj
  have hprio : rs[j].prio ≠ rs[i].prio := by
    rcases Nat.lt_or_gt_of_ne hne with hlt | hgt
    · exact hpair j i hjlt hilt hlt hq hr
    · exact (hpair i j hilt hjlt hgt hr hq).symm
  exact lt_of_le_of_ne hle fun e => hprio (BitVec.eq_of_toNat_eq e)

/-- Settles O20: resolution takes a greatest priority, and R74 makes the greatest one the only one of its rank. -/
theorem resolveFindsGreatestPriority : Obligations.ResolveFindsGreatestPriority := by
  intro rs a hwf hov _
  simp only [← regionContains_iff]
  refine ⟨resolve_eq_none, fun i r => ⟨fun hres => ?_, fun ⟨hi, hr, outranks⟩ => resolve_of_outranks hi hr outranks⟩⟩
  obtain ⟨hi, hr⟩ := resolve_eq_some hres
  exact ⟨hi, hr, fun j q hj hq hne => resolve_outranks hwf hov hres hj hq hne⟩

/-! ### The aligned address (R76, R79, R80) -/

/-- Shifting right and back drops the low bits. -/
theorem toNat_shiftRight_shiftLeft (addr : Word) (n : Nat) : (addr >>> n <<< n).toNat = addr.toNat / 2 ^ n * 2 ^ n := by
  have hlt : addr.toNat / 2 ^ n * 2 ^ n < 2 ^ 32 := lt_of_le_of_lt (Nat.div_mul_le_self _ _) addr.isLt
  rw [BitVec.toNat_shiftLeft, BitVec.toNat_ushiftRight, Nat.shiftLeft_eq, Nat.shiftRight_eq_div_pow,
    Nat.mod_eq_of_lt hlt]

theorem alignDown_toNat (w : Width) (addr : Word) :
    (alignDown w addr).toNat = addr.toNat / widthBytes w * widthBytes w := by
  cases w with
  | byte => simp [alignDown, widthBytes]
  | half =>
    have h : alignDown .half addr = addr >>> 1 <<< 1 := by
      ext i hi; interval_cases i <;> simp [alignDown]
    rw [h]; exact toNat_shiftRight_shiftLeft addr 1
  | word =>
    have h : alignDown .word addr = addr >>> 2 <<< 2 := by
      ext i hi; interval_cases i <;> simp [alignDown]
    rw [h]; exact toNat_shiftRight_shiftLeft addr 2

/-- An aligned access lies in one 4-byte block. -/
theorem alignDown_block (w : Width) (addr : Word) : (alignDown w addr).toNat % 4 + widthBytes w ≤ 4 := by
  rw [alignDown_toNat]
  cases w <;> simp only [widthBytes] <;> omega

/-- Two addresses of one 4-byte block lie in the same well-formed regions. -/
theorem regionContains_in_block {r : Region} (h : windowWellFormed r = true) {a k : Nat} (hk : a % 4 + k < 4) :
    regionContains r (a + k) = regionContains r a := by
  have hb : a / 4 * 4 % 4 = 0 := by omega
  have ea : a / 4 * 4 + a % 4 = a := by omega
  have hfirst := (region_block h hb (show a % 4 < 4 by omega)).1
  have hlater := (region_block h hb hk).1
  rw [ea] at hfirst
  rw [← Nat.add_assoc, ea] at hlater
  rw [hlater, hfirst]

/-- The offset of an address inside its 4-byte block is the address's own place in the block. -/
theorem regionOffset_in_block {r : Region} (h : windowWellFormed r = true) {a k : Nat} (ha : r.base ≤ a)
    (hk : a % 4 + k < 4) :
    regionOffset r (a + k) = regionOffset r a + k ∧ regionOffset r a % 4 = a % 4 := by
  obtain ⟨hbase, -⟩ := windowWellFormed_iff.mp h
  have hb : a / 4 * 4 % 4 = 0 := by omega
  have hblock : r.base ≤ a / 4 * 4 := by omega
  have ea : a / 4 * 4 + a % 4 = a := by omega
  obtain ⟨hfirst, hmod⟩ := (region_block h hb (show a % 4 < 4 by omega)).2 hblock
  obtain ⟨hlater, -⟩ := (region_block h hb hk).2 hblock
  rw [ea] at hfirst
  rw [← Nat.add_assoc, ea] at hlater
  omega

theorem resolve_in_block {rs : List Region} (hwf : ∀ r ∈ rs, windowWellFormed r = true) {a k : Nat}
    (hk : a % 4 + k < 4) : resolve rs (a + k) = resolve rs a :=
  resolveFrom_congr fun r hr => regionContains_in_block (hwf r hr) hk

/-- Settles O22: the access lies in one 4-byte block, which regions and their copies hold whole or not at all. -/
theorem alignedAccessDoesNotStraddle : Obligations.AlignedAccessDoesNotStraddle := by
  intro rs w addr k hwf hk a
  have hblock : a % 4 + widthBytes w ≤ 4 := alignDown_block w addr
  refine ⟨resolve_in_block hwf (by omega), fun i r hres => ?_⟩
  obtain ⟨hi, hc⟩ := resolve_eq_some hres
  have hr := hwf r (List.mem_of_getElem? hi)
  obtain ⟨hbase, -, hoffset⟩ := regionContains_iff.mp hc
  obtain ⟨hnext, hmod⟩ := regionOffset_in_block hr hbase (show a % 4 + k < 4 by omega)
  obtain ⟨-, hsize, -⟩ := windowWellFormed_iff.mp hr
  have hlt : regionOffset r a < r.size := hoffset
  exact ⟨hnext, by omega⟩

/-! ### What a bus command depends on -/

/-- An access sees its address through the aligned address alone (R80). -/
theorem accessEffect_congr {w : Width} {addr addr' : Word} (h : alignDown w addr = alignDown w addr') (x : Cpu)
    (k : AccessKind) (priv : Bool) (data : Word) (s : State) :
    accessEffect x k w priv addr data s = accessEffect x k w priv addr' data s := by
  simp only [accessEffect, h]

/-- Whether a command is turned away is a matter of its row of R125, not of its operands. -/
theorem runCommand_congr {i j : Instr} {s : State} (hp : permitted i s.ctx = permitted j s.ctx) {f g : State → State}
    (hf : f s = g s) : runCommand i f s = runCommand j g s := by
  simp only [runCommand, turnedAway, hp, hf]

/-- Settles O23: the bus looks at the aligned address alone, and the quotient by the width gives it. -/
theorem misalignedBitsAreIgnored : Obligations.MisalignedBitsAreIgnored := by
  refine ⟨alignDown_toNat, fun x w priv addr addr' data s hquot => ?_⟩
  have h : alignDown w addr = alignDown w addr' := by
    apply BitVec.eq_of_toNat_eq
    rw [alignDown_toNat, alignDown_toNat, hquot]
  exact ⟨congrArg Host.Outcome.next (runCommand_congr rfl (accessEffect_congr h x .read priv 0 s)),
    congrArg Host.Outcome.next (runCommand_congr rfl (accessEffect_congr h x .write priv data s)),
    congrArg Host.Outcome.next (runCommand_congr rfl (accessEffect_congr h x .execute priv 0 s))⟩

/-! ### A permitted access performed -/

theorem commandRuns_congr {i j : Instr} {s t : State} (hp : permitted i s.ctx = permitted j s.ctx)
    (hf : t.fatal = s.fatal) (hc : t.ctx = s.ctx) (h : commandRuns i s) : commandRuns j t :=
  ⟨hf.trans h.1, by rw [hc, ← hp]; exact h.2⟩

theorem accessEffect_granted {x : Cpu} {k : AccessKind} {w : Width} {priv : Bool} {addr data : Word} {s : State} {i : Nat}
    {r : Region} (h : accessPath s.regions k priv (alignDown w addr) = .granted i r) :
    accessEffect x k w priv addr data s = grantedEffect x k w (alignDown w addr) data i r s := by
  simp only [accessEffect, h]

/-- A bus command whose own rule runs is its access. -/
theorem exec_of_access {c : Instr} {x : Cpu} {k : AccessKind} {w : Width} {priv : Bool} {addr data : Word} {s : State}
    (hc : nestedEffect c s = accessEffect x k w priv addr data s) (hx : requesterOf c = some x) (h : commandRuns c s) :
    exec c s = .next (accessEffect x k w priv addr data s) := by
  rw [← hc]
  apply exec_of_runs h
  · rintro T rfl; cases hx
  · rintro rfl; cases hx
  · rintro T rfl; cases hx

section
variable {x : Cpu} {w : Width} {priv : Bool} {addr : Word} {s : State} {i : Nat} {r : Region}
  (hres : resolve s.regions (alignDown w addr).toNat = some (i, r)) (hpriv : r.privOnly = true → priv = true)
include hres hpriv

theorem exec_busRead_granted (h : commandRuns (.busRead x w priv addr) s) (hr : r.readable = true) :
    exec (.busRead x w priv addr) s = .next (grantedEffect x .read w (alignDown w addr) 0 i r s) := by
  have hpath : accessPath s.regions .read priv (alignDown w addr) = .granted i r :=
    (accessPath_of_resolve hres hpriv).trans (if_pos hr)
  rw [exec_of_access rfl rfl h, accessEffect_granted hpath]

theorem exec_busExec_granted (h : commandRuns (.busExec x w priv addr) s) (hr : r.executable = true) :
    exec (.busExec x w priv addr) s = .next (grantedEffect x .execute w (alignDown w addr) 0 i r s) := by
  have hpath : accessPath s.regions .execute priv (alignDown w addr) = .granted i r :=
    (accessPath_of_resolve hres hpriv).trans (if_pos hr)
  rw [exec_of_access rfl rfl h, accessEffect_granted hpath]

theorem exec_busWrite_granted {data : Word} (h : commandRuns (.busWrite x w priv addr data) s)
    (hw : r.writable = true) :
    exec (.busWrite x w priv addr data) s = .next (grantedEffect x .write w (alignDown w addr) data i r s) := by
  have hpath : accessPath s.regions .write priv (alignDown w addr) = .granted i r :=
    (accessPath_of_resolve hres hpriv).trans (if_pos hw)
  rw [exec_of_access rfl rfl h, accessEffect_granted hpath]

end

/-- Settles O31: R75 gives both addresses region i, R72 one offset, and the access reads the bytes at that offset. -/
theorem mirrorsReadAlike : Obligations.MirrorsReadAlike := by
  intro x w priv addr addr' s i r a ha' hi hc hc' outranks hread hpriv hruns
  have hres : resolve s.regions a = some (i, r) :=
    resolve_of_outranks hi hc fun j q hj hq hne => outranks j q hj hne (.inl hq)
  have hres' : resolve s.regions (alignDown w addr').toNat = some (i, r) := by
    rw [ha']
    exact resolve_of_outranks hi hc' fun j q hj hq hne => outranks j q hj hne (.inr hq)
  have hoffset : regionOffset r (a + r.period) = regionOffset r a := by
    obtain ⟨hbase, -⟩ := regionContains_iff.mp hc
    rw [regionOffset, Nat.sub_add_comm hbase, Nat.add_mod_right]
    rfl
  have hexec := exec_busRead_granted hres hpriv hruns hread
  have hexec' := exec_busRead_granted hres' hpriv (commandRuns_congr rfl rfl rfl hruns) hread
  have hsame : regionOffset r (alignDown w addr').toNat = regionOffset r (alignDown w addr).toNat := by
    rw [ha']; exact hoffset
  refine ⟨hoffset, ?_, _, _, hexec⟩
  rw [hexec, hexec']
  simp only [grantedEffect, hsame]

/-! ### The bytes of a value in backing memory (R81) -/

/-- The n bytes of region i from offset o are v's low bytes, least significant first. -/
def holdsValue (s : State) (i o n : Nat) (v : Word) : Prop :=
  ∀ k < n, readBacking s i (o + k) = (v >>> (8 * k)).setWidth 8

theorem holdsValue.readBytes {s : State} {i o n : Nat} {v : Word} (h : holdsValue s i o n v) :
    readBytes s i o n = leBytes n v := by
  apply List.ext_getElem?
  intro k
  by_cases hk : k < n
  · rw [leBytes_getElem? v hk]
    simp [Machine.readBytes, hk, h k hk]
  · simp [Machine.readBytes, hk]

/-- A part of a value's bytes holds the value shifted down to that part. -/
theorem holdsValue.part {s : State} {i o n : Nat} {v : Word} (h : holdsValue s i o n v) {j m : Nat} (hj : j + m ≤ n) :
    holdsValue s i (o + j) m (v >>> (8 * j)) := by
  intro k hk
  rw [Nat.add_assoc, h (j + k) (by omega), Nat.mul_add, BitVec.shiftRight_add]

theorem holdsValue.congr {s t : State} {i o n : Nat} {v : Word} (h : holdsValue s i o n v)
    (hst : ∀ k < n, readBacking t i (o + k) = readBacking s i (o + k)) : holdsValue t i o n v :=
  fun k hk => (hst k hk).trans (h k hk)

theorem toNat_widthMask (w : Width) : (widthMask w).toNat = 2 ^ (8 * widthBytes w) - 1 := by
  cases w <;> rfl

/-- The mask keeps a value mod 2^(8n). -/
theorem and_widthMask (w : Width) (v : Word) :
    v &&& widthMask w = BitVec.ofNat 32 (v.toNat % 2 ^ (8 * widthBytes w)) := by
  apply BitVec.eq_of_toNat_eq
  have hlt : v.toNat % 2 ^ (8 * widthBytes w) < 2 ^ 32 := lt_of_le_of_lt (Nat.mod_le _ _) v.isLt
  rw [BitVec.toNat_and, toNat_widthMask, Nat.and_two_pow_sub_one_eq_mod, BitVec.toNat_ofNat, Nat.mod_eq_of_lt hlt]

theorem and_widthMask_word (v : Word) : v &&& widthMask .word = v :=
  BitVec.and_allOnes

/-- A word's upper half has no bits above the half's. -/
theorem shiftRight_16_and_widthMask_half (v : Word) : v >>> 16 &&& widthMask .half = v >>> 16 := by
  rw [and_widthMask]
  apply BitVec.eq_of_toNat_eq
  have := v.isLt
  simp [widthBytes, Nat.shiftRight_eq_div_pow]
  omega

section
variable {x : Cpu} {w : Width} {priv : Bool} {addr v : Word} {s : State} {i : Nat} {r : Region}
  (hres : resolve s.regions (alignDown w addr).toNat = some (i, r)) (hpriv : r.privOnly = true → priv = true)
  (hv : holdsValue s i (regionOffset r (alignDown w addr).toNat) (widthBytes w) v)
include hres hpriv hv

/-- A permitted read answers the value its bytes hold, cut to the width (R81, 42_bus.md R180). -/
theorem exec_busRead_of_holdsValue (h : commandRuns (.busRead x w priv addr) s) (hr : r.readable = true) :
    ∃ cost u, exec (.busRead x w priv addr) s = .next (answer .ok [v &&& widthMask w, cost] u) := by
  rw [exec_busRead_granted hres hpriv h hr]
  simp only [grantedEffect, hv.readBytes, leValue_leBytes]
  exact ⟨_, _, rfl⟩

/-- So does a permitted fetch (R94, 42_bus.md R182). -/
theorem exec_busExec_of_holdsValue (h : commandRuns (.busExec x w priv addr) s) (hr : r.executable = true) :
    ∃ cost u, exec (.busExec x w priv addr) s = .next (answer .ok [v &&& widthMask w, cost] u) := by
  rw [exec_busExec_granted hres hpriv h hr]
  simp only [grantedEffect, hv.readBytes, leValue_leBytes]
  exact ⟨_, _, rfl⟩

end

/-- What later commands see of a granted write that stored n bytes of v at offset o of region i. -/
structure Stored (i o n : Nat) (v : Word) (s t : State) : Prop where
  regions : t.regions = s.regions
  fatal : t.fatal = s.fatal
  ctx : t.ctx = s.ctx
  memory : memoryWf t.cfg t.backing = true
  bytes : holdsValue t i o n v
  others : ∀ p, p < o ∨ o + n ≤ p → readBacking t i p = readBacking s i p

/-- A run of stores, seen through the offsets of its region. -/
theorem readBacking_writeBytes {s : State} (h : risingKeys s.backing) (i o p : Nat) (bs : List Byte) :
    readBacking (writeBytes i o bs s) i p =
      if o ≤ p then bs.getD (p - o) (readBacking s i p) else readBacking s i p := by
  rw [readBacking, readCell_writeBytes i bs h]
  simp only [cellKey, Nat.add_le_add_iff_left, Nat.add_sub_add_left]
  rfl

/-- A granted write's own rule stores its data's bytes and no others. -/
theorem Stored.of_write {s : State} (h : memoryWf s.cfg s.backing = true) (x : Cpu) (w : Width) (a v : Word) (i : Nat)
    (r : Region) :
    Stored i (regionOffset r a.toNat) (widthBytes w) v s (grantedEffect x .write w a v i r s) := by
  have hrising : risingKeys (setLast x (some i) s).backing := (memoryWf_iff.mp h).1
  have hread (p : Nat) : readBacking (grantedEffect x .write w a v i r s) i p =
      if regionOffset r a.toNat ≤ p then
        (leBytes (widthBytes w) v).getD (p - regionOffset r a.toNat) (readBacking s i p) else readBacking s i p := by
    refine (readCell_congr ?_ ?_ _).trans (readBacking_writeBytes hrising i _ p _)
    · simp [grantedEffect]
    · simp [grantedEffect]
  refine ⟨?_, ?_, ?_, ?_, fun k hk => ?_, fun p hp => ?_⟩
  · simp [grantedEffect]
  · simp [grantedEffect]
  · simp [grantedEffect]
  · simpa [grantedEffect] using memoryWf_writeBytes (s := setLast x (some i) s) i _ _ h
  · rw [hread, if_pos (Nat.le_add_right _ _), Nat.add_sub_cancel_left, List.getD_eq_getElem?_getD,
      leBytes_getElem? v hk, Option.getD_some]
  · rw [hread]
    split
    · rw [List.getD_eq_getElem?_getD, List.getElem?_eq_none (by rw [leBytes_length]; omega), Option.getD_none]
    · rfl

/-- A permitted BUS.WRITE completes, with its data stored (42_bus.md R181). -/
theorem exec_busWrite_stored {x : Cpu} {w : Width} {priv : Bool} {addr v : Word} {s : State} {i : Nat} {r : Region}
    (hres : resolve s.regions (alignDown w addr).toNat = some (i, r)) (hpriv : r.privOnly = true → priv = true)
    (hm : memoryWf s.cfg s.backing = true) (h : commandRuns (.busWrite x w priv addr v) s) (hw : r.writable = true) :
    ∃ t, exec (.busWrite x w priv addr v) s = .next t ∧
      Stored i (regionOffset r (alignDown w addr).toNat) (widthBytes w) v s t :=
  ⟨_, exec_busWrite_granted hres hpriv h hw, .of_write hm x w _ v i r⟩

/-- Settles O29: the write stores v's bytes, and a read or a fetch of bytes that still hold them answers v's low bits. -/
theorem writeThenReadRoundTrip : Obligations.WriteThenReadRoundTrip := by
  intro x y w priv priv' addr v s t u i r hm hruns hres hw hpriv ht hregions hbytes
  obtain ⟨t', ht', hstored⟩ := exec_busWrite_stored hres (fun h => (hpriv h).1) hm hruns hw
  rw [ht] at ht'
  cases ht'
  have hres' : resolve u.regions (alignDown w addr).toNat = some (i, r) := by
    rw [hregions, hstored.regions, hres]
  have hv := hstored.bytes.congr hbytes
  rw [← and_widthMask]
  exact ⟨fun hr hu => exec_busRead_of_holdsValue hres' (fun h => (hpriv h).2) hv hu hr,
    fun hr hu => exec_busExec_of_holdsValue hres' (fun h => (hpriv h).2) hv hu hr⟩

/-! ### Bytes and halves of a word (R82) -/

/-- A byte put into a word at place k. -/
def withByte (v d : Word) (k : Nat) : Word := (v &&& ~~~(0xFF#32 <<< (8 * k))) ||| ((d &&& 0xFF#32) <<< (8 * k))

theorem getLsbD_0xFF (n : Nat) : (0xFF#32).getLsbD n = decide (n < 8) := by
  rw [BitVec.getLsbD_ofNat, show (0xFF : Nat) = 2 ^ 8 - 1 from rfl, Nat.testBit_two_pow_sub_one]
  have : n < 8 → n < 32 := by omega
  simpa using this

theorem byte_withByte (v d : Word) {j k : Nat} (hj : j < 4) (hk : k < 4) :
    (withByte v d k >>> (8 * j)).setWidth 8 = if j = k then d.setWidth 8 else (v >>> (8 * j)).setWidth 8 := by
  ext n hn
  have hin : 8 * j + n < 32 := by omega
  rcases lt_trichotomy j k with hlt | rfl | hgt
  · have below : 8 * j + n < 8 * k := by omega
    simp [withByte, getLsbD_0xFF, -BitVec.getLsbD_eq_getElem, hin, below, hlt.ne]
  · simp [withByte, getLsbD_0xFF, -BitVec.getLsbD_eq_getElem, hn, hin]
  · have above : ¬8 * j + n - 8 * k < 8 := by omega
    simp [withByte, getLsbD_0xFF, -BitVec.getLsbD_eq_getElem, hin, above, hgt.ne']

theorem alignDown_eq_self {w : Width} {addr : Word} (h : addr.toNat % widthBytes w = 0) : alignDown w addr = addr := by
  apply BitVec.eq_of_toNat_eq
  rw [alignDown_toNat, Nat.div_mul_cancel (Nat.dvd_of_mod_eq_zero h)]

/-- An aligned word's parts do not wrap around the address space. -/
theorem toNat_alignDown_part {w : Width} {addr : Word} (haddr : addr.toNat % 4 = 0) {k : Nat}
    (hk : k % widthBytes w = 0) (hk4 : k + widthBytes w ≤ 4) :
    (alignDown w (addr + BitVec.ofNat 32 k)).toNat = addr.toNat + k := by
  have := addr.isLt
  rw [alignDown_toNat, BitVec.toNat_add, BitVec.toNat_ofNat]
  cases w <;> simp only [widthBytes] at * <;> omega

section
variable {x : Cpu} {priv : Bool} {addr v : Word} {s : State} {i : Nat} {r : Region}
  (hwf : ∀ q ∈ s.regions, windowWellFormed q = true) (haddr : addr.toNat % 4 = 0)
  (hres : resolve s.regions addr.toNat = some (i, r))
include hwf haddr hres

/-- An access inside an aligned word reaches the word's region, at its own place in the word (R76). -/
theorem resolve_in_word {w : Width} {k : Nat} (hk : k % widthBytes w = 0) (hk4 : k + widthBytes w ≤ 4) :
    resolve s.regions (alignDown w (addr + BitVec.ofNat 32 k)).toNat = some (i, r) ∧
      regionOffset r (alignDown w (addr + BitVec.ofNat 32 k)).toNat = regionOffset r addr.toNat + k := by
  have hw : 0 < widthBytes w := by cases w <;> simp [widthBytes]
  have hblock : addr.toNat % 4 + k < 4 := by omega
  obtain ⟨hi, hc⟩ := resolve_eq_some hres
  obtain ⟨hbase, -⟩ := regionContains_iff.mp hc
  rw [toNat_alignDown_part haddr hk hk4]
  exact ⟨(resolve_in_block hwf hblock).trans hres,
    (regionOffset_in_block (hwf r (List.mem_of_getElem? hi)) hbase hblock).1⟩

/-- A permitted read inside an aligned word that holds v answers that part of v. -/
theorem exec_busRead_in_word (hpriv : r.privOnly = true → priv = true) (hr : r.readable = true)
    (hruns : commandRuns (.busRead x .word priv addr) s) (hv : holdsValue s i (regionOffset r addr.toNat) 4 v)
    {w : Width} {k : Nat} (hk : k % widthBytes w = 0) (hk4 : k + widthBytes w ≤ 4) :
    ∃ cost u, exec (.busRead x w priv (addr + BitVec.ofNat 32 k)) s =
      .next (answer .ok [(v >>> (8 * k)) &&& widthMask w, cost] u) := by
  obtain ⟨hres', hoffset⟩ := resolve_in_word hwf haddr hres hk hk4
  refine exec_busRead_of_holdsValue hres' hpriv ?_ (commandRuns_congr rfl rfl rfl hruns) hr
  rw [hoffset]
  exact hv.part hk4

end

/-- A byte stored at place k of a word leaves the word with that byte in it. -/
theorem Stored.withByte {s t : State} {i o k : Nat} {v d : Word} (h : Stored i (o + k) 1 d s t)
    (hv : holdsValue s i o 4 v) (hk : k < 4) : holdsValue t i o 4 (withByte v d k) := by
  intro j hj
  rw [byte_withByte v d hj hk]
  split
  · subst j
    simpa using h.bytes 0 Nat.one_pos
  · rw [h.others (o + j) (by omega), hv j hj]

/-- Settles O30: the written bytes hold v, a part of them holds v shifted down to it, and a byte stored among them leaves
them holding v with that byte put in. -/
theorem mixedWidthView : Obligations.MixedWidthView := by
  intro x priv addr v d k s t i r hm hwf hruns haddr hres hr hw hpriv ht hk at_
  have hword : alignDown .word addr = addr := alignDown_eq_self haddr
  obtain ⟨t₁, ht₁, stored⟩ := exec_busWrite_stored (by rw [hword]; exact hres) hpriv hm hruns hw
  rw [ht] at ht₁
  cases ht₁
  rw [hword] at stored
  have hwf₁ : ∀ q ∈ t.regions, windowWellFormed q = true := stored.regions ▸ hwf
  have hres₁ : resolve t.regions addr.toNat = some (i, r) := stored.regions ▸ hres
  have hruns₁ : commandRuns (.busRead x .word priv addr) t := commandRuns_congr rfl stored.fatal stored.ctx hruns
  have read {w : Width} {k : Nat} (hk : k % widthBytes w = 0) (hk4 : k + widthBytes w ≤ 4) :=
    exec_busRead_in_word hwf₁ haddr hres₁ hpriv hr hruns₁ stored.bytes hk hk4
  refine ⟨read (w := .byte) (Nat.mod_one k) hk, ?_, ?_, ?_⟩
  · simpa [at_, widthMask] using read (w := .half) (k := 0) rfl (by decide)
  · rw [← shiftRight_16_and_widthMask_half]
    exact read (w := .half) (k := 2) rfl (by decide)
  · obtain ⟨hresk, hoffset⟩ := resolve_in_word hwf₁ haddr hres₁ (w := .byte) (Nat.mod_one k) hk
    obtain ⟨t', ht', storedByte⟩ :=
      exec_busWrite_stored (v := d) hresk hpriv stored.memory (commandRuns_congr rfl rfl rfl hruns₁) hw
    rw [hoffset] at storedByte
    obtain ⟨cost, u, hu⟩ := exec_busRead_in_word (storedByte.regions ▸ hwf₁) haddr (storedByte.regions ▸ hres₁) hpriv hr
      (commandRuns_congr rfl storedByte.fatal storedByte.ctx hruns₁) (storedByte.withByte stored.bytes hk)
      (w := .word) (k := 0) rfl (le_refl 4)
    refine ⟨cost, u, t', ht', ?_⟩
    rw [and_widthMask_word] at hu
    simpa [withByte] using hu

end Sys2Proof.Machine

/-! ## Proofs: encoding (30_encoding.md) -/

namespace Sys2Proof.Machine

open Sys2Proof

/-! ### Header fields (R111, R118 to R122) -/

/-- A field of w bits at bit n, put back in its place, is the word under the field's mask. -/
theorem field_in_place (h : Word) (n w : Nat) :
    (h.extractLsb' n w).setWidth 32 <<< n = h &&& (BitVec.allOnes w).setWidth 32 <<< n := by
  ext i hi
  by_cases hn : i < n
  · simp [hn]
  · have : n + (i - n) = i := by omega
    simp [hn, this, hi, Bool.and_comm]

theorem bitAt_getLsbD (h : Word) (n : Nat) : bitAt (h.getLsbD n) n = h &&& 1#32 <<< n := by
  have : BitVec.ofBool (h.getLsbD n) = h.extractLsb' n 1 := by
    ext i hi
    obtain rfl : i = 0 := by omega
    simp
  rw [bitAt, this, field_in_place]
  rfl

theorem bitAt_headerCpu (h : Word) : bitAt (headerCpu h).bit 23 = h &&& 0x00800000 := by
  have : (headerCpu h).bit = h.getLsbD 23 := by unfold headerCpu cpuOfBit; cases h.getLsbD 23 <;> rfl
  rw [this]
  exact bitAt_getLsbD h 23

theorem widthOfCode_eq_some {c : BitVec 2} {w : Width} : widthOfCode c = some w ↔ c = w.code := by
  cases w <;> revert c <;> decide

theorem exists_widthOfCode {c : BitVec 2} (h : c ≠ 3) : ∃ w, widthOfCode c = some w :=
  Option.isSome_iff_exists.mp ((by decide : ∀ c : BitVec 2, c ≠ 3 → (widthOfCode c).isSome = true) c h)

theorem busFields_of_header {h : Word} {w : Width} (hw : widthOfCode (headerWidth h) = some w) :
    busFields (headerCpu h) w (headerPriv h) = h &&& 0x00F00000 := by
  rw [busFields, bitAt_headerCpu, ← widthOfCode_eq_some.mp hw, headerWidth, field_in_place, headerPriv, bitAt_getLsbD,
    ← BitVec.and_or_distrib_left, ← BitVec.and_or_distrib_left]
  rfl

theorem sourceFields_of_header (h : Word) : sourceFields (headerCpu h) (headerSrc h) = h &&& 0x009F0000 := by
  rw [sourceFields, bitAt_headerCpu, headerSrc, field_in_place, ← BitVec.and_or_distrib_left]
  rfl

/-- The bits of `unit` and `op` (R111). -/
def opcodeMask : Word := 0xFF000000

theorem and_opcodeMask (h : Word) :
    h &&& opcodeMask = BitVec.ofNat 32 ((headerUnit h).toNat <<< 28 ||| (headerOp h).toNat <<< 24) := by
  have shifted (x : BitVec 4) (n : Nat) : x.setWidth 32 <<< n = BitVec.ofNat 32 (x.toNat <<< n) :=
    BitVec.eq_of_toNat_eq (by simp [Nat.shiftLeft_eq])
  rw [BitVec.ofNat_or, ← shifted, ← shifted, headerUnit, headerOp, field_in_place, field_in_place,
    ← BitVec.and_or_distrib_left]
  rfl

theorem headerUnit_and_opcodeMask (h : Word) : headerUnit (h &&& opcodeMask) = headerUnit h := by
  rw [headerUnit, BitVec.extractLsb'_and]
  exact BitVec.and_allOnes

theorem headerOp_and_opcodeMask (h : Word) : headerOp (h &&& opcodeMask) = headerOp h := by
  rw [headerOp, BitVec.extractLsb'_and]
  exact BitVec.and_allOnes

section
variable {h mbz : Word} {u o : Nat} (hu : (headerUnit h).toNat = u) (ho : (headerOp h).toNat = o) (hm : h &&& mbz = 0)
include hu ho hm

theorem and_mask_eq : h &&& (opcodeMask ||| mbz) = BitVec.ofNat 32 (u <<< 28 ||| o <<< 24) := by
  rw [BitVec.and_or_distrib_left, hm, and_opcodeMask, hu, ho]
  exact BitVec.or_zero

/-- A header is its unit and op and the fields of its row, all other bits being zero (R111, R115). -/
theorem header_eq {fields : Word} (hf : fields = h &&& ~~~(opcodeMask ||| mbz)) :
    BitVec.ofNat 32 (u <<< 28 ||| o <<< 24) ||| fields = h := by
  rw [hf, ← and_mask_eq hu ho hm, ← BitVec.and_or_distrib_left, BitVec.or_not_self, BitVec.and_allOnes]

end

/-- No bit of a header that decodes is dropped: what is not must-be-zero stands in a field of the command (R115). -/
theorem encodeHeader_of_decode {p : Packet} {i : Instr} (h : decode p = .ok i) : encodeHeader i = p.header := by
  unfold decode at h
  simp only at h
  split at h
  -- SCHED.SCHEDULE: a kind.
  case h_1 hu ho =>
    obtain ⟨hm, h⟩ := checkMbz_eq_ok.mp h
    split at h <;> cases h
    exact header_eq hu ho hm (field_in_place p.header 16 8)
  -- The other SCHED commands, CLK.STEP, CLK.RUN and CLK.READ_LEAD: no field.
  case h_2 hu ho | h_3 hu ho | h_4 hu ho | h_19 hu ho | h_20 hu ho | h_21 hu ho =>
    obtain ⟨hm, h⟩ := checkMbz_eq_ok.mp h
    cases h
    exact header_eq (fields := 0) hu ho hm (BitVec.and_zero).symm
  -- Format B.
  case h_6 hu ho | h_7 hu ho | h_8 hu ho =>
    obtain ⟨hm, w, hw, rfl⟩ := decodeBus_eq_ok.mp h
    exact header_eq hu ho hm (busFields_of_header hw)
  -- IC.REQUEST and IC.ACK: a CPU and a source.
  case h_10 hu ho | h_11 hu ho =>
    obtain ⟨hm, h⟩ := checkMbz_eq_ok.mp h
    cases h
    exact header_eq hu ho hm (sourceFields_of_header _)
  -- IC.SET_IE, the IC reads and CLK.READ_TIME: a CPU.
  case h_12 hu ho | h_14 hu ho | h_15 hu ho | h_16 hu ho | h_17 hu ho | h_22 hu ho =>
    obtain ⟨hm, h⟩ := checkMbz_eq_ok.mp h
    cases h
    exact header_eq hu ho hm (bitAt_headerCpu _)
  -- IC.SET_IME: a CPU and a value.
  case h_13 hu ho =>
    obtain ⟨hm, h⟩ := checkMbz_eq_ok.mp h
    cases h
    rw [encodeHeader, BitVec.or_assoc, bitAt_headerCpu, headerVal, bitAt_getLsbD, ← BitVec.and_or_distrib_left]
    exact header_eq hu ho hm rfl
  all_goals cases h

/-! ### Operand words -/

/-- The command with the operand words a and b in place of its own, as far as it has operands (R113, R114). -/
def withOperands (a b : Word) : Instr → Instr
  | .schedSchedule kind _ => .schedSchedule kind (joinWords a b)
  | .schedAdvance _ => .schedAdvance (joinWords a b)
  | .busRead x w priv _ => .busRead x w priv a
  | .busWrite x w priv _ _ => .busWrite x w priv a b
  | .busExec x w priv _ => .busExec x w priv a
  | .icSetIe x _ => .icSetIe x a
  | .clkRun _ => .clkRun (joinWords a b)
  | i => i

theorem joinWords_loWord_hiWord (c : Cycle) : joinWords (loWord c) (hiWord c) = c :=
  (BitVec.extractLsb'_append_extractLsb'_eq_extractLsb' rfl).trans BitVec.extractLsb'_eq_self

theorem loWord_joinWords (a b : Word) : loWord (joinWords a b) = a := BitVec.extractLsb'_append_eq_right

theorem hiWord_joinWords (a b : Word) : hiWord (joinWords a b) = b := BitVec.extractLsb'_append_eq_left

theorem withOperands_encodeOperands (i : Instr) (rest : List Word) :
    withOperands ((encodeOperands i ++ rest).getD 0 0) ((encodeOperands i ++ rest).getD 1 0) i = i := by
  cases i <;> simp [withOperands, encodeOperands, joinWords_loWord_hiWord]

theorem encodeOperands_withOperands (a b : Word) (i : Instr) :
    encodeOperands (withOperands a b i) = [a, b].take (encodeOperands i).length := by
  cases i <;> simp [withOperands, encodeOperands, loWord_joinWords, hiWord_joinWords]

theorem checkMbz_map (f : Instr → Instr) (h mbz : Word) (k : Except DecodeError Instr) :
    (checkMbz h mbz k).map f = checkMbz h mbz (k.map f) := by
  unfold checkMbz
  split <;> rfl

theorem decodeBus_map (f : Instr → Instr) (h : Word) (k : Cpu → Width → Bool → Instr) :
    (decodeBus h k).map f = decodeBus h (fun x w priv => f (k x w priv)) := by
  unfold decodeBus
  rw [checkMbz_map]
  cases widthOfCode (headerWidth h) <;> rfl

/-- The decoder's checks look at the header alone; the operand words are only passed on (R126). -/
theorem decode_operands (h a b : Word) : decode ⟨h, a, b⟩ = (decode ⟨h, 0, 0⟩).map (withOperands a b) := by
  unfold decode
  simp only
  split
  case h_1 => rw [checkMbz_map]; split <;> rfl
  case h_6 | h_7 | h_8 => rw [decodeBus_map]; rfl
  case h_5 | h_9 | h_18 | h_23 | h_24 => rfl
  all_goals rw [checkMbz_map]; rfl

/-- The header of a well-formed command decodes to it, with whatever operand words stand behind it. -/
theorem decode_encodeHeader {i : Instr} (h : i.wellFormed = true) (a b : Word) :
    decode ⟨encodeHeader i, a, b⟩ = .ok (withOperands a b i) := by
  have zero : decode ⟨encodeHeader i, 0, 0⟩ = .ok (withOperands 0 0 i) := by
    cases i <;> simp only [encodeHeader, withOperands]
    case schedSchedule kind _ => exact (decode_schedule_packet kind 0).trans (if_pos h)
    case schedAdvance | schedPeek | schedNow | clkStep | clkRun | clkReadLead => rfl
    case busRead x w priv _ | busExec x w priv _ => cases x <;> cases w <;> cases priv <;> rfl
    case busWrite x w priv _ _ => cases x <;> cases w <;> cases priv <;> rfl
    case icRequest x src | icAck x src => cases x <;> revert src <;> decide
    case icSetIme x val => cases x <;> cases val <;> rfl
    case icAsserted x | icReadIe x | icReadIf x | icReadIme x | clkReadTime x => cases x <;> rfl
    case icSetIe x _ => cases x <;> rfl
  rw [decode_operands, zero]
  cases i <;> rfl

/-! ### The rows of the opcode table (R123) -/

/-- A row fixes unit and op, and gives its k operand words to the headers of that unit and op (R111, R113). -/
theorem opcodeRows_opcode : ∀ r ∈ opcodeRows, r.mask &&& opcodeMask = opcodeMask ∧
    operandCount r.pattern = r.operands := by
  decide

/-- Rows differ in unit or op. -/
theorem opcodeRows_pairwise : opcodeRows.Pairwise fun a b => a.pattern &&& opcodeMask ≠ b.pattern &&& opcodeMask := by
  decide

section
variable {h : Word} {r : OpcodeRow} (hr : r ∈ opcodeRows) (ha : r.accepts h)
include hr ha

theorem and_opcodeMask_of_accepts : h &&& opcodeMask = r.pattern &&& opcodeMask := by
  rw [← ha, BitVec.and_assoc, (opcodeRows_opcode r hr).1]

theorem headerUnit_of_accepts : headerUnit h = headerUnit r.pattern := by
  rw [← headerUnit_and_opcodeMask, and_opcodeMask_of_accepts hr ha, headerUnit_and_opcodeMask]

theorem headerOp_of_accepts : headerOp h = headerOp r.pattern := by
  rw [← headerOp_and_opcodeMask, and_opcodeMask_of_accepts hr ha, headerOp_and_opcodeMask]

theorem operandCount_of_accepts : operandCount h = r.operands := by
  rw [← (opcodeRows_opcode r hr).2, operandCount, operandCount, headerUnit_of_accepts hr ha, headerOp_of_accepts hr ha]

end

theorem not_accepts_both : opcodeRows.Pairwise fun a b => ∀ h, ¬(a.accepts h ∧ b.accepts h) :=
  opcodeRows_pairwise.imp_of_mem fun ha hb hne _ hab =>
    hne ((and_opcodeMask_of_accepts ha hab.1).symm.trans (and_opcodeMask_of_accepts hb hab.2))

/-- The row of each command. -/
theorem row_of_instr : (i : Instr) → Laws.Row.Statement i
  | .schedSchedule kind fire => Laws.Row.schedSchedule kind fire
  | .schedAdvance T => Laws.Row.schedAdvance T
  | .schedPeek => Laws.Row.schedPeek
  | .schedNow => Laws.Row.schedNow
  | .busRead x w priv a => Laws.Row.busRead x w priv a
  | .busWrite x w priv a d => Laws.Row.busWrite x w priv a d
  | .busExec x w priv a => Laws.Row.busExec x w priv a
  | .icRequest x src => Laws.Row.icRequest x src
  | .icAck x src => Laws.Row.icAck x src
  | .icSetIe x mask => Laws.Row.icSetIe x mask
  | .icSetIme x val => Laws.Row.icSetIme x val
  | .icAsserted x => Laws.Row.icAsserted x
  | .icReadIe x => Laws.Row.icReadIe x
  | .icReadIf x => Laws.Row.icReadIf x
  | .icReadIme x => Laws.Row.icReadIme x
  | .clkStep => Laws.Row.clkStep
  | .clkRun T => Laws.Row.clkRun T
  | .clkReadLead => Laws.Row.clkReadLead
  | .clkReadTime x => Laws.Row.clkReadTime x

theorem operandCount_encodeHeader (i : Instr) : operandCount (encodeHeader i) = (encodeOperands i).length := by
  obtain ⟨r, hr, ha, hk⟩ := row_of_instr i
  rw [hk, operandCount_of_accepts hr ha]

/-- Settles O2: the header decodes to the command whatever the operand words, and the row's k of them are read. -/
theorem decodeEncodeRoundTrip : Obligations.DecodeEncodeRoundTrip := by
  intro i rest h
  have hd : decode (packetOfWords (encodeHeader i) (encodeOperands i ++ rest)) = .ok i :=
    (decode_encodeHeader h _ _).trans (congrArg _ (withOperands_encodeOperands i rest))
  simp [encode, decodeWords, hd, operandCount_encodeHeader]

/-- Settles O3: the packet's header is the command's, and so the command is the one with the packet's operand words. -/
theorem decodedPacketIsTheEncoding : Obligations.DecodedPacketIsTheEncoding := by
  intro p i h
  have hw := decode_wellFormed h
  have hh := encodeHeader_of_decode h
  have hi : withOperands p.op1 p.op2 i = i := by
    have := decode_encodeHeader hw p.op1 p.op2
    rw [hh] at this
    exact Except.ok.inj (this.symm.trans h)
  have hk : (encodeOperands i).length = operandCount p.header := by rw [← hh, operandCount_encodeHeader]
  refine ⟨hw, hh, ?_, hk⟩
  rw [← hk, ← encodeOperands_withOperands, hi]

/-- Settles O1, by running the decoder on the eleven word lists. -/
theorem specWordsDecode : Obligations.SpecWordsDecode := by
  refine ⟨?_, ?_, ?_, ?_, ?_, ?_, ?_, ?_, ?_, ?_, ?_⟩ <;> decide

/-! ### Reserved headers (R124) -/

/-- A BUS command that decodes has one of the three widths. -/
theorem headerWidth_of_decode {p : Packet} {i : Instr} (h : decode p = .ok i) (hu : headerUnit p.header = 2) :
    headerWidth p.header ≠ 3 := by
  intro h3
  have bus (k : Cpu → Width → Bool → Instr) : decodeBus p.header k ≠ .ok i := by
    intro hb
    obtain ⟨-, w, hw, -⟩ := decodeBus_eq_ok.mp hb
    rw [h3] at hw
    cases hw
  have hu : (headerUnit p.header).toNat = 2 := congrArg BitVec.toNat hu
  simp only [decode, hu] at h
  split at h
  case h_6 | h_7 | h_8 => exact bus _ h
  case h_9 | h_24 => cases h
  all_goals omega

/-- A SCHED.SCHEDULE that decodes has a kind of the five classes. -/
theorem headerKind_of_decode {p : Packet} {i : Instr} (h : decode p = .ok i) (hu : headerUnit p.header = 1)
    (ho : headerOp p.header = 0) : kindWellFormed (headerKind p.header) = true := by
  simp only [decode, hu, ho] at h
  obtain ⟨-, h⟩ := checkMbz_eq_ok.mp h
  by_contra hk
  rw [if_neg hk] at h
  cases h

/-- A header that matches a row and has no reserved field decodes. -/
theorem decode_of_accepts {p : Packet} {r : OpcodeRow} (hr : r ∈ opcodeRows) (ha : r.accepts p.header)
    (hw : headerUnit p.header = 2 → headerWidth p.header ≠ 3)
    (hk : r.mnemonic = "SCHED.SCHEDULE" → (headerKind p.header).toNat / 32 < 5) : ∃ i, decode p = .ok i := by
  have hu := headerUnit_of_accepts hr ha
  have ho := headerOp_of_accepts hr ha
  have hm (mbz : Word) (h1 : r.mask &&& mbz = mbz) (h2 : r.pattern &&& mbz = 0) : p.header &&& mbz = 0 := by
    rw [← h1, ← BitVec.and_assoc, ha, h2]
  simp only [decode, hu, ho]
  -- The rows in order: SCHED.SCHEDULE's kind and the BUS rows' width are checked, of all others only must-be-zero bits.
  simp only [opcodeRows, List.mem_cons, List.not_mem_nil, or_false] at hr
  rcases hr with rfl | rfl | rfl | rfl | rfl | rfl | rfl | rfl | rfl | rfl | rfl | rfl | rfl | rfl | rfl | rfl | rfl |
    rfl | rfl
  · exact ⟨_, checkMbz_eq_ok.mpr ⟨hm _ rfl rfl, if_pos (decide_eq_true (hk rfl))⟩⟩
  iterate 3 · exact ⟨_, checkMbz_eq_ok.mpr ⟨hm _ rfl rfl, rfl⟩⟩
  iterate 3
    · obtain ⟨w, hw⟩ := exists_widthOfCode (hw hu)
      exact ⟨_, decodeBus_eq_ok.mpr ⟨hm _ rfl rfl, w, hw, rfl⟩⟩
  all_goals exact ⟨_, checkMbz_eq_ok.mpr ⟨hm _ rfl rfl, rfl⟩⟩

theorem opcode_of_mnemonic_schedule : ∀ r ∈ opcodeRows, r.mnemonic = "SCHED.SCHEDULE" →
    headerUnit r.pattern = 1 ∧ headerOp r.pattern = 0 := by
  decide

/-- R124's reserved headers are exactly those that do not decode. -/
theorem decode_isOk_iff (p : Packet) : (∃ i, decode p = .ok i) ↔
    ∃ r ∈ opcodeRows, r.accepts p.header ∧ (headerUnit p.header = 2 → headerWidth p.header ≠ 3) ∧
      (r.mnemonic = "SCHED.SCHEDULE" → (headerKind p.header).toNat / 32 < 5) := by
  constructor
  · rintro ⟨i, h⟩
    obtain ⟨r, hr, ha, -⟩ := row_of_instr i
    rw [encodeHeader_of_decode h] at ha
    refine ⟨r, hr, ha, headerWidth_of_decode h, fun hmn => ?_⟩
    obtain ⟨hu, ho⟩ := opcode_of_mnemonic_schedule r hr hmn
    rw [← headerUnit_of_accepts hr ha] at hu
    rw [← headerOp_of_accepts hr ha] at ho
    exact of_decide_eq_true (headerKind_of_decode h hu ho)
  · rintro ⟨r, hr, ha, hw, hk⟩
    exact decode_of_accepts hr ha hw hk

/-! ### From a packet to its command (R110, R126) -/

theorem answerReserved_of_healthy {s : State} (h : s.fatal = none) :
    answerReserved s = raiseFatal .reservedEncoding s := by
  simp [answerReserved, h]

theorem issuePacket_of_reserved {p : Packet} {e : DecodeError} (h : decode p = .error e) (s : State) :
    issuePacket p s = answerReserved s := by
  simp [issuePacket, h]

theorem step_of_pending {s : State} {p : Packet} {ps : List Packet} (h : s.host.pending = p :: ps) :
    step s = runPacket p { s with host := { s.host with pending := ps } } := by
  simp [step, fetch, h]

theorem step_of_idle {s : State} (h : s.host.pending = []) : step s = .next s := by
  simp [step, fetch, h]

theorem runPacket_of_decode {p : Packet} {i : Instr} (h : decode p = .ok i) (s : State) : runPacket p s = exec i s := by
  simp [runPacket, h]

theorem runPacket_of_reserved {p : Packet} {e : DecodeError} (h : decode p = .error e) (s : State) :
    runPacket p s = .next (answerReserved s) := by
  simp [runPacket, h]

/-- Settles O4: a row and the checks on its fields say what the decoder lets through, and a reserved packet never
reaches a command's own rule. -/
theorem reservedEncodingsAreFatal : Obligations.ReservedEncodingsAreFatal := by
  refine ⟨decode_isOk_iff, not_accepts_both, fun _ _ hr ha => operandCount_of_accepts hr ha, ?_⟩
  intro p e s hd hf
  refine ⟨?_, fun ps hp => ?_⟩
  · rw [issuePacket_of_reserved hd]
    exact answerReserved_of_healthy hf
  · rw [step_of_pending hp, runPacket_of_reserved hd]
    exact congrArg Host.Outcome.next (answerReserved_of_healthy hf)

/-- Settles O5: the packet is fetched, decoded and executed. -/
theorem stepRunsDecodedInstruction : Obligations.StepRunsDecodedInstruction :=
  ⟨fun _ _ _ _ hp hd => by rw [step_of_pending hp, runPacket_of_decode hd], fun _ => step_of_idle⟩

/-- Settles O6: in context HOST the response goes to the port, in the two others it is told to the collaborator. -/
theorem responsesGoToTheIssuer : Obligations.ResponsesGoToTheIssuer := by
  intro st ws s
  refine ⟨answer_eq_host st ws s, fun x hx => ?_, fun hh => ?_⟩
  · rw [answer_eq_tell st ws s (by simp [hx])]
    simp [tell, hx]
  · rw [answer_eq_tell st ws s (by simp [hh])]
    simp [tell, hh]

/-- Settles O8: the matrix is read off `permitted`, and a command that it forbids is turned away. -/
theorem contextMatrix : Obligations.ContextMatrix := by
  refine ⟨fun c => by simp [permitted], fun i s hf hp => ?_⟩
  have ht : turnedAway i s = some (raiseFatal .illegalContext s) := by simp [turnedAway, hf, hp]
  exact exec_turnedAway ht

/-- Settles O42: `executeInstruction_spec` holds all of it, the kept latches as words. -/
theorem cpuStepIsolation : Obligations.CpuStepIsolation := by
  intro x y s t r hf hy h
  obtain ⟨hrel, hnow, hfast, hslow, hlead, hlim, -, hres⟩ := executeInstruction_spec hf h
  refine ⟨hnow, hfast, hslow, hlead, hrel.inDispatch, hrel.regions, hrel.cfg, hrel.ctx, hrel.host, hlim.ie y hy,
    hlim.ime y hy, hlim.last y hy, fun n hn => ?_, hres⟩
  rw [← hlim.latches y hy, BitVec.getLsbD_and, Bool.and_eq_true] at hn
  exact hn.1

/-! ### Pseudo-commands (R128) -/

/-- The pseudo-command once SCHED.NOW has answered the time (R128; log 19). -/
theorem scheduleInMove_eq {s : State} (h : s.fatal = none) (kind : Kind) (d : Cycle) :
    scheduleInMove kind d s =
      if 2 ^ 64 ≤ s.now.toNat + d.toNat then raiseFatal .cycleOverflow (answer .ok (cycleWords s.now) s)
      else issuePacket (encodePacket (.schedSchedule kind (s.now + d))) (answer .ok (cycleWords s.now) s) := by
  rw [scheduleInMove, scheduleInWith, issue_now h, scheduleAfter, answer_now]

/-- Settles O19: the second half sees the time the first has answered, and its packet decodes, the kind being a good
one. -/
theorem scheduleInIsNowThenSchedule : Obligations.ScheduleInIsNowThenSchedule := by
  intro kind d s hf hk heard
  rw [scheduleInMove_eq hf]
  constructor
  · intro hle
    rw [if_pos hle]
    rfl
  · intro hlt
    have hd := (decode_schedule_packet kind (s.now + d)).trans (if_pos hk)
    rw [if_neg (by omega), issuePacket_of_decode hd, ← BitVec.toNat_add_of_lt hlt, BitVec.ofNat_toNat]
    rfl

/-- The word of the bits named in a list. -/
def sourceBits (ns : List Nat) : Word := ns.foldr (fun n m => sourceBit (BitVec.ofNat 5 n) ||| m) 0

theorem sourceBits_cons (n : Nat) (ns : List Nat) :
    sourceBits (n :: ns) = sourceBit (BitVec.ofNat 5 n) ||| sourceBits ns := rfl

theorem getLsbD_sourceBit {n : Nat} (hn : n < 32) (k : Nat) :
    (sourceBit (BitVec.ofNat 5 n)).getLsbD k = decide (k = n) := by
  have hmod : n % 2 ^ 5 = n := Nat.mod_eq_of_lt hn
  rw [sourceBit, BitVec.toNat_ofNat, hmod]
  exact (BitVec.getLsbD_twoPow n k).trans (by simp [hn, eq_comm])

theorem getLsbD_sourceBits {ns : List Nat} (h : ∀ n ∈ ns, n < 32) (k : Nat) :
    (sourceBits ns).getLsbD k = decide (k ∈ ns) := by
  induction ns with
  | nil => simp [sourceBits]
  | cons n ns ih =>
    rw [sourceBits_cons, BitVec.getLsbD_or, getLsbD_sourceBit (h n (by simp)), ih fun n hn => h n (by simp [hn])]
    simp

theorem sourceBits_filter (m : Word) : sourceBits ((List.range 32).filter fun n => m.getLsbD n) = m := by
  apply BitVec.eq_of_getLsbD_eq
  intro k hk
  rw [getLsbD_sourceBits (fun n hn => List.mem_range.mp (List.mem_filter.mp hn).1)]
  simp [hk]

theorem setPerCpu_setPerCpu {α : Type} (p : PerCpu α) (x : Cpu) (v w : α) :
    setPerCpu (setPerCpu p x v) x w = setPerCpu p x w := by
  cases x <;> rfl

/-- The host has cleared the bits of m in IF[x] by k commands, each answered OK. -/
def acknowledged (x : Cpu) (m : Word) (k : Nat) (s : State) : State :=
  { s with
    iflag := setPerCpu s.iflag x (perCpu s.iflag x &&& ~~~m)
    host := { s.host with responses := s.host.responses ++ List.replicate k [0] } }

theorem acknowledged_nothing (x : Cpu) (s : State) : acknowledged x 0#32 0 s = s := by
  unfold acknowledged
  rw [BitVec.not_zero, BitVec.and_allOnes, setPerCpu_self, List.replicate_zero, List.append_nil]

theorem acknowledged_acknowledged (x : Cpu) (m m' : Word) (k k' : Nat) (s : State) :
    acknowledged x m' k' (acknowledged x m k s) = acknowledged x (m ||| m') (k + k') s := by
  simp [acknowledged, setPerCpu_setPerCpu, BitVec.not_or, BitVec.and_assoc, List.replicate_append_replicate]

section
variable {s : State} (hf : s.fatal = none) (hc : s.ctx = .host)
include hf hc

theorem exec_icAck_host (x : Cpu) (src : BitVec 5) :
    exec (.icAck x src) s = .next (acknowledged x (sourceBit src) 1 s) :=
  (exec_of_runs (i := .icAck x src) ⟨hf, by rw [hc]; rfl⟩ nofun nofun nofun).trans
    (congrArg _ (answer_eq_host .ok [] _ hc))

theorem exec_icSetIe_host (x : Cpu) (mask : Word) : exec (.icSetIe x mask) s = .next
    { s with
      ie := setPerCpu s.ie x mask
      host := { s.host with responses := s.host.responses ++ [[0]] } } :=
  (exec_of_runs (i := .icSetIe x mask) ⟨hf, by rw [hc]; rfl⟩ nofun nofun nofun).trans
    (congrArg _ (answer_eq_host .ok [] _ hc))

theorem exec_icSetIme_host (x : Cpu) (val : Bool) : exec (.icSetIme x val) s = .next
    { s with
      ime := setPerCpu s.ime x val
      host := { s.host with responses := s.host.responses ++ [[0]] } } :=
  (exec_of_runs (i := .icSetIme x val) ⟨hf, by rw [hc]; rfl⟩ nofun nofun nofun).trans
    (congrArg _ (answer_eq_host .ok [] _ hc))

end

theorem runAll_cons {i : Instr} {s t : State} (h : exec i s = .next t) (is : List Instr) :
    runAll (i :: is) s = runAll is t := by
  simp [runAll, h]

/-- A row of IC.ACK commands clears the bits they name. -/
theorem runAll_icAck (x : Cpu) (ns : List Nat) {s : State} (hf : s.fatal = none) (hc : s.ctx = .host) :
    runAll (ns.map fun n => .icAck x (BitVec.ofNat 5 n)) s = some (acknowledged x (sourceBits ns) ns.length s) := by
  induction ns generalizing s with
  | nil => exact congrArg some (acknowledged_nothing x s).symm
  | cons n ns ih =>
    rw [List.map_cons, runAll_cons (exec_icAck_host hf hc x _), ih (by exact hf) (by exact hc),
      acknowledged_acknowledged, sourceBits_cons, List.length_cons, Nat.add_comm]

/-- Settles O38: the bits that IC.ACK commands for m's bits clear are m, and ic.enable is two commands. -/
theorem interruptPseudoCommands : Obligations.InterruptPseudoCommands := by
  intro x m s hf hc
  constructor
  · rw [ackMask, runAll_icAck x _ hf hc, sourceBits_filter]
    rfl
  · rw [icEnable, runAll_cons (exec_icSetIe_host hf hc x m),
      runAll_cons (exec_icSetIme_host (by exact hf) (by exact hc) x true)]
    simp [runAll]

/-! ### Truthful responses (R116, R260, R262) -/

/-- The status is fatal exactly where FATAL is set in u, and a fatal or EMPTY status has no data words. -/
structure Truthful (st : Status) (ws : List Word) (u : State) : Prop where
  fatal_iff : ∀ c, st = .fatal c ↔ u.fatal = some c
  empty : st = .empty → ws = []
  fatal : ∀ c, st = .fatal c → ws = []

/-- The command of s ends in t by sending its issuer one truthful response. -/
def AnswersTruly (s t : State) : Prop :=
  ∃ st ws u, t = answer st ws u ∧ u.host = s.host ∧ u.ctx = s.ctx ∧ Truthful st ws u

theorem AnswersTruly.ok {s u : State} (ws : List Word) (hh : u.host = s.host) (hc : u.ctx = s.ctx)
    (hf : u.fatal = none) : AnswersTruly s (answer .ok ws u) :=
  ⟨_, _, u, rfl, hh, hc, by simp [hf], nofun, nofun⟩

theorem AnswersTruly.quirk {s u : State} (q : Quirk) (ws : List Word) (hh : u.host = s.host) (hc : u.ctx = s.ctx)
    (hf : u.fatal = none) : AnswersTruly s (answer (.quirk q) ws u) :=
  ⟨_, _, u, rfl, hh, hc, by simp [hf], nofun, nofun⟩

theorem AnswersTruly.fatal {s u : State} {c : FatalCode} (hh : u.host = s.host) (hc : u.ctx = s.ctx)
    (hf : u.fatal = some c) : AnswersTruly s (answer (.fatal c) [] u) :=
  ⟨_, _, u, rfl, hh, hc, by simp [hf], nofun, fun _ _ => rfl⟩

theorem AnswersTruly.answerFatal {s u : State} (hh : u.host = s.host) (hc : u.ctx = s.ctx)
    (hf : u.fatal.isSome = true) : AnswersTruly s (answerFatal u) := by
  obtain ⟨c, hu, e⟩ := answerFatal_of_isSome hf
  rw [e]
  exact .fatal hh hc hu

theorem AnswersTruly.raiseFatal (c : FatalCode) (s : State) : AnswersTruly s (raiseFatal c s) := .fatal rfl rfl rfl

theorem AnswersTruly.access (x : Cpu) (k : AccessKind) (w : Width) (priv : Bool) (addr data : Word) {s : State}
    (hf : s.fatal = none) : AnswersTruly s (accessEffect x k w priv addr data s) := by
  simp only [accessEffect]
  split
  · exact .quirk _ _ rfl rfl hf
  · exact .quirk _ _ rfl rfl hf
  · exact .quirk _ _ rfl rfl hf
  · cases k
    case write => exact .ok _ (by simp) (by simp) (by simpa using hf)
    all_goals exact .ok _ rfl rfl hf

theorem AnswersTruly.schedule (kind : Kind) (fire : Cycle) {s : State} (hf : s.fatal = none) :
    AnswersTruly s (scheduleEffect kind fire s) := by
  obtain ⟨c, e⟩ | ⟨-, -, -, e⟩ := scheduleEffect_cases kind fire s
  · rw [e]; exact .raiseFatal c s
  · rw [e]; exact .ok _ rfl rfl hf

theorem AnswersTruly.peek {s : State} (hf : s.fatal = none) : AnswersTruly s (peekEffect s) := by
  unfold peekEffect
  split
  · exact ⟨_, _, s, rfl, rfl, rfl, by simp [hf], fun _ => rfl, nofun⟩
  · exact .ok _ rfl rfl hf

/-- The own rule of a command that no collaborator takes part in. -/
theorem AnswersTruly.nestedEffect (i : Instr) {s : State} (hf : s.fatal = none) :
    AnswersTruly s (nestedEffect i s) := by
  cases i
  case schedSchedule kind fire => exact .schedule kind fire hf
  case schedPeek => exact .peek hf
  case busRead x w priv a => exact .access x .read w priv a 0 hf
  case busWrite x w priv a d => exact .access x .write w priv a d hf
  case busExec x w priv a => exact .access x .execute w priv a 0 hf
  case schedAdvance | clkStep | clkRun => exact .raiseFatal _ s
  all_goals exact .ok _ rfl rfl hf

/-- SCHED.ADVANCE. -/
theorem AnswersTruly.advance {s t : State} {T : Cycle} (hf : s.fatal = none) (h : advanceEffect T s = .next t) :
    AnswersTruly s t := by
  unfold advanceEffect at h
  cases ha : advanceTo T s with
  | error f => rw [ha] at h; cases h
  | ok p =>
    obtain ⟨u, n⟩ := p
    have rel := advanceTo_rel hf ha
    simp only [ha] at h
    split at h
    · cases h; exact .answerFatal rel.host rel.ctx ‹_›
    · cases h; exact .ok _ rel.host rel.ctx (not_isSome ‹_›)

/-- CLK.STEP and CLK.RUN. -/
theorem AnswersTruly.count {s t : State} {r : Except Fault (State × Option Nat)}
    (hr : ∀ u k, r = .ok (u, k) → ClockRel s u ∧ (k.isSome = true ↔ u.fatal = none)) (h : answerCount r = .next t) :
    AnswersTruly s t := by
  obtain f | ⟨u, k⟩ := r
  · cases h
  · obtain ⟨rel, hfat⟩ := hr u k rfl
    cases k with
    | none => cases h; exact .answerFatal rel.host rel.ctx (by simpa [Option.isSome_iff_ne_none] using hfat)
    | some n => cases h; exact .ok _ rel.host rel.ctx (hfat.mp rfl)

/-- A command whose own rule runs. -/
theorem AnswersTruly.of_runs {i : Instr} {s t : State} (hr : commandRuns i s) (ht : turnedAway i s = none)
    (h : exec i s = .next t) : AnswersTruly s t := by
  have hf : s.fatal = none := hr.1
  cases i
  case schedAdvance T =>
    simp only [exec, execSchedAdvance, ht] at h
    exact .advance hf h
  case clkStep =>
    simp only [exec, execClkStep, ht] at h
    exact .count (fun _ _ => orchStep_rel_of_any hf) h
  case clkRun T =>
    simp only [exec, execClkRun, ht] at h
    exact .count (fun _ _ => runLoop_rel_of_any hf) h
  all_goals
    rw [exec_of_runs hr (by simp) (by simp) (by simp)] at h
    cases h
    exact .nestedEffect _ hf

theorem exec_answersTruly {i : Instr} {s t : State} (h : exec i s = .next t) : AnswersTruly s t := by
  obtain ⟨hr, ht⟩ | ⟨c, hf, ht⟩ | ⟨-, ht⟩ := turnedAway_cases i s
  · exact .of_runs hr ht h
  · rw [exec_turnedAway ht] at h
    cases h
    exact .fatal rfl rfl hf
  · rw [exec_turnedAway ht] at h
    cases h
    exact .raiseFatal _ s

theorem answerReserved_answersTruly (s : State) : AnswersTruly s (answerReserved s) := by
  cases hf : s.fatal with
  | some c =>
    rw [show answerReserved s = answerFatal s by simp [answerReserved, hf]]
    exact .answerFatal rfl rfl (by simp [hf])
  | none => rw [answerReserved_of_healthy hf]; exact .raiseFatal _ s

theorem runPacket_answersTruly {p : Packet} {s t : State} (h : runPacket p s = .next t) : AnswersTruly s t := by
  cases hd : decode p with
  | ok i => rw [runPacket_of_decode hd] at h; exact exec_answersTruly h
  | error e => rw [runPacket_of_reserved hd] at h; cases h; exact answerReserved_answersTruly s

/-- Settles O56: every command answers truly, and between commands the issuer is the host. -/
theorem oneResponsePerPacket : Obligations.OneResponsePerPacket := by
  intro s t p ps hs hp h
  rw [step_of_pending hp] at h
  obtain ⟨st, ws, u, rfl, hhost, hctx, truthful⟩ := runPacket_answersTruly h
  refine ⟨st, ws, ?_, fun c => ?_, truthful.empty, truthful.fatal⟩
  · rw [answer_eq_host st ws u (hctx.trans hs.ctxHost), hhost]
  · rw [answer_fatal]; exact truthful.fatal_iff c

end Sys2Proof.Machine

/-! ## Proofs: the scheduler (41_scheduler.md) -/

namespace Sys2Proof.Machine

open Sys2Proof

/-! ### What every step keeps (R145, R146, R151) -/

/-- Of a machine that stood between commands in s and stands so in t: the invariant holds in t, and nothing that only
grows has been taken back. -/
structure Progress (s t : State) : Prop where
  inv : MachineInv t
  now : s.now ≤ t.now
  tFast : s.tFast ≤ t.tFast
  tSlow : s.tSlow ≤ t.tSlow
  nextSeq : s.nextSeq ≤ t.nextSeq
  regions : t.regions = s.regions
  cfg : t.cfg = s.cfg
  trace : s.trace <+: t.trace
  fatal : ∀ c, s.fatal = some c → t.fatal = some c

theorem Progress.refl {s : State} (hs : MachineInv s) : Progress s s :=
  ⟨hs, BitVec.le_refl _, BitVec.le_refl _, BitVec.le_refl _, BitVec.le_refl _, rfl, rfl, ⟨[], List.append_nil _⟩,
    fun _ => id⟩

theorem Progress.answer {s t : State} (h : Progress s t) (st : Status) (ws : List Word) :
    Progress s (answer st ws t) where
  inv := h.inv.answer st ws
  now := by simpa using h.now
  tFast := by simpa using h.tFast
  tSlow := by simpa using h.tSlow
  nextSeq := by simpa using h.nextSeq
  regions := by simpa using h.regions
  cfg := by simpa using h.cfg
  trace := by simpa using h.trace
  fatal := by simpa using h.fatal

theorem Progress.answerFatal {s t : State} (h : Progress s t) : Progress s (answerFatal t) := by
  unfold Machine.answerFatal
  split
  · exact h.answer _ _
  · exact h

/-- CLK.STEP and CLK.RUN. -/
theorem Progress.count {s t : State} {r : Except Fault (State × Option Nat)} (hr : ∀ u k, r = .ok (u, k) → Progress s u)
    (h : answerCount r = .next t) : Progress s t := by
  obtain f | ⟨u, k⟩ := r
  · cases h
  · cases k with
    | none => cases h; exact (hr u none rfl).answerFatal
    | some n => cases h; exact (hr u (some n) rfl).answer _ _

section
variable {s t : State} (hs : MachineInv s) (hf : s.fatal = none)
include hs hf

theorem Progress.raiseFatal (c : FatalCode) : Progress s (raiseFatal c s) :=
  Progress.answer { Progress.refl hs with inv := hs.fatal c, fatal := by simp [hf] } _ _

/-- A stretch of CPU steps from a healthy state (44_clock.md R240). -/
theorem Progress.of_clock (h : ClockRel s t) (hl : LeadInv t) (hfast : s.tFast ≤ t.tFast) (hslow : s.tSlow ≤ t.tSlow)
    (hsettled : t.fatal = none → t.lead.toInt ≤ 0) : Progress s t where
  inv := hs.of_parts h.ctx h.inDispatch h.regions (h.sched hs.schedInv) (h.memory hs.memory) hl hsettled
  now := h.nowLe hs.schedInv
  tFast := hfast
  tSlow := hslow
  nextSeq := h.seqLe
  regions := h.regions
  cfg := h.cfg
  trace := h.trace
  fatal := by simp [hf]

/-- What moves neither CPU's time. -/
theorem Progress.of_still (h : ClockRel s t) (hfast : t.tFast = s.tFast) (hslow : t.tSlow = s.tSlow)
    (hlead : t.lead = s.lead) : Progress s t :=
  .of_clock hs hf h (hs.leadInv.congr hfast hslow hlead) (hfast ▸ BitVec.le_refl _) (hslow ▸ BitVec.le_refl _)
    (fun _ => hlead ▸ hs.leadSettled hf)

/-- SCHED.ADVANCE. -/
theorem Progress.advance {T : Cycle} (h : advanceEffect T s = .next t) : Progress s t := by
  unfold advanceEffect at h
  cases ha : advanceTo T s with
  | error f => rw [ha] at h; cases h
  | ok p =>
    obtain ⟨u, n⟩ := p
    have rel := advanceTo_rel hf ha
    have hu : Progress s u := .of_still hs hf (.of_advance rel) rel.tFast rel.tSlow rel.lead
    simp only [ha] at h
    split at h
    · cases h; exact hu.answerFatal
    · cases h; exact hu.answer _ _

theorem Progress.orchStep {k : Option Nat} (h : orchStep s = .ok (t, k)) : Progress s t := by
  obtain ⟨rel, hl, hfast, hslow, hnone, hsome⟩ := orchStep_spec hs.notDispatching hf hs.leadInv (hs.leadSettled hf) h
  refine .of_clock hs hf rel hl hfast hslow fun ht => ?_
  cases k with
  | none => simp [ht] at hnone
  | some n => exact (hsome n rfl).2.1.le

theorem Progress.runLoop {target : Cycle} {k : Option Nat} (h : runLoop (runBound target s) target 0 s = .ok (t, k)) :
    Progress s t := by
  obtain ⟨rel, hl, hfast, hslow, hnone, hsome⟩ := runLoop_spec hs.notDispatching hf hs.leadInv (hs.leadSettled hf)
    (by unfold runBound; omega) h
  refine .of_clock hs hf rel hl hfast hslow fun ht => ?_
  cases k with
  | none => simp [ht] at hnone
  | some n => exact (hsome n rfl).2.1

/-- A command that no collaborator takes part in. -/
theorem Progress.nestedEffect {i : Instr} (hw : i.wellFormed = true) : Progress s (nestedEffect i s) := by
  obtain ⟨st, ws, u, e, rel⟩ := nestedEffect_answer i hf hw
  rw [e]
  exact (Progress.of_still hs hf (.of_collab rel) rel.tFast rel.tSlow rel.lead).answer st ws

end

/-- A command whose own rule runs. -/
theorem Progress.of_runs {i : Instr} {s t : State} (hs : MachineInv s) (hw : i.wellFormed = true)
    (hr : commandRuns i s) (ht : turnedAway i s = none) (h : exec i s = .next t) : Progress s t := by
  have hf : s.fatal = none := hr.1
  cases i
  case schedAdvance T =>
    simp only [exec, execSchedAdvance, ht] at h
    exact .advance hs hf h
  case clkStep =>
    simp only [exec, execClkStep, ht] at h
    exact .count (fun _ _ => .orchStep hs hf) h
  case clkRun target =>
    simp only [exec, execClkRun, ht] at h
    exact .count (fun _ _ => .runLoop hs hf) h
  all_goals
    rw [exec_of_runs hr nofun nofun nofun] at h
    cases h
    exact .nestedEffect hs hf hw

theorem exec_progress {i : Instr} {s t : State} (hs : MachineInv s) (hw : i.wellFormed = true)
    (h : exec i s = .next t) : Progress s t := by
  obtain ⟨hr, ht⟩ | ⟨c, -, ht⟩ | ⟨hf, ht⟩ := turnedAway_cases i s
  · exact .of_runs hs hw hr ht h
  · rw [exec_turnedAway ht] at h
    cases h
    exact (Progress.refl hs).answer _ _
  · rw [exec_turnedAway ht] at h
    cases h
    exact .raiseFatal hs hf _

theorem answerReserved_progress {s : State} (hs : MachineInv s) : Progress s (answerReserved s) := by
  unfold answerReserved
  split
  · exact (Progress.refl hs).answerFatal
  · exact .raiseFatal hs ‹_› _

theorem runPacket_progress {p : Packet} {s t : State} (hs : MachineInv s) (h : runPacket p s = .next t) :
    Progress s t := by
  cases hd : decode p with
  | ok i => rw [runPacket_of_decode hd] at h; exact exec_progress hs (decode_wellFormed hd) h
  | error e => rw [runPacket_of_reserved hd] at h; cases h; exact answerReserved_progress hs

/-- Taking the packet off the port changes nothing that `Progress` looks at. -/
theorem step_progress {s t : State} (hs : MachineInv s) (h : step s = .next t) : Progress s t := by
  cases hp : s.host.pending with
  | nil => rw [step_of_idle hp] at h; cases h; exact .refl hs
  | cons p ps =>
    rw [step_of_pending hp] at h
    exact { runPacket_progress (hs.port _) h with }

/-- Settles O54: the invariant is the part of `Progress` that speaks of the state after the step. -/
theorem stepKeepsTheInvariant : Obligations.StepKeepsTheInvariant := fun _ _ hs h => (step_progress hs h).inv

/-- Settles O55: `Progress` holds all of it. -/
theorem stepsNeverTakeBack : Obligations.StepsNeverTakeBack := by
  intro s t hs h
  have p := step_progress hs h
  exact ⟨p.now, p.tFast, p.tSlow, p.nextSeq, p.regions, p.cfg, p.trace, p.fatal⟩

/-! ### Commands that answer at once (R140, R142, R143) -/

section
variable {s : State} (kind : Kind) (fire : Cycle)

/-- R140's first check. -/
theorem scheduleEffect_past (h : fire < s.now) : scheduleEffect kind fire s = raiseFatal .schedulePast s := by
  simp [scheduleEffect, scheduleError, h]

/-- R140's second check. -/
theorem scheduleEffect_full (h : s.now ≤ fire) (hfull : s.queue.length = s.cfg.queueCapacity) :
    scheduleEffect kind fire s = raiseFatal .queueFull s := by
  simp [scheduleEffect, scheduleError, BitVec.not_lt.mpr h, hfull]

/-- R140's third check. -/
theorem scheduleEffect_overflow (h : s.now ≤ fire) (hroom : s.queue.length ≠ s.cfg.queueCapacity)
    (hlast : s.nextSeq = lastSeq) : scheduleEffect kind fire s = raiseFatal .cycleOverflow s := by
  simp [scheduleEffect, scheduleError, BitVec.not_lt.mpr h, hroom, hlast]

/-- R140 where no check fails. -/
theorem scheduleEffect_ok (h : s.now ≤ fire) (hroom : s.queue.length ≠ s.cfg.queueCapacity)
    (hnum : s.nextSeq ≠ lastSeq) : scheduleEffect kind fire s = answer .ok (cycleWords s.nextSeq)
      { s with queue := insertEvent ⟨fire, kind, s.nextSeq⟩ s.queue, nextSeq := s.nextSeq + 1 } := by
  simp [scheduleEffect, scheduleError_eq_none.mpr ⟨h, hroom, hnum⟩]

end

theorem eq_lastSeq_iff {n : Cycle} : n = lastSeq ↔ n.toNat = 2 ^ 64 - 1 :=
  ⟨fun h => h ▸ lastSeq_toNat, fun h => BitVec.eq_of_toNat_eq (h.trans lastSeq_toNat.symm)⟩

theorem exec_schedSchedule {kind : Kind} {fire : Cycle} {s : State} (h : commandRuns (.schedSchedule kind fire) s) :
    exec (.schedSchedule kind fire) s = .next (scheduleEffect kind fire s) :=
  exec_of_runs h nofun nofun nofun

/-- Settles O10: the queue is the one with the event inserted, whose number is new. -/
theorem scheduleInsertsTheEvent : Obligations.ScheduleInsertsTheEvent := by
  intro kind fire s hruns hnow hroom hnum
  refine ⟨insertEvent ⟨fire, kind, s.nextSeq⟩ s.queue, ?_, fun _ => mem_insertEvent, length_insertEvent _ _,
    fun hord hold => queueOrdered_insertEvent hord fun x hx he => ?_⟩
  · rw [exec_schedSchedule hruns, scheduleEffect_ok kind fire hnow hroom (mt eq_lastSeq_iff.mp hnum)]
    rfl
  · exact BitVec.lt_irrefl _ (he ▸ hold x hx)

/-- Settles O11: each check, once those before it have passed. -/
theorem scheduleFails : Obligations.ScheduleFails := by
  intro kind fire s hruns
  simp only [exec_schedSchedule hruns]
  refine ⟨fun hpast => ?_, fun hnow hfull => ?_, fun hnow hroom hlast => ?_⟩
  · rw [scheduleEffect_past kind fire hpast]; rfl
  · rw [scheduleEffect_full kind fire hnow hfull]; rfl
  · rw [scheduleEffect_overflow kind fire hnow hroom (eq_lastSeq_iff.mpr hlast)]; rfl

theorem exec_schedPeek {s : State} (h : s.fatal = none) : exec .schedPeek s = .next (peekEffect s) :=
  exec_of_runs ⟨h, rfl⟩ nofun nofun nofun

/-- Settles O12: the head of an ordered queue has the least fire, and so has every event with the least fire. -/
theorem peekAnswersTheLeastFire : Obligations.PeekAnswersTheLeastFire := by
  intro s hf
  rw [exec_schedPeek hf]
  refine ⟨fun hq => by simp [peekEffect, hq], fun hord e he hleast => ?_⟩
  cases hq : s.queue with
  | nil => simp [hq] at he
  | cons x rest =>
    rw [hq] at hord he hleast
    have hfire : e.fire = x.fire := by
      refine BitVec.le_antisymm (hleast x (by simp)) ?_
      rcases List.mem_cons.mp he with rfl | he
      · exact BitVec.le_refl _
      · exact fire_le_of_eventBefore ((List.pairwise_cons.mp hord).1 e he)
    simp only [peekEffect, hq, hfire]
    rfl

/-- Settles O13: every context may issue them, and each is an answer. -/
theorem readsAnswerTheirField : Obligations.ReadsAnswerTheirField := by
  intro s hf
  refine ⟨?_, fun x => ?_, fun x => ?_, fun x => ?_, ?_, ?_, ?_⟩ <;>
    exact exec_of_runs ⟨hf, rfl⟩ nofun nofun nofun

/-! ### SCHED.ADVANCE (R141, R145 to R147) -/

/-- A SCHED.ADVANCE that ends without a fatal error is an advance that does, and the count. -/
theorem exec_schedAdvance_eq_next {T : Cycle} {s t : State} (hr : commandRuns (.schedAdvance T) s)
    (ht : t.fatal = none) : exec (.schedAdvance T) s = .next t ↔
      ∃ u n, advanceTo T s = .ok (u, n) ∧ u.fatal = none ∧ t = answer .ok [countWord n] u := by
  have hta : turnedAway (.schedAdvance T) s = none := by simp [turnedAway, hr.1, hr.2]
  simp only [exec, execSchedAdvance, hta, advanceEffect]
  cases advanceTo T s with
  | error f => simp
  | ok p =>
    obtain ⟨u, n⟩ := p
    cases hu : u.fatal with
    | none => simp [hu, eq_comm]
    | some c =>
      have : answerFatal u ≠ t := fun h => by simp [← h, hu] at ht
      simp [hu, this]

theorem exec_schedAdvance_of_advanceTo {T : Cycle} {s u : State} {n : Nat} (hr : commandRuns (.schedAdvance T) s)
    (h : advanceTo T s = .ok (u, n)) (hu : u.fatal = none) :
    exec (.schedAdvance T) s = .next (answer .ok [countWord n] u) :=
  (exec_schedAdvance_eq_next hr (by simpa using hu)).mpr ⟨u, n, h, hu, rfl⟩

theorem MachineInv.commandRuns {s : State} (hs : MachineInv s) (hf : s.fatal = none) (i : Instr) : commandRuns i s := by
  refine ⟨hf, ?_⟩
  rw [hs.ctxHost]
  cases i <;> rfl

/-- A loop of dispatches without a fatal error is an advance without one. -/
theorem advanceTo_of_loop {T : Cycle} {s u : State} {n : Nat} (hd : s.inDispatch = false)
    (h : advanceLoop issuePacket (dispatchBound s) T 0 { s with inDispatch := true } = .ok (u, n))
    (hu : u.fatal = none) : advanceTo T s = .ok ({ raiseNow T u with inDispatch := false }, n) := by
  simp [advanceTo, hd, h, hu]

/-- Settles O15: what the advance fired is what `advanceTo_spec` says of it, and nothing due is left. -/
theorem advanceFiringLaw : Obligations.AdvanceFiringLaw := by
  intro T s t hs hf h ht
  obtain ⟨u, n, ha, hu, rfl⟩ := (exec_schedAdvance_eq_next (hs.commandRuns hf _) ht).mp h
  obtain ⟨rel, fired, hfired, -, hend⟩ := advanceTo_spec hs.notDispatching hf ha
  obtain ⟨rfl, hleft⟩ := hend hu
  obtain ⟨hnow, hafter⟩ := hleft hs.schedInv
  have hhost : u.ctx = .host := rel.ctx.trans hs.ctxHost
  have hdue (e : Event) (he : e ∈ s.queue) : if e.fire ≤ T then e ∈ fired else e ∈ u.queue := by
    split
    · exact (hfired.old e he).resolve_right fun hu => BitVec.not_lt.mpr ‹_› (hafter e hu)
    · exact (hfired.old e he).resolve_left fun hx => absurd (hfired.due e hx) ‹_›
  rw [answer_eq_host _ _ _ hhost]
  exact ⟨fired, hfired.calls, hfired.ordered hs.schedInv, hfired.due, hdue, hfired.known, hfired.covers,
    hfired.distinct hs.schedInv, hfired.count, hafter, hnow, by rw [← rel.host]; rfl⟩

/-! ### Advances that fire nothing, and silent handlers (R141, R144) -/

/-- The loop of an advance before every pending fire makes no dispatch. -/
theorem advanceLoop_of_later {issue : Packet → State → State} {fuel n : Nat} {T : Cycle} {s : State}
    (h : ∀ e ∈ s.queue, T < e.fire) : advanceLoop issue fuel T n s = .ok (s, n) := by
  cases fuel with
  | zero => rfl
  | succ fuel =>
    cases hq : s.queue with
    | nil => simp [advanceLoop, hq]
    | cons e rest => simp [advanceLoop, hq, BitVec.not_le.mpr (h e (by simp [hq]))]

/-- The loop dispatches min(Q) where it is due, and goes on where the dispatch is not fatal. -/
theorem advanceLoop_of_due {issue : Packet → State → State} {fuel n : Nat} {T : Cycle} {s t : State} {e : Event}
    {rest : List Event} (hq : s.queue = e :: rest) (hT : e.fire ≤ T)
    (hd : dispatch issue e.kind e.fire { s with queue := rest, now := e.fire } = .ok t) (ht : t.fatal = none) :
    advanceLoop issue (fuel + 1) T n s = advanceLoop issue fuel T (n + 1) t := by
  simp [advanceLoop, hq, hT, hd, ht]

theorem raiseNow_eq (T : Cycle) (s : State) : raiseNow T s = { s with now := laterOf s.now T } := rfl

theorem laterOf_of_lt {a b : Cycle} (h : b < a) : laterOf a b = a := if_neg (by bv_omega)

/-- Settles O17: nothing is due before every pending fire, and no fire is before `now`. -/
theorem advanceBeforeEveryFire : Obligations.AdvanceBeforeEveryFire := by
  intro T s hs hf
  have key (h : ∀ e ∈ s.queue, T < e.fire) :
      exec (.schedAdvance T) s = .next (answer .ok [0] { s with now := laterOf s.now T }) := by
    have ha := advanceTo_of_loop hs.notDispatching
      (advanceLoop_of_later (issue := issuePacket) (s := { s with inDispatch := true }) h) hf
    rw [exec_schedAdvance_of_advanceTo (hs.commandRuns hf _) ha hf]
    simp [raiseNow_eq, countWord, ← hs.notDispatching]
  refine ⟨key, fun hT => ?_⟩
  rw [key fun e he => cycle_lt_of_lt_of_le hT (hs.future e he), laterOf_of_lt hT]

/-- The handler has been called for the events of a list, and has done nothing. -/
def afterCalls (es : List Event) (s : State) : State :=
  setHandler { s.collab.handler with heard := s.collab.handler.heard ++ es.map fun e => .call e.kind e.fire } s

theorem afterCalls_nil (s : State) : afterCalls [] s = s := by simp [afterCalls, setHandler]

theorem afterCalls_cons (e : Event) (es : List Event) (s : State) :
    afterCalls (e :: es) s = afterCalls es (afterCalls [e] s) := by simp [afterCalls, setHandler]

/-- As it stands the handler returns at once from every call. -/
def silentHandler (s : State) : Prop :=
  s.collab.handler.table[s.collab.handler.priv]? = some (.done s.collab.handler.priv)

theorem dispatch_silent {issue : Packet → State → State} {s : State} (h : silentHandler s) (e : Event) :
    dispatch issue e.kind e.fire s = .ok (afterCalls [e] s) :=
  dispatch_eq_ok.mpr ⟨_, h, rfl⟩

/-- The events of q with fire ≤ T. -/
def dueBy (T : Cycle) (q : List Event) : List Event := q.filter fun e => decide (e.fire ≤ T)

/-- The events of q with fire > T. -/
def pendingAfter (T : Cycle) (q : List Event) : List Event := q.filter fun e => decide (T < e.fire)

theorem dueBy_of_later {T : Cycle} {q : List Event} (h : ∀ e ∈ q, T < e.fire) : dueBy T q = [] := by
  simpa [dueBy, List.filter_eq_nil_iff] using h

theorem pendingAfter_of_later {T : Cycle} {q : List Event} (h : ∀ e ∈ q, T < e.fire) : pendingAfter T q = q := by
  simpa [pendingAfter, List.filter_eq_self] using h

theorem dueBy_cons {T : Cycle} {e : Event} (h : e.fire ≤ T) (q : List Event) : dueBy T (e :: q) = e :: dueBy T q := by
  simp [dueBy, h]

theorem pendingAfter_cons {T : Cycle} {e : Event} (h : e.fire ≤ T) (q : List Event) :
    pendingAfter T (e :: q) = pendingAfter T q := by
  simp [pendingAfter, BitVec.not_lt.mpr h]

/-- Every event of s with fire ≤ T has been dispatched to a silent handler, and `now` left at a time. -/
def dispatchedBy (T now : Cycle) (s : State) : State :=
  { afterCalls (dueBy T s.queue) s with now := now, queue := pendingAfter T s.queue }

theorem dispatchedBy_of_later {T : Cycle} {s : State} (h : ∀ e ∈ s.queue, T < e.fire) :
    dispatchedBy T s.now s = s := by
  simp [dispatchedBy, dueBy_of_later h, pendingAfter_of_later h, afterCalls_nil]

theorem dispatchedBy_of_due {T : Cycle} {s : State} {e : Event} {rest : List Event} (hq : s.queue = e :: rest)
    (hT : e.fire ≤ T) (now : Cycle) :
    dispatchedBy T now s = dispatchedBy T now (afterCalls [e] { s with queue := rest, now := e.fire }) := by
  simp [dispatchedBy, hq, dueBy_cons hT, pendingAfter_cons hT, afterCalls, setHandler]

/-- In an ordered queue nothing is due where the head is not. -/
theorem later_of_head {T : Cycle} {e : Event} {rest : List Event} (hord : queueOrdered (e :: rest)) (hT : ¬e.fire ≤ T) :
    ∀ x ∈ e :: rest, T < x.fire := by
  have he : T < e.fire := BitVec.not_le.mp hT
  intro x hx
  rcases List.mem_cons.mp hx with rfl | hx
  · exact he
  · exact cycle_lt_of_lt_of_le he (fire_le_of_eventBefore ((List.pairwise_cons.mp hord).1 x hx))

theorem laterOf_of_between {a b T : Cycle} (h : a ≤ b) (h' : b ≤ T) : laterOf b T = laterOf a T := by
  unfold laterOf
  split <;> split <;> bv_omega

/-- The loop of an advance with a silent handler: `now` ends no further than T, unless it was past T before. -/
theorem advanceLoop_silent {fuel n : Nat} {T : Cycle} {s : State} (hh : silentHandler s) (hf : s.fatal = none)
    (hord : queueOrdered s.queue) (hfut : ∀ e ∈ s.queue, s.now ≤ e.fire) (hfuel : s.queue.length ≤ fuel) :
    ∃ now, laterOf now T = laterOf s.now T ∧
      advanceLoop issuePacket fuel T n s = .ok (dispatchedBy T now s, n + (dueBy T s.queue).length) := by
  have hnone (fuel n : Nat) {s : State} (h : ∀ e ∈ s.queue, T < e.fire) : advanceLoop issuePacket fuel T n s =
      .ok (dispatchedBy T s.now s, n + (dueBy T s.queue).length) := by
    rw [advanceLoop_of_later h, dispatchedBy_of_later h, dueBy_of_later h]
    rfl
  induction fuel generalizing n s with
  | zero => exact ⟨s.now, rfl, hnone 0 n (by simp [List.length_eq_zero_iff.mp (Nat.le_zero.mp hfuel)])⟩
  | succ fuel ih =>
    cases hq : s.queue with
    | nil => exact ⟨s.now, rfl, hq ▸ hnone (fuel + 1) n (by simp [hq])⟩
    | cons e rest =>
      rw [hq] at hord hfut hfuel
      by_cases hT : e.fire ≤ T
      · obtain ⟨now, hnow, hloop⟩ := ih (n := n + 1) (s := afterCalls [e] { s with queue := rest, now := e.fire }) hh hf
          (List.pairwise_cons.mp hord).2 (fun x hx => fire_le_of_eventBefore ((List.pairwise_cons.mp hord).1 x hx))
          (Nat.le_of_succ_le_succ hfuel)
        refine ⟨now, hnow.trans (laterOf_of_between (hfut e (by simp)) hT), ?_⟩
        rw [advanceLoop_of_due hq hT (dispatch_silent (by exact hh) e) (by exact hf), hloop,
          dispatchedBy_of_due hq hT, dueBy_cons hT, List.length_cons, Nat.add_right_comm, Nat.add_assoc]
        rfl
      · exact ⟨s.now, rfl, hq ▸ hnone (fuel + 1) n (hq ▸ later_of_head hord hT)⟩

/-- Settles O14: the loop ends with everything due dispatched, and `now` is then raised to T. -/
theorem silentAdvanceExactly : Obligations.SilentAdvanceExactly := by
  intro T s hr hd hh hord hfut
  obtain ⟨now, hnow, hloop⟩ := advanceLoop_silent (fuel := dispatchBound s) (n := 0) (T := T)
    (s := { s with inDispatch := true }) hh hr.1 hord hfut (Nat.le_add_right _ _)
  rw [exec_schedAdvance_of_advanceTo hr (advanceTo_of_loop hd hloop hr.1) hr.1, Nat.zero_add]
  rw [raiseNow_eq, show (dispatchedBy T now { s with inDispatch := true }).now = now from rfl, hnow]
  simp [dispatchedBy, afterCalls, setHandler, countWord, dueBy, pendingAfter, ← hd]

/-! ### Periodic events (R149) -/

/-- As many times as an event of period P that is first due at `first` fires in an advance to T. -/
def firings (first P T : Cycle) : Nat := if first ≤ T then (T.toNat - first.toNat) / P.toNat + 1 else 0

/-- The i-th firing happens exactly where its time is not past T. -/
theorem lt_firings_iff {first P T : Cycle} (hP : 1 ≤ P) (i : Nat) :
    i < firings first P T ↔ first.toNat + i * P.toNat ≤ T.toNat := by
  have hP : 0 < P.toNat := BitVec.le_def.mp hP
  unfold firings
  split
  · have : first.toNat ≤ T.toNat := BitVec.le_def.mp ‹_›
    rw [Nat.lt_succ_iff, Nat.le_div_iff_mul_le hP]
    omega
  · have : ¬first.toNat ≤ T.toNat := mt BitVec.le_def.mpr ‹_›
    omega

/-- The time of firing i. -/
def firing (first P : Cycle) (i : Nat) : Cycle := first + BitVec.ofNat 64 (i * P.toNat)

theorem firing_zero (first P : Cycle) : firing first P 0 = first := by simp [firing]

theorem firing_succ (first P : Cycle) (i : Nat) : firing first P i + P = firing first P (i + 1) := by
  simp [firing, Nat.succ_mul, BitVec.ofNat_add, BitVec.add_assoc]

theorem firing_toNat {first P : Cycle} {i : Nat} (h : first.toNat + i * P.toNat < 2 ^ 64) :
    (firing first P i).toNat = first.toNat + i * P.toNat := by
  rw [firing, BitVec.toNat_add, BitVec.toNat_ofNat, Nat.add_mod_mod, Nat.mod_eq_of_lt h]

/-- The firing due after an earlier one of n is still a 64-bit time. -/
theorem firing_add_lt {first P : Cycle} {i n : Nat} (hfit : first.toNat + n * P.toNat < 2 ^ 64) (hi : i < n) :
    (firing first P i).toNat + P.toNat < 2 ^ 64 := by
  have hstep : (i + 1) * P.toNat ≤ n * P.toNat := Nat.mul_le_mul_right _ hi
  rw [Nat.succ_mul] at hstep
  rw [firing_toNat (by omega)]
  omega

/-- Of n firings the i-th is due by T exactly where it is not the last. -/
theorem firing_le_iff {first P T : Cycle} {i : Nat} (hP : 1 ≤ P) (hi : i ≤ firings first P T)
    (hfit : first.toNat + firings first P T * P.toNat < 2 ^ 64) : firing first P i ≤ T ↔ i < firings first P T := by
  have hmul := Nat.mul_le_mul_right P.toNat hi
  rw [lt_firings_iff hP, BitVec.le_def, firing_toNat (by omega)]

/-- `sched.schedule_in` where none of its checks fails (30_encoding.md R128). -/
theorem scheduleInMove_ok {k : Kind} {P : Cycle} {s : State} (hf : s.fatal = none) (hk : kindWellFormed k = true)
    (hsum : s.now.toNat + P.toNat < 2 ^ 64) (hroom : s.queue.length ≠ s.cfg.queueCapacity) (hnum : s.nextSeq ≠ lastSeq) :
    (scheduleInMove k P s).fatal = none ∧
      (scheduleInMove k P s).queue = insertEvent ⟨s.now + P, k, s.nextSeq⟩ s.queue ∧
      (scheduleInMove k P s).nextSeq = s.nextSeq + 1 := by
  have hd := (decode_schedule_packet k (s.now + P)).trans (if_pos hk)
  have hta : turnedAway (.schedSchedule k (s.now + P)) (answer .ok (cycleWords s.now) s) = none := by
    simp [turnedAway, hf, permitted]
  have hle : s.now ≤ s.now + P := by rw [BitVec.le_def, BitVec.toNat_add_of_lt hsum]; omega
  rw [scheduleInMove_eq hf, if_neg (by omega), issuePacket_of_decode hd, runNested_of_not_turnedAway hta, nestedEffect,
    scheduleEffect_ok k _ (by simpa using hle) (by simpa using hroom) (by simpa using hnum)]
  simp [hf]

/-- With `priv` at q the handler, called for kind k, schedules k again P cycles later and goes on to q'. -/
def schedulesAgain (table : List (Script Nat)) (k : Kind) (P : Cycle) (q q' : Nat) : Prop :=
  ∃ a, table[q]? = some a ∧ ∀ t s, runScriptWith issuePacket a (calledState k t s) =
    runScriptWith issuePacket (.scheduleIn k P (.done q')) (calledState k t s)

/-- With `priv` at q the handler, called for kind j, returns at once. -/
def ignoresKind (table : List (Script Nat)) (j : Kind) (q : Nat) : Prop :=
  ∃ a, table[q]? = some a ∧ ∀ t s, runScriptWith issuePacket a (calledState j t s) = (calledState j t s, some q)

theorem dispatch_schedulesAgain {k : Kind} {P : Cycle} {q' : Nat} {s : State} (fire : Cycle)
    (hh : schedulesAgain s.collab.handler.table k P s.collab.handler.priv q') (hf : s.fatal = none)
    (hk : kindWellFormed k = true) (hsum : s.now.toNat + P.toNat < 2 ^ 64)
    (hroom : s.queue.length ≠ s.cfg.queueCapacity) (hnum : s.nextSeq ≠ lastSeq) :
    ∃ t, dispatch issuePacket k fire s = .ok t ∧ t.fatal = none ∧ t.collab.handler.priv = q' ∧
      t.queue = insertEvent ⟨s.now + P, k, s.nextSeq⟩ s.queue ∧ t.nextSeq = s.nextSeq + 1 := by
  obtain ⟨a, ha, hrun⟩ := hh
  obtain ⟨hfu, hqu, hnu⟩ := scheduleInMove_ok (s := calledState k fire s) hf hk hsum hroom hnum
  have hscript : runScriptWith issuePacket a (calledState k fire s) =
      (scheduleInMove k P (calledState k fire s), some q') := by
    have hgood : ¬(scheduleInMove k P (calledState k fire s)).fatal.isSome = true := by simp [hfu]
    rw [hrun]
    exact if_neg hgood
  refine ⟨_, dispatch_eq_ok.mpr ⟨a, ha, rfl⟩, ?_⟩
  rw [hscript]
  exact ⟨hfu, rfl, hqu, hnu⟩

theorem dispatch_ignoresKind {j : Kind} {s : State} (fire : Cycle)
    (hh : ignoresKind s.collab.handler.table j s.collab.handler.priv) (hf : s.fatal = none) :
    ∃ t, dispatch issuePacket j fire s = .ok t ∧ t.fatal = none ∧
      t.collab.handler.priv = s.collab.handler.priv ∧ t.queue = s.queue ∧ t.nextSeq = s.nextSeq := by
  obtain ⟨a, ha, hrun⟩ := hh
  refine ⟨_, dispatch_eq_ok.mpr ⟨a, ha, rfl⟩, ?_⟩
  rw [hrun]
  exact ⟨hf, rfl, rfl, rfl⟩

/-- What every due dispatch keeps, ending without a fatal error, holds where the loop of the advance ends. -/
theorem advanceLoop_keeps {I : State → Prop} {T : Cycle}
    (hstep : ∀ s e rest, I s → s.queue = e :: rest → e.fire ≤ T →
      ∃ t, dispatch issuePacket e.kind e.fire { s with queue := rest, now := e.fire } = .ok t ∧ t.fatal = none ∧ I t)
    (fuel n : Nat) {s : State} (h : I s) : ∃ t m, advanceLoop issuePacket fuel T n s = .ok (t, m) ∧ I t := by
  induction fuel generalizing n s with
  | zero => exact ⟨s, n, rfl, h⟩
  | succ fuel ih =>
    cases hq : s.queue with
    | nil => exact ⟨s, n, by simp [advanceLoop, hq], h⟩
    | cons e rest =>
      by_cases hT : e.fire ≤ T
      · obtain ⟨t, hd, hf, ht⟩ := hstep s e rest h hq hT
        rw [advanceLoop_of_due hq hT hd hf]
        exact ih (n + 1) ht
      · exact ⟨s, n, by simp [advanceLoop, hq, hT], h⟩

/-- The handler in n periods of kind k, which it enters with `priv` at q 0, …, q n, in an advance from s: it schedules
k again, and ignores every other kind that is pending. -/
structure PeriodicHandler (k : Kind) (P : Cycle) (q : Nat → Nat) (n : Nat) (s : State) : Prop where
  again : ∀ i < n, schedulesAgain s.collab.handler.table k P (q i) (q (i + 1))
  ignores : ∀ x ∈ s.queue, x.kind ≠ k → ∀ i ≤ n, ignoresKind s.collab.handler.table x.kind (q i)

/-- In an advance from s to t the periodic event of kind k, first due at `first`, has fired i times. -/
structure FiredTimes (k : Kind) (P first : Cycle) (q : Nat → Nat) (s : State) (i : Nat) (t : State) : Prop where
  healthy : t.fatal = none
  priv : t.collab.handler.priv = q i
  seq : t.nextSeq.toNat = s.nextSeq.toNat + i
  pending : ∃ m, ⟨firing first P i, k, m⟩ ∈ t.queue ∧ ∀ x ∈ t.queue, x.kind = k → x = ⟨firing first P i, k, m⟩
  others : ∀ x ∈ t.queue, x.kind ≠ k → x ∈ s.queue
  calls : ∃ cs, callsOf t.collab.handler.heard = callsOf s.collab.handler.heard ++ cs ∧
    cs.filter (fun c => decide (c.1 = k)) = (List.range i).map (fun j => (k, firing first P j)) ∧
    ∀ c ∈ cs, c.1 = k ∨ ∃ x ∈ s.queue, x.kind = c.1

theorem FiredTimes.start {k : Kind} {P : Cycle} {q : Nat → Nat} {s : State} {e : Event} (hf : s.fatal = none)
    (hq : s.collab.handler.priv = q 0) (he : e ∈ s.queue) (hk : e.kind = k) (honly : ∀ x ∈ s.queue, x.kind = k → x = e) :
    FiredTimes k P e.fire q s 0 s where
  healthy := hf
  priv := hq
  seq := rfl
  pending := by
    subst hk
    rw [firing_zero]
    exact ⟨e.seq, he, honly⟩
  others x hx _ := hx
  calls := ⟨[], by simp⟩

section
variable {k : Kind} {P T first : Cycle} {q : Nat → Nat} {s : State} {i n : Nat} {t : State} {e : Event} {rest : List Event}

/-- Where min(Q) is the periodic event, no other event of its kind is pending. -/
theorem FiredTimes.kind_ne_of_rest (hs : SchedInv t) (h : FiredTimes k P first q s i t) (hq : t.queue = e :: rest)
    (hk : e.kind = k) : ∀ x ∈ rest, x.kind ≠ k := by
  intro x hx hxk
  obtain ⟨m, -, honly⟩ := h.pending
  have hxe : x = e := (honly x (by simp [hq, hx]) hxk).trans (honly e (by simp [hq]) hk).symm
  exact (hs.head_before hq (.inl hx)).1 (by rw [hxe])

/-- The dispatch of the periodic event, which takes it from firing i to firing i + 1. -/
theorem FiredTimes.fire (hh : PeriodicHandler k P q n s) (hfit : first.toNat + n * P.toNat < 2 ^ 64)
    (hnum : s.nextSeq.toNat + n < 2 ^ 64) (hs : SchedInv t) (htab : t.collab.handler.table = s.collab.handler.table)
    (h : FiredTimes k P first q s i t) (hi : i < n) (hq : t.queue = e :: rest) (hk : e.kind = k) :
    ∃ t', dispatch issuePacket e.kind e.fire { t with queue := rest, now := e.fire } = .ok t' ∧
      FiredTimes k P first q s (i + 1) t' := by
  have hmem : e ∈ t.queue := by simp [hq]
  obtain ⟨m, hm, honly⟩ := h.pending
  have hfire : e.fire = firing first P i := by rw [honly e hmem hk]
  have hroom : rest.length ≠ t.cfg.queueCapacity := by
    have := hs.bound
    rw [hq, List.length_cons] at this
    omega
  have hlast : t.nextSeq ≠ lastSeq := mt eq_lastSeq_iff.mp (by have := h.seq; omega)
  obtain ⟨t', hd, hf', hpriv, hqueue, hseq⟩ := dispatch_schedulesAgain (q' := q (i + 1)) e.fire
    (s := { t with queue := rest, now := e.fire }) (by rw [hk, htab, h.priv]; exact hh.again i hi) h.healthy
    (hs.kinds e hmem) (by rw [hfire]; exact firing_add_lt hfit hi) hroom hlast
  obtain ⟨-, -, hcalls, -⟩ := dispatch_spec hq h.healthy hd
  obtain ⟨cs, hcs, hfilter, hknown⟩ := h.calls
  refine ⟨t', hd, hf', hpriv, ?_, ⟨t.nextSeq, ?_, fun x hx hxk => ?_⟩, fun x hx hxk => ?_,
    cs ++ [(e.kind, e.fire)], ?_, ?_, fun c hc => ?_⟩
  · rw [hseq, succ_seq_toNat hlast, h.seq, Nat.add_assoc]
  · rw [hqueue, ← firing_succ, ← hfire, hk]
    exact mem_insertEvent.mpr (.inl rfl)
  · rw [hqueue] at hx
    rcases mem_insertEvent.mp hx with rfl | hx
    · rw [← firing_succ, ← hfire, hk]
    · exact absurd hxk (h.kind_ne_of_rest hs hq hk x hx)
  · rw [hqueue] at hx
    rcases mem_insertEvent.mp hx with rfl | hx
    · exact absurd hk hxk
    · exact h.others x (by simp [hq, hx]) hxk
  · rw [hcalls, hcs, List.append_assoc]
  · rw [List.filter_append, hfilter, List.range_succ, List.map_append, hfire]
    simp [hk]
  · rcases List.mem_append.mp hc with hc | hc
    · exact hknown c hc
    · exact .inl (by rw [List.mem_singleton.mp hc]; exact hk)

/-- The dispatch of an event of another kind. -/
theorem FiredTimes.ignore (hh : PeriodicHandler k P q n s) (htab : t.collab.handler.table = s.collab.handler.table)
    (h : FiredTimes k P first q s i t) (hi : i ≤ n) (hq : t.queue = e :: rest) (hk : e.kind ≠ k) :
    ∃ t', dispatch issuePacket e.kind e.fire { t with queue := rest, now := e.fire } = .ok t' ∧
      FiredTimes k P first q s i t' := by
  have hold : e ∈ s.queue := h.others e (by simp [hq]) hk
  obtain ⟨t', hd, hf', hpriv, hqueue, hseq⟩ := dispatch_ignoresKind e.fire
    (s := { t with queue := rest, now := e.fire }) (by rw [htab, h.priv]; exact hh.ignores e hold hk i hi) h.healthy
  obtain ⟨-, -, hcalls, -⟩ := dispatch_spec hq h.healthy hd
  obtain ⟨m, hm, honly⟩ := h.pending
  obtain ⟨cs, hcs, hfilter, hknown⟩ := h.calls
  have hsub (x : Event) (hx : x ∈ t'.queue) : x ∈ t.queue := by
    rw [hqueue] at hx
    simp [hq, show x ∈ rest from hx]
  refine ⟨t', hd, hf', hpriv.trans h.priv, by rw [hseq]; exact h.seq, ⟨m, ?_, fun x hx => honly x (hsub x hx)⟩,
    fun x hx => h.others x (hsub x hx), cs ++ [(e.kind, e.fire)], ?_, ?_, fun c hc => ?_⟩
  · rw [hqueue]
    rw [hq] at hm
    exact (List.mem_cons.mp hm).resolve_left fun he => hk (by rw [← he])
  · rw [hcalls, hcs, List.append_assoc]
  · simp [List.filter_append, hfilter, hk]
  · rcases List.mem_append.mp hc with hc | hc
    · exact hknown c hc
    · exact .inr ⟨e, hold, by rw [List.mem_singleton.mp hc]⟩

/-- The loop of an advance from s stands in t, and the periodic event has not fired more than n times. -/
def PeriodicLoop (k : Kind) (P first : Cycle) (q : Nat → Nat) (n : Nat) (s t : State) : Prop :=
  AdvanceRel { s with inDispatch := true } t ∧ ∃ i ≤ n, FiredTimes k P first q s i t

/-- Each due dispatch of the loop. -/
theorem PeriodicLoop.dispatch (hs : SchedInv s) (hP : 1 ≤ P) (hh : PeriodicHandler k P q (firings first P T) s)
    (hfit : first.toNat + firings first P T * P.toNat < 2 ^ 64) (hnum : s.nextSeq.toNat + firings first P T < 2 ^ 64)
    (h : PeriodicLoop k P first q (firings first P T) s t) (hq : t.queue = e :: rest) (hT : e.fire ≤ T) :
    ∃ t', Machine.dispatch issuePacket e.kind e.fire { t with queue := rest, now := e.fire } = .ok t' ∧
      t'.fatal = none ∧ PeriodicLoop k P first q (firings first P T) s t' := by
  obtain ⟨rel, i, hi, ht⟩ := h
  have hst : SchedInv t := rel.sched ⟨hs.ordered, hs.future, hs.seqs, hs.distinct, hs.kinds, hs.bound⟩
  by_cases hk : e.kind = k
  · obtain ⟨m, -, honly⟩ := ht.pending
    have hfire : e.fire = firing first P i := by rw [honly e (by simp [hq]) hk]
    have hlt := (firing_le_iff hP hi hfit).mp (hfire ▸ hT)
    obtain ⟨t', hd, ht'⟩ := ht.fire hh hfit hnum hst rel.table hlt hq hk
    exact ⟨t', hd, ht'.healthy, rel.trans (dispatch_spec hq ht.healthy hd).1, i + 1, hlt, ht'⟩
  · obtain ⟨t', hd, ht'⟩ := ht.ignore hh rel.table hi hq hk
    exact ⟨t', hd, ht'.healthy, rel.trans (dispatch_spec hq ht.healthy hd).1, i, hi, ht'⟩

/-- An advance to T fires a periodic event as often as `firings` says, whatever other events the handler ignores: the
loop ends with nothing due, so that the periodic event has got past T. -/
theorem advanceTo_periodic (hs : SchedInv s) (hd : s.inDispatch = false) (hP : 1 ≤ P)
    (hh : PeriodicHandler k P q (firings first P T) s) (hfit : first.toNat + firings first P T * P.toNat < 2 ^ 64)
    (hnum : s.nextSeq.toNat + firings first P T < 2 ^ 64) (h : FiredTimes k P first q s 0 s) :
    ∃ t m, advanceTo T s = .ok (t, m) ∧ FiredTimes k P first q s (firings first P T) t := by
  obtain ⟨u, m, hloop, -, i, hi, hu⟩ := advanceLoop_keeps (I := PeriodicLoop k P first q (firings first P T) s)
    (fun t e rest ht => ht.dispatch hs hP hh hfit hnum) (dispatchBound s) 0
    ⟨.refl { s with inDispatch := true }, 0, Nat.zero_le _, { h with }⟩
  have ha := advanceTo_of_loop hd hloop hu.healthy
  obtain ⟨-, fired, -, -, hend⟩ := advanceTo_spec hd h.healthy ha
  obtain ⟨-, hafter⟩ := (hend hu.healthy).2 hs
  obtain ⟨l, hl, -⟩ := hu.pending
  have hpast : ¬i < firings first P T := fun hlt =>
    BitVec.not_lt.mpr ((firing_le_iff hP hi hfit).mpr hlt) (hafter _ hl)
  obtain rfl : i = firings first P T := by omega
  exact ⟨_, m, ha, { hu with }⟩

end

section
variable {k : Kind} {P first : Cycle} {q : Nat → Nat} {s t : State} {i : Nat} (h : FiredTimes k P first q s i t)
include h

/-- Where k alone is pending, every call is one of k's. -/
theorem FiredTimes.calls_of_alone (honly : ∀ x ∈ s.queue, x.kind = k) : callsOf t.collab.handler.heard =
    callsOf s.collab.handler.heard ++ (List.range i).map (fun j => (k, firing first P j)) := by
  obtain ⟨cs, hcs, hfilter, hknown⟩ := h.calls
  have hall : cs.filter (fun c => decide (c.1 = k)) = cs := List.filter_eq_self.mpr fun c hc => by
    obtain hck | ⟨x, hx, hxc⟩ := hknown c hc
    · simpa using hck
    · simpa [← hxc] using honly x hx
  rw [hcs, ← hfilter, hall]

theorem FiredTimes.queue_of_length_one (hlen : t.queue.length = 1) : ∃ m, t.queue = [⟨firing first P i, k, m⟩] := by
  obtain ⟨x, hx⟩ := List.length_eq_one_iff.mp hlen
  obtain ⟨m, hm, -⟩ := h.pending
  rw [hx, List.mem_singleton] at hm
  exact ⟨m, by rw [hx, hm]⟩

end

/-- Settles O16: k is alone, so that the advance fires what the handler is called for, and Q holds one event again. -/
theorem periodicEventFires : Obligations.PeriodicEventFires := by
  intro k P T e q s n
  have hn : n = firings e.fire P T := rfl
  clear_value n
  subst hn
  intro hs hf hk hP hq hpriv htab hfit hnum
  have honly (x : Event) (hx : x ∈ s.queue) : x = e := by simpa [hq] using hx
  have halone (x : Event) (hx : x ∈ s.queue) : x.kind = k := honly x hx ▸ hk
  have hh : PeriodicHandler k P q (firings e.fire P T) s :=
    ⟨fun i hi => ⟨_, htab i hi, fun _ _ => rfl⟩, fun x hx hxk => absurd (halone x hx) hxk⟩
  obtain ⟨u, m, ha, hu⟩ := advanceTo_periodic hs.schedInv hs.notDispatching hP hh hfit hnum
    (.start hf hpriv (by simp [hq]) hk fun x hx _ => honly x hx)
  obtain ⟨rel, fired, hfired, -, hend⟩ := advanceTo_spec hs.notDispatching hf ha
  obtain ⟨rfl, hleft⟩ := hend hu.healthy
  have hcalls := hu.calls_of_alone halone
  have hlen : fired.length = firings e.fire P T := by
    simpa using congrArg List.length (List.append_cancel_left (hfired.calls.symm.trans hcalls))
  have hone : u.queue.length = 1 := by
    have hcount := hfired.count
    have hseq := hu.seq
    rw [hq, List.length_singleton] at hcount
    omega
  refine ⟨_, exec_schedAdvance_of_advanceTo (hs.commandRuns hf _) ha hu.healthy, by simpa using hu.healthy, ?_⟩
  rw [answer_eq_host _ _ _ (rel.ctx.trans hs.ctxHost), rel.host, hlen]
  exact ⟨hcalls, hu.queue_of_length_one hone, (hleft hs.schedInv).1, hu.priv, rfl⟩

/-- What the handler does next by the kind it was just called for. -/
theorem runScriptWith_ifKind_called {ρ : Type} {issue : Packet → State → State} (k j : Kind) (yes no : Script ρ)
    (fire : Cycle) (s : State) : runScriptWith issue (.ifKind k yes no) (calledState j fire s) =
      if j = k then runScriptWith issue yes (calledState j fire s) else runScriptWith issue no (calledState j fire s) := by
  have hcall : lastCall (heardOf (calledState j fire s)) = some (j, fire) := lastCall_append_call _ j fire
  simp [runScriptWith, hcall]

/-- Settles O60: the handler is periodic without moving on, and what is neither fired nor of kind k was pending
before. -/
theorem periodicAmongOthers : Obligations.PeriodicAmongOthers := by
  intro k P T e s n
  have hn : n = firings e.fire P T := rfl
  clear_value n
  subst hn
  intro hs hf hP he hk honly htab hfit hnum
  have hh : PeriodicHandler k P (fun _ => s.collab.handler.priv) (firings e.fire P T) s :=
    { again := fun _ _ => ⟨_, htab, fun t u => by rw [runScriptWith_ifKind_called, if_pos rfl]⟩
      ignores := fun x _ hxk _ _ => ⟨_, htab, fun t u => by rw [runScriptWith_ifKind_called, if_neg hxk]; rfl⟩ }
  obtain ⟨u, m, ha, hu⟩ := advanceTo_periodic hs.schedInv hs.notDispatching hP hh hfit hnum
    (.start hf rfl he hk honly)
  obtain ⟨rel, fired, hfired, -, hend⟩ := advanceTo_spec hs.notDispatching hf ha
  obtain ⟨hnow, hafter⟩ := (hend hu.healthy).2 hs.schedInv
  obtain ⟨cs, hcs, hfilter, -⟩ := hu.calls
  refine ⟨_, exec_schedAdvance_of_advanceTo (hs.commandRuns hf _) ha hu.healthy, by simpa using hu.healthy, ?_⟩
  rw [answer_eq_host _ _ _ (rel.ctx.trans hs.ctxHost)]
  refine ⟨?_, hu.pending, fun x hxk => ⟨fun hx => ?_, ?_⟩, hnow⟩
  · exact (congrArg _ hcs).trans ((List.filter_append _ _).trans (congrArg _ hfilter))
  · exact ⟨hu.others x hx hxk, hafter x hx⟩
  · rintro ⟨hx, hT⟩
    exact (hfired.old x hx).resolve_left fun h => BitVec.not_lt.mpr (hfired.due x h) hT

end Sys2Proof.Machine

/-! ## Proofs: the bus (42_bus.md) -/

namespace Sys2Proof.Machine

open Sys2Proof

/-! ### The value of a run of bytes (R81, R180) -/

/-- Up to four bytes fit a word, so that their value is the sum of the bytes at their places. -/
theorem toNat_leValue_map_range {n : Nat} (hn : n ≤ 4) (f : Nat → Byte) :
    (leValue ((List.range n).map f)).toNat = ∑ k ∈ Finset.range n, (f k).toNat * 2 ^ (8 * k) := by
  induction n generalizing f with
  | zero => rfl
  | succ n ih =>
    have hlen : ((List.range n).map fun k => f (k + 1)).length = n := by simp
    have hlt : (leValue ((List.range n).map fun k => f (k + 1))).toNat < 2 ^ 24 :=
      (leValue_lt _ (by omega)).trans_le (Nat.pow_le_pow_right (by decide) (by omega))
    have hplace (k : Nat) : 256 * ((f (k + 1)).toNat * 2 ^ (8 * k)) = (f (k + 1)).toNat * 2 ^ (8 * (k + 1)) := by
      rw [Nat.mul_add, pow_add]; ring
    calc (leValue ((List.range (n + 1)).map f)).toNat
        = (leValue (f 0 :: (List.range n).map fun k => f (k + 1))).toNat := by
          rw [List.range_succ_eq_map, List.map_cons, List.map_map]; rfl
      _ = (f 0).toNat + 256 * ∑ k ∈ Finset.range n, (f (k + 1)).toNat * 2 ^ (8 * k) := by
          rw [leValue_cons_toNat hlt, ih (by omega)]
      _ = ∑ k ∈ Finset.range (n + 1), (f k).toNat * 2 ^ (8 * k) := by
          rw [Finset.sum_range_succ', Finset.mul_sum, Finset.sum_congr rfl fun k _ => hplace k]
          simp [Nat.add_comm]

/-- Settles O24: the granted access answers the bytes' value, at a cost the tracker decides. -/
theorem readsAndFetchesReturnTheBytes : Obligations.ReadsAndFetchesReturnTheBytes := by
  intro x w priv addr s i r hres hpriv o c cost
  have hcost : accessCost r x w (isSequential x i s) = cost := accessCost_isSequential r x w i s
  refine ⟨leValue (readBytes s i o (widthBytes w)), toNat_leValue_map_range (widthBytes_le w) _, fun hruns hr => ?_,
    fun hruns hx => ?_⟩
  · rw [exec_busRead_granted hres hpriv hruns hr, ← hcost]; rfl
  · rw [exec_busExec_granted hres hpriv hruns hx, ← hcost]; rfl

/-! ### What a run of stores leaves alone (R181) -/

theorem readCell_answer (st : Status) (ws : List Word) (s : State) (key : Nat) :
    readCell (answer st ws s) key = readCell s key :=
  readCell_congr (answer_cfg st ws s) (answer_backing st ws s) key

theorem readCell_writeBytes_of_ne {s : State} (h : risingKeys s.backing) {r o key : Nat} {bs : List Byte}
    (hne : ∀ k < bs.length, key ≠ cellKey r (o + k)) : readCell (writeBytes r o bs s) key = readCell s key := by
  rw [readCell_writeBytes r bs h]
  split
  · rename_i hle
    have hbeyond : bs.length ≤ key - cellKey r o := by
      by_contra hlt
      refine hne (key - cellKey r o) (by omega) ?_
      rw [cellKey, ← Nat.add_assoc]
      exact (Nat.add_sub_cancel' hle).symm
    rw [List.getD_eq_getElem?_getD, List.getElem?_eq_none hbeyond, Option.getD_none]
  · rfl

/-- Settles O25: the granted write sets the tracker, then stores the data's bytes. -/
theorem writesStoreTheirBytesOnly : Obligations.WritesStoreTheirBytesOnly := by
  intro x w priv addr data s i r hm hruns hres hpriv hw o c cost
  have hcost : accessCost r x w (isSequential x i s) = cost := accessCost_isSequential r x w i s
  have hrising : risingKeys (setLast x (some i) s).backing := (memoryWf_iff.mp hm).1
  refine ⟨writeBytes i o (leBytes (widthBytes w) data) (setLast x (some i) s), ?_, writeBytes_eq _ _ _ _,
    fun k hk => ?_, fun key hkey => ?_⟩
  · rw [exec_busWrite_granted hres hpriv hruns hw, ← hcost]; rfl
  · exact (readCell_answer _ _ _ _).symm.trans ((Stored.of_write hm x w (alignDown w addr) data i r).bytes k hk)
  · exact readCell_writeBytes_of_ne hrising (by rwa [leBytes_length])

/-! ### The reported accesses (R171 to R174) -/

theorem openBusValue_lt (cfg : Config) (x : Cpu) (w : Width) (a : Word) :
    (openBusValue cfg x w a).toNat < 2 ^ (8 * widthBytes w) := by
  rw [openBusValue, and_widthMask, BitVec.toNat_ofNat]
  exact (Nat.mod_le _ _).trans_lt (Nat.mod_lt _ (Nat.two_pow_pos _))

theorem accessPath_of_resolve_none {rs : List Region} {a : Word} (h : resolve rs a.toNat = none) (k : AccessKind)
    (priv : Bool) : accessPath rs k priv a = .unmapped := by
  simp only [accessPath, h]

/-- The privilege check comes before the permissions of the access kinds (60_exceptions.md R268). -/
theorem accessPath_of_unprivileged {rs : List Region} {a : Word} {i : Nat} {r : Region}
    (h : resolve rs a.toNat = some (i, r)) (hr : r.privOnly = true) (k : AccessKind) :
    accessPath rs k false a = .violation .privViolation r := by
  simp only [accessPath, h, hr, Bool.not_false, Bool.and_self, if_true]

section
variable {x : Cpu} {k : AccessKind} {w : Width} {priv : Bool} {addr data : Word} {s : State} {q : Quirk} {i : Nat}
  {r : Region}

theorem accessEffect_unmapped (h : accessPath s.regions k priv (alignDown w addr) = .unmapped) :
    accessEffect x k w priv addr data s =
      answer (.quirk (unmappedQuirk k))
        (quirkWords k (openBusValue s.cfg x w (alignDown w addr)) (unmappedCost s.cfg x w))
        (traceQuirk (unmappedQuirk k) x k w (alignDown w addr) (setLast x none s)) := by
  simp only [accessEffect, h]

theorem accessEffect_violation (h : accessPath s.regions k priv (alignDown w addr) = .violation q r) :
    accessEffect x k w priv addr data s =
      answer (.quirk q) (quirkWords k (openBusValue s.cfg x w (alignDown w addr)) (accessCost r x w false))
        (traceQuirk q x k w (alignDown w addr) s) := by
  simp only [accessEffect, h]

theorem accessEffect_denied (h : accessPath s.regions k priv (alignDown w addr) = .denied q i r) :
    accessEffect x k w priv addr data s =
      answer (.quirk q)
        (quirkWords k (openBusValue s.cfg x w (alignDown w addr)) (accessCost r x w (isSequential x i s)))
        (traceQuirk q x k w (alignDown w addr) (setLast x (some i) s)) := by
  simp only [accessEffect, h]

end

/-- Settles O26: all three kinds take the unmapped path. -/
theorem unmappedAccess : Obligations.UnmappedAccess := by
  intro x w priv addr data s a c t
  refine ⟨openBusValue_lt s.cfg x w a, fun hnone => ?_⟩
  have hpath (k : AccessKind) : accessPath s.regions k priv a = .unmapped := accessPath_of_resolve_none hnone k priv
  refine ⟨fun h => ?_, fun h => ?_, fun h => ?_⟩
  · exact (exec_of_access rfl rfl h).trans (congrArg _ (accessEffect_unmapped (hpath .read)))
  · exact (exec_of_access rfl rfl h).trans (congrArg _ (accessEffect_unmapped (hpath .execute)))
  · exact (exec_of_access rfl rfl h).trans (congrArg _ (accessEffect_unmapped (hpath .write)))

/-- Settles O27: an unprivileged access fails the first check, whatever its kind; a fetch that passes it fails the execute
check. -/
theorem accessViolations : Obligations.AccessViolations := by
  intro x w priv addr data s i r a c t hres
  refine ⟨?_, fun hpriv hexec h => ?_⟩
  · rintro hr rfl
    have hpath (k : AccessKind) : accessPath s.regions k false a = .violation .privViolation r :=
      accessPath_of_unprivileged hres hr k
    refine ⟨fun h => ?_, fun h => ?_, fun h => ?_⟩
    · exact (exec_of_access rfl rfl h).trans (congrArg _ (accessEffect_violation (hpath .read)))
    · exact (exec_of_access rfl rfl h).trans (congrArg _ (accessEffect_violation (hpath .execute)))
    · exact (exec_of_access rfl rfl h).trans (congrArg _ (accessEffect_violation (hpath .write)))
  · have hpath : accessPath s.regions .execute priv a = .violation .execViolation r :=
      (accessPath_of_resolve hres hpriv).trans (if_neg (Bool.eq_false_iff.mp hexec))
    exact (exec_of_access rfl rfl h).trans (congrArg _ (accessEffect_violation hpath))

/-- Settles O28: past the privilege check the kind's own permission denies the access, which has reached the region all the
same, so that the tracker decides its cost. -/
theorem unreadableAndReadOnlyRegions : Obligations.UnreadableAndReadOnlyRegions := by
  intro x w priv addr data s i r a c cost t hres hpriv
  have hcost : accessCost r x w (isSequential x i s) = cost := accessCost_isSequential r x w i s
  refine ⟨fun hr h => ?_, fun hw h => ?_⟩
  · have hpath : accessPath s.regions .read priv a = .denied .notReadable i r :=
      (accessPath_of_resolve hres hpriv).trans (if_neg (Bool.eq_false_iff.mp hr))
    rw [exec_of_access rfl rfl h, accessEffect_denied hpath, hcost]; rfl
  · have hpath : accessPath s.regions .write priv a = .denied .readonlyWrite i r :=
      (accessPath_of_resolve hres hpriv).trans (if_neg (Bool.eq_false_iff.mp hw))
    rw [exec_of_access rfl rfl h, accessEffect_denied hpath, hcost]; rfl

end Sys2Proof.Machine

/-! ## Proofs: the interrupt controllers (43_interrupt.md) -/

namespace Sys2Proof.Machine

open Sys2Proof

/-! ### Latches and enables (R200 to R203) -/

theorem getLsbD_sourceBit_toNat (src : BitVec 5) (n : Nat) : (sourceBit src).getLsbD n = decide (n = src.toNat) := by
  simpa using getLsbD_sourceBit src.isLt n

/-- REQUEST's effect on one bit of IF[x]. -/
theorem getLsbD_or_sourceBit (v : Word) (src : BitVec 5) (n : Nat) :
    (v ||| sourceBit src).getLsbD n = (decide (n = src.toNat) || v.getLsbD n) := by
  rw [BitVec.getLsbD_or, getLsbD_sourceBit_toNat, Bool.or_comm]

/-- ACK's effect on one bit of IF[x]. -/
theorem getLsbD_and_not_sourceBit (v : Word) (src : BitVec 5) {n : Nat} (hn : n < 32) :
    (v &&& ~~~sourceBit src).getLsbD n = (!decide (n = src.toNat) && v.getLsbD n) := by
  rw [BitVec.getLsbD_and, BitVec.getLsbD_not, getLsbD_sourceBit_toNat, decide_eq_true hn, Bool.true_and, Bool.and_comm]

theorem exec_icAck {x : Cpu} {src : BitVec 5} {s : State} (h : commandRuns (.icAck x src) s) :
    exec (.icAck x src) s = .next (answer .ok [] (clearSource x src s)) :=
  exec_of_runs h nofun nofun nofun

/-- Settles O33: IF[x] with the source's bit set, and with it cleared. -/
theorem requestAndAckOneLatch : Obligations.RequestAndAckOneLatch := by
  intro x src s
  constructor
  · intro h
    exact ⟨_, exec_of_runs h nofun nofun nofun, fun n _ => getLsbD_or_sourceBit _ src n⟩
  · intro h
    exact ⟨_, exec_icAck h, fun n hn => getLsbD_and_not_sourceBit _ src hn⟩

/-- Settles O34: neither command's own rule does anything else. -/
theorem enablesAreWrittenWhole : Obligations.EnablesAreWrittenWhole := by
  intro x mask val s
  constructor
  · intro h
    exact exec_of_runs h nofun nofun nofun
  · intro h
    exact exec_of_runs h nofun nofun nofun

/-! ### The line (R204, R208) -/

theorem ne_zero_iff_getLsbD (v : Word) : v ≠ 0 ↔ ∃ n < 32, v.getLsbD n = true := by
  constructor
  · intro hv
    by_contra hno
    push Not at hno
    exact hv (BitVec.eq_of_getLsbD_eq fun n hn => by simpa using hno n hn)
  · rintro ⟨n, -, hn⟩ rfl
    simp at hn

/-- Some source is latched and enabled, bit by bit. -/
theorem pendingEnabled_iff (x : Cpu) (s : State) : pendingEnabled x s = true ↔
    ∃ n < 32, (perCpu s.ie x).getLsbD n = true ∧ (perCpu s.iflag x).getLsbD n = true := by
  rw [pendingEnabled, decide_eq_true_iff, ne_zero_iff_getLsbD]
  simp only [BitVec.getLsbD_and, Bool.and_eq_true]

theorem asserted_iff (x : Cpu) (s : State) : asserted x s = true ↔ perCpu s.ime x = true ∧
    ∃ n < 32, (perCpu s.ie x).getLsbD n = true ∧ (perCpu s.iflag x).getLsbD n = true := by
  rw [asserted, Bool.and_eq_true, pendingEnabled_iff]

theorem pendingEnabled_eq_false_iff (x : Cpu) (s : State) :
    pendingEnabled x s = false ↔ perCpu s.ie x &&& perCpu s.iflag x = 0 := by
  rw [pendingEnabled, decide_eq_false_iff_not, not_not]

/-- With src cleared the line is low, if no other source was latched and enabled (R208). -/
theorem asserted_clearSource_eq_false {x : Cpu} {src : BitVec 5} {s : State}
    (h : ∀ n < 32, n ≠ src.toNat → (perCpu s.ie x &&& perCpu s.iflag x).getLsbD n = false) :
    asserted x (clearSource x src s) = false := by
  rw [← Bool.not_eq_true, asserted_iff]
  rintro ⟨-, n, hn, he, hf⟩
  rw [clearSource_iflag, perCpu_setPerCpu_same, getLsbD_and_not_sourceBit _ _ hn, Bool.and_eq_true] at hf
  have hpending := h n hn (by simpa using hf.1)
  rw [BitVec.getLsbD_and, hf.2] at hpending
  exact absurd hpending (by simpa using he)

theorem asserted_answer (x : Cpu) (st : Status) (ws : List Word) (s : State) :
    asserted x (answer st ws s) = asserted x s := by
  simp [asserted, pendingEnabled]

theorem exec_icAsserted {x : Cpu} {s : State} (h : s.fatal = none) :
    exec (.icAsserted x) s = .next (answer .ok [flagWord (asserted x s)] s) :=
  exec_of_runs ⟨h, rfl⟩ nofun nofun nofun

/-- Settles O35: the line, bit by bit. -/
theorem assertedLine : Obligations.AssertedLine := by
  intro x s hf
  rw [exec_icAsserted hf, ← asserted_iff]
  constructor
  · intro h
    rw [h]; rfl
  · intro h
    rw [Bool.eq_false_iff.mpr h]; rfl

/-- Settles O36: the answer leaves the line as clearing the source has left it. -/
theorem acknowledgeLaw : Obligations.AcknowledgeLaw := by
  intro x src s h
  refine ⟨_, exec_icAck h, ?_, ?_, ?_, fun hime => ?_, fun honly => ?_⟩
  · rw [answer_iflag, clearSource_iflag, perCpu_setPerCpu_same, getLsbD_and_not_sourceBit _ _ src.isLt]
    simp
  · rw [answer_ie, clearSource_ie]
  · rw [answer_ime, clearSource_ime]
  · rw [asserted, hime, Bool.true_and, pendingEnabled_eq_false_iff]
  · rw [asserted_answer, asserted_clearSource_eq_false honly]

/-! ### Halt and wake-up (R210, 44_clock.md R231, R232) -/

theorem wakes_iff (x : Cpu) (s : State) : wakes x s = true ↔
    (s.cfg.wakeRequiresIme = true → perCpu s.ime x = true) ∧
      ∃ n < 32, (perCpu s.ie x).getLsbD n = true ∧ (perCpu s.iflag x).getLsbD n = true := by
  unfold wakes
  split
  next hime => rw [asserted_iff, imp_iff_right hime]
  next hime => rw [pendingEnabled_iff, and_iff_right fun h => absurd h hime]

/-- A command never clears FATAL: where it is set, the command is turned away. -/
theorem fatal_eq_none_of_issuePacket {p : Packet} {s : State} (h : (issuePacket p s).fatal = none) : s.fatal = none := by
  cases hf : s.fatal with
  | none => rfl
  | some c =>
    unfold issuePacket at h
    split at h
    · rw [runNested_turnedAway (turnedAway_of_fatal hf _), answer_fatal, hf] at h
      cases h
    · simp [answerReserved, answerFatal, hf] at h

theorem fatal_eq_none_of_scheduleInMove {kind : Kind} {delay : Cycle} {s : State}
    (h : (scheduleInMove kind delay s).fatal = none) : s.fatal = none := by
  rw [scheduleInMove, scheduleInWith, scheduleAfter] at h
  split at h
  · simp at h
  · exact fatal_eq_none_of_issuePacket (fatal_eq_none_of_issuePacket h)

/-- How an activation that finds f in FATAL can end: it returns and FATAL is as it was, or it has stopped with FATAL
set. -/
inductive ActivationEnd {ρ : Type} (f : Option FatalCode) : State × Option ρ → Prop where
  | returned {u : State} (r : ρ) (kept : u.fatal = f) : ActivationEnd f (u, some r)
  | stopped {u : State} (fatal : u.fatal.isSome = true) : ActivationEnd f (u, none)

/-- A move that leaves FATAL set ends the activation; one that does not has found it clear and leaves it so, and the rest
of the activation follows. -/
theorem ActivationEnd.move {ρ : Type} {s s' : State} {rest : State × Option ρ}
    (never : s'.fatal = none → s.fatal = none) (h : ActivationEnd s'.fatal rest) :
    ActivationEnd s.fatal (if s'.fatal.isSome then (s', none) else rest) := by
  split
  next hfatal => exact .stopped hfatal
  next hgood =>
    have hclear : s'.fatal = none := Option.not_isSome_iff_eq_none.mp hgood
    rwa [never hclear, ← hclear]

theorem runScript_activationEnd {ρ : Type} (a : Script ρ) (s : State) : ActivationEnd s.fatal (runScript a s) := by
  unfold runScript
  induction a generalizing s with
  | done r => exact .returned r rfl
  | issue p next ih => exact .move fatal_eq_none_of_issuePacket (ih _)
  | scheduleIn kind delay next ih => exact .move fatal_eq_none_of_scheduleInMove (ih _)
  | ifAnswered status data yes no ihy ihn => simp only [runScriptWith]; split; exacts [ihy s, ihn s]
  | ifKind k yes no ihy ihn => simp only [runScriptWith]; split; exacts [ihy s, ihn s]
  | ifFire t yes no ihy ihn => simp only [runScriptWith]; split; exacts [ihy s, ihn s]
  | ifPriv p q yes no ihy ihn => simp only [runScriptWith]; split; exacts [ihy s, ihn s]
  | ifHalted x yes no ihy ihn => simp only [runScriptWith]; split; exacts [ihy s, ihn s]

section
variable {ρ : Type} {a : Script ρ} {s u : State}

theorem fatal_of_runScript_returned {r : ρ} (h : runScript a s = (u, some r)) : u.fatal = s.fatal := by
  have hend := runScript_activationEnd a s
  rw [h] at hend
  cases hend with
  | returned _ kept => exact kept

theorem fatal_of_runScript_stopped (h : runScript a s = (u, none)) : u.fatal.isSome = true := by
  have hend := runScript_activationEnd a s
  rw [h] at hend
  cases hend with
  | stopped fatal => exact fatal

end

/-- The state in which CPU x's activation begins: x is running, and its context is. -/
def activated (x : Cpu) (s : State) : State :=
  setCpuCollab x { cpuCollab x s with halted := false } { s with ctx := .cpu x }

theorem activated_fatal (x : Cpu) (s : State) : (activated x s).fatal = s.fatal := rfl

section
variable {x : Cpu} {s u : State}

theorem executeInstruction_asleep (hhalted : (cpuCollab x s).halted = true) (hwakes : wakes x s = false) :
    executeInstruction x s = .ok (s, some s.cfg.haltStepCost) := by
  rw [executeInstruction, hhalted, hwakes]
  rfl

theorem executeInstruction_runs (h : (cpuCollab x s).halted = false ∨ wakes x s = true) :
    executeInstruction x s = runCpu x s := by
  rw [executeInstruction, if_neg]
  rcases h with h | h <;> simp [h]

theorem runCpu_neverReturns (h : (cpuCollab x s).table[(cpuCollab x s).priv]? = none) :
    runCpu x s = .error (.cpuNeverReturns x) := by
  simp only [runCpu, h]

theorem runCpu_returned {a : Script CpuReturn} {r : CpuReturn}
    (ha : (cpuCollab x s).table[(cpuCollab x s).priv]? = some a) (h : runScript a (activated x s) = (u, some r)) :
    runCpu x s = .ok ({ cpuReturned x r u with ctx := s.ctx }, some r.cost) := by
  unfold activated at h
  simp only [runCpu, ha, h]

theorem runCpu_stopped {a : Script CpuReturn} (ha : (cpuCollab x s).table[(cpuCollab x s).priv]? = some a)
    (h : runScript a (activated x s) = (u, none)) : runCpu x s = .ok ({ u with ctx := s.ctx }, none) := by
  unfold activated at h
  simp only [runCpu, ha, h]

end

/-- Settles O39: a halted CPU sleeps until the wake condition holds; a step that runs is its activation, whose end says
how it goes on. -/
theorem haltedCpuAndItsWakeUp : Obligations.HaltedCpuAndItsWakeUp := by
  intro x s
  refine ⟨wakes_iff x s, executeInstruction_asleep, fun hruns => ?_⟩
  rw [executeInstruction_runs hruns]
  refine ⟨fun a ha => ⟨fun u r hu => ?_, fun u hu => ?_⟩, runCpu_neverReturns⟩
  · exact ⟨(fatal_of_runScript_returned hu).trans (activated_fatal x s), runCpu_returned ha hu⟩
  · exact ⟨fatal_of_runScript_stopped hu, runCpu_stopped ha hu⟩

end Sys2Proof.Machine

/-! ## Proofs: the clock (44_clock.md) -/

namespace Sys2Proof.Machine

open Sys2Proof

/-! ### The cost of a CPU step (R231) -/

theorem ofNat_toNat_add_toNat (t : Cycle) (c : Word) : BitVec.ofNat 64 (t.toNat + c.toNat) = t + c.setWidth 64 := by
  bv_omega

section
variable {x : Cpu} {c : Word} {s : State} (hc : c ≠ 0)
include hc

theorem finishStep_overflow (h : addCost x c s = none) :
    finishStep x c s = ({ s with fatal := some .cycleOverflow }, none) := by
  rw [finishStep, if_neg hc, h]
  rfl

theorem finishStep_fast (hfit : s.tFast.toNat + c.toNat < 2 ^ 64) :
    finishStep .fast c s = ({ s with tFast := s.tFast + c.setWidth 64 }, some c) := by
  rw [finishStep, if_neg hc, addCost_fast, if_neg (Nat.not_le.mpr hfit), ofNat_toNat_add_toNat]

theorem finishStep_slow (hfit : 2 * (s.tSlow.toNat + c.toNat) < 2 ^ 64) :
    finishStep .slow c s = ({ s with tSlow := s.tSlow + c.setWidth 64 }, some c) := by
  rw [finishStep, if_neg hc, addCost_slow, if_neg (Nat.not_le.mpr hfit), ofNat_toNat_add_toNat]

end

/-- Settles O40: a cost of 0, a cost that `addCost` refuses, and one that it adds. -/
theorem cpuStepCost : Obligations.CpuStepCost := by
  intro c s
  refine ⟨fun x hc => if_pos hc, fun hc hover => ?_, fun hc hover => ?_, finishStep_fast, finishStep_slow⟩
  · exact finishStep_overflow hc (if_pos hover)
  · exact finishStep_overflow hc (if_pos hover)

/-! ### Start times (R231, R237) -/

theorem absTime_congr {s t : State} (x : Cpu) (hfast : t.tFast = s.tFast) (hslow : t.tSlow = s.tSlow) :
    absTime x t = absTime x s := by
  cases x
  · exact hfast
  · simp only [absTime, hslow]

theorem toNat_absTime_slow {s : State} (h : 2 * s.tSlow.toNat < 2 ^ 64) :
    (absTime .slow s).toNat = 2 * s.tSlow.toNat :=
  toNat_ofNat_of_lt h

theorem laterOf_of_le {a b : Cycle} (h : a ≤ b) : laterOf a b = b := by
  unfold laterOf
  split <;> bv_omega

theorem toNat_laterOf (a b : Cycle) : (laterOf a b).toNat = max a.toNat b.toNat := by
  unfold laterOf
  split <;> bv_omega

/-- A CPU step that the scheduler has not passed leaves it at the step's start time. -/
theorem cpuStep_startsOnTime {x : Cpu} {s t : State} {c : Word} (hs : SchedInv s) (hd : s.inDispatch = false)
    (hf : s.fatal = none) (hnow : s.now ≤ absTime x s) (h : cpuStep x s = .ok (t, some c)) :
    t.now = absTime x s ∧ timeMoved x c s t := by
  obtain ⟨-, -, -, hend⟩ := cpuStep_spec hd hf h
  obtain ⟨-, -, hmoved, hstart⟩ := hend c rfl
  exact ⟨(hstart hs).trans (laterOf_of_le hnow), hmoved⟩

/-- Settles O41: the advance ends at the start time with nothing due left, and a step moves its own CPU's time only. -/
theorem cpuStepStartsOnTime : Obligations.CpuStepStartsOnTime := by
  intro s hs hd hf hslow
  have hstart := toNat_absTime_slow hslow
  refine ⟨fun x s1 n hnow ha hf1 => ?_, fun t c hnow hlead h => ?_, fun t c hnow h => ?_⟩
  · obtain ⟨rel, _, -, -, hend⟩ := advanceTo_spec hd hf ha
    obtain ⟨hnow1, hlater⟩ := (hend hf1).2 hs
    have hat : s1.now = absTime x s := hnow1.trans (laterOf_of_le hnow)
    refine ⟨hat, fun e he => hat ▸ hlater e he, absTime_congr x rel.tFast rel.tSlow, ?_⟩
    unfold cpuStep
    rw [ha]
    exact if_neg (by simp [hf1])
  · obtain ⟨hat, -, htSlow⟩ := cpuStep_startsOnTime hs hd hf hnow h
    refine ⟨hat, ?_⟩
    rw [hat, BitVec.le_def, toNat_absTime_slow (htSlow ▸ hslow), htSlow]
    exact hlead
  · obtain ⟨hat, htSlow, htFast, hfit⟩ := cpuStep_startsOnTime hs hd hf hnow h
    refine ⟨hat, ?_, fun hbehind => ?_⟩
    · rw [hat, BitVec.le_def, hstart, toNat_absTime_slow hfit]
      omega
    · rw [hat, BitVec.le_def, hstart, absTime, htFast]
      exact hbehind

/-! ### CLK.STEP and CLK.RUN as commands (R233, R234) -/

theorem turnedAway_of_runs {i : Instr} {s : State} (h : commandRuns i s) : turnedAway i s = none := by
  simp [turnedAway, h.1, h.2]

theorem exec_clkStep {s : State} (h : commandRuns .clkStep s) : exec .clkStep s = answerCount (orchStep s) := by
  simp only [exec, execClkStep, turnedAway_of_runs h]

theorem exec_clkRun {target : Cycle} {s : State} (h : commandRuns (.clkRun target) s) :
    exec (.clkRun target) s = answerCount (runLoop (runBound target s) target 0 s) := by
  simp only [exec, execClkRun, turnedAway_of_runs h]

/-- The command ends where its count does, well only where no step was fatal, and then it answers the count. -/
theorem answerCount_ends {u : State} {k : Option Nat} (hstopped : k = none → u.fatal.isSome = true) :
    ∃ t, answerCount (.ok (u, k)) = .next t ∧ (t.fatal = none → ∃ n, k = some n ∧ t = answer .ok [countWord n] u) := by
  cases k with
  | none =>
    refine ⟨_, rfl, fun ht => ?_⟩
    rw [answerFatal_fatal] at ht
    simp [ht] at hstopped
  | some n => exact ⟨_, rfl, fun _ => ⟨n, rfl, rfl⟩⟩

theorem onTime_answer {s : State} (st : Status) (ws : List Word) : onTime (answer st ws s) ↔ onTime s := by
  simp [onTime]

theorem LeadInv.fast_lt_slow {s : State} (h : LeadInv s) (hl : s.lead.toInt < 0) :
    s.tFast.toNat < 2 * s.tSlow.toNat := by
  have := h.leadEq
  omega

/-- Settles O44: an orchestration step ends, and its good ends are what `orchStep_spec` says of them. -/
theorem clkStepEnds : Obligations.ClkStepEnds := by
  intro s hs hf hr
  obtain ⟨u, k, hu⟩ := orchStep_ends s hs.schedInv hs.notDispatching hf hr
  obtain ⟨-, hlead, -, htSlow, hstopped, hgood⟩ :=
    orchStep_spec hs.notDispatching hf hs.leadInv (hs.leadSettled hf) hu
  obtain ⟨t, ht, hcount⟩ := answerCount_ends hstopped
  rw [exec_clkStep (hs.commandRuns hf _), hu]
  refine ⟨t, ht, fun hft => ?_⟩
  obtain ⟨n, rfl, rfl⟩ := hcount hft
  obtain ⟨-, hneg, hlt, honTime⟩ := hgood n rfl
  obtain ⟨s1, c, hstep, htFast, hcost⟩ := orchStep_tFast hs.notDispatching hf hs.leadInv (hs.leadSettled hf) hu
  have hc := c.isLt
  simp only [answer_tFast, answer_tSlow, answer_lead, onTime_answer]
  exact ⟨⟨s1, c, hstep, htFast, hcost⟩, hlt, by omega, htSlow, hneg, hlead.fast_lt_slow hneg, honTime hs.schedInv⟩

theorem runLoop_of_reached {fuel k : Nat} {target : Cycle} {s : State} (h : ¬s.tFast < target) :
    runLoop fuel target k s = .ok (s, some k) := by
  cases fuel with
  | zero => rfl
  | succ fuel => exact if_neg h

theorem slowLoop_of_settled {fuel m : Nat} {s : State} (h : ¬leadNonneg s = true) :
    slowLoop fuel m s = .ok (s, some m) := by
  cases fuel with
  | zero => rfl
  | succ fuel => exact if_neg h

/-- A run that has not reached its target ends, if well, less than one FAST cost beyond it. -/
theorem runLoop_overshoot {fuel k n : Nat} {target : Cycle} {s t : State} (hs : MachineInv s) (hf : s.fatal = none)
    (hbefore : s.tFast < target) (h : runLoop fuel target k s = .ok (t, some n)) :
    t.tFast.toNat < target.toNat + 2 ^ 32 := by
  induction fuel generalizing k s with
  | zero =>
    cases h
    rw [BitVec.lt_def] at hbefore
    omega
  | succ fuel ih =>
    simp only [runLoop, if_pos hbefore] at h
    cases hstep : orchStep s with
    | error f => rw [hstep] at h; cases h
    | ok p =>
      obtain ⟨s1, rc⟩ := p
      rw [hstep] at h
      cases rc with
      | none => cases h
      | some m =>
        simp only at h
        obtain ⟨-, c, -, -, hcost⟩ := orchStep_tFast hs.notDispatching hf hs.leadInv (hs.leadSettled hf) hstep
        by_cases hbefore1 : s1.tFast < target
        · exact ih (Progress.orchStep hs hf hstep).inv ((orchStep_rel hs.notDispatching hf hstep).2.mp rfl) hbefore1 h
        · rw [runLoop_of_reached hbefore1] at h
          cases h
          have hc := c.isLt
          rw [BitVec.lt_def] at hbefore
          omega

theorem runBound_enough (target : Cycle) (s : State) : target.toNat ≤ s.tFast.toNat + runBound target s := by
  unfold runBound
  omega

/-- Settles O45: a run that is at its target makes no step; one that is not ends as `runLoop_spec` says. -/
theorem clkRunEnds : Obligations.ClkRunEnds := by
  intro target s hs hf
  rw [exec_clkRun (hs.commandRuns hf _)]
  refine ⟨fun hle => ?_, fun hbefore hr => ?_⟩
  · rw [runLoop_of_reached (BitVec.not_lt.mpr hle)]
    rfl
  · obtain ⟨u, k, hu⟩ := runLoop_ends (runBound target s) target 0 s hs.schedInv hs.notDispatching hf hr
    obtain ⟨-, -, -, htSlow, hstopped, hgood⟩ :=
      runLoop_spec hs.notDispatching hf hs.leadInv (hs.leadSettled hf) (runBound_enough target s) hu
    obtain ⟨t, ht, hcount⟩ := answerCount_ends hstopped
    rw [hu]
    refine ⟨t, ht, fun hft => ?_⟩
    obtain ⟨n, rfl, rfl⟩ := hcount hft
    obtain ⟨-, -, hreached, hneg, honTime⟩ := hgood n rfl
    simp only [answer_tFast, answer_tSlow, answer_lead, onTime_answer]
    exact ⟨hreached, runLoop_overshoot hs hf hbefore hu, htSlow, hneg hbefore, honTime hs.schedInv⟩

/-! ### CPUs that only cost cycles (R232 to R234) -/

/-- No event is pending, and every step of FAST costs cf and of SLOW costs cs and issues nothing. -/
structure QuietMachine (cf cs : Word) (s : State) : Prop where
  good : s.fatal = none
  notDispatching : s.inDispatch = false
  nothing : s.queue = []
  fast : quietCpu .fast cf s
  slow : quietCpu .slow cs s
  fastCost : cf ≠ 0
  slowCost : cs ≠ 0

/-- When the last of n steps of cost c begins, the first beginning at `first`; 0 where there is none. -/
def lastStart (first n c : Nat) : Nat := if n = 0 then 0 else first + (n - 1) * c

theorem lastStart_zero (first c : Nat) : lastStart first 0 c = 0 := rfl

theorem lastStart_of_ne {n : Nat} (h : n ≠ 0) (first c : Nat) : lastStart first n c = first + (n - 1) * c := if_neg h

theorem lastStart_add (first n n' c : Nat) :
    lastStart first (n + n') c = max (lastStart first n c) (lastStart (first + n * c) n' c) := by
  cases n with
  | zero => simp [lastStart]
  | succ n =>
    cases n' with
    | zero => simp [lastStart]
    | succ n' =>
      simp only [lastStart, Nat.add_eq_zero_iff, Nat.succ_ne_zero, and_self, if_false, Nat.add_sub_cancel,
        Nat.add_succ_sub_one, Nat.add_mul]
      omega

/-- From s to t, k FAST steps of cost cf and m SLOW steps of cost cs, in whatever order, that do nothing else. -/
structure QuietRun (cf cs : Word) (k m : Nat) (s t : State) : Prop where
  only : t = { s with now := t.now, tFast := t.tFast, tSlow := t.tSlow, lead := t.lead }
  tFast : t.tFast.toNat = s.tFast.toNat + k * cf.toNat
  tSlow : t.tSlow.toNat = s.tSlow.toNat + m * cs.toNat
  lead : t.lead.toInt = s.lead.toInt + k * cf.toNat - 2 * m * cs.toNat
  now : t.now.toNat =
    max (max s.now.toNat (lastStart s.tFast.toNat k cf.toNat)) (2 * lastStart s.tSlow.toNat m cs.toNat)

section
variable {cf cs : Word} {s t u : State}

theorem QuietRun.refl (cf cs : Word) (s : State) : QuietRun cf cs 0 0 s s :=
  ⟨rfl, by simp, by simp, by simp, by simp [lastStart_zero]⟩

theorem QuietRun.trans {k k' m m' : Nat} (h : QuietRun cf cs k m s t) (h' : QuietRun cf cs k' m' t u) :
    QuietRun cf cs (k + k') (m + m') s u where
  only := by rw [h'.only, h.only]
  tFast := by rw [h'.tFast, h.tFast]; ring
  tSlow := by rw [h'.tSlow, h.tSlow]; ring
  lead := by rw [h'.lead, h.lead]; push_cast; ring
  now := by
    rw [h'.now, h.now, h.tFast, h.tSlow, lastStart_add, lastStart_add]
    omega

theorem QuietMachine.run {k m : Nat} (hq : QuietMachine cf cs s) (h : QuietRun cf cs k m s t) :
    QuietMachine cf cs t := by
  rw [h.only]
  exact ⟨hq.good, hq.notDispatching, hq.nothing, hq.fast, hq.slow, hq.fastCost, hq.slowCost⟩

/-- A quiet CPU's step raises `now` to the step's start time and accounts the cost. -/
theorem cpuStep_quiet {x : Cpu} {c : Word} (hq : QuietMachine cf cs s) (hx : quietCpu x c s) :
    cpuStep x s = .ok (finishStep x c (raiseNow (absTime x s) s)) := by
  have hexec : executeInstruction x (raiseNow (absTime x s) s) = .ok (raiseNow (absTime x s) s, some c) :=
    executeInstruction_quiet hx
  simp only [cpuStep, advanceTo_nothing hq.notDispatching hq.good hq.nothing, raiseNow_fatal, hq.good,
    Option.isSome_none, Bool.false_eq_true, if_false, hexec]

theorem fastStep_quiet (hq : QuietMachine cf cs s) (hl : s.lead.toInt ≤ 0)
    (hfit : s.tFast.toNat + cf.toNat < 2 ^ 64) :
    ∃ u, cpuStep .fast s = .ok (u, some cf) ∧ QuietRun cf cs 1 0 s (addLead cf u) := by
  refine ⟨_, (cpuStep_quiet hq hq.fast).trans (congrArg _ (finishStep_fast hq.fastCost hfit)), rfl, ?_, ?_, ?_, ?_⟩
  · rw [addLead_tFast, ← ofNat_toNat_add_toNat]
    simpa using toNat_ofNat_of_lt hfit
  · simp
  · simpa using addLead_toInt (c := cf) (s := s) hl
  · rw [addLead_now, raiseNow_eq, toNat_laterOf]
    simp [absTime, lastStart]

theorem slowStep_quiet (hq : QuietMachine cf cs s) (hl : 0 ≤ s.lead.toInt)
    (hfit : 2 * (s.tSlow.toNat + cs.toNat) < 2 ^ 64) :
    ∃ u, cpuStep .slow s = .ok (u, some cs) ∧ QuietRun cf cs 0 1 s (subLead cs u) := by
  refine ⟨_, (cpuStep_quiet hq hq.slow).trans (congrArg _ (finishStep_slow hq.slowCost hfit)), rfl, ?_, ?_, ?_, ?_⟩
  · simp
  · rw [subLead_tSlow, ← ofNat_toNat_add_toNat]
    simpa using toNat_ofNat_of_lt (n := s.tSlow.toNat + cs.toNat) (by omega)
  · simpa using subLead_toInt (c := cs) (s := s) hl
  · rw [subLead_now, raiseNow_eq, toNat_laterOf, toNat_absTime_slow (by omega)]
    simp [lastStart]

/-- The SLOW steps that bring L below 0, the last of which it began at 0 or above. -/
theorem slowLoop_quiet {fuel n : Nat} (hq : QuietMachine cf cs s) (hi : LeadInv s)
    (hroom : s.tFast.toNat + 2 ^ 33 ≤ 2 ^ 64) (hfuel : s.lead.toInt < 2 * (fuel : Int)) :
    ∃ t m, slowLoop fuel n s = .ok (t, some (n + m)) ∧ QuietRun cf cs 0 m s t ∧ t.lead.toInt < 0 ∧
      (m ≠ 0 → -2 * (cs.toNat : Int) ≤ t.lead.toInt) := by
  induction fuel generalizing n s with
  | zero => exact ⟨s, 0, rfl, .refl cf cs s, by simpa using hfuel, nofun⟩
  | succ fuel ih =>
    by_cases hn : leadNonneg s = true
    · have hl := leadNonneg_iff.mp hn
      have hcs := cs.isLt
      have hleadEq := hi.leadEq
      obtain ⟨u, hstep, hrun⟩ := slowStep_quiet hq hl (by omega)
      obtain ⟨-, hi1, -, htFast, -, hlead, hpos, -⟩ := slowStep_spec hq.notDispatching hq.good hi hl hstep
      obtain ⟨t, m, hloop, hrest, hneg, hlast⟩ :=
        ih (n := n + 1) (hq.run hrun) hi1 (by rw [htFast]; exact hroom) (by push_cast at hfuel; omega)
      refine ⟨t, 1 + m, ?_, hrun.trans hrest, hneg, fun _ => ?_⟩
      · simp only [slowLoop, if_pos hn, hstep, hloop, Nat.add_assoc]
      · by_cases hm : m = 0
        · have := hrest.lead
          rw [hm] at this
          push_cast at this
          omega
        · exact hlast hm
    · refine ⟨s, 0, slowLoop_of_settled hn, .refl cf cs s, ?_, nofun⟩
      rw [leadNonneg_iff] at hn
      omega

theorem orchStep_quiet (hq : QuietMachine cf cs s) (hi : LeadInv s) (hl : s.lead.toInt ≤ 0)
    (hroom : s.tFast.toNat + 2 ^ 34 ≤ 2 ^ 64) :
    ∃ t m, orchStep s = .ok (t, some m) ∧ QuietRun cf cs 1 m s t ∧ t.lead.toInt < 0 ∧
      (m ≠ 0 → -2 * (cs.toNat : Int) ≤ t.lead.toInt) := by
  have hcf := cf.isLt
  obtain ⟨u, hstep, hfast⟩ := fastStep_quiet hq hl (by omega)
  obtain ⟨-, hi1, -, htFast, -⟩ := fastStep_spec hq.notDispatching hq.good hi hl hstep
  obtain ⟨t, m, hloop, hslow, hneg, hlast⟩ :=
    slowLoop_quiet (n := 0) (hq.run hfast) hi1 (by omega) (slowBound_enough _)
  rw [Nat.zero_add] at hloop
  refine ⟨t, m, ?_, by simpa using hfast.trans hslow, hneg, hlast⟩
  simp only [orchStep, hstep, hloop]

/-- The orchestration steps that bring FAST to the target, the last of which it began before it. -/
theorem runLoop_quiet {fuel n : Nat} {target : Cycle} (hq : QuietMachine cf cs s) (hi : LeadInv s)
    (hl : s.lead.toInt ≤ 0) (hroom : target.toNat + 2 ^ 34 ≤ 2 ^ 64) (hfuel : target.toNat ≤ s.tFast.toNat + fuel) :
    ∃ t k m, runLoop fuel target n s = .ok (t, some (n + k)) ∧ QuietRun cf cs k m s t ∧ target ≤ t.tFast ∧
      (k = 0 → m = 0) ∧ (k ≠ 0 → s.tFast.toNat + (k - 1) * cf.toNat < target.toNat ∧ t.lead.toInt < 0) ∧
      (m ≠ 0 → -2 * (cs.toNat : Int) ≤ t.lead.toInt) := by
  induction fuel generalizing n s with
  | zero => exact ⟨s, 0, 0, rfl, .refl cf cs s, hfuel, fun _ => rfl, nofun, nofun⟩
  | succ fuel ih =>
    by_cases hbefore : s.tFast < target
    · have hlt := BitVec.lt_def.mp hbefore
      obtain ⟨u, m1, hstep, hrun, hneg1, hlast1⟩ := orchStep_quiet hq hi hl (by omega)
      obtain ⟨-, hi1, -⟩ := orchStep_spec hq.notDispatching hq.good hi hl hstep
      have hpos := word_pos hq.fastCost
      have htFast := hrun.tFast
      obtain ⟨t, k, m, hloop, hrest, hreached, hnone, hmade, hlast⟩ :=
        ih (n := n + 1) (hq.run hrun) hi1 hneg1.le (by omega)
      have hlead := hrest.lead
      refine ⟨t, 1 + k, m1 + m, ?_, hrun.trans hrest, hreached, by omega, fun _ => ?_, fun hm => ?_⟩
      · simp only [runLoop, if_pos hbefore, hstep, hloop, Nat.add_assoc]
      · rw [Nat.add_sub_cancel_left]
        obtain _ | k := k
        · obtain rfl := hnone rfl
          refine ⟨by simpa using hlt, ?_⟩
          push_cast at hlead
          omega
        · obtain ⟨hbegan, hneg⟩ := hmade (Nat.succ_ne_zero k)
          rw [Nat.add_sub_cancel] at hbegan
          exact ⟨by rw [Nat.succ_mul]; omega, hneg⟩
      · by_cases hm0 : m = 0
        · have := hlast1 (by omega)
          have : (0 : Int) ≤ k * cf.toNat := by positivity
          rw [hm0] at hlead
          push_cast at hlead
          omega
        · exact hlast hm0
    · exact ⟨s, 0, 0, runLoop_of_reached hbefore, .refl cf cs s, BitVec.not_lt.mp hbefore, fun _ => rfl, nofun, nofun⟩

end

/-- The SLOW steps of cost c that bring L below 0, the last of which it began at 0 or above, in number (R241). -/
theorem slowSteps_eq {L : Int} {m c : Nat} (hend : L - 2 * m * c < 0) (hlast : m ≠ 0 → -2 * (c : Int) ≤ L - 2 * m * c) :
    m = if 0 ≤ L then L.toNat / (2 * c) + 1 else 0 := by
  cases m with
  | zero => rw [if_neg (by simpa using hend)]
  | succ j =>
    have hbegan := hlast (Nat.succ_ne_zero j)
    push_cast at hend hbegan
    have hlow : 2 * (j : Int) * c ≤ L := by linarith
    have h0 : 0 ≤ L := le_trans (by positivity) hlow
    obtain ⟨l, rfl⟩ := Int.eq_ofNat_of_zero_le h0
    rw [if_pos h0, Int.toNat_natCast, Nat.div_eq_of_lt_le (k := j)]
    · have : 2 * j * c ≤ l := by exact_mod_cast hlow
      linarith
    · have : l < 2 * (j + 1) * c := by zify; linarith
      linarith

/-- The FAST steps of cost c that make up d, the last of which began short of it, in number. -/
theorem fastSteps_eq {d k c : Nat} (hc : 0 < c) (hreach : d ≤ k * c) (hlast : k ≠ 0 → (k - 1) * c < d) :
    k = (d + c - 1) / c := by
  cases k with
  | zero => rw [Nat.div_eq_of_lt (by omega)]
  | succ j =>
    have hbegan := hlast (Nat.succ_ne_zero j)
    rw [Nat.add_sub_cancel] at hbegan
    rw [Nat.succ_mul] at hreach
    rw [Nat.div_eq_of_lt_le (k := j + 1)]
    · rw [Nat.succ_mul]; omega
    · rw [Nat.succ_mul, Nat.succ_mul]; omega

theorem QuietMachine.of_inv {cf cs : Word} {s : State} (hs : MachineInv s) (hf : s.fatal = none) (hq : s.queue = [])
    (hfast : quietCpu .fast cf s) (hslow : quietCpu .slow cs s) (hcf : cf ≠ 0) (hcs : cs ≠ 0) : QuietMachine cf cs s :=
  ⟨hf, hs.notDispatching, hq, hfast, hslow, hcf, hcs⟩

/-- Settles O43: one FAST step, and the SLOW steps that bring L below 0. -/
theorem clkStepOfQuietCpus : Obligations.ClkStepOfQuietCpus := by
  intro cf cs s hs hf hqueue hfast hslow hcf hcs hroom lead m
  have hq : QuietMachine cf cs s := .of_inv hs hf hqueue hfast hslow hcf hcs
  obtain ⟨t, m', hstep, hrun, hneg, hlast⟩ := orchStep_quiet hq hs.leadInv (hs.leadSettled hf) hroom
  have hlead : t.lead.toInt = lead - 2 * m' * cs.toNat := by simpa using hrun.lead
  have hm : m' = m := slowSteps_eq (hlead ▸ hneg) (hlead ▸ hlast)
  rw [hm] at hstep hrun hlast hlead
  refine ⟨t, ?_, hrun.only, by simpa using hrun.tFast, hrun.tSlow, hlead, hneg, hlast, ?_⟩
  · rw [exec_clkStep (hs.commandRuns hf _), hstep]
    rfl
  · rw [hrun.now, lastStart_of_ne Nat.one_ne_zero]
    simp [lastStart, mul_ite]

/-- Settles O46: the FAST steps that reach the target, and the SLOW steps that bring L below 0. -/
theorem clkRunOfQuietCpus : Obligations.ClkRunOfQuietCpus := by
  intro cf cs target s hs hf hqueue hfast hslow hcf hcs hroom k lead m
  have hq : QuietMachine cf cs s := .of_inv hs hf hqueue hfast hslow hcf hcs
  obtain ⟨t, k', m', hloop, hrun, hreached, hnone, hmade, hlast⟩ :=
    runLoop_quiet (n := 0) hq hs.leadInv (hs.leadSettled hf) hroom (runBound_enough target s)
  have hk : k' = k := fastSteps_eq (word_pos hcf)
    (by have := BitVec.le_def.mp hreached; rw [hrun.tFast] at this; omega)
    (fun hne => by have := (hmade hne).1; omega)
  rw [hk] at hloop hrun hnone hmade
  have hlead : t.lead.toInt = lead - 2 * m' * cs.toNat := hrun.lead
  have hm : m' = m := by
    by_cases hk0 : k = 0
    · rw [hnone hk0]
      exact (if_neg fun h => h.1 hk0).symm
    · exact (slowSteps_eq (hlead ▸ (hmade hk0).2) (hlead ▸ hlast)).trans (if_congr (and_iff_right hk0).symm rfl rfl)
  rw [hm] at hrun hlast hlead hnone
  refine ⟨t, ?_, hrun.only, hrun.tFast, hreached, hrun.tSlow, hlead, ?_, fun hk0 => (hmade hk0).2, hlast, ?_⟩
  · rw [exec_clkRun (hs.commandRuns hf _), hloop, Nat.zero_add]
    rfl
  · rw [hrun.lead, hs.leadEq, hrun.tFast, hrun.tSlow]
    push_cast
    ring
  · rw [hrun.now]
    split
    next hk0 => simp [hnone hk0, hk0, lastStart_zero]
    next hk0 => simp [lastStart, hk0, mul_ite]

/-! ### What never ends (R244, 41_scheduler.md R150) -/

theorem dispatch_eq_error {issue : Packet → State → State} {kind : Kind} {fire : Cycle} {s : State} {f : Fault} :
    dispatch issue kind fire s = .error f ↔
      f = .handlerNeverReturns ∧ s.collab.handler.table[s.collab.handler.priv]? = none := by
  unfold dispatch
  cases s.collab.handler.table[s.collab.handler.priv]? <;> simp [eq_comm]

theorem isDue_iff {T : Cycle} {s : State} : isDue T s = true ↔ ∃ e rest, s.queue = e :: rest ∧ e.fire ≤ T := by
  unfold isDue
  cases s.queue <;> simp

/-- A due dispatch calls a handler that never returns. -/
def handlerStuck (T : Cycle) (s : State) : Prop :=
  isDue T s = true ∧ s.collab.handler.table[s.collab.handler.priv]? = none

section
variable {T : Cycle} {s : State} {P : State → Prop}

/-- With nothing due, the dispatches lead nowhere. -/
theorem exists_dispatchesTo_of_not_due (h : isDue T s = false) : (∃ t, dispatchesTo T s t ∧ P t) ↔ P s := by
  refine ⟨?_, fun hs => ⟨s, .refl s, hs⟩⟩
  rintro ⟨t, hto, ht⟩
  cases hto with
  | refl => exact ht
  | step pending due returns good next => rw [isDue_iff.mpr ⟨_, _, pending, due⟩] at h; cases h

/-- With min(Q) due, they lead past its dispatch. -/
theorem exists_dispatchesTo_of_due {e : Event} {rest : List Event} (hq : s.queue = e :: rest) (hT : e.fire ≤ T) :
    (∃ t, dispatchesTo T s t ∧ P t) ↔
      P s ∨ ∃ s', dispatch issuePacket e.kind e.fire { s with queue := rest, now := e.fire } = .ok s' ∧
        s'.fatal = none ∧ ∃ t, dispatchesTo T s' t ∧ P t := by
  constructor
  · rintro ⟨t, hto, ht⟩
    cases hto with
    | refl => exact .inl ht
    | step pending due returns good next =>
      obtain ⟨rfl, rfl⟩ := List.cons.inj (hq.symm.trans pending)
      exact .inr ⟨_, returns, good, t, next, ht⟩
  · rintro (hs | ⟨s', returns, good, t, next, ht⟩)
    · exact ⟨s, .refl s, hs⟩
    · exact ⟨t, .step hq hT returns good next, ht⟩

/-- The SLOW loop's steps lead nowhere, or past the first of them. -/
theorem exists_slowStepsTo {s : State} {P : State → Prop} : (∃ t, slowStepsTo s t ∧ P t) ↔
    P s ∨ leadNonneg s = true ∧ ∃ s' c, cpuStep .slow s = .ok (s', some c) ∧
      ∃ t, slowStepsTo (subLead c s') t ∧ P t := by
  constructor
  · rintro ⟨t, hto, ht⟩
    cases hto with
    | refl => exact .inl ht
    | step behind ends next => exact .inr ⟨behind, _, _, ends, t, next, ht⟩
  · rintro (hs | ⟨behind, s', c, ends, t, next, ht⟩)
    · exact ⟨s, .refl s, hs⟩
    · exact ⟨t, .step behind ends next, ht⟩

/-- CLK.RUN's orchestration steps lead nowhere, or past the first of them. -/
theorem exists_orchStepsTo {target : Cycle} {s : State} {P : State → Prop} : (∃ t, orchStepsTo target s t ∧ P t) ↔
    P s ∨ s.tFast < target ∧ ∃ s' m, orchStep s = .ok (s', some m) ∧ ∃ t, orchStepsTo target s' t ∧ P t := by
  constructor
  · rintro ⟨t, hto, ht⟩
    cases hto with
    | refl => exact .inl ht
    | step before ends next => exact .inr ⟨before, _, _, ends, t, next, ht⟩
  · rintro (hs | ⟨before, s', m, ends, t, next, ht⟩)
    · exact ⟨s, .refl s, hs⟩
    · exact ⟨t, .step before ends next, ht⟩

end

theorem advanceLoop_of_not_due {issue : Packet → State → State} {fuel n : Nat} {T : Cycle} {s : State}
    (h : isDue T s = false) : advanceLoop issue fuel T n s = .ok (s, n) := by
  cases fuel with
  | zero => rfl
  | succ fuel =>
    cases hq : s.queue with
    | nil => simp [advanceLoop, hq]
    | cons e rest =>
      have hT : ¬e.fire ≤ T := by simpa [isDue, hq] using h
      simp [advanceLoop, hq, hT]

/-- The loop has no end exactly where its dispatches lead to a handler that never returns. -/
theorem advanceLoop_eq_error {fuel n : Nat} {T : Cycle} {s : State} {f : Fault} (hf : s.fatal = none)
    (hfuel : dispatchBound s ≤ fuel) : advanceLoop issuePacket fuel T n s = .error f ↔
      f = .handlerNeverReturns ∧ ∃ t, dispatchesTo T s t ∧ handlerStuck T t := by
  induction fuel generalizing n s with
  | zero =>
    have hq : s.queue = [] := List.eq_nil_of_length_eq_zero (by unfold dispatchBound at hfuel; omega)
    have hdue : isDue T s = false := by simp [isDue, hq]
    simp [advanceLoop, exists_dispatchesTo_of_not_due hdue, handlerStuck, hdue]
  | succ fuel ih =>
    cases hdue : isDue T s with
    | false => simp [advanceLoop_of_not_due hdue, exists_dispatchesTo_of_not_due hdue, handlerStuck, hdue]
    | true =>
      obtain ⟨e, rest, hq, hT⟩ := isDue_iff.mp hdue
      rw [exists_dispatchesTo_of_due hq hT]
      simp only [advanceLoop, hq, if_pos hT]
      cases hd : dispatch issuePacket e.kind e.fire { s with queue := rest, now := e.fire } with
      | error g =>
        obtain ⟨rfl, hnever⟩ := dispatch_eq_error.mp hd
        have hstuck : handlerStuck T s := ⟨hdue, hnever⟩
        simp [hstuck, eq_comm]
      | ok s' =>
        obtain ⟨rel, -, -, -, -, -, hcount⟩ := dispatch_spec hq hf hd
        obtain ⟨a, ha, -⟩ := dispatch_eq_ok.mp hd
        have hnot : ¬handlerStuck T s := fun h => Option.some_ne_none a (ha.symm.trans h.2)
        cases hgood : s'.fatal with
        | some c => simp [hnot, hgood]
        | none =>
          have hleft := dispatchBound_step hq rel.seqLe hcount
          simp only [hgood, Option.isSome_none, Bool.false_eq_true, if_false, ih hgood (by omega)]
          simp [hnot, hgood]

/-- The faults of an advance are its loop's, but that it goes on for ever. -/
theorem advanceTo_eq_error_of_ne {T : Cycle} {s : State} {f : Fault} (hd : s.inDispatch = false)
    (hne : f ≠ .advanceNeverEnds) : advanceTo T s = .error f ↔
      advanceLoop issuePacket (dispatchBound s) T 0 { s with inDispatch := true } = .error f := by
  simp only [advanceTo, hd, Bool.false_eq_true, if_false]
  cases advanceLoop issuePacket (dispatchBound s) T 0 { s with inDispatch := true } with
  | error g => simp
  | ok p =>
    simp only [reduceCtorEq, iff_false]
    split
    · simpa using hne.symm
    · split <;> simp

/-- An advance has no end exactly where it is stuck: an advance that goes on for ever is one, and a handler that never
returns another. -/
theorem advanceTo_eq_error {T : Cycle} {s : State} {f : Fault} (hs : SchedInv s) (hd : s.inDispatch = false)
    (hf : s.fatal = none) : advanceTo T s = .error f ↔ advanceStuck T s f := by
  by_cases hend : f = .advanceNeverEnds
  · rw [hend, advanceTo_neverEnds_iff hs hd hf]
    exact ⟨.endless, fun | .endless goesOn => goesOn⟩
  · have hloop := advanceLoop_eq_error (fuel := dispatchBound s) (n := 0) (T := T) (f := f)
      (s := { s with inDispatch := true }) hf (Nat.le_refl _)
    rw [advanceTo_eq_error_of_ne hd hend, hloop]
    constructor
    · rintro ⟨rfl, t, reached, due, never⟩
      exact .handler reached due never
    · rintro (⟨reached, due, never⟩ | -)
      · exact ⟨rfl, _, reached, due, never⟩
      · exact absurd rfl hend

theorem executeInstruction_eq_error {x : Cpu} {s : State} {f : Fault} : executeInstruction x s = .error f ↔
    f = .cpuNeverReturns x ∧ ((cpuCollab x s).halted = false ∨ wakes x s = true) ∧
      (cpuCollab x s).table[(cpuCollab x s).priv]? = none := by
  by_cases hruns : (cpuCollab x s).halted = false ∨ wakes x s = true
  · rw [executeInstruction_runs hruns]
    cases ha : (cpuCollab x s).table[(cpuCollab x s).priv]? with
    | none => simp [runCpu_neverReturns ha, hruns, eq_comm (a := f)]
    | some a =>
      simp only [runCpu, ha, reduceCtorEq, and_false, iff_false]
      split <;> simp
  · simp only [not_or, Bool.not_eq_true, Bool.not_eq_false] at hruns
    simp [executeInstruction_asleep hruns.1 hruns.2, hruns]

/-- A CPU step has no end exactly where its advance has none, or its instruction. -/
theorem cpuStep_eq_error {x : Cpu} {s : State} {f : Fault} (hs : SchedInv s) (hd : s.inDispatch = false)
    (hf : s.fatal = none) : cpuStep x s = .error f ↔ cpuStepStuck x s f := by
  constructor
  · intro h
    unfold cpuStep at h
    cases ha : advanceTo (absTime x s) s with
    | error g =>
      rw [ha] at h
      cases h
      exact .advance ((advanceTo_eq_error hs hd hf).mp ha)
    | ok p =>
      obtain ⟨s1, n⟩ := p
      rw [ha] at h
      simp only at h
      split at h
      · cases h
      next hgood =>
        cases he : executeInstruction x s1 with
        | error g =>
          rw [he] at h
          cases h
          obtain ⟨rfl, runs, never⟩ := executeInstruction_eq_error.mp he
          exact .cpu ha (not_isSome hgood) runs never
        | ok q =>
          obtain ⟨s2, _ | c⟩ := q <;> rw [he] at h <;> cases h
  · rintro (never | ⟨advanced, good, runs, never⟩)
    · simp only [cpuStep, (advanceTo_eq_error hs hd hf).mpr never]
    · simp only [cpuStep, advanced, good, Option.isSome_none, Bool.false_eq_true, if_false,
        executeInstruction_eq_error.mpr ⟨rfl, runs, never⟩]

/-- Where an orchestration step stands between its CPU steps. -/
structure BetweenSteps (s : State) : Prop where
  sched : SchedInv s
  notDispatching : s.inDispatch = false
  good : s.fatal = none
  lead : LeadInv s

theorem MachineInv.betweenSteps {s : State} (hs : MachineInv s) (hf : s.fatal = none) : BetweenSteps s :=
  ⟨hs.schedInv, hs.notDispatching, hf, hs.leadInv⟩

theorem BetweenSteps.fast {s t : State} {c : Word} (h : BetweenSteps s) (hl : s.lead.toInt ≤ 0)
    (hstep : cpuStep .fast s = .ok (t, some c)) : BetweenSteps (addLead c t) := by
  obtain ⟨rel, hlead, hgood, -⟩ := fastStep_spec h.notDispatching h.good h.lead hl hstep
  exact ⟨rel.sched h.sched, rel.inDispatch.trans h.notDispatching, hgood, hlead⟩

/-- A SLOW step is made only where L is 0 or above, and lowers it by at least R (R241). -/
theorem BetweenSteps.slow {s t : State} {c : Word} (h : BetweenSteps s) (hl : 0 ≤ s.lead.toInt)
    (hstep : cpuStep .slow s = .ok (t, some c)) :
    BetweenSteps (subLead c t) ∧ (subLead c t).lead.toInt + 2 ≤ s.lead.toInt := by
  obtain ⟨rel, hlead, hgood, -, -, hfalls, hpos, -⟩ := slowStep_spec h.notDispatching h.good h.lead hl hstep
  exact ⟨⟨rel.sched h.sched, rel.inDispatch.trans h.notDispatching, hgood, hlead⟩, by omega⟩

/-- The SLOW loop, given fuel enough for L, has no end exactly where it comes to a step that has none. -/
theorem slowLoop_eq_error {fuel m : Nat} {s : State} {f : Fault} (h : BetweenSteps s)
    (hfuel : s.lead.toInt < 2 * (fuel : Int)) : slowLoop fuel m s = .error f ↔
      ∃ t, slowStepsTo s t ∧ leadNonneg t = true ∧ cpuStepStuck .slow t f := by
  induction fuel generalizing m s with
  | zero =>
    have hn : ¬leadNonneg s = true := by rw [leadNonneg_iff]; simpa using hfuel
    rw [exists_slowStepsTo]
    simp [slowLoop_of_settled hn, hn]
  | succ fuel ih =>
    rw [exists_slowStepsTo, ← cpuStep_eq_error h.sched h.notDispatching h.good]
    by_cases hn : leadNonneg s = true
    · simp only [slowLoop, hn, if_true, true_and]
      cases hstep : cpuStep .slow s with
      | error g => simp
      | ok p =>
        obtain ⟨s', _ | c⟩ := p
        · simp
        · obtain ⟨h', hfalls⟩ := h.slow (leadNonneg_iff.mp hn) hstep
          simpa using ih h' (by push_cast at hfuel; omega)
    · simp [slowLoop_of_settled hn, hn]

/-- Its FAST step never ends, or a step of the SLOW loop after it. -/
theorem orchStuck_iff {s : State} {f : Fault} : orchStuck s f ↔ cpuStepStuck .fast s f ∨ ∃ s' c,
    cpuStep .fast s = .ok (s', some c) ∧
      ∃ t, slowStepsTo (addLead c s') t ∧ leadNonneg t = true ∧ cpuStepStuck .slow t f := by
  constructor
  · rintro (never | ⟨ends, reached, behind, never⟩)
    · exact .inl never
    · exact .inr ⟨_, _, ends, _, reached, behind, never⟩
  · rintro (never | ⟨s', c, ends, t, reached, behind, never⟩)
    · exact .fast never
    · exact .slow ends reached behind never

theorem orchStep_eq_error {s : State} {f : Fault} (h : BetweenSteps s) (hl : s.lead.toInt ≤ 0) :
    orchStep s = .error f ↔ orchStuck s f := by
  rw [orchStuck_iff, ← cpuStep_eq_error h.sched h.notDispatching h.good, orchStep]
  cases hstep : cpuStep .fast s with
  | error g => simp
  | ok p =>
    obtain ⟨s', _ | c⟩ := p
    · simp
    · simpa using slowLoop_eq_error (h.fast hl hstep) (slowBound_enough _)

/-- CLK.RUN's loop, given fuel enough for its target, has no end exactly where it comes to an orchestration step that has
none. -/
theorem runLoop_eq_error {fuel k : Nat} {target : Cycle} {s : State} {f : Fault} (hs : MachineInv s)
    (hf : s.fatal = none) (hfuel : target.toNat ≤ s.tFast.toNat + fuel) : runLoop fuel target k s = .error f ↔
      ∃ t, orchStepsTo target s t ∧ t.tFast < target ∧ orchStuck t f := by
  induction fuel generalizing k s with
  | zero =>
    have hn : ¬s.tFast < target := BitVec.not_lt.mpr hfuel
    rw [exists_orchStepsTo]
    simp [runLoop_of_reached hn, hn]
  | succ fuel ih =>
    rw [exists_orchStepsTo, ← orchStep_eq_error (hs.betweenSteps hf) (hs.leadSettled hf)]
    by_cases hn : s.tFast < target
    · simp only [runLoop, hn, if_true, true_and]
      cases hstep : orchStep s with
      | error g => simp
      | ok p =>
        obtain ⟨s', _ | m⟩ := p
        · simp
        · obtain ⟨-, -, -, -, -, hgood⟩ := orchStep_spec hs.notDispatching hf hs.leadInv (hs.leadSettled hf) hstep
          obtain ⟨hf', -, hmoves, -⟩ := hgood m rfl
          rw [BitVec.lt_def] at hmoves
          simpa using ih (Progress.orchStep hs hf hstep).inv hf' (by omega)
    · simp [runLoop_of_reached hn, hn]

theorem answerCount_eq_fault {r : Except Fault (State × Option Nat)} {f : Fault} :
    answerCount r = .fault f ↔ r = .error f := by
  obtain g | ⟨u, _ | n⟩ := r <;> simp [answerCount]

theorem exec_schedAdvance_eq_fault {T : Cycle} {s : State} {f : Fault} (h : commandRuns (.schedAdvance T) s) :
    exec (.schedAdvance T) s = .fault f ↔ advanceTo T s = .error f := by
  simp only [exec, execSchedAdvance, turnedAway_of_runs h, advanceEffect]
  cases advanceTo T s with
  | error g => simp
  | ok p =>
    simp only [reduceCtorEq, iff_false]
    split <;> simp

/-- Settles O47: each command's faults are its loop's, and a loop's are those of the step it comes to. -/
theorem noEndWithoutAReturn : Obligations.NoEndWithoutAReturn := by
  intro s f hs hf
  refine ⟨fun T => ?_, ?_, fun target => ?_⟩
  · rw [exec_schedAdvance_eq_fault (hs.commandRuns hf _), advanceTo_eq_error hs.schedInv hs.notDispatching hf]
  · rw [exec_clkStep (hs.commandRuns hf _), answerCount_eq_fault,
      orchStep_eq_error (hs.betweenSteps hf) (hs.leadSettled hf)]
  · rw [exec_clkRun (hs.commandRuns hf _), answerCount_eq_fault, runLoop_eq_error hs hf (runBound_enough target s)]

end Sys2Proof.Machine

/-! ## Proofs: exceptions (60_exceptions.md) -/

namespace Sys2Proof.Machine

open Sys2Proof

/-! ### Activations (R262, R263) -/

/-- The packets issued one after the other, each in the state the one before it left. -/
def issueAll (ps : List Packet) (s : State) : State := ps.foldl (fun s p => issuePacket p s) s

theorem issueAll_append (ps qs : List Packet) (s : State) : issueAll (ps ++ qs) s = issueAll qs (issueAll ps s) :=
  List.foldl_append

theorem fatal_eq_none_of_issueAll {ps : List Packet} {s : State} (h : (issueAll ps s).fatal = none) : s.fatal = none := by
  induction ps generalizing s with
  | nil => exact h
  | cons p ps ih => exact fatal_eq_none_of_issuePacket (ih h)

/-- FATAL was clear after every shorter sequence of the same packets. -/
theorem fatal_eq_none_of_issueAll_take {ps : List Packet} {s : State} {n m : Nat} (hnm : n ≤ m)
    (h : (issueAll (ps.take m) s).fatal = none) : (issueAll (ps.take n) s).fatal = none := by
  rw [← List.take_append_drop n (ps.take m), List.take_take, min_eq_left hnm, issueAll_append] at h
  exact fatal_eq_none_of_issueAll h

/-- An activation that begins with commands of which none is fatal goes on in the state they leave. -/
theorem runScript_issues {ρ : Type} {ps : List Packet} {rest : Script ρ} {s : State}
    (h : (issueAll ps s).fatal = none) : runScript (ps.foldr Script.issue rest) s = runScript rest (issueAll ps s) := by
  induction ps generalizing s with
  | nil => rfl
  | cons p ps ih =>
    have hp : (issuePacket p s).fatal = none := fatal_eq_none_of_issueAll h
    rw [List.foldr_cons, runScript, runScriptWith, hp]
    exact ih h

theorem runScript_issue_fatal {ρ : Type} {p : Packet} {next : Script ρ} {s : State}
    (h : (issuePacket p s).fatal.isSome = true) : runScript (.issue p next) s = (issuePacket p s, none) := by
  rw [runScript, runScriptWith, h]
  rfl

/-- An activation stops in the state that its first fatal command leaves. -/
theorem runScript_issues_fatal {ρ : Type} {ps : List Packet} {rest : Script ρ} {s : State} {n : Nat} (hn : n < ps.length)
    (hgood : (issueAll (ps.take n) s).fatal = none) (hfatal : (issueAll (ps.take (n + 1)) s).fatal.isSome = true) :
    runScript (ps.foldr Script.issue rest) s = (issueAll (ps.take (n + 1)) s, none) := by
  have hnext : issueAll (ps.take (n + 1)) s = issuePacket ps[n] (issueAll (ps.take n) s) := by
    rw [List.take_succ_eq_append_getElem hn, issueAll_append]
    rfl
  rw [hnext] at hfatal ⊢
  conv_lhs => rw [← List.take_append_drop n ps, List.foldr_append, runScript_issues hgood,
    List.drop_eq_getElem_cons hn, List.foldr_cons, runScript_issue_fatal hfatal]

/-! ### Collaborators are any functions (00_scope.md R7 to R9; log 5) -/

/-- Of tests for the values of a list, each with a branch of its own, the branch of the one value that stands is taken. -/
theorem runScript_tests {ρ α : Type} [DecidableEq α] {test : α → Script ρ → Script ρ → Script ρ} {a : α} {s : State}
    (htest : ∀ x yes no, runScript (test x yes no) s = if x = a then runScript yes s else runScript no s)
    (f : α → Script ρ) (otherwise : Script ρ) {xs : List α} (ha : a ∈ xs) :
    runScript (xs.foldr (fun x no => test x (f x) no) otherwise) s = runScript (f a) s := by
  induction xs with
  | nil => cases ha
  | cons x xs ih =>
    rw [List.foldr_cons, htest]
    split
    next heq => rw [heq]
    next hne => exact ih (List.mem_of_ne_of_mem (Ne.symm hne) ha)

theorem runScript_afterAnswer {ρ : Type} {answers : List (Word × List Word)} (f : Word × List Word → Script ρ)
    (otherwise : Script ρ) {s : State} {a : Word × List Word} (ha : a ∈ answers)
    (h : (heardOf s).getLast? = some (.response (a.1 :: a.2))) :
    runScript (afterAnswer answers f otherwise) s = runScript (f a) s := by
  refine runScript_tests (test := fun a => .ifAnswered a.1 a.2) (fun x yes no => ?_) f otherwise ha
  have hx : (heardOf s).getLast? = some (.response (x.1 :: x.2)) ↔ x = a := by simp [h, Prod.ext_iff, eq_comm]
  simp only [runScript, runScriptWith, hx]

theorem runScript_afterPriv {ρ : Type} {p : Part} {privs : List Nat} (f : Nat → Script ρ) (otherwise : Script ρ)
    {s : State} (h : privOf p s ∈ privs) :
    runScript (afterPriv p privs f otherwise) s = runScript (f (privOf p s)) s := by
  refine runScript_tests (test := .ifPriv p) (fun q yes no => ?_) f otherwise h
  simp only [runScript, runScriptWith, eq_comm]

theorem runScript_afterCall {ρ : Type} {kinds : List Kind} {fires : List Cycle} (f : Kind → Cycle → Script ρ)
    (otherwise : Script ρ) {s : State} {k : Kind} (hk : k ∈ kinds) {t : Cycle} (ht : t ∈ fires)
    (h : lastCall (heardOf s) = some (k, t)) :
    runScript (afterCall kinds fires f otherwise) s = runScript (f k t) s := by
  calc runScript (afterCall kinds fires f otherwise) s
      = runScript (fires.foldr (fun t no => .ifFire t (f k t) no) otherwise) s :=
        runScript_tests (test := .ifKind)
          (fun j yes no => by simp [runScript, runScriptWith, h, eq_comm]) _ otherwise hk
    _ = runScript (f k t) s :=
        runScript_tests (test := .ifFire)
          (fun t' yes no => by simp [runScript, runScriptWith, h, eq_comm]) (f k) otherwise ht

theorem runScript_ifHalted {ρ : Type} (x : Cpu) (f : Bool → Script ρ) (s : State) :
    runScript (.ifHalted x (f true) (f false)) s = runScript (f (cpuCollab x s).halted) s := by
  rw [runScript, runScriptWith]
  cases (cpuCollab x s).halted <;> rfl

/-- Settles O58: an activation runs its commands in order up to the first fatal one, and a tree of tests takes the branch
of the value that stands. -/
theorem activationIssuesInOrder : Obligations.ActivationIssuesInOrder := by
  refine ⟨fun ρ ps r s _ => ⟨fun hgood => ?_, fun n hn => runScript_issues_fatal hn,
    fun n m hnm _ => fatal_eq_none_of_issueAll_take hnm⟩, fun ρ n q f hq => ?_,
    fun ρ answers f otherwise s a => runScript_afterAnswer f otherwise,
    fun ρ p privs f otherwise s => runScript_afterPriv f otherwise, fun ρ => runScript_ifHalted,
    fun ρ kinds fires f otherwise s k hk t => runScript_afterCall f otherwise hk⟩
  · simp only [List.take_length] at hgood ⊢
    exact runScript_issues hgood
  · simp [tableOf, hq]

/-! ### Construction's checks (R264, 70_reset_and_hazards.md R290 to R292) -/

theorem forall_cpu {P : Cpu → Prop} : (∀ x, P x) ↔ P .fast ∧ P .slow :=
  ⟨fun h => ⟨h .fast, h .slow⟩, fun ⟨hf, hs⟩ x => by cases x <;> assumption⟩

theorem forall_width {P : Width → Prop} : (∀ w, P w) ↔ P .byte ∧ P .half ∧ P .word :=
  ⟨fun h => ⟨h .byte, h .half, h .word⟩, fun ⟨hb, hh, hw⟩ w => by cases w <;> assumption⟩

theorem isSome_costEntry {es : List CostEntry} {x : Cpu} {w : Width} {q : Bool} :
    (costEntry es x w q).isSome = true ↔ ∃ e ∈ es, e.cpu = x ∧ e.width = w ∧ e.seq = q := by
  simp [costEntry, and_assoc]

theorem isSome_seqCostOf {es : List CostEntry} {x : Cpu} {w : Width} :
    (seqCostOf es x w).isSome = true ↔ ∀ q, (costEntry es x w q).isSome = true := by
  rw [seqCostOf, Bool.forall_bool]
  cases costEntry es x w false <;> cases costEntry es x w true <;> simp

theorem isSome_widthCostOf {es : List CostEntry} {x : Cpu} :
    (widthCostOf es x).isSome = true ↔ ∀ w, (seqCostOf es x w).isSome = true := by
  rw [widthCostOf, forall_width]
  cases seqCostOf es x .byte <;> cases seqCostOf es x .half <;> cases seqCostOf es x .word <;> simp

theorem isSome_costTableOf {es : List CostEntry} :
    (costTableOf es).isSome = true ↔ ∀ x, (widthCostOf es x).isSome = true := by
  rw [costTableOf, forall_cpu]
  cases widthCostOf es .fast <;> cases widthCostOf es .slow <;> simp

/-- The cost table is complete (R73). -/
theorem isSome_costTableOf_iff {es : List CostEntry} : (costTableOf es).isSome = true ↔
    ∀ x w q, ∃ e ∈ es, e.cpu = x ∧ e.width = w ∧ e.seq = q := by
  simp only [isSome_costTableOf, isSome_widthCostOf, isSome_seqCostOf, isSome_costEntry]

theorem buildRegion_eq_some {c : RegionConfig} {r : Region} : buildRegion c = some r ↔ ∃ t, costTableOf c.costs = some t ∧
    r = ⟨c.base, c.size, c.period, c.limit, c.prio, c.readable, c.writable, c.executable, c.privOnly, t⟩ := by
  rw [buildRegion]
  cases costTableOf c.costs <;> simp [eq_comm]

/-- R73 as construction checks it: the descriptor can be built, and its window is well-formed. -/
theorem not_regionMalformed_iff {c : RegionConfig} :
    ¬regionMalformed c = true ↔ ∃ r, buildRegion c = some r ∧ windowWellFormed r = true := by
  rw [regionMalformed]
  cases buildRegion c <;> simp

theorem not_regionMalformed_iff_window {c : RegionConfig} : ¬regionMalformed c = true ↔
    (∀ x w q, ∃ e ∈ c.costs, e.cpu = x ∧ e.width = w ∧ e.seq = q) ∧
      c.base % 4 = 0 ∧ c.size % 4 = 0 ∧ c.period % 4 = 0 ∧ c.limit % 4 = 0 ∧ 1 ≤ c.size ∧ c.size ≤ c.period ∧
      c.base < c.limit ∧ c.limit ≤ 2 ^ 32 := by
  rw [not_regionMalformed_iff, ← isSome_costTableOf_iff, Option.isSome_iff_exists]
  simp only [buildRegion_eq_some]
  constructor
  · rintro ⟨_, ⟨t, ht, rfl⟩, hwf⟩
    exact ⟨⟨t, ht⟩, windowWellFormed_iff.mp hwf⟩
  · rintro ⟨⟨t, ht⟩, hwf⟩
    exact ⟨_, ⟨t, ht, rfl⟩, windowWellFormed_iff.mpr hwf⟩

theorem windowWellFormed_of_mem_buildRegions {cs : List RegionConfig} (h : ∀ c ∈ cs, ¬regionMalformed c = true) :
    ∀ r ∈ buildRegions cs, windowWellFormed r = true := by
  intro r hr
  obtain ⟨c, hc, hbuild⟩ := List.mem_filterMap.mp hr
  obtain ⟨r', hbuild', hwf⟩ := not_regionMalformed_iff.mp (h c hc)
  rw [hbuild] at hbuild'
  cases hbuild'
  exact hwf

theorem not_anyOverlap_iff {rs : List Region} :
    ¬anyOverlap rs = true ↔ rs.Pairwise fun r q => r.prio = q.prio → ¬overlaps r q = true := by
  induction rs with
  | nil => simp [anyOverlap]
  | cons r rs ih =>
    rw [anyOverlap, List.pairwise_cons, ← ih]
    simp

/-- R74 on a table that meets R73: no two regions of one priority share an address. -/
theorem not_anyOverlap_iff_disjoint {rs : List Region} (hwf : ∀ r ∈ rs, windowWellFormed r = true) :
    ¬anyOverlap rs = true ↔ rs.Pairwise fun r q => r.prio = q.prio →
      ∀ a < 2 ^ 32, ¬(regionContains r a = true ∧ regionContains q a = true) := by
  rw [not_anyOverlap_iff]
  refine List.Pairwise.iff_of_mem fun {r q} hr hq => forall_congr' fun _ => ?_
  rw [overlaps_iff (hwf r hr) (hwf q hq), not_exists]
  exact forall_congr' fun a => ⟨fun h _ => h, fun h hc => h (lt_of_regionContains (hwf r hr) hc.1) hc⟩

theorem not_bootMalformed_iff {cfg : Config} {rs : List Region} {x : Cpu} : ¬bootMalformed cfg rs x = true ↔
    ∃ r, rs[perCpu cfg.bootRegion x]? = some r ∧ (perCpu cfg.bootImage x).length ≤ r.size ∧ r.writable = false ∧
      perCpu cfg.bootRegion x ≠ cfg.wmRegion := by
  rw [bootMalformed]
  cases rs[perCpu cfg.bootRegion x]? <;> simp [and_assoc]

theorem powerOfTwo_iff {n : Nat} : powerOfTwo n = true ↔ ∃ k, n = 2 ^ k := by
  rw [powerOfTwo, Bool.and_eq_true, decide_eq_true_eq, decide_eq_true_eq]
  exact Nat.ne_zero_and_sub_one_eq_zero_iff_isPowerOfTwo

theorem not_wmMalformed_iff {cfg : Config} {rs : List Region} : ¬wmMalformed cfg rs = true ↔
    ∃ r, rs[cfg.wmRegion]? = some r ∧ r.size = cfg.wmSize ∧ (∃ n, cfg.wmSize = 2 ^ n) ∧ 0x400 ≤ cfg.wmSize ∧
      r.readable = true ∧ r.writable = true := by
  rw [wmMalformed]
  cases rs[cfg.wmRegion]? <;> simp [powerOfTwo_iff, and_assoc]

theorem shorterThan_iff {n : Nat} {bs : List Byte} : shorterThan n bs = true ↔ bs.length < n := by
  induction n generalizing bs with
  | zero => simp [shorterThan]
  | succ n ih =>
    cases bs with
    | nil => simp [shorterThan]
    | cons b bs => simp [shorterThan, ih]

/-- The boot ROMs or working memory break R291 or R292. -/
def misplaced (cfg : Config) : Bool :=
  bootMalformed cfg (buildRegions cfg.regions) .fast || bootMalformed cfg (buildRegions cfg.regions) .slow
    || decide (cfg.bootRegion.fast = cfg.bootRegion.slow) || wmMalformed cfg (buildRegions cfg.regions)

theorem constructionFatal_eq (cfg : Config) : constructionFatal cfg =
    if cfg.regions.any regionMalformed then some .regionMalformed
    else if anyOverlap (buildRegions cfg.regions) then some .regionOverlap
    else if misplaced cfg then some .regionMalformed
    else if shorterThan headerLength cfg.cartImage then some .cartTooShort
    else (initialQueue cfg).2.2 := rfl

/-- Where no check before them fails, the initial events decide. -/
theorem constructionFatal_of_accepted {cfg : Config} (hregions : ¬cfg.regions.any regionMalformed = true)
    (hoverlap : ¬anyOverlap (buildRegions cfg.regions) = true) (hplaced : ¬misplaced cfg = true)
    (hcart : ¬shorterThan headerLength cfg.cartImage = true) : constructionFatal cfg = (initialQueue cfg).2.2 := by
  rw [constructionFatal_eq, if_neg hregions, if_neg hoverlap, if_neg hplaced, if_neg hcart]

/-- Settles O50: each check is its requirement, R74's once R73 holds, and the first that fails gives the code; in the
failed machine FATAL turns every command away. -/
theorem constructionChecks : Obligations.ConstructionChecks := by
  intro cfg rs regionsOk disjoint bootOk wmOk placed
  have hregions : ¬cfg.regions.any regionMalformed = true ↔ regionsOk := by
    simp only [List.any_eq_true, not_exists, not_and]
    exact forall₂_congr fun c _ => not_regionMalformed_iff_window
  have hoverlap (h : regionsOk) : ¬anyOverlap rs = true ↔ disjoint :=
    not_anyOverlap_iff_disjoint (windowWellFormed_of_mem_buildRegions fun c hc =>
      not_regionMalformed_iff_window.mpr (h c hc))
  have hplaced : ¬misplaced cfg = true ↔ placed := by
    simp only [misplaced, Bool.or_eq_true, not_or, decide_eq_true_eq, not_bootMalformed_iff, not_wmMalformed_iff,
      and_assoc]
    rfl
  have hcart : shorterThan headerLength cfg.cartImage = true ↔ cfg.cartImage.length < 0x160 := shorterThan_iff
  refine ⟨fun hr => ?_, fun hr hd => ?_, fun hr hd hp => ?_, fun hr hd hp hc => ?_, fun hr hd hp hc => ?_,
    fun c i => fatalAnswersEveryCommand i (State.construct cfg) c⟩
  · rw [constructionFatal_eq, if_pos (not_imp_comm.mp hregions.mp hr)]
  · rw [constructionFatal_eq, if_neg (hregions.mpr hr), if_pos (not_imp_comm.mp (hoverlap hr).mp hd)]
  · rw [constructionFatal_eq, if_neg (hregions.mpr hr), if_neg ((hoverlap hr).mpr hd),
      if_pos (not_imp_comm.mp hplaced.mp hp)]
  · rw [constructionFatal_eq, if_neg (hregions.mpr hr), if_neg ((hoverlap hr).mpr hd), if_neg (hplaced.mpr hp),
      if_pos (hcart.mpr hc)]
  · have hlong : ¬shorterThan headerLength cfg.cartImage = true := by rw [hcart]; omega
    exact ⟨constructionFatal_of_accepted (hregions.mpr hr) ((hoverlap hr).mpr hd) (hplaced.mpr hp) hlong,
      constructionFatal_of_accepted (cfg := { cfg with initialEvents := [] })
        (hregions.mpr hr) ((hoverlap hr).mpr hd) (hplaced.mpr hp) hlong⟩

/-! ### A fatal error in a handler (R262, 41_scheduler.md R141, R144) -/

/-- Where FATAL is set, its code is the last thing the handler has heard. -/
def HeardFatal (s : State) : Prop :=
  ∀ c, s.fatal = some c → s.collab.handler.heard.getLast? = some (.response [c.code])

theorem HeardFatal.of_healthy {s : State} (h : s.fatal = none) : HeardFatal s := fun c hc => by
  rw [h] at hc
  cases hc

theorem AnswersTruly.heardFatal {s t : State} (h : AnswersTruly s t) (hs : s.ctx = .handler) : HeardFatal t := by
  obtain ⟨st, ws, u, rfl, -, hctx, truthful⟩ := h
  have hu : u.ctx = .handler := hctx.trans hs
  intro c hc
  rw [answer_fatal] at hc
  obtain rfl : st = .fatal c := (truthful.fatal_iff c).mpr hc
  obtain rfl : ws = [] := truthful.fatal c rfl
  rw [answer_eq_tell _ _ _ (by rw [hu]; decide)]
  simp [tell, hu, Status.code]

theorem issuePacket_answersTruly (p : Packet) {s : State} (h : s.ctx ≠ .host) : AnswersTruly s (issuePacket p s) := by
  cases hd : decode p with
  | ok i => rw [issuePacket_of_decode hd]; exact exec_answersTruly (exec_eq_runNested i h)
  | error e => rw [issuePacket_of_reserved hd]; exact answerReserved_answersTruly s

theorem runScript_heardFatal {ρ : Type} (a : Script ρ) {s : State} (hc : s.ctx = .handler) (hf : s.fatal = none) :
    HeardFatal (runScript a s).1 := by
  have nested {t : State} (ht : t.ctx = .handler) : t.ctx ≠ .host := by rw [ht]; decide
  exact runScriptWith_induction (fun s t => HeardFatal s → HeardFatal t) .handler (fun _ => id)
    (fun _ _ _ h h' => h' ∘ h) (fun p t ht => (CollabRel.issuePacket p (nested ht)).ctx.trans ht)
    (fun _ _ => issue_now_fatal) (fun p t ht _ _ => (issuePacket_answersTruly p (nested ht)).heardFatal ht)
    (fun t ht _ _ => (AnswersTruly.raiseFatal _ t).heardFatal ht) a hc hf (.of_healthy hf)

theorem dispatch_heardFatal {kind : Kind} {fire : Cycle} {s t : State} (hf : s.fatal = none)
    (h : dispatch issuePacket kind fire s = .ok t) : HeardFatal t := by
  obtain ⟨a, -, rfl⟩ := dispatch_eq_ok.mp h
  rw [handlerReturned_eq]
  exact runScript_heardFatal a (s := calledState kind fire s) rfl hf

section
variable {fuel n m : Nat} {T : Cycle} {s t u : State} {c : FatalCode}

/-- The loop stops in the state that a fatal dispatch of min(Q) leaves. -/
theorem advanceLoop_of_due_fatal {issue : Packet → State → State} {e : Event} {rest : List Event}
    (hq : s.queue = e :: rest) (hT : e.fire ≤ T)
    (hd : dispatch issue e.kind e.fire { s with queue := rest, now := e.fire } = .ok t) (ht : t.fatal = some c) :
    advanceLoop issue (fuel + 1) T n s = .ok (t, n) := by
  simp [advanceLoop, hq, hT, hd, ht]

/-- A fatal error that the loop ends with is one of its last dispatch. -/
theorem advanceLoop_heardFatal (hf : s.fatal = none) (h : advanceLoop issuePacket fuel T n s = .ok (t, m)) :
    HeardFatal t := by
  induction fuel generalizing n s with
  | zero => cases h; exact .of_healthy hf
  | succ fuel ih =>
    cases hq : s.queue with
    | nil =>
      simp only [advanceLoop, hq] at h
      cases h
      exact .of_healthy hf
    | cons e rest =>
      by_cases hT : e.fire ≤ T
      · cases hd : dispatch issuePacket e.kind e.fire { s with queue := rest, now := e.fire } with
        | error f => simp [advanceLoop, hq, hT, hd] at h
        | ok s' =>
          cases hs' : s'.fatal with
          | none =>
            rw [advanceLoop_of_due hq hT hd hs'] at h
            exact ih hs' h
          | some c =>
            rw [advanceLoop_of_due_fatal hq hT hd hs'] at h
            cases h
            exact dispatch_heardFatal (s := { s with queue := rest, now := e.fire }) hf hd
      · simp only [advanceLoop, hq, if_neg hT] at h
        cases h
        exact .of_healthy hf

theorem advanceTo_heardFatal (hd : s.inDispatch = false) (hf : s.fatal = none) (h : advanceTo T s = .ok (u, n)) :
    HeardFatal u := by
  cases hl : advanceLoop issuePacket (dispatchBound s) T 0 { s with inDispatch := true } with
  | error f => simp [advanceTo, hd, hl] at h
  | ok p =>
    obtain ⟨v, m⟩ := p
    have hv : HeardFatal v := advanceLoop_heardFatal (s := { s with inDispatch := true }) hf hl
    simp only [advanceTo, hd, hl, Bool.false_eq_true, if_false] at h
    split at h
    · cases h
    · split at h <;> cases h <;> exact hv

/-- An advance whose loop ends with a fatal error (R262; R150, log 7). -/
theorem advanceTo_of_loop_fatal (hd : s.inDispatch = false)
    (h : advanceLoop issuePacket (dispatchBound s) T 0 { s with inDispatch := true } = .ok (u, n))
    (hu : u.fatal = some c) : advanceTo T s =
      if c = .cycleOverflow ∧ goesOn T { s with inDispatch := true } = true then .error .advanceNeverEnds
      else .ok ({ u with inDispatch := false }, n) := by
  simp [advanceTo, hd, h, hu]

theorem exec_schedAdvance (hr : commandRuns (.schedAdvance T) s) : exec (.schedAdvance T) s = advanceEffect T s := by
  simp only [exec, execSchedAdvance, turnedAway_of_runs hr]

/-- A SCHED.ADVANCE that ends with a fatal error is an advance that does, and the code. -/
theorem advanceTo_of_exec_fatal (hr : commandRuns (.schedAdvance T) s)
    (h : exec (.schedAdvance T) s = .next t) (ht : t.fatal = some c) :
    ∃ u n, advanceTo T s = .ok (u, n) ∧ u.fatal = some c ∧ t = answer (.fatal c) [] u := by
  rw [exec_schedAdvance hr, advanceEffect] at h
  split at h
  · cases h
  · next u n ha =>
    split at h <;> cases h
    · next hu =>
      rw [answerFatal_fatal] at ht
      exact ⟨u, n, ha, ht, by rw [answerFatal, ht]⟩
    · next hu =>
      rw [answer_fatal] at ht
      exact absurd (by simp [ht]) hu

end

/-- The first due dispatch stops on a fatal command. -/
theorem exec_schedAdvance_of_first_fatal {T : Cycle} {s u : State} {e : Event} {later : List Event} {c : FatalCode}
    (hr : commandRuns (.schedAdvance T) s) (hd : s.inDispatch = false) (hq : s.queue = e :: later) (hT : e.fire ≤ T)
    (h : dispatch issuePacket e.kind e.fire { s with queue := later, now := e.fire, inDispatch := true } = .ok u)
    (hu : u.fatal = some c) : exec (.schedAdvance T) s =
      if c = .cycleOverflow ∧ goesOn T { s with inDispatch := true } = true then .fault .advanceNeverEnds
      else .next (answer (.fatal c) [] { u with inDispatch := false }) := by
  obtain ⟨fuel, hfuel⟩ : ∃ fuel, dispatchBound s = fuel + 1 := Nat.exists_eq_succ_of_ne_zero (by simp [dispatchBound, hq])
  have hloop : advanceLoop issuePacket (dispatchBound s) T 0 { s with inDispatch := true } = .ok (u, 0) := by
    rw [hfuel]
    exact advanceLoop_of_due_fatal (s := { s with inDispatch := true }) hq hT h hu
  rw [exec_schedAdvance hr, advanceEffect, advanceTo_of_loop_fatal hd hloop hu]
  split_ifs
  · rfl
  · simp [hu, answerFatal]

/-- Settles O18: an activation that stops ends the loop, and the loop stops nowhere else; what was fired by then and what
is pending is what `advanceTo_spec` says. -/
theorem handlerFatalStopsTheAdvance : Obligations.HandlerFatalStopsTheAdvance := by
  refine ⟨fun T s u e later a hr hd hq hT ha hrun => ?_, fun T s t c hs hf h ht => ?_⟩
  · obtain ⟨c, hc⟩ := Option.isSome_iff_exists.mp (fatal_of_runScript_stopped hrun)
    have hhost : s.ctx = .host := of_decide_eq_true hr.2
    have hdisp : dispatch issuePacket e.kind e.fire { s with queue := later, now := e.fire, inDispatch := true } =
        .ok { u with ctx := .host } :=
      dispatch_eq_ok.mpr ⟨a, ha, by rw [calledState_eq, ← runScript, hrun, handlerReturned, hhost]⟩
    exact ⟨c, hc, exec_schedAdvance_of_first_fatal hr hd hq hT hdisp hc⟩
  · obtain ⟨u, n, ha, hu, rfl⟩ := advanceTo_of_exec_fatal (hs.commandRuns hf _) h ht
    obtain ⟨rel, fired, hfired, hstop, -⟩ := advanceTo_spec hs.notDispatching hf ha
    obtain ⟨init, e, rfl, hnow, hafter⟩ := hstop (by simp [hu])
    have hdistinct := hfired.distinct hs.schedInv
    have hgone (x : Event) (hx : x ∈ init ++ [e]) : x ∉ u.queue := fun hx' =>
      (List.pairwise_append.mp hdistinct).2.2 x hx x hx' rfl
    rw [answer_eq_host _ _ _ (rel.ctx.trans hs.ctxHost)]
    exact ⟨init, e, hfired.calls, hfired.ordered hs.schedInv, fun x hx => ⟨hfired.due x hx, hgone x hx⟩,
      hafter hs.schedInv, hfired.old, hfired.known, hfired.covers, hdistinct, hfired.count, hnow,
      rel.inDispatch.trans hs.notDispatching, rel.ctx.trans hs.ctxHost,
      advanceTo_heardFatal hs.notDispatching hf ha c hu, by rw [← rel.host]; rfl⟩

end Sys2Proof.Machine

/-! ## Proofs: reset and hazards (70_reset_and_hazards.md) -/

namespace Sys2Proof.Machine

open Sys2Proof

/-! ### The initial events (R293) -/

/-- Why the next initial event is refused, with `queue` and `nextSeq` left by those before it. -/
def initialError (capacity : Nat) (queue : List Event) (nextSeq : Cycle) (v : InitialEvent) : Option FatalCode :=
  if kindWellFormed v.kind then scheduleError capacity 0 queue nextSeq v.fire else some .reservedEncoding

theorem zero_le_cycle (c : Cycle) : 0 ≤ c := BitVec.le_def.mpr (Nat.zero_le _)

theorem initialError_eq_none {cap : Nat} {q : List Event} {n : Cycle} {v : InitialEvent} :
    initialError cap q n v = none ↔ kindWellFormed v.kind = true ∧ q.length ≠ cap ∧ n ≠ lastSeq := by
  unfold initialError
  split
  next hk => rw [scheduleError_eq_none, and_iff_right (zero_le_cycle _), and_iff_right hk]
  next hk => simp [hk]

section
variable {cap : Nat} {q q' : List Event} {n n' : Cycle} {v : InitialEvent} {vs : List InitialEvent}

theorem scheduleInitial_cons : scheduleInitial cap (v :: vs) q n =
    match initialError cap q n v with
    | some c => (q, n, some c)
    | none => scheduleInitial cap vs (insertEvent ⟨v.fire, v.kind, n⟩ q) (n + 1) := by
  rw [scheduleInitial, initialError]
  split <;> rfl

theorem scheduleInitial_refused {c : FatalCode} (h : initialError cap q n v = some c) :
    scheduleInitial cap (v :: vs) q n = (q, n, some c) := by
  rw [scheduleInitial_cons, h]

theorem scheduleInitial_accepted (h : initialError cap q n v = none) :
    scheduleInitial cap (v :: vs) q n = scheduleInitial cap vs (insertEvent ⟨v.fire, v.kind, n⟩ q) (n + 1) := by
  rw [scheduleInitial_cons, h]

/-- Where the whole list is scheduled, its first event is accepted, and the rest is scheduled after it. -/
theorem scheduleInitial_cons_succeeds (h : scheduleInitial cap (v :: vs) q n = (q', n', none)) :
    initialError cap q n v = none ∧
      scheduleInitial cap vs (insertEvent ⟨v.fire, v.kind, n⟩ q) (n + 1) = (q', n', none) := by
  cases he : initialError cap q n v with
  | some c => rw [scheduleInitial_refused he] at h; cases h
  | none => exact ⟨rfl, (scheduleInitial_accepted he).symm.trans h⟩

theorem succ_add_ofNat (n : Cycle) (i : Nat) : n + 1 + BitVec.ofNat 64 i = n + BitVec.ofNat 64 (i + 1) := by
  rw [BitVec.add_assoc, BitVec.add_comm 1, BitVec.ofNat_add]
  rfl

/-- The numbers are assigned in list order, and Q takes just the events of the list. -/
theorem scheduleInitial_events (h : scheduleInitial cap vs q n = (q', n', none)) :
    n' = n + BitVec.ofNat 64 vs.length ∧
      ∀ e, e ∈ q' ↔ e ∈ q ∨ ∃ i v, vs[i]? = some v ∧ e = ⟨v.fire, v.kind, n + BitVec.ofNat 64 i⟩ := by
  induction vs generalizing q n with
  | nil => cases h; simp
  | cons v vs ih =>
    obtain ⟨hn, hq⟩ := ih (scheduleInitial_cons_succeeds h).2
    refine ⟨by rw [hn, succ_add_ofNat, List.length_cons], fun e => ?_⟩
    rw [hq, mem_insertEvent]
    simp only [succ_add_ofNat]
    conv_rhs => rw [← Nat.or_exists_add_one]
    simp [or_assoc, or_left_comm]

/-- Initial events, scheduled at `now` = 0, keep the scheduler's invariant. -/
theorem SchedInv.initial {s : State} (hs : SchedInv s) (hnow : s.now = 0)
    (h : scheduleInitial s.cfg.queueCapacity vs s.queue s.nextSeq = (q, n, none)) :
    SchedInv { s with queue := q, nextSeq := n } := by
  induction vs generalizing s with
  | nil => cases h; exact hs
  | cons v vs ih =>
    obtain ⟨hv, hvs⟩ := scheduleInitial_cons_succeeds h
    obtain ⟨hk, hroom, hnum⟩ := initialError_eq_none.mp hv
    have hnext := hs.schedule (fire := v.fire) hk (hnow ▸ zero_le_cycle _) hroom hnum
    exact (ih hnext hnow hvs :)

end

/-! ### What a successful construction has checked (R290) -/

theorem constructionFatal_eq_none {cfg : Config} : constructionFatal cfg = none ↔
    ¬cfg.regions.any regionMalformed = true ∧ ¬anyOverlap (buildRegions cfg.regions) = true ∧ ¬misplaced cfg = true ∧
      ¬shorterThan headerLength cfg.cartImage = true ∧ (initialQueue cfg).2.2 = none := by
  rw [constructionFatal_eq]
  split_ifs <;> simp_all

theorem not_misplaced_iff {cfg : Config} : ¬misplaced cfg = true ↔
    (∀ x, ¬bootMalformed cfg (buildRegions cfg.regions) x = true) ∧ cfg.bootRegion.fast ≠ cfg.bootRegion.slow ∧
      ¬wmMalformed cfg (buildRegions cfg.regions) = true := by
  simp only [misplaced, Bool.or_eq_true, not_or, decide_eq_true_eq, forall_cpu, and_assoc, ne_eq]

/-- A configuration that construction accepts: what the constructed machine needs of it. -/
structure Accepted (cfg : Config) : Prop where
  windows : ∀ r ∈ buildRegions cfg.regions, windowWellFormed r = true
  disjoint : anyOverlap (buildRegions cfg.regions) = false
  bootNotWm : ∀ x, perCpu cfg.bootRegion x ≠ cfg.wmRegion
  bootApart : cfg.bootRegion.fast ≠ cfg.bootRegion.slow
  wmPower : ∃ n, cfg.wmSize = 2 ^ n
  wmLarge : 0x400 ≤ cfg.wmSize
  events : scheduleInitial cfg.queueCapacity cfg.initialEvents [] 0 = ((initialQueue cfg).1, (initialQueue cfg).2.1, none)

theorem Accepted.of_constructed {cfg : Config} (h : constructionFatal cfg = none) : Accepted cfg := by
  obtain ⟨hregions, hoverlap, hplaced, -, hevents⟩ := constructionFatal_eq_none.mp h
  obtain ⟨hboot, happart, hwm⟩ := not_misplaced_iff.mp hplaced
  obtain ⟨-, -, -, hpower, hlarge, -⟩ := not_wmMalformed_iff.mp hwm
  have hwindows : ∀ c ∈ cfg.regions, ¬regionMalformed c = true := by simpa using hregions
  refine ⟨windowWellFormed_of_mem_buildRegions hwindows, Bool.eq_false_iff.mpr hoverlap, fun x => ?_, happart, hpower,
    hlarge, ?_⟩
  · obtain ⟨-, -, -, -, hne⟩ := not_bootMalformed_iff.mp (hboot x)
    exact hne
  · rw [← hevents]
    rfl

/-! ### The constructed machine (R294) -/

theorem Accepted.schedInv {cfg : Config} (h : Accepted cfg) : SchedInv (State.construct cfg) :=
  have empty : SchedInv { State.construct cfg with queue := [], nextSeq := 0 } :=
    ⟨.nil, by simp, by simp, .nil, by simp, Nat.zero_le _⟩
  empty.initial rfl h.events

/-- Settles O48: the initial events are numbered in list order from 0, in the event order; every other field is as
`State.construct` writes it. -/
theorem constructedState : Obligations.ConstructedState := by
  intro cfg hfatal s
  have h := Accepted.of_constructed hfatal
  obtain ⟨hn, hq⟩ := scheduleInitial_events h.events
  refine ⟨rfl, rfl, rfl, rfl, rfl, forall_cpu.mpr ⟨⟨rfl, rfl, rfl, rfl⟩, ⟨rfl, rfl, rfl, rfl⟩⟩, hfatal, rfl, rfl,
    ?_, h.schedInv.ordered, fun e => ?_⟩
  · exact hn.trans (BitVec.zero_add _)
  · exact (hq e).trans (by simp)

/-- Settles O52: the scheduler's part is `Accepted.schedInv`, the region table has passed R73 and R74, and the times are
0. -/
theorem constructionMeetsTheInvariant : Obligations.ConstructionMeetsTheInvariant := by
  intro cfg hfatal
  have h := Accepted.of_constructed hfatal
  have hs := h.schedInv
  exact
    { ctxHost := rfl
      notDispatching := rfl
      ordered := hs.ordered
      future := hs.future
      seqs := hs.seqs
      distinct := hs.distinct
      kinds := hs.kinds
      bound := hs.bound
      memory := memoryWf_nil cfg
      windows := h.windows
      disjoint := h.disjoint
      leadEq := rfl
      leadLow := by simp [State.construct]
      leadHigh := by simp [State.construct]
      leadSettled := fun _ => by simp [State.construct]
      slowTime := by simp [State.construct] }

/-- Settles O53: TC's checks are evaluated, and a successful construction meets the invariant. -/
theorem resetMeetsTheInvariant : Obligations.ResetMeetsTheInvariant :=
  have htc : constructionFatal Config.tc = none := by decide
  ⟨htc, constructionMeetsTheInvariant _ htc⟩

/-! ### The backing bytes (R291, R292, 10_state.md R57) -/

/-- An offset that a bus address can reach gives back its region and itself from its key (log 14). -/
theorem defaultByte_cellKey (cfg : Config) {r o : Nat} (ho : o < 2 ^ 33) :
    defaultByte cfg (cellKey r o) = constructedByte cfg r o := by
  have hregion : cellKey r o / 2 ^ 33 = r := by unfold cellKey; omega
  have hoffset : cellKey r o % 2 ^ 33 = o := by unfold cellKey; omega
  rw [defaultByte, hregion, hoffset]

theorem readBacking_construct (cfg : Config) (r : Nat) {o : Nat} (ho : o < 2 ^ 33) :
    readBacking (State.construct cfg) r o = constructedByte cfg r o :=
  defaultByte_cellKey cfg ho

section
variable {cfg : Config} {r o : Nat}

theorem constructedByte_header (h : o < headerLength) :
    constructedByte cfg cfg.wmRegion (headerDest cfg + o) = cfg.cartImage.getD o 0 := by
  rw [constructedByte, if_pos ⟨rfl, Nat.le_add_right _ _, Nat.add_lt_add_left h _⟩, Nat.add_sub_cancel_left]

theorem constructedByte_of_not_header
    (h : r = cfg.wmRegion → o < headerDest cfg ∨ headerDest cfg + headerLength ≤ o) :
    constructedByte cfg r o = bootedByte cfg r o := by
  refine if_neg fun ⟨hr, hle, hlt⟩ => ?_
  have := h hr
  omega

theorem bootedByte_image (happart : cfg.bootRegion.fast ≠ cfg.bootRegion.slow) (x : Cpu)
    (h : o < (perCpu cfg.bootImage x).length) :
    bootedByte cfg (perCpu cfg.bootRegion x) o = (perCpu cfg.bootImage x).getD o 0 := by
  cases x with
  | fast => exact if_pos ⟨rfl, h⟩
  | slow => exact (if_neg fun hfast => happart hfast.1.symm).trans (if_pos ⟨rfl, h⟩)

theorem bootedByte_of_not_image (h : ∀ x, r = perCpu cfg.bootRegion x → (perCpu cfg.bootImage x).length ≤ o) :
    bootedByte cfg r o = initialBacking cfg r o :=
  (if_neg fun hfast => Nat.not_lt.mpr (h .fast hfast.1) hfast.2).trans
    (if_neg fun hslow => Nat.not_lt.mpr (h .slow hslow.1) hslow.2)

end

theorem headerDest_le (cfg : Config) : headerDest cfg ≤ 0x027FFE00 := Nat.and_le_left

/-- The destination is a multiple of 2^9 below the size, itself one, and the header is shorter than 2^9. -/
theorem Accepted.headerDest_fits {cfg : Config} (h : Accepted cfg) : headerDest cfg + headerLength ≤ cfg.wmSize := by
  obtain ⟨n, hn⟩ := h.wmPower
  have hlarge : 2 ^ 9 ≤ 2 ^ n := by have := h.wmLarge; omega
  obtain ⟨m, rfl⟩ := Nat.exists_eq_add_of_le ((Nat.pow_le_pow_iff_right (by decide)).mp hlarge)
  have hdest : headerDest cfg = 2 ^ 9 * (0x13FFF % 2 ^ m) := by
    rw [headerDest, hn, Nat.and_two_pow_sub_one_eq_mod, pow_add, show 0x027FFE00 = 2 ^ 9 * 0x13FFF from rfl,
      Nat.mul_mod_mul_left]
  have hlt : 0x13FFF % 2 ^ m < 2 ^ m := Nat.mod_lt _ (Nat.two_pow_pos m)
  rw [hdest, hn, pow_add, headerLength]
  omega

/-- Settles O49: an unlisted byte reads as the header over the boot images over INITIAL_BACKING; the boot regions are not
working memory, nor one region. -/
theorem backingAfterConstruction : Obligations.BackingAfterConstruction := by
  intro cfg hfatal s dest
  have h := Accepted.of_constructed hfatal
  refine ⟨fun x o b ho hb => ?_, h.headerDest_fits, fun o b ho hb => ?_, fun r o ho hboot hheader => ?_⟩
  · obtain ⟨hlt, -⟩ := List.getElem?_eq_some_iff.mp hb
    rw [readBacking_construct cfg _ (by omega), constructedByte_of_not_header fun hwm => absurd hwm (h.bootNotWm x),
      bootedByte_image h.bootApart x hlt, List.getD_eq_getElem?_getD, hb, Option.getD_some]
  · have hdest : dest ≤ 0x027FFE00 := headerDest_le cfg
    rw [readBacking_construct cfg _ (by omega)]
    exact (constructedByte_header ho).trans (by rw [List.getD_eq_getElem?_getD, hb, Option.getD_some])
  · rw [readBacking_construct cfg r (by omega), constructedByte_of_not_header hheader, bootedByte_of_not_image hboot]

/-! ### Initial events as commands (R293, 60_exceptions.md R262) -/

/-- What construction's initial events decide. -/
def schedulerPart (s : State) : List Event × Cycle × Option FatalCode := (s.queue, s.nextSeq, s.fatal)

/-- SCHED.SCHEDULE of an initial event. -/
def issueInitial (s : State) (v : InitialEvent) : State := issuePacket (encodePacket (.schedSchedule v.kind v.fire)) s

theorem schedulerPart_issueInitial_of_fatal {s : State} {c : FatalCode} (h : s.fatal = some c) (v : InitialEvent) :
    schedulerPart (issueInitial s v) = schedulerPart s := by
  cases hd : decode (encodePacket (.schedSchedule v.kind v.fire)) with
  | ok i =>
    rw [issueInitial, issuePacket_of_decode hd, runNested_turnedAway (turnedAway_of_fatal h i)]
    simp [schedulerPart]
  | error e =>
    rw [issueInitial, issuePacket_of_reserved hd]
    simp [schedulerPart, answerReserved, h]

/-- A fatal error is the last thing the commands do. -/
theorem schedulerPart_foldl_of_fatal {s : State} {c : FatalCode} (h : s.fatal = some c) (vs : List InitialEvent) :
    schedulerPart (vs.foldl issueInitial s) = schedulerPart s := by
  induction vs generalizing s with
  | nil => rfl
  | cons v vs ih =>
    have hv := schedulerPart_issueInitial_of_fatal h v
    have hfatal : (issueInitial s v).fatal = some c := (congrArg (fun p => p.2.2) hv).trans h
    rw [List.foldl_cons, ih hfatal, hv]

section
variable {s : State} {v : InitialEvent} (hf : s.fatal = none)
include hf

theorem issueInitial_of_kind (hk : kindWellFormed v.kind = true) : issueInitial s v = scheduleEffect v.kind v.fire s := by
  have hd := (decode_schedule_packet v.kind v.fire).trans (if_pos hk)
  rw [issueInitial, issuePacket_of_decode hd, runNested_of_not_turnedAway (turnedAway_of_runs ⟨hf, rfl⟩), nestedEffect]

theorem issueInitial_refused (hnow : s.now = 0) {c : FatalCode}
    (h : initialError s.cfg.queueCapacity s.queue s.nextSeq v = some c) :
    issueInitial s v = raiseFatal c s := by
  unfold initialError at h
  split at h
  next hk => rw [issueInitial_of_kind hf hk, scheduleEffect, hnow, h]
  next hk =>
    cases h
    have hd := (decode_schedule_packet v.kind v.fire).trans (if_neg hk)
    rw [issueInitial, issuePacket_of_reserved hd, answerReserved_of_healthy hf]

theorem issueInitial_accepted (hnow : s.now = 0)
    (h : initialError s.cfg.queueCapacity s.queue s.nextSeq v = none) :
    issueInitial s v = answer .ok (cycleWords s.nextSeq)
      { s with queue := insertEvent ⟨v.fire, v.kind, s.nextSeq⟩ s.queue, nextSeq := s.nextSeq + 1 } := by
  obtain ⟨hk, hroom, hnum⟩ := initialError_eq_none.mp h
  rw [issueInitial_of_kind hf hk, scheduleEffect_ok v.kind v.fire (hnow ▸ zero_le_cycle _) hroom hnum]

end

/-- The commands in list order do what construction does with the list. -/
theorem schedulerPart_foldl_issueInitial (vs : List InitialEvent) {s : State} (hf : s.fatal = none) (hnow : s.now = 0) :
    schedulerPart (vs.foldl issueInitial s) = scheduleInitial s.cfg.queueCapacity vs s.queue s.nextSeq := by
  induction vs generalizing s with
  | nil => simp [schedulerPart, scheduleInitial, hf]
  | cons v vs ih =>
    rw [List.foldl_cons]
    cases he : initialError s.cfg.queueCapacity s.queue s.nextSeq v with
    | some c =>
      rw [issueInitial_refused hf hnow he, schedulerPart_foldl_of_fatal (raiseFatal_fatal c s),
        scheduleInitial_refused he]
      simp [schedulerPart]
    | none =>
      rw [issueInitial_accepted hf hnow he, ih (by simpa using hf) (by simpa using hnow), scheduleInitial_accepted he]
      simp

/-- Settles O51: no other check fails with the events there, so that FATAL too is what scheduling them decides. -/
theorem initialEventsAreScheduleCommands : Obligations.InitialEventsAreScheduleCommands := by
  intro cfg hfatal s
  obtain ⟨hregions, hoverlap, hplaced, hcart, -⟩ := constructionFatal_eq_none.mp hfatal
  have hpart : schedulerPart s = initialQueue cfg :=
    schedulerPart_foldl_issueInitial cfg.initialEvents (s := State.construct { cfg with initialEvents := [] }) hfatal rfl
  have hcfg : constructionFatal cfg = (initialQueue cfg).2.2 :=
    constructionFatal_of_accepted hregions hoverlap hplaced hcart
  obtain ⟨hqueue, hrest⟩ := Prod.mk.inj hpart
  obtain ⟨hseq, hfat⟩ := Prod.mk.inj hrest
  exact ⟨hqueue.symm, hseq.symm, hcfg.trans hfat.symm⟩

/-! ### `sched.schedule_in` had sequence numbers no end (41_scheduler.md R150; log 7) -/

/-- Scheduling at `now`, with room in Q, never fails: where numbers are left it is SCHED.SCHEDULE, and where they are used up
the event has none. -/
theorem scheduleIn_zero_unlimited {k : Kind} {s : State} (hf : s.fatal = none) (hk : kindWellFormed k = true)
    (hroom : s.queue.length ≠ s.cfg.queueCapacity) :
    (scheduleInWith issueUnlimited k 0 s).fatal = none ∧
      ∃ n, (scheduleInWith issueUnlimited k 0 s).queue = insertEvent ⟨s.now, k, n⟩ s.queue := by
  have hsum : s.now.toNat + (0 : Cycle).toNat < 2 ^ 64 := s.now.isLt
  by_cases hnum : s.nextSeq = lastSeq
  · have hd := (decode_schedule_packet k s.now).trans (if_pos hk)
    have hissue : scheduleInWith issueUnlimited k 0 s =
        scheduleUnnumbered k s.now (answer .ok (cycleWords s.now) s) := by
      rw [scheduleInWith, issueUnlimited_now, issue_now hf, scheduleAfter, answer_now, if_neg (Nat.not_le.mpr hsum),
        add_zero]
      exact issueUnlimited_of (by simpa using hnum) hd (by simp) (by simpa using hroom)
    rw [hissue]
    exact ⟨by simp [scheduleUnnumbered, hf], lastSeq, by simp [scheduleUnnumbered]⟩
  · obtain ⟨hfatal, hqueue, -⟩ := scheduleInMove_ok (P := 0) hf hk hsum hroom hnum
    have hsync : scheduleInWith issueUnlimited k 0 s = scheduleInMove k 0 s :=
      (scheduleIn_sync k 0 hf).resolve_right fun h => by
        rw [show scheduleInWith issuePacket k 0 s = scheduleInMove k 0 s from rfl, hfatal] at h
        cases h
    rw [hsync]
    exact ⟨hfatal, s.nextSeq, by rw [hqueue, add_zero]⟩

/-- What `sched.schedule_in` of the handler leaves alone, and that it keeps Q fit. -/
structure ScheduleInFrame (s u : State) : Prop where
  cfg : u.cfg = s.cfg
  now : u.now = s.now
  priv : u.collab.handler.priv = s.collab.handler.priv
  table : u.collab.handler.table = s.collab.handler.table
  fits : FireInv s.now s.cfg.queueCapacity s.queue → FireInv u.now u.cfg.queueCapacity u.queue

theorem scheduleIn_frame (k : Kind) (d : Cycle) {s : State} (h : s.ctx = .handler) :
    ScheduleInFrame s (scheduleInWith issueUnlimited k d s) := by
  obtain ⟨q, n, g, c, ext, hfits, he⟩ := deaf_scheduleIn k d h
  have hmoved : scheduleInWith issueUnlimited k d s = moved q n g c (s.collab.handler.heard ++ ext) s := he _
  rw [hmoved]
  exact ⟨rfl, rfl, rfl, rfl, hfits⟩

/-! ### Advances that go on (R150) -/

/-- What every dispatch had numbers no end keeps, the next being due, holds for ever. -/
theorem goesOnAfter_of_keeps {I : State → Prop} {T : Cycle} (hgood : ∀ s, I s → s.fatal = none)
    (hstep : ∀ s, I s → ∃ e rest t, s.queue = e :: rest ∧ e.fire ≤ T ∧
      dispatch issueUnlimited e.kind e.fire { s with queue := rest, now := e.fire } = .ok t ∧ I t)
    (fuel : Nat) {s : State} (h : I s) : goesOnAfter fuel T s = true := by
  suffices hloop : ∀ n, ∃ t m, advanceLoop issueUnlimited fuel T n s = .ok (t, m) ∧ t.fatal = none ∧ isDue T t = true from
    (goesOnAfter_iff 0).mpr (hloop 0)
  induction fuel generalizing s with
  | zero =>
    obtain ⟨e, rest, -, hq, hT, -⟩ := hstep s h
    exact fun n => ⟨s, n, rfl, hgood s h, isDue_iff.mpr ⟨e, rest, hq, hT⟩⟩
  | succ fuel ih =>
    obtain ⟨e, rest, t, hq, hT, hd, ht⟩ := hstep s h
    intro n
    rw [advanceLoop_of_due hq hT hd (hgood t ht)]
    exact ih ht (n + 1)

/-! ### A handler that reschedules with period 0 (R306) -/

/-- In each of its private states the handler, called for kind k, schedules k again at once, and then goes on to one of two
private states as the answer is; called for another kind it does nothing. -/
def reschedulesAtOnce (k : Kind) (status : Word) (data : List Word) (table : List (Script Nat)) : Prop :=
  ∀ q, q < table.length → ∃ yes no, yes < table.length ∧ no < table.length ∧
    table[q]? = some (.ifKind k (.scheduleIn k 0 (.ifAnswered status data (.done yes) (.done no))) (.done q))

/-- A healthy machine before a dispatch, with an event of kind k due by T and its handler in a row of its table. -/
structure PeriodZero (k : Kind) (T : Cycle) (rows : List (Script Nat)) (s : State) : Prop where
  healthy : s.fatal = none
  table : s.collab.handler.table = rows
  priv : s.collab.handler.priv < rows.length
  fits : FireInv s.now s.cfg.queueCapacity s.queue
  due : ∃ e ∈ s.queue, e.kind = k ∧ e.fire ≤ T

section
variable {k : Kind} {T : Cycle} {rows : List (Script Nat)} {s u : State}

theorem PeriodZero.returned (h : PeriodZero k T rows u) {q : Nat} (hq : q < rows.length) (c : Ctx) :
    PeriodZero k T rows { handlerReturned (u, some q) with ctx := c } :=
  ⟨h.healthy, h.table, hq, h.fits, h.due⟩

/-- In Q's order min(Q) is due where any event is. -/
theorem PeriodZero.head_due (h : PeriodZero k T rows s) {e : Event} {rest : List Event} (hq : s.queue = e :: rest) :
    e.fire ≤ T := by
  obtain ⟨x, hx, -, hxT⟩ := h.due
  have hsorted := h.fits.sorted
  rw [hq] at hx hsorted
  rcases List.mem_cons.mp hx with rfl | hx
  · exact hxT
  · exact BitVec.le_trans ((List.pairwise_cons.mp hsorted).1 x hx) hxT

/-- The event of kind k that is dispatched is scheduled again at its own cycle. -/
theorem PeriodZero.reschedule (h : PeriodZero k T rows s) (hk : kindWellFormed k = true) {e : Event}
    {rest : List Event} (hq : s.queue = e :: rest) : PeriodZero k T rows
      (scheduleInWith issueUnlimited k 0 (calledState k e.fire { s with queue := rest, now := e.fire })) := by
  set b := calledState k e.fire { s with queue := rest, now := e.fire }
  have hfits := h.fits
  rw [hq] at hfits
  have hroom : rest.length ≠ s.cfg.queueCapacity := by
    have := hfits.bound
    rw [List.length_cons] at this
    omega
  have hT := h.head_due hq
  have frame := scheduleIn_frame k 0 (s := b) rfl
  obtain ⟨hfatal, n, hqueue⟩ := scheduleIn_zero_unlimited (s := b) h.healthy hk hroom
  refine ⟨hfatal, frame.table.trans h.table, frame.priv ▸ h.priv, frame.fits hfits.pop, ⟨e.fire, k, n⟩, ?_, rfl, hT⟩
  rw [hqueue]
  exact mem_insertEvent.mpr (.inl rfl)

/-- An event of another kind is dispatched, and the one of kind k is still due. -/
theorem PeriodZero.ignore (h : PeriodZero k T rows s) {e : Event} {rest : List Event} (hq : s.queue = e :: rest)
    (hne : e.kind ≠ k) : PeriodZero k T rows (calledState e.kind e.fire { s with queue := rest, now := e.fire }) := by
  have hfits := h.fits
  obtain ⟨x, hx, hxk, hxT⟩ := h.due
  rw [hq] at hx hfits
  refine ⟨h.healthy, h.table, h.priv, hfits.pop, x, ?_, hxk, hxT⟩
  exact (List.mem_cons.mp hx).resolve_left fun he => hne (he ▸ hxk)

/-- Whatever the answer, the handler returns to one of the two private states. -/
theorem runScriptWith_scheduleIn_branch {ρ : Type} {issue : Packet → State → State} (status : Word) (data : List Word)
    (yes no : ρ) (hgood : (scheduleInWith issue k 0 s).fatal = none) : ∃ r, (r = yes ∨ r = no) ∧
      runScriptWith issue (.scheduleIn k 0 (.ifAnswered status data (.done yes) (.done no))) s =
        (scheduleInWith issue k 0 s, some r) := by
  simp only [runScriptWith, hgood, Option.isSome_none, Bool.false_eq_true, if_false]
  split
  · exact ⟨yes, .inl rfl, rfl⟩
  · exact ⟨no, .inr rfl, rfl⟩

/-- Each dispatch leaves an event of kind k due. -/
theorem PeriodZero.dispatch {status : Word} {data : List Word} (hk : kindWellFormed k = true)
    (hrows : reschedulesAtOnce k status data rows) (h : PeriodZero k T rows s) :
    ∃ e rest t, s.queue = e :: rest ∧ e.fire ≤ T ∧
      Machine.dispatch issueUnlimited e.kind e.fire { s with queue := rest, now := e.fire } = .ok t ∧
      PeriodZero k T rows t := by
  obtain ⟨e, rest, hq⟩ : ∃ e rest, s.queue = e :: rest := by
    obtain ⟨x, hx, -⟩ := h.due
    exact List.exists_cons_of_ne_nil (List.ne_nil_of_mem hx)
  obtain ⟨yes, no, hyes, hno, hrow⟩ := hrows _ h.priv
  rw [← h.table] at hrow
  refine ⟨e, rest, _, hq, h.head_due hq, dispatch_eq_ok.mpr ⟨_, hrow, rfl⟩, ?_⟩
  rw [runScriptWith_ifKind_called]
  split
  next heq =>
    have hnext := h.reschedule hk hq
    rw [heq]
    obtain ⟨r, hr, hrun⟩ := runScriptWith_scheduleIn_branch status data yes no hnext.healthy
    rw [hrun]
    exact hnext.returned (by rcases hr with rfl | rfl <;> assumption) s.ctx
  next hne => exact (h.ignore hq hne).returned h.priv s.ctx

end

theorem endless_of_reschedulesAtOnce {k : Kind} {T : Cycle} {s : State} {status : Word} {data : List Word} {e : Event}
    (hs : MachineInv s) (hf : s.fatal = none) (he : e ∈ s.queue) (hek : e.kind = k) (hT : e.fire ≤ T)
    (hrows : reschedulesAtOnce k status data s.collab.handler.table)
    (hpriv : s.collab.handler.priv < s.collab.handler.table.length) : endless T s := fun fuel =>
  goesOnAfter_of_keeps (I := PeriodZero k T s.collab.handler.table) (fun _ => PeriodZero.healthy)
    (fun _ => PeriodZero.dispatch (hek ▸ hs.kinds e he) hrows) fuel
    ⟨hf, rfl, hpriv, hs.schedInv.fireInv, e, he, hek, hT⟩

/-- Settles O59: the fault that says an advance never ends is raised for an endless one; period 0 makes it endless, and a
handler that moves on makes it end. -/
theorem periodZeroNeverEnds : Obligations.PeriodZeroNeverEnds := by
  intro T s hs hf
  have hnever : exec (.schedAdvance T) s = .fault .advanceNeverEnds ↔ endless T s := by
    rw [exec_schedAdvance_eq_fault (hs.commandRuns hf _), advanceTo_neverEnds_iff hs.schedInv hs.notDispatching hf]
  refine ⟨hnever, fun k e status data he hek hT hrows hpriv => ?_, fun hmoves => ?_⟩
  · exact hnever.mpr (endless_of_reschedulesAtOnce hs hf he hek hT hrows hpriv)
  · obtain ⟨u, n, hu⟩ := advanceTo_ends T s hs.schedInv hf hmoves
    rw [exec_schedAdvance (hs.commandRuns hf _), advanceEffect, hu]
    simp only
    split <;> exact ⟨_, rfl⟩

/-! ### One CPU's accesses and the other's tracker (R307, 42_bus.md R175) -/

/-- CPU y's tracker holds v; nothing else differs. -/
def withLast (y : Cpu) (v : Option Nat) (s : State) : State := { s with last := setPerCpu s.last y v }

theorem withLast_self (y : Cpu) (s : State) : withLast y (perCpu s.last y) s = s := by
  simp only [withLast, setPerCpu_self]

section
variable (y : Cpu) (v : Option Nat) (s : State)

@[simp] theorem withLast_last : (withLast y v s).last = setPerCpu s.last y v := rfl

theorem answer_withLast (st : Status) (ws : List Word) :
    answer st ws (withLast y v s) = withLast y v (answer st ws s) := by
  unfold answer respond tell
  cases hc : s.ctx <;> simp [withLast, hc] <;> rfl

theorem raiseFatal_withLast (c : FatalCode) : raiseFatal c (withLast y v s) = withLast y v (raiseFatal c s) :=
  answer_withLast y v (setFatal c s) (.fatal c) []

/-- Whether a command is turned away is a matter of FATAL and the context (30_encoding.md R126). -/
theorem turnedAway_withLast (i : Instr) : turnedAway i (withLast y v s) = (turnedAway i s).map (withLast y v) := by
  have hf : (withLast y v s).fatal = s.fatal := rfl
  have hc : (withLast y v s).ctx = s.ctx := rfl
  unfold turnedAway answerFatal
  rw [hf, hc]
  cases s.fatal with
  | some c => simp [answer_withLast]
  | none => cases permitted i s.ctx <;> simp [raiseFatal_withLast]

theorem writeBytes_withLast (i o : Nat) (bs : List Byte) :
    writeBytes i o bs (withLast y v s) = withLast y v (writeBytes i o bs s) := by
  induction bs generalizing o s with
  | nil => rfl
  | cons b bs ih =>
    rw [writeBytes, writeBytes, ← ih]
    rfl

end

section
variable {x y : Cpu} (h : y ≠ x) (v : Option Nat) (s : State)
include h

theorem setLast_withLast (r : Option Nat) : setLast x r (withLast y v s) = withLast y v (setLast x r s) := by
  simp [setLast, withLast, setPerCpu_comm _ h]

theorem isSequential_withLast (i : Nat) : isSequential x i (withLast y v s) = isSequential x i s := by
  simp [isSequential, perCpu_setPerCpu_other _ _ _ _ h.symm]

theorem accessEffect_withLast (k : AccessKind) (w : Width) (priv : Bool) (addr data : Word) :
    accessEffect x k w priv addr data (withLast y v s) = withLast y v (accessEffect x k w priv addr data s) := by
  cases hpath : accessPath s.regions k priv (alignDown w addr) with
  | unmapped =>
    rw [accessEffect_unmapped hpath, accessEffect_unmapped (s := withLast y v s) hpath, setLast_withLast h,
      ← answer_withLast]
    rfl
  | violation q r =>
    rw [accessEffect_violation hpath, accessEffect_violation (s := withLast y v s) hpath, ← answer_withLast]
    rfl
  | denied q i r =>
    rw [accessEffect_denied hpath, accessEffect_denied (s := withLast y v s) hpath, isSequential_withLast h,
      setLast_withLast h, ← answer_withLast]
    rfl
  | granted i r =>
    rw [accessEffect_granted hpath, accessEffect_granted (s := withLast y v s) hpath]
    cases k <;>
      simp only [grantedEffect, isSequential_withLast h, setLast_withLast h, writeBytes_withLast, answer_withLast] <;> rfl

end

/-- A bus command's own rule is an access of the CPU it names. -/
theorem nestedEffect_of_requesterOf {i : Instr} {x : Cpu} (hi : requesterOf i = some x) :
    ∃ k w priv addr data, nestedEffect i = accessEffect x k w priv addr data := by
  cases i <;> cases hi <;> exact ⟨_, _, _, _, _, rfl⟩

/-- No collaborator takes part in a bus command. -/
theorem exec_of_requesterOf {i : Instr} {x : Cpu} (hi : requesterOf i = some x) (s : State) :
    exec i s = .next (runNested i s) := by
  cases i <;> cases hi <;> rfl

theorem runNested_withLast {i : Instr} {x y : Cpu} (hi : requesterOf i = some x) (h : y ≠ x) (v : Option Nat) (s : State) :
    runNested i (withLast y v s) = withLast y v (runNested i s) := by
  cases ht : turnedAway i s with
  | some t => rw [runNested_turnedAway ht, runNested_turnedAway (by rw [turnedAway_withLast, ht]; rfl)]
  | none =>
    obtain ⟨k, w, priv, addr, data, he⟩ := nestedEffect_of_requesterOf hi
    rw [runNested_of_not_turnedAway ht, runNested_of_not_turnedAway (by rw [turnedAway_withLast, ht]; rfl), he,
      accessEffect_withLast h]

/-- With the tracker held already the command does the same, so that it does not write it. -/
theorem runNested_last_other {i : Instr} {x y : Cpu} (hi : requesterOf i = some x) (h : y ≠ x) (s : State) :
    perCpu (runNested i s).last y = perCpu s.last y := by
  have kept : withLast y (perCpu s.last y) (runNested i s) = runNested i s := by
    rw [← runNested_withLast hi h, withLast_self]
  rw [← kept, withLast_last, perCpu_setPerCpu_same]

/-! ### What the other CPU's accesses answer (R307, 42_bus.md R176) -/

/-- Two states in which CPU y's accesses meet the same configuration, regions and tracker; the backing bytes may
differ. -/
structure MeetAlike (y : Cpu) (s t : State) : Prop where
  cfg : t.cfg = s.cfg
  regions : t.regions = s.regions
  last : perCpu t.last y = perCpu s.last y
  ctx : t.ctx = s.ctx
  healthyBefore : s.fatal = none
  healthyAfter : t.fatal = none

/-- The bytes that an access at addr reaches stand in t as in s. -/
def SameBytes (w : Width) (addr : Word) (s t : State) : Prop :=
  ∀ n r, resolve s.regions (alignDown w addr).toNat = some (n, r) →
    readBytes t n (regionOffset r (alignDown w addr).toNat) (widthBytes w) =
      readBytes s n (regionOffset r (alignDown w addr).toNat) (widthBytes w)

/-- Two ends of one command of CPU y: the same status, as many words, the last of them (the cost) alike, and y's tracker
alike; all words alike where `same` holds. -/
def AnsweredAlike (y : Cpu) (same : Prop) (before after : State) : Prop :=
  ∃ st ws ws' u u', before = answer st ws u ∧ after = answer st ws' u' ∧ perCpu u'.last y = perCpu u.last y ∧
    ws'.length = ws.length ∧ ws'.getLast? = ws.getLast? ∧ (same → ws' = ws)

theorem resolve_of_granted {rs : List Region} {k : AccessKind} {priv : Bool} {a : Word} {i : Nat} {r : Region}
    (h : accessPath rs k priv a = .granted i r) : resolve rs a.toNat = some (i, r) := by
  unfold accessPath at h
  split at h
  · cases h
  next j q hres =>
    split at h
    · cases h
    · cases k <;> simp only at h <;> split at h <;> cases h <;> exact hres

/-- Only the value that a granted read or fetch returns depends on the bytes. -/
theorem AnsweredAlike.access {y : Cpu} {s t : State} (h : MeetAlike y s t) (k : AccessKind) (w : Width) (priv : Bool)
    (addr data : Word) : AnsweredAlike y (SameBytes w addr s t) (accessEffect y k w priv addr data s)
      (accessEffect y k w priv addr data t) := by
  have hseq (i : Nat) : isSequential y i t = isSequential y i s := by rw [isSequential, isSequential, h.last]
  cases hpath : accessPath s.regions k priv (alignDown w addr) with
  | unmapped =>
    rw [accessEffect_unmapped hpath, accessEffect_unmapped (s := t) (h.regions ▸ hpath), h.cfg]
    exact ⟨_, _, _, _, _, rfl, rfl, by simp, rfl, rfl, fun _ => rfl⟩
  | violation q r =>
    rw [accessEffect_violation hpath, accessEffect_violation (s := t) (h.regions ▸ hpath), h.cfg]
    exact ⟨_, _, _, _, _, rfl, rfl, h.last, rfl, rfl, fun _ => rfl⟩
  | denied q i r =>
    rw [accessEffect_denied hpath, accessEffect_denied (s := t) (h.regions ▸ hpath), h.cfg, hseq]
    exact ⟨_, _, _, _, _, rfl, rfl, by simp, rfl, rfl, fun _ => rfl⟩
  | granted i r =>
    rw [accessEffect_granted hpath, accessEffect_granted (s := t) (h.regions ▸ hpath)]
    have hvalue (hsame : SameBytes w addr s t) := hsame i r (resolve_of_granted hpath)
    cases k with
    | write =>
      simp only [grantedEffect, hseq]
      exact ⟨_, _, _, _, _, rfl, rfl, by simp, rfl, rfl, fun _ => rfl⟩
    | read =>
      simp only [grantedEffect, hseq]
      exact ⟨_, _, _, _, _, rfl, rfl, by simp, by simp, by simp, fun hsame => by rw [hvalue hsame]⟩
    | execute =>
      simp only [grantedEffect, hseq]
      exact ⟨_, _, _, _, _, rfl, rfl, by simp, by simp, by simp, fun hsame => by rw [hvalue hsame]⟩

/-- Turned away for its context, the command answers the same; else it is the access. -/
theorem AnsweredAlike.runNested {y : Cpu} {s t : State} {same : Prop} (h : MeetAlike y s t) {j : Instr}
    (haccess : AnsweredAlike y same (nestedEffect j s) (nestedEffect j t)) :
    AnsweredAlike y same (runNested j s) (runNested j t) := by
  by_cases hp : permitted j s.ctx = true
  · rw [runNested_of_not_turnedAway (turnedAway_of_runs ⟨h.healthyBefore, hp⟩),
      runNested_of_not_turnedAway (turnedAway_of_runs ⟨h.healthyAfter, h.ctx ▸ hp⟩)]
    exact haccess
  · have hs : turnedAway j s = some (raiseFatal .illegalContext s) := by simp [turnedAway, h.healthyBefore, hp]
    have ht : turnedAway j t = some (raiseFatal .illegalContext t) := by simp [turnedAway, h.healthyAfter, h.ctx, hp]
    rw [runNested_turnedAway hs, runNested_turnedAway ht]
    exact ⟨_, _, _, _, _, rfl, rfl, h.last, rfl, rfl, fun _ => rfl⟩

theorem lastResponse_answer (st : Status) (ws : List Word) (s : State) :
    lastResponse (answer st ws s) = some (st.code :: ws) := by
  cases hc : s.ctx with
  | host => simp [lastResponse, hc, answer_eq_host]
  | cpu x =>
    rw [answer_eq_tell st ws s (by simp [hc])]
    simp [lastResponse, tell, heardOf, hc, responseOf]
  | handler =>
    rw [answer_eq_tell st ws s (by simp [hc])]
    simp [lastResponse, tell, heardOf, hc, responseOf]

/-- A command that ends without a fatal error has met none. -/
theorem fatal_eq_none_of_exec {i : Instr} {s t : State} (h : exec i s = .next t) (ht : t.fatal = none) :
    s.fatal = none := by
  cases hf : s.fatal with
  | none => rfl
  | some c =>
    rw [fatalAnswersEveryCommand i s c hf] at h
    cases h
    simp [hf] at ht

/-- Around a bus command of CPU x that is not fatal, CPU y's accesses meet the same, in whichever context. -/
theorem MeetAlike.of_exec {i : Instr} {x y : Cpu} {s t : State} (hi : requesterOf i = some x) (hy : y ≠ x)
    (h : exec i s = .next t) (ht : t.fatal = none) (c : Ctx) : MeetAlike y { s with ctx := c } { t with ctx := c } := by
  obtain ⟨hregions, hcfg, -⟩ := onlyTheseCommandsWrite i s t h
  have hlast : perCpu t.last y = perCpu s.last y := by
    rw [exec_of_requesterOf hi] at h
    cases h
    exact runNested_last_other hi hy s
  have hgood : s.fatal = none := fatal_eq_none_of_exec h ht
  exact ⟨hcfg, hregions, hlast, rfl, hgood, ht⟩

/-- Settles O32: the other tracker is neither read nor written, and of what the command does write, y's accesses see the
backing bytes alone. -/
theorem noCrossCpuContention : Obligations.NoCrossCpuContention := by
  intro i x y s t hi hy h
  refine ⟨?_, fun v => ?_, fun ht c j w priv addr data hj => ?_⟩
  · rw [exec_of_requesterOf hi] at h
    cases h
    exact runNested_last_other hi hy s
  · rw [exec_of_requesterOf hi] at h ⊢
    cases h
    exact congrArg Host.Outcome.next (runNested_withLast hi hy v s)
  · have hmeet := MeetAlike.of_exec hi hy h ht c
    have hreq : requesterOf j = some y := by rcases hj with rfl | rfl | rfl <;> rfl
    have haccess : AnsweredAlike y (SameBytes w addr s t) (nestedEffect j { s with ctx := c })
        (nestedEffect j { t with ctx := c }) := by
      rcases hj with rfl | rfl | rfl <;> exact .access hmeet _ w priv addr _
    obtain ⟨st, ws, ws', u, u', hbefore, hafter, hlast, hlen, hcost, hsame⟩ := AnsweredAlike.runNested hmeet haccess
    rw [exec_of_requesterOf hreq, exec_of_requesterOf hreq, hbefore, hafter]
    exact ⟨_, _, st.code :: ws, st.code :: ws', rfl, rfl, lastResponse_answer _ _ _, lastResponse_answer _ _ _,
      by simp [hlen], rfl, by simp [List.getLast?_cons, hcost], by simpa using hlast, fun hbytes => by rw [hsame hbytes]⟩

end Sys2Proof.Machine
